-- ==== Sys2Proof/Word.lean ====
section
/-! DEFINITION. The word types of the machine and their plainest arithmetic (spec/00 R1 to R7, spec/01 R17). -/

namespace Sys2Proof

/-- A byte of memory. -/
abbrev Byte := BitVec 8
/-- A scalar register, a counter or an MMIO register: 64 bits (01 R17). -/
abbrev Word := BitVec 64
/-- A vector register: 16 rows of 64 cells of 32 bits, row n cell c in bytes 256 n + 4 c onward, byte k in bits
`8k + 7` to `8k` (01, The vector hierarchy). -/
abbrev VReg := BitVec 32768
/-- A vector predicate: bit k governs row k div 64, cell k mod 64 (01 R24). -/
abbrev PReg := BitVec 1024

/-- A sparse table keyed by numbers: rising keys, no entry equal to the default of its key. -/
abbrev Tab (α : Type) := List (Nat × α)

/-- Bits `lo` to `lo + len - 1` of a natural number, as a bit vector. -/
def fld (w lo len : Nat) : BitVec len := BitVec.ofNat len (w / 2 ^ lo)

/-- Bits `lo` to `lo + len - 1` of a natural number, as a natural number. -/
def bitsAt (w lo len : Nat) : Nat := w / 2 ^ lo % 2 ^ len

/-- Two's complement value of the low `w` bits of `n`. -/
def signedOf (w n : Nat) : Int :=
  let m := n % 2 ^ w
  if 2 * m < 2 ^ w then (m : Int) else (m : Int) - (2 ^ w : Nat)

/-- An integer modulo `2^w`, as a natural number. -/
def wrapNat (w : Nat) (z : Int) : Nat := (z % ((2 ^ w : Nat) : Int)).toNat

end Sys2Proof
end

