-- ==== Sys2Proof/Config.lean ====
section
/-! DEFINITION. What one module fixes, and the free values: the opaque constants stand for what the spec leaves open, and
nothing in Lean can evaluate them (log 3, log 7, log 14). -/

namespace Sys2Proof

/-- A free value of `w` bits, one for each key `n`. The step applies it to a key that it never uses twice
(`State.fresh`). Every unpredictable value of the spec is one of these (log 3). -/
opaque Config.free (w n : Nat) : BitVec w

/-- The result code a transcendental unit offers for function `fn` of the fp32 value `x`: taken only where it lies
within the bound of spec/03 R102 (log 7). -/
opaque Config.transc (fn : Nat) (x : Nat) : BitVec 32

/-- The SHA3-256 digest of a string of bytes (23 R392, 24 R405 to R407): opaque (log 14). -/
opaque Config.sha3 (bytes : List Byte) : BitVec 256

/-- Whether an ML-DSA-65 signature over a digest verifies under a public key (24 R405): opaque (log 14). -/
opaque Config.verify (key : List Byte) (digest : BitVec 256) (sig : List Byte) : Bool

/-- The digest of the vendor's key that the boot ROM holds (24 R405): opaque (log 14). -/
opaque Config.romKeyDigest : BitVec 256

/-- The identity key's ML-DSA-65 signature over a digest, 3,309 bytes (24 R407): opaque (log 14). -/
opaque Config.sign (digest : BitVec 256) : BitVec 26472

/-- The module's X.509 identity certificate (24 R407): opaque (log 14). -/
opaque Config.certificate : List Byte

/-- The 64 KiB page of HBM4E where the firmware keeps the offline list (23 R395): the spec does not state it (log 40). -/
opaque Config.offPage : BitVec 20

/-- The 4 KiB page of HBM4E where the firmware places the event ring, and its size beyond 2^8 entries (22 R384, R386): the spec does not
state them (log 40). -/
opaque Config.ringPage : BitVec 24
opaque Config.ringLog : Fin 9

/-- The sector cipher of the memory controllers: the key stream byte for a key, a physical address and a byte (22 R382): opaque
(log 14). -/
opaque Config.cipherByte (key : BitVec 512) (addr : Nat) : Byte

/-- The cache set of a 64-byte line, by its number: the spec fixes it by the physical address and does not state it (02 R47, R50,
log 18). -/
opaque Config.lineSet (line : Nat) : Nat

/-- Whether an access that may use either the cached translation of a page or the one a walk finds now uses the cached one, by the key of the
step, the context and the page (20 R352): a free value (log 92). -/
opaque Config.seesOld (n ctx page : Nat) : Bool

/-- The place where dispatch keeps its copy of a launch's argument block, in units of 128 bytes of HBM4E, by grid: the spec does not state it
(19 R327, log 94). -/
opaque Config.argsPlace (id : Nat) : BitVec 32

namespace Config

/-- First address of the CIM storage window (02 R46, 04 R107). -/
def cimBase : Nat := 0x0A0000000000
/-- First address of the CIM scale sidecar window (02 R46, 04 R107). -/
def cimsBase : Nat := 0x0A0040000000
/-- First address of the control-die scratchpad windows (02 R46). -/
def spadBase : Nat := 0x0A0100000000
/-- First address of the grotto scratchpad windows (02 R46). -/
def gspadBase : Nat := 0x0A0110000000
/-- First address of the MMIO range (02 R46). -/
def mmioBase : Nat := 0x0E0000000000

end Config

end Sys2Proof
end

