-- ==== Sys2Proof/Machine/Formats.lean ====
section
/-! DEFINITION. The 43 number formats (spec/03 R77 to R85): format codes, decoding, rounding to a format's grid and the one
conversion procedure. -/

namespace Sys2Proof.Machine

/-! ## Format codes (03 R77) -/

/-- A format code that R77 assigns. -/
def fmtAssigned (f : Nat) : Bool :=
  decide (f ≤ 0x0E) || (decide (0x21 ≤ f) && decide (f ≤ 0x3F) && decide (f % 8 ≠ 0))

/-- A P3109 code: 0x21 to 0x3F with a precision in bits [2:0]. -/
def fmtP3109 (f : Nat) : Bool := decide (0x21 ≤ f) && decide (f ≤ 0x3F) && decide (f % 8 ≠ 0)

/-- The extended variant of a P3109 format, which has infinity codes: bit [3]. -/
def fmtExtended (f : Nat) : Bool := decide (f / 8 % 2 = 1)

/-- The unsigned variant of a P3109 format: bit [4]. -/
def fmtUnsigned (f : Nat) : Bool := decide (f / 16 % 2 = 1)

/-- Width of a code in bits (03 R77). -/
def fmtWidth (f : Nat) : Nat :=
  match f with
  | 0x00 => 32 | 0x01 => 16 | 0x02 => 16 | 0x03 => 32 | 0x06 => 4 | 0x07 => 4
  | 0x0A => 6 | 0x0B => 6 | 0x0C => 4 | _ => 8

/-- Register width of an element (07 R180): 32, 16 or 8. -/
def fmtRegWidth (f : Nat) : Nat :=
  match f with
  | 0x00 => 32 | 0x03 => 32 | 0x01 => 16 | 0x02 => 16 | _ => 8

/-- The wide floating-point formats fp32, bf16 and fp16: class W of 07 R181. -/
def fmtWide (f : Nat) : Bool := decide (f ≤ 2)

/-- Class N of 07 R181: the narrow floating-point formats but e8m0. -/
def fmtNarrowFloat (f : Nat) : Bool := (decide (0x08 ≤ f) && decide (f ≤ 0x0C)) || fmtP3109 f

/-- Class I of 07 R181: the integer formats and mxint8. -/
def fmtInteger (f : Nat) : Bool := (decide (0x03 ≤ f) && decide (f ≤ 0x07)) || decide (f = 0x0E)

/-- The exact class of VBDOT (03 R93): int8, uint8, int4, uint4, mxint8, e2m1, e2m3 and e3m2. -/
def fmtExactClass (f : Nat) : Bool :=
  (decide (0x04 ≤ f) && decide (f ≤ 0x07)) || decide (f = 0x0E) || (decide (0x0A ≤ f) && decide (f ≤ 0x0C))

/-- The layout of a floating-point format: sign bit, exponent width, trailing width, bias (03 R77). -/
structure FloatFmt where
  signed : Bool
  ew : Nat
  t : Nat
  bias : Int
  deriving DecidableEq, Repr

/-- The layout of format `f`, none for the integer formats, mxint8 and e8m0. -/
def floatFmt (f : Nat) : Option FloatFmt :=
  match f with
  | 0x00 => some ⟨true, 8, 23, 127⟩
  | 0x01 => some ⟨true, 8, 7, 127⟩
  | 0x02 => some ⟨true, 5, 10, 15⟩
  | 0x08 => some ⟨true, 4, 3, 7⟩
  | 0x09 => some ⟨true, 5, 2, 15⟩
  | 0x0A => some ⟨true, 2, 3, 1⟩
  | 0x0B => some ⟨true, 3, 2, 3⟩
  | 0x0C => some ⟨true, 2, 1, 1⟩
  | _ =>
    if fmtP3109 f then
      let p := f % 8
      if fmtUnsigned f then some ⟨false, 9 - p, p - 1, ((2 ^ (8 - p) : Nat) : Int)⟩
      else some ⟨true, 8 - p, p - 1, ((2 ^ (7 - p) : Nat) : Int)⟩
    else none

/-- Width, signedness and scale exponent of an integer format or mxint8 (03 R77, R80). -/
def intFmt (f : Nat) : Option (Nat × Bool × Int) :=
  match f with
  | 0x03 => some (32, true, 0)
  | 0x04 => some (8, true, 0)
  | 0x05 => some (8, false, 0)
  | 0x06 => some (4, true, 0)
  | 0x07 => some (4, false, 0)
  | 0x0E => some (8, true, -6)
  | _ => none

/-! ## Values -/

/-- A decoded value: NaN, an infinity, or (−1)^neg × m × 2^e with signed zeros. -/
inductive Val where
  | nan
  | inf (neg : Bool)
  | fin (neg : Bool) (m : Nat) (e : Int)
  deriving DecidableEq, Repr

/-- The sticky flags of VFLAGS (03 R87), bit 0 INVALID to bit 4 ALIGN_INEXACT. -/
abbrev Flags := BitVec 5

namespace Flags
def invalid : Flags := 1#5
def overflow : Flags := 2#5
def inexact : Flags := 4#5
def range : Flags := 8#5
def alignInexact : Flags := 16#5
end Flags

/-- The value of an integer `z` times 2^e. -/
def Val.ofInt (z : Int) (e : Int) : Val := .fin (decide (z < 0)) z.natAbs e

/-- An integer zero has no sign, so every integer code of value zero decodes as +0. -/
def Val.isZero : Val → Bool
  | .fin _ m _ => decide (m = 0)
  | _ => false

def Val.isNan : Val → Bool
  | .nan => true
  | _ => false

/-- Sign of a value, false for NaN. -/
def Val.neg? : Val → Bool
  | .nan => false
  | .inf n => n
  | .fin n _ _ => n

/-! ## Largest finite values (03 R77, R81) -/

/-- The code of the largest finite magnitude of a floating-point format, sign bit clear. -/
def maxCode (f : Nat) : Nat :=
  match f with
  | 0x00 => 0x7F7FFFFF
  | 0x01 => 0x7F7F
  | 0x02 => 0x7BFF
  | 0x08 => 0x7E
  | 0x09 => 0x7B
  | 0x0A => 0x1F
  | 0x0B => 0x1F
  | 0x0C => 0x7
  | 0x0D => 0xFE
  | _ =>
    if fmtUnsigned f then (if fmtExtended f then 0xFD else 0xFE)
    else (if fmtExtended f then 0x7E else 0x7F)

/-- DecodeFloat of R79 on a code with no special meaning. -/
def decodeFloat (x : FloatFmt) (code : Nat) : Val :=
  let s := x.signed && decide (code / 2 ^ (x.ew + x.t) % 2 = 1)
  let e := bitsAt code x.t x.ew
  let m := bitsAt code 0 x.t
  if e = 0 then .fin s m (1 - x.bias - x.t)
  else .fin s (2 ^ x.t + m) ((e : Int) - x.bias - x.t)

/-- What R77 lists as special in a code: NaN, or an infinity with its sign. -/
inductive Special where
  | none | nan | inf (neg : Bool)
  deriving DecidableEq, Repr

/-- The special codes of a floating-point format (03 R77). -/
def specialOf (f code : Nat) : Special :=
  match f with
  | 0x00 => if bitsAt code 23 8 = 255 then
      (if bitsAt code 0 23 = 0 then .inf (decide (code / 2 ^ 31 % 2 = 1)) else .nan) else .none
  | 0x01 => if bitsAt code 7 8 = 255 then
      (if bitsAt code 0 7 = 0 then .inf (decide (code / 2 ^ 15 % 2 = 1)) else .nan) else .none
  | 0x02 => if bitsAt code 10 5 = 31 then
      (if bitsAt code 0 10 = 0 then .inf (decide (code / 2 ^ 15 % 2 = 1)) else .nan) else .none
  | 0x08 => if bitsAt code 0 7 = 0x7F then .nan else .none
  | 0x09 =>
    if bitsAt code 0 7 = 0x7C then .inf (decide (code / 128 % 2 = 1))
    else if 0x7D ≤ bitsAt code 0 7 then .nan else .none
  | 0x0A => .none
  | 0x0B => .none
  | 0x0C => .none
  | _ =>
    if fmtP3109 f then
      let c := code % 256
      if fmtUnsigned f then
        if c = 0xFF then .nan else if fmtExtended f && decide (c = 0xFE) then .inf false else .none
      else
        if c = 0x80 then .nan
        else if fmtExtended f && decide (c = 0x7F) then .inf false
        else if fmtExtended f && decide (c = 0xFF) then .inf true
        else .none
    else .none

/-- Decode a code of format `f` (R79 to R81); bits above the code's width are ignored. -/
def decodeFmt (f code : Nat) : Val :=
  let code := code % 2 ^ fmtWidth f
  match floatFmt f with
  | some x =>
    match specialOf f code with
    | .nan => .nan
    | .inf n =>
      if fmtWide f then .inf n
      else match decodeFloat x (maxCode f) with
        | .fin _ m e => .fin n m e
        | v => v
    | .none => decodeFloat x code
  | none =>
    match intFmt f with
    | some (w, sg, e) => .ofInt (if sg then signedOf w code else (code : Int)) e
    | none => -- e8m0
      if code = 0xFF then .nan else .fin false 1 ((code : Int) - 127)

/-! ## Rounding (03 R82, R83) -/

/-- Rounding modes: to nearest with ties to even, or toward zero (R82). -/
inductive RMode where
  | rne | rtz
  deriving DecidableEq, Repr

/-- The multiple of 2^s nearest to m × 2^e (or next toward zero), as that multiple and whether it is exact. A tie goes to the multiple q with
q + par even. -/
def roundTie (par m : Nat) (e s : Int) (mode : RMode) : Nat × Bool :=
  if s ≤ e then (m * 2 ^ (e - s).toNat, true)
  else
    let k := (s - e).toNat
    let q := m / 2 ^ k
    let r := m % 2 ^ k
    let up := match mode with
      | .rtz => false
      | .rne => decide (2 ^ k < 2 * r) || (decide (2 * r = 2 ^ k) && decide ((q + par) % 2 = 1))
    (if up then q + 1 else q, decide (r = 0))

/-- A tie goes to the even multiple. -/
def roundAt (m : Nat) (e s : Int) (mode : RMode) : Nat × Bool := roundTie 0 m e s mode

/-- Exponent of the leading bit of m × 2^e, for m > 0. -/
def leadExp (m : Nat) (e : Int) : Int := (Nat.log2 m : Int) + e

/-- The exponent of the grid step of format `f` around m × 2^e: R83's RoundToGrid, with the subnormal grid below the smallest
normal and no bound above. -/
def gridStep (f : Nat) (m : Nat) (e : Int) : Int :=
  match floatFmt f with
  | some x =>
    let emin : Int := 1 - x.bias
    (if m = 0 ∨ leadExp m e < emin then emin else leadExp m e) - x.t
  | none => match intFmt f with
    | some (_, _, ie) => ie
    | none => 0

/-- What a format adds to a multiple of the grid step 2^s for its tie rule: with no trailing significand bit the codes of 1 × 2^s and of 2 × 2^s
are even and odd by the exponent alone (R85's rule for such a grid; log 8). -/
def tieParity (f : Nat) (s : Int) : Nat := match floatFmt f with
  | some x => if x.t = 0 then ((s + x.bias - 1) % 2).toNat else 0
  | none => 0

/-- Compare magnitudes m1 × 2^e1 < m2 × 2^e2. -/
def magLt (m1 : Nat) (e1 : Int) (m2 : Nat) (e2 : Int) : Bool :=
  if e1 ≤ e2 then decide (m1 < m2 * 2 ^ (e2 - e1).toNat)
  else decide (m1 * 2 ^ (e1 - e2).toNat < m2)

/-- The largest finite magnitude of `f` on the side of sign `neg`, as m × 2^e: MaxFinite and MinFinite of R83. -/
def limitOf (f : Nat) (neg : Bool) : Nat × Int :=
  match floatFmt f with
  | some x =>
    if neg && !x.signed then (0, 0)
    else match decodeFloat x (maxCode f) with
      | .fin _ m e => (m, e)
      | _ => (0, 0)
  | none => match intFmt f with
    | some (w, sg, e) =>
      if sg then (if neg then 2 ^ (w - 1) else 2 ^ (w - 1) - 1, e)
      else (if neg then 0 else 2 ^ w - 1, e)
    | none => (1, 127)

/-- Whether the format has a negative zero code (R80, R83). -/
def hasNegZero (f : Nat) : Bool := match floatFmt f with
  | some _ => !fmtP3109 f
  | none => false

/-- Encode of R83: the code of a value that lies on the grid of `f`. -/
def encodeFmt (f : Nat) (neg : Bool) (m : Nat) (e : Int) : Nat :=
  match floatFmt f with
  | some x =>
    let sbit := if neg && x.signed then 2 ^ (x.ew + x.t) else 0
    if m = 0 then (if neg && hasNegZero f then sbit else 0)
    else
      let p := leadExp m e
      let emin : Int := 1 - x.bias
      if p < emin then sbit + (roundAt m e (emin - x.t) .rtz).1
      else sbit + (p + x.bias).toNat * 2 ^ x.t + ((roundAt m e (p - x.t) .rtz).1 - 2 ^ x.t)
  | none => match intFmt f with
    | some (w, _, ie) =>
      let q := (roundAt m e ie .rtz).1
      wrapNat w (if neg then -(q : Int) else (q : Int))
    | none => 0

/-- SatToFormat of R83: the code of MaxFinite or MinFinite. -/
def satFmt (f : Nat) (neg : Bool) : Nat :=
  let (m, e) := limitOf f neg
  encodeFmt f neg m e

/-- CanonNaN of R83, none where the format has no NaN. -/
def canonNan (f : Nat) : Option Nat :=
  match f with
  | 0x00 => some 0x7FC00000
  | 0x01 => some 0x7FC0
  | 0x02 => some 0x7E00
  | 0x08 => some 0x7F
  | 0x09 => some 0x7F
  | 0x0D => some 0xFF
  | _ => if fmtP3109 f then some (if fmtUnsigned f then 0xFF else 0x80) else none

/-- The infinity code of a wide format. -/
def infCode (f : Nat) (neg : Bool) : Nat :=
  match f with
  | 0x00 => if neg then 0xFF800000 else 0x7F800000
  | 0x01 => if neg then 0xFF80 else 0x7F80
  | _ => if neg then 0xFC00 else 0x7C00

/-- Convert of R83: the code and the flags it sets. -/
def convert (v : Val) (f : Nat) (mode : RMode) : Nat × Flags :=
  match v with
  | .nan => match canonNan f with
    | some c => (c, 0)
    | none => (0, Flags.invalid)
  | .inf neg => if fmtWide f then (infCode f neg, 0) else (satFmt f neg, Flags.overflow)
  | .fin neg m e =>
    let s := gridStep f m e
    let (q, ex) := roundTie (tieParity f s) m e s mode
    let (lm, le) := limitOf f neg
    if magLt lm le q s then
      (if fmtWide f && decide (mode = .rne) then infCode f neg else satFmt f neg,
        Flags.overflow ||| Flags.inexact)
    else (encodeFmt f neg q s, if ex then 0 else Flags.inexact)

/-- Conversion to e8m0 (R85). -/
def toE8M0 (v : Val) (mode : RMode) : Nat × Flags :=
  match v with
  | .nan => (0xFF, 0)
  | .inf _ => (0xFE, Flags.overflow)
  | .fin neg m e =>
    let inv : Flags := if neg && decide (m ≠ 0) then Flags.invalid else 0
    if m = 0 then (0x00, inv ||| Flags.inexact)
    else
      let k := leadExp m e
      -- |x| in [2^k, 2^(k+1)): below, at or above 1.5 × 2^k
      let up : Bool := match mode with
        | .rtz => false
        | .rne =>
          if magLt 3 (k - 1) m e then true
          else if magLt m e 3 (k - 1) then false
          else decide ((k + 127) % 2 = 1)
      let r := if up then k + 1 else k
      if r < -127 then (0x00, inv ||| Flags.inexact)
      else if 127 < r then (0xFE, inv ||| Flags.overflow ||| Flags.inexact)
      else
        let exact := !(magLt m e 1 r) && !(magLt 1 r m e)
        ((r + 127).toNat, inv ||| (if exact then 0 else Flags.inexact))

/-- Conversion into any assigned format: e8m0 by R85, every other by R83. -/
def convTo (v : Val) (f : Nat) (mode : RMode) : Nat × Flags :=
  if f = 0x0D then toE8M0 v mode else convert v f mode

end Sys2Proof.Machine
end

