-- ==== Sys2Proof/Machine/Arith.lean ====
section
/-! DEFINITION. The arithmetic of spec/03: exact operations on decoded values (R86), the transcendentals (R102 to R104), the
ingress aligner and the periphery (R90 to R92), and the block-scaled dot product (R93). -/

namespace Sys2Proof.Machine

/-! ## Exact operations (03 R86) -/

/-- A value with the flags raised in forming it. -/
abbrev VF := Val × Flags

/-- An invalid form: NaN with INVALID. -/
def invalidVal : VF := (.nan, Flags.invalid)

/-- The sum, with the zero and infinity rules of R86. -/
def vAdd (x y : Val) : VF :=
  match x, y with
  | .nan, _ => (.nan, 0)
  | _, .nan => (.nan, 0)
  | .inf a, .inf b => if a = b then (.inf a, 0) else invalidVal
  | .inf a, _ => (.inf a, 0)
  | _, .inf b => (.inf b, 0)
  | .fin na ma ea, .fin nb mb eb =>
    let e := min ea eb
    let za : Int := (ma * 2 ^ (ea - e).toNat : Nat)
    let zb : Int := (mb * 2 ^ (eb - e).toNat : Nat)
    let z := (if na then -za else za) + (if nb then -zb else zb)
    if z = 0 then (.fin (na && nb && decide (ma = 0) && decide (mb = 0)) 0 e, 0)
    else (.fin (decide (z < 0)) z.natAbs e, 0)

/-- The value with its sign changed. -/
def vNeg : Val → Val
  | .nan => .nan
  | .inf n => .inf !n
  | .fin n m e => .fin (!n) m e

/-- The magnitude. -/
def vAbs : Val → Val
  | .nan => .nan
  | .inf _ => .inf false
  | .fin _ m e => .fin false m e

/-- The difference, formed as x + (−y). -/
def vSub (x y : Val) : VF := vAdd x (vNeg y)

/-- The product. -/
def vMul (x y : Val) : VF :=
  match x, y with
  | .nan, _ => (.nan, 0)
  | _, .nan => (.nan, 0)
  | .inf a, .inf b => (.inf (xor a b), 0)
  | .inf a, .fin b m _ => if m = 0 then invalidVal else (.inf (xor a b), 0)
  | .fin a m _, .inf b => if m = 0 then invalidVal else (.inf (xor a b), 0)
  | .fin a ma ea, .fin b mb eb => (.fin (xor a b) (ma * mb) (ea + eb), 0)

/-- The fused x × y + z. A NaN source gives NaN and no flag: for a NaN addend to 0 × ∞ too, where R86's line for a NaN source and its line for
0 × ∞, which sets INVALID, both apply (DESIGN CHOICE, log 96). -/
def vFma (x y z : Val) : VF :=
  if z.isNan then (.nan, 0)
  else
    let (p, f) := vMul x y
    if p.isNan then (p, f) else vAdd p z

/-- The quotient: exact where the significands divide, else correct far below any grid with a sticky last bit. -/
def vDiv (x y : Val) : VF :=
  match x, y with
  | .nan, _ => (.nan, 0)
  | _, .nan => (.nan, 0)
  | .inf _, .inf _ => invalidVal
  | .inf a, .fin b _ _ => (.inf (xor a b), 0)
  | .fin a _ _, .inf b => (.fin (xor a b) 0 0, 0)
  | .fin a ma ea, .fin b mb eb =>
    if mb = 0 then (if ma = 0 then invalidVal else (.inf (xor a b), 0))
    else
      let k := Nat.log2 mb + 80
      let n := ma * 2 ^ k
      let q := n / mb
      let st := if n % mb = 0 then 0 else 1
      (.fin (xor a b) (2 * q + st) (ea - eb - k - 1), 0)

/-- Integer square root by bits, `fuel` bits deep. -/
def isqrtAux (n : Nat) : Nat → Nat → Nat
  | 0, r => r
  | k + 1, r =>
    let c := r + 2 ^ k
    isqrtAux n k (if c * c ≤ n then c else r)

/-- Floor of the square root. -/
def isqrt (n : Nat) : Nat := isqrtAux n (Nat.log2 n / 2 + 1) 0

/-- The square root, with a sticky last bit (03 R86, 06 R165, 07 R187). -/
def vSqrt (x : Val) : VF :=
  match x with
  | .nan => (.nan, 0)
  | .inf n => if n then invalidVal else (.inf false, 0)
  | .fin n m e =>
    if m = 0 then (.fin n 0 e, 0)
    else if n then invalidVal
    else
      -- an even exponent and at least 60 result bits
      let k : Nat := 120 + (if (e % 2 = 0) then 0 else 1)
      let m' := m * 2 ^ k
      let r := isqrt m'
      let st := if r * r = m' then 0 else 1
      (.fin false (2 * r + st) ((e - k) / 2 - 1), 0)

/-- x < y for values that are not NaN; +0 equals −0. -/
def vLt (x y : Val) : Bool :=
  match x, y with
  | .nan, _ => false
  | _, .nan => false
  | .inf a, .inf b => a && !b
  | .inf a, .fin _ _ _ => a
  | .fin _ _ _, .inf b => !b
  | .fin na ma ea, .fin nb mb eb =>
    if ma = 0 ∧ mb = 0 then false
    else if ma = 0 then !nb
    else if mb = 0 then na
    else if na && !nb then true
    else if !na && nb then false
    else if na then magLt mb eb ma ea
    else magLt ma ea mb eb

/-- Equality of values; +0 equals −0, NaN equals nothing. -/
def vEq (x y : Val) : Bool := !x.isNan && !y.isNan && !(vLt x y) && !(vLt y x)

/-- The lesser source (06 R165, 07 R186): NaN if either is NaN, −0 below +0. -/
def vMin (x y : Val) : VF :=
  if x.isNan || y.isNan then (.nan, 0)
  else if x.isZero && y.isZero then ((if x.neg? then x else y), 0)
  else ((if vLt y x then y else x), 0)

/-- The greater source: NaN if either is NaN, +0 above −0. -/
def vMax (x y : Val) : VF :=
  if x.isNan || y.isNan then (.nan, 0)
  else if x.isZero && y.isZero then ((if x.neg? then y else x), 0)
  else ((if vLt x y then y else x), 0)

/-- The condition codes of FCMP and VCMP (06 R166). -/
def fCond (cc : Nat) (x y : Val) : Bool :=
  match cc with
  | 0 => vEq x y
  | 1 => !(vEq x y)
  | 2 => vLt x y
  | 3 => vLt y x || vEq x y
  | 4 => x.isNan || y.isNan
  | 5 => !x.isNan && !y.isNan
  | 6 => vLt x y || vEq x y
  | _ => vLt y x

/-- Deliver a result through Convert, with the flags of both (R86). -/
def deliver (r : VF) (f : Nat) (mode : RMode) : Nat × Flags :=
  let (c, fl) := convTo r.1 f mode
  (c, fl ||| r.2)

/-! ## Transcendentals (03 R102 to R104, 07 R194)

The true value is formed here in fixed point with 512 fraction bits, closer than its distance from any number the bound is compared with. The value delivered is the
unit's own (`Config.transc`) where that lies within 2 ulp, and the nearest fp32 value otherwise (log 7). -/

/-- Fraction bits of the fixed-point forms. -/
def fpBits : Nat := 512

/-- One in fixed point. -/
def fpOne : Int := ((2 ^ fpBits : Nat) : Int)

/-- π × 2^512. -/
def fpPi : Int :=
  0x3243f6a8885a308d313198a2e03707344a4093822299f31d0082efa98ec4e6c89452821e638d01377be5466cf34e90c6cc0ac29b7c97c50dd3f84d5b5b5470917

/-- ln 2 × 2^512. -/
def fpLn2 : Int :=
  0xb17217f7d1cf79abc9e3b39803f2f6af40f343267298b62d8a0d175b8baafa2be7b876206debac98559552fb4afa1b10ed2eae35c138214427573b291169b825

/-- Fixed-point product. -/
def fpMul (a b : Int) : Int := a * b / fpOne

/-- m × 2^e in fixed point. -/
def fpOf (neg : Bool) (m : Nat) (e : Int) : Int :=
  let s := e + fpBits
  let a : Int := if 0 ≤ s then ((m * 2 ^ s.toNat : Nat) : Int) else ((m / 2 ^ (-s).toNat : Nat) : Int)
  if neg then -a else a

/-- A power series Σ term, where the next term is the last × x / (the k-th divisor). -/
def fpSeries (x : Int) (div : Nat → Int) : Nat → Nat → Int → Int → Int
  | 0, _, _, acc => acc
  | n + 1, k, term, acc =>
    let t := fpMul term x / div k
    fpSeries x div n (k + 1) t (acc + t)

/-- e^r for |r| ≤ 1. -/
def fpExpSmall (r : Int) : Int := fpSeries r (fun k => (k : Int)) 90 1 fpOne fpOne

/-- e^x as a value: x = k ln 2 + r, e^x = e^r 2^k. -/
def expVal (x : Int) : Val :=
  let k := (2 * x + fpLn2) / (2 * fpLn2)
  let r := x - k * fpLn2
  .fin false (2 * (fpExpSmall r).toNat + 1) (k - fpBits - 1)

/-- ln of the value m × 2^e, m > 0, in fixed point: 2 artanh((y−1)/(y+1)) + k ln 2 with y in [2/3, 4/3). -/
def lnFix (m : Nat) (e : Int) : Int :=
  let p := leadExp m e
  let y0 := fpOf false m (e - p)          -- in [1, 2)
  let big := decide (4 * fpOne ≤ 3 * y0)
  let y := if big then y0 / 2 else y0
  let k : Int := if big then p + 1 else p
  let z := (y - fpOne) * fpOne / (y + fpOne)
  let z2 := fpMul z z
  let rec go : Nat → Nat → Int → Int → Int
    | 0, _, _, acc => acc
    | n + 1, j, pw, acc =>
      let pw := fpMul pw z2
      go n (j + 2) pw (acc + pw / ((j : Nat) : Int))
  2 * go 130 3 z z + k * fpLn2

/-- sin r for |r| ≤ 1. -/
def fpSinSmall (r : Int) : Int :=
  fpSeries (fpMul r r) (fun k => -(((2 * k) * (2 * k + 1) : Nat) : Int)) 45 1 r r

/-- cos r for |r| ≤ 1. -/
def fpCosSmall (r : Int) : Int :=
  fpSeries (fpMul r r) (fun k => -(((2 * k - 1) * (2 * k) : Nat) : Int)) 45 1 fpOne fpOne

/-- sin (x + q π/2) in fixed point, with the argument reduced to |r| ≤ π/4. -/
def fpSinQ (x : Int) (q : Int) : Int :=
  let k := (4 * x + fpPi) / (2 * fpPi)
  let r := x - k * fpPi / 2
  match ((k + q) % 4).toNat with
  | 0 => fpSinSmall r
  | 1 => fpCosSmall r
  | 2 => -(fpSinSmall r)
  | _ => -(fpCosSmall r)

/-- A fixed-point number as a value, sticky. -/
def fpVal (z : Int) : Val := .fin (decide (z < 0)) (2 * z.natAbs + 1) (-(fpBits : Int) - 1)

/-- The functions of the transcendental unit, in opcode order (05 R150). -/
inductive TFn where
  | exp | log | sin | cos | tanh | rsqrt | rcp | sigm
  deriving DecidableEq, Repr

def TFn.code : TFn → Nat
  | .exp => 0 | .log => 1 | .sin => 2 | .cos => 3 | .tanh => 4 | .rsqrt => 5 | .rcp => 6 | .sigm => 7

/-- What a function gives for an argument: an exact result with its flags, or a true value to approximate. -/
inductive TRes where
  | exact (v : Val) (fl : Flags)
  | approx (v : Val)
  deriving DecidableEq, Repr

/-- Clamp an argument whose function has long since over- or underflowed fp32. -/
def clampArg (neg : Bool) (m : Nat) (e : Int) : Int :=
  if 9 < leadExp m e then (if neg then -1024 * fpOne else 1024 * fpOne) else fpOf neg m e

/-- The true value of a function at an argument (07 R194), poles, limits and exact results included. -/
def trueVal (fn : TFn) (x : Val) : TRes :=
  match fn, x with
  | _, .nan => .exact .nan 0
  | .exp, .inf n => .exact (if n then .fin false 0 0 else .inf false) 0
  | .exp, .fin n m e =>
    if m = 0 then .exact (.fin false 1 0) 0 else .approx (expVal (clampArg n m e))
  | .log, .inf n => if n then .exact .nan Flags.invalid else .exact (.inf false) 0
  | .log, .fin n m e =>
    if m = 0 then .exact (.inf true) 0
    else if n then .exact .nan Flags.invalid
    else if m = 2 ^ Nat.log2 m ∧ leadExp m e = 0 then .exact (.fin false 0 0) 0
    else .approx (fpVal (lnFix m e))
  | .sin, .inf _ => .exact .nan Flags.range
  | .sin, .fin n m e =>
    if m = 0 then .exact (.fin n 0 0) 0
    else if magLt 1 20 m e then .exact .nan Flags.range
    else .approx (fpVal (fpSinQ (fpOf n m e) 0))
  | .cos, .inf _ => .exact .nan Flags.range
  | .cos, .fin n m e =>
    if m = 0 then .exact (.fin false 1 0) 0
    else if magLt 1 20 m e then .exact .nan Flags.range
    else .approx (fpVal (fpSinQ (fpOf n m e) 1))
  | .tanh, .inf n => .exact (.fin n 1 0) 0
  | .tanh, .fin n m e =>
    if m = 0 then .approx (.fin n 0 0)
    else
      -- tanh |x| = (1 − q) / (1 + q), q = e^(−2|x|)
      let a := 2 * (clampArg false m e)
      let q : Int := match expVal (-a) with
        | .fin _ qm qe => fpOf false qm qe
        | _ => 0
      -- the true value is below 1
      let t := min ((fpOne - q) * fpOne / (fpOne + q)) (fpOne - 1)
      .approx (match fpVal t with
        | .fin _ tm te => .fin n tm te
        | v => v)
  | .rsqrt, .inf n => if n then .exact .nan Flags.invalid else .exact (.fin false 0 0) 0
  | .rsqrt, .fin n m e =>
    if m = 0 then .exact (.inf n) 0
    else if n then .exact .nan Flags.invalid
    else .approx (vDiv (.fin false (2 ^ 300) (-300)) (vSqrt (.fin n (m * 2 ^ 400) (e - 400))).1).1
  | .rcp, .inf n => .exact (.fin n 0 0) 0
  | .rcp, .fin n m e =>
    if m = 0 then .exact (.inf n) 0 else .approx (vDiv (.fin false 1 0) (.fin n m e)).1
  | .sigm, .inf n => .exact (if n then .fin false 0 0 else .fin false 1 0) 0
  | .sigm, .fin n m e =>
    -- e^x / (1 + e^x)
    let p : Val := if m = 0 then .fin false 1 0 else expVal (clampArg n m e)
    .approx (vDiv p (vAdd (.fin false 1 0) p).1).1

/-- Whether the fp32 code `c` is finite and within 2 ulp of the true value (R102). -/
def within2ulp (c : Nat) (y : Val) : Bool :=
  match y, decodeFmt 0 c with
  | .fin ny my ey, .fin nc mc ec =>
    match (vSub (.fin nc mc ec) (.fin ny my ey)).1 with
    | .fin _ d de =>
      let u : Int := if my = 0 ∨ leadExp my ey < -126 then -149 else leadExp my ey - 23
      !(magLt 2 u d de)
    | _ => false
  | _, _ => false

/-- The fp32 result of a transcendental and its flags (R102). -/
def transcendental (fn : TFn) (x : Val) (code : Nat) : VF :=
  match trueVal fn x with
  | .exact v fl => (v, fl)
  | .approx y =>
    match y with
    | .fin n m e =>
      if magLt (limitOf 0 false).1 (limitOf 0 false).2 m e then (.inf n, Flags.overflow ||| Flags.inexact)
      else
        let cand := (Config.transc fn.code code).toNat
        if within2ulp cand y then (decodeFmt 0 cand, Flags.inexact)
        else
          let (c, _) := convert y 0 .rne
          let c := if bitsAt c 23 8 = 255 then satFmt 0 n else c
          (decodeFmt 0 c, Flags.inexact)
    | v => (v, 0)

/-! ## MX blocks and the matrix path (03 R89 to R92) -/

/-- The target types of the ingress aligner: MXINT8 (mxint8 elements) or MXFP4 (e2m1 elements). -/
def mxElemFmt (fp4 : Bool) : Nat := if fp4 then 0x0C else 0x0E

/-- The magnitude-wise largest of a list of values. -/
def maxMag (xs : List Val) : Val :=
  xs.foldl (fun a x => if vLt a (vAbs x) then vAbs x else a) (.fin false 0 0)

/-- AlignBlock of R90: scale byte, element codes, and ALIGN_INEXACT or INVALID. -/
def alignBlock (fp4 : Bool) (xs : List Val) : Nat × List Nat × Flags :=
  let isInf : Val → Bool := fun v => match v with
    | .inf _ => true
    | _ => false
  if xs.any (fun v => v.isNan || isInf v) then
    (0xFF, xs.map fun _ => 0, if xs.any isInf then Flags.invalid else 0)
  else
    match maxMag xs with
    | .fin _ am ae =>
      if am = 0 then (0x00, xs.map fun _ => 0, 0)
      else
        let emax : Int := if fp4 then 2 else 0
        let ee : Int := max (-127) (min 127 (leadExp am ae - emax))
        let f := mxElemFmt fp4
        let conv : List (Nat × Flags) := xs.map fun v => match v with
          | .fin n m e => convert (.fin n m (e - ee)) f .rne
          | _ => (0, 0)
        ((ee + 127).toNat, conv.map (·.1),
          if conv.any (fun p => p.2 != 0#5) then Flags.alignInexact else 0)
    | _ => (0, xs.map fun _ => 0, 0)

/-- IntA and IntW of R91: the two's complement integer of an mxint8 code, or an e2m1 value doubled. -/
def mxInt (fp4 : Bool) (code : Nat) : Int :=
  if fp4 then
    match decodeFmt 0x0C code with
    | .fin n m e =>
      let z : Int := ((roundAt m e (-1) .rtz).1 : Nat)
      if n then -z else z
    | _ => 0
  else signedOf 8 code

/-- The unit exponent of a target type (R91). -/
def mxUnit (fp4 : Bool) : Int := if fp4 then -1 else -6

/-- The canonical NaN of fp32. -/
def nan32 : Nat := 0x7FC00000

/-- One block into an accumulator (R92): the new fp32 code and OVERFLOW. -/
def accBlock (acc : Nat) (sum : Int) (scaleA scaleW : Nat) (uA uW : Int) : Nat × Flags :=
  if scaleA = 0xFF ∨ scaleW = 0xFF ∨ (decodeFmt 0 acc).isNan then (nan32, 0)
  else
    let e := ((scaleA : Int) - 127) + ((scaleW : Int) - 127) + uA + uW
    let (v, _) := vAdd (decodeFmt 0 acc) (.fin (decide (sum < 0)) sum.natAbs e)
    match v with
    | .fin n m ve =>
      let s := gridStep 0 m ve
      let (q, _) := roundAt m ve s .rne
      let (lm, le) := limitOf 0 n
      if magLt lm le q s then (satFmt 0 n, Flags.overflow)
      else if q = 0 then (0, 0)
      else (encodeFmt 0 n q s, 0)
    | _ => (nan32, 0)

/-! ## Block-scaled dot product (03 R93, R94) -/

/-- Convert to fp32 and read the code back, with the flags. -/
def to32 (r : VF) : VF :=
  let (c, f) := deliver r 0 .rne
  (decodeFmt 0 c, f)

/-- One block's sum S: exact for the exact class, else rounded to fp32 at each step (R93). -/
def bdotBlock (exact : Bool) (ab : List (Val × Val)) : VF :=
  ab.foldl (fun (acc : VF) p =>
    let (pr, pf) := vMul p.1 p.2
    let (s, sf) := vAdd acc.1 pr
    if exact then (s, acc.2 ||| pf ||| sf)
    else
      let (c, cf) := to32 (s, sf)
      (c, acc.2 ||| pf ||| cf)) (.fin false 0 0, 0)

/-- The dot product of R93 over blocks, each with its pair of scales; then the tensor scales. -/
def bdot (exact : Bool) (blocks : List (List (Val × Val) × Val × Val)) (ta tb : Val) : VF :=
  let acc := blocks.foldl (fun (acc : VF) b =>
    let (s, sf) := bdotBlock exact b.1
    let (sc, scf) := vMul b.2.1 b.2.2
    let (p, pf) := vMul s sc
    let (p32, p32f) := to32 (p, pf)
    let (a, af) := vAdd acc.1 p32
    let (a32, a32f) := to32 (a, af)
    (a32, acc.2 ||| sf ||| scf ||| p32f ||| a32f)) ((.fin false 0 0, 0) : VF)
  let (t, tf) := vMul ta tb
  let (r, rf) := vMul acc.1 t
  let (r32, r32f) := to32 (r, rf)
  (r32, acc.2 ||| tf ||| r32f)

end Sys2Proof.Machine
end

