-- ==== Sys2Proof/Syntax.lean ====
section
/-! DEFINITION. The operations of the part: one constructor of `Instr` for each row of spec/opcode_table.json, 184 slot
instructions with their operand fields (spec/05 R143 to R147) and 114 events of the module (spec/95). -/

namespace Sys2Proof

/-- The eight slots of a bundle (05 R131), in the order faults name them (05 R134). -/
inductive Slot where
  | s | va | vb | mx | ld | st | cp | sy
  deriving DecidableEq, Repr

/-- The vector unit an instruction is placed in (05 R126). -/
inductive VUnit where
  | a | b
  deriving DecidableEq, Repr

/-! ## S slot formats (05 R143). `g` is the guard G and `lat` the latency field. -/

/-- Format SR. -/
structure SR where
  (g lat : BitVec 4) (d a b c : BitVec 7) (gs : BitVec 4)
  deriving DecidableEq, Repr
/-- Format SI. -/
structure SI where
  (g lat : BitVec 4) (d a : BitVec 7) (imm : BitVec 18)
  deriving DecidableEq, Repr
/-- Format SL. -/
structure SL where
  (g lat : BitVec 4) (d : BitVec 7) (imm : BitVec 25)
  deriving DecidableEq, Repr
/-- Format SC. -/
structure SC where
  (g lat gd : BitVec 4) (cc : BitVec 3) (a b : BitVec 7)
  deriving DecidableEq, Repr
/-- Format SCI. -/
structure SCI where
  (g lat gd : BitVec 4) (cc : BitVec 3) (a : BitVec 7) (imm : BitVec 18)
  deriving DecidableEq, Repr
/-- Format SG. -/
structure SG where
  (g lat gd ga gb : BitVec 4) (na nb : BitVec 1)
  deriving DecidableEq, Repr
/-- Format SF. -/
structure SF where
  (g lat : BitVec 4) (d a : BitVec 7) (src dst : BitVec 6) (rtz : BitVec 1)
  deriving DecidableEq, Repr
/-- Format SJ. -/
structure SJ where
  (g lat : BitVec 4) (d : BitVec 7) (off : BitVec 25)
  deriving DecidableEq, Repr
/-- Format SK. -/
structure SK where
  (g lat : BitVec 4) (len : BitVec 6) (nst : BitVec 4) (rot : BitVec 1)
  deriving DecidableEq, Repr
/-- Format SW. -/
structure SW where
  (g lat : BitVec 4) (sh : BitVec 3) (sel : BitVec 4) (a : BitVec 7) (imm : BitVec 18)
  deriving DecidableEq, Repr
/-- Format SS. -/
structure SS where
  (g lat : BitVec 4) (d a : BitVec 7) (sreg : BitVec 12)
  deriving DecidableEq, Repr
/-- Format SX. -/
structure SX where
  (g lat : BitVec 4) (code : BitVec 16)
  deriving DecidableEq, Repr

/-! ## Vector formats (05 R144). `u` is the slot, `p` the vector predicate. -/

/-- Format V3. -/
structure V3 where
  (u : VUnit) (g p lat : BitVec 4) (fmt : BitVec 6) (d a b c : BitVec 9)
  deriving DecidableEq, Repr
/-- Formats VI and VS (VS holds a scalar operand in `a`). -/
structure VI where
  (u : VUnit) (g p lat : BitVec 4) (fmt : BitVec 6) (d a b imm : BitVec 9)
  deriving DecidableEq, Repr
/-- Format VL. -/
structure VL where
  (u : VUnit) (g p lat : BitVec 4) (fmt : BitVec 6) (d a : BitVec 9) (imm : BitVec 18)
  deriving DecidableEq, Repr
/-- Format VP. -/
structure VP where
  (u : VUnit) (g p lat : BitVec 4) (fmt : BitVec 6) (pd pa pb : BitVec 4)
  deriving DecidableEq, Repr

/-! ## Engine formats (05 R145) -/

/-- The common fields of the MX and CP slots. -/
structure EC where
  (g : BitVec 4) (sw : BitVec 1) (z : BitVec 2) (tp tc0 tc1 tc2 : BitVec 7)
  deriving DecidableEq, Repr
/-- MMODE. -/
structure MModeOp where
  (e : EC) (s : BitVec 7) (mode wf : BitVec 1)
  deriving DecidableEq, Repr
/-- MWLD. -/
structure MWldOp where
  (e : EC) (th : BitVec 8) (s : BitVec 7)
  deriving DecidableEq, Repr
/-- MMAC. -/
structure MMacOp where
  (e : EC) (v : BitVec 9) (s : BitVec 7) (t : BitVec 1) (kb : BitVec 2) (mxin : BitVec 1)
  deriving DecidableEq, Repr
/-- MCLR. -/
structure MClrOp where
  (e : EC) (s : BitVec 7)
  deriving DecidableEq, Repr
/-- MDRN: `v` is the vector register when `dst` is 0, the scalar base when it is 1. -/
structure MDrnOp where
  (e : EC) (v : BitVec 9) (s : BitVec 7) (dst bf clr : BitVec 1)
  deriving DecidableEq, Repr
/-- MSTAT. -/
structure MStatOp where
  (e : EC) (s a : BitVec 7)
  deriving DecidableEq, Repr
/-- CPYL, CPYS, CPYC, CPFILL and LXFR. -/
structure CpOp where
  (e : EC) (a b c : BitVec 7) (ch : BitVec 3)
  deriving DecidableEq, Repr
/-- The bank commands. -/
structure BkOp where
  (e : EC) (a b c : BitVec 7)
  deriving DecidableEq, Repr

/-! ## Memory formats (05 R146) -/

/-- The address form of a scalar or vector access: global, local (index and shift) or ring (ring and slot). -/
inductive AForm where
  | glob (x : BitVec 7) (sc : BitVec 3)
  | loc (x : BitVec 7) (sc : BitVec 3)
  | ring (k j : BitVec 4)
  deriving DecidableEq, Repr

/-- A scalar or vector load or store. -/
structure MemOp where
  (g : BitVec 4) (d : BitVec 9) (a : BitVec 7) (f : AForm) (off : BitVec 27)
  deriving DecidableEq, Repr
/-- LDVG and STVX. -/
structure GatOp where
  (g : BitVec 4) (as : BitVec 2) (d : BitVec 9) (a : BitVec 7) (vx : BitVec 9) (esz : BitVec 2) (off : BitVec 26)
  deriving DecidableEq, Repr
/-- PROBE. -/
structure PrbOp where
  (g : BitVec 4) (as : BitVec 2) (d : BitVec 9) (a : BitVec 7) (lk : BitVec 2) (off : BitVec 27)
  deriving DecidableEq, Repr
/-- PWAIT, PREF, LLCLK and LLCUL. -/
structure LnOp where
  (g : BitVec 4) (as : BitVec 2) (d : BitVec 9) (a : BitVec 7) (off : BitVec 27)
  deriving DecidableEq, Repr
/-- The atomics. -/
structure AtmOp where
  (g : BitVec 4) (as : BitVec 2) (d : BitVec 9) (a x old : BitVec 7) (tk : BitVec 6) (fl scope : BitVec 2)
  (w : BitVec 1) (off : BitVec 12)
  deriving DecidableEq, Repr

/-! ## SY slot formats (05 R147) -/

/-- BARA, BARW and BARAW. -/
structure BarOp where
  (g : BitVec 4) (bar : BitVec 8) (hstg : BitVec 4) (htsk : BitVec 2)
  deriving DecidableEq, Repr
/-- BARCFG. -/
structure BarCfgOp where
  (g : BitVec 4) (bar : BitVec 8) (hstg : BitVec 4) (htsk : BitVec 2) (cnt : BitVec 6)
  deriving DecidableEq, Repr
/-- TOKW. -/
structure TokwOp where
  (g : BitVec 4) (t0 t1 t2 t3 : BitVec 7)
  deriving DecidableEq, Repr
/-- TOKST. -/
structure TokstOp where
  (g : BitVec 4) (tk : BitVec 6)
  deriving DecidableEq, Repr
/-- CTRW. -/
structure CtrwOp where
  (g : BitVec 4) (a b : BitVec 7) (imm : BitVec 24)
  deriving DecidableEq, Repr
/-- WPW. -/
structure WpwOp where
  (g : BitVec 4) (ch : BitVec 3) (a : BitVec 7) (imm : BitVec 28)
  deriving DecidableEq, Repr
/-- QMARK, YIELD and the four fences. -/
structure SyOp where
  (g : BitVec 4)
  deriving DecidableEq, Repr
/-- RINGCFG. -/
structure RingCfgOp where
  (g ring : BitVec 4) (a b : BitVec 7)
  deriving DecidableEq, Repr
/-- The two SIGNAL forms and DQADV. -/
structure SabOp where
  (g : BitVec 4) (a b : BitVec 7)
  deriving DecidableEq, Repr
/-- WAITY. -/
structure WaityOp where
  (g : BitVec 4) (a : BitVec 7)
  deriving DecidableEq, Repr

/-- One operation or event of the part for each row of the opcode table. Operands of an event name the place it happens
at (core, hearth, queue, entry of a list) or carry what arrives from outside the module (log 1, log 13). -/
inductive Instr where
  | add (f : SR)
  | sub (f : SR)
  | mul (f : SR)
  | mulh (f : SR)
  | mulhu (f : SR)
  | div (f : SR)
  | divu (f : SR)
  | rem (f : SR)
  | remu (f : SR)
  | and (f : SR)
  | or (f : SR)
  | xor (f : SR)
  | shl (f : SR)
  | shr (f : SR)
  | sar (f : SR)
  | min (f : SR)
  | minu (f : SR)
  | max (f : SR)
  | maxu (f : SR)
  | addi (f : SI)
  | andi (f : SI)
  | ori (f : SI)
  | xori (f : SI)
  | shli (f : SI)
  | shri (f : SI)
  | sari (f : SI)
  | movi (f : SL)
  | movhi (f : SL)
  | ext (f : SR)
  | extu (f : SR)
  | ins (f : SR)
  | clz (f : SR)
  | popc (f : SR)
  | cmp (f : SC)
  | cmpi (f : SCI)
  | gand (f : SG)
  | gor (f : SG)
  | gxor (f : SG)
  | sel (f : SR)
  | fadd (f : SR)
  | fsub (f : SR)
  | fmul (f : SR)
  | fma (f : SR)
  | fdiv (f : SR)
  | fsqrt (f : SR)
  | fmin (f : SR)
  | fmax (f : SR)
  | fcmp (f : SC)
  | fcvt (f : SF)
  | br (f : SJ)
  | call (f : SJ)
  | ret (f : SR)
  | kloop (f : SK)
  | shw (f : SW)
  | mfsr (f : SS)
  | mtsr (f : SS)
  | trap (f : SX)
  | tret (f : SX)
  | exit (f : SX)
  | nop
  | vadd (f : V3)
  | vsub (f : V3)
  | vmul (f : V3)
  | vfma (f : V3)
  | vfms (f : V3)
  | vdiv (f : V3)
  | vsqrt (f : V3)
  | vmin (f : V3)
  | vmax (f : V3)
  | vabs (f : V3)
  | vneg (f : V3)
  | vand (f : V3)
  | vor (f : V3)
  | vxor (f : V3)
  | vnot (f : V3)
  | vshl (f : V3)
  | vshr (f : V3)
  | vsar (f : V3)
  | vcvt (f : VI)
  | vqnt (f : V3)
  | vdqnt (f : V3)
  | vunpk (f : VI)
  | vpack (f : VI)
  | vbdot (f : V3)
  | vexp (f : V3)
  | vlog (f : V3)
  | vsin (f : V3)
  | vcos (f : V3)
  | vtanh (f : V3)
  | vrsqrt (f : V3)
  | vrcp (f : V3)
  | vsigm (f : V3)
  | vcmp (f : VI)
  | vsel (f : VI)
  | vrotr (f : VI)
  | vrotc (f : VI)
  | vbcr (f : VI)
  | vbcc (f : VI)
  | vredr (f : VI)
  | vredc (f : VI)
  | vshuf (f : VI)
  | vperm (f : VI)
  | vpatld (f : VI)
  | vpatsw (f : V3)
  | vctd (f : VI)
  | vctld (f : VI)
  | vtrn (f : V3)
  | vmov (f : V3)
  | vsplats (f : VI)
  | vsplati (f : VL)
  | vpand (f : VP)
  | vpor (f : VP)
  | vpxor (f : VP)
  | mlease (f : EC)
  | mrel (f : EC)
  | mmode (f : MModeOp)
  | mwld (f : MWldOp)
  | mmac (f : MMacOp)
  | mclr (f : MClrOp)
  | mdrn (f : MDrnOp)
  | mstat (f : MStatOp)
  | cpyl (f : CpOp)
  | cpys (f : CpOp)
  | cpyc (f : CpOp)
  | cpfill (f : CpOp)
  | lxfr (f : CpOp)
  | bkmac (f : BkOp)
  | bkkey (f : BkOp)
  | bkcmp (f : BkOp)
  | bkwr (f : BkOp)
  | bktt (f : BkOp)
  | bkrd (f : BkOp)
  | ldb (f : MemOp)
  | ldbu (f : MemOp)
  | ldh (f : MemOp)
  | ldhu (f : MemOp)
  | ldw (f : MemOp)
  | ldwu (f : MemOp)
  | ldd (f : MemOp)
  | ldv (f : MemOp)
  | ldvs (f : MemOp)
  | ldvg (f : GatOp)
  | probe (f : PrbOp)
  | pwait (f : LnOp)
  | pref (f : LnOp)
  | llclk (f : LnOp)
  | llcul (f : LnOp)
  | stb (f : MemOp)
  | sth (f : MemOp)
  | stw (f : MemOp)
  | std (f : MemOp)
  | stv (f : MemOp)
  | stvs (f : MemOp)
  | stvx (f : GatOp)
  | aadd (f : AtmOp)
  | aand (f : AtmOp)
  | aor (f : AtmOp)
  | axor (f : AtmOp)
  | amin (f : AtmOp)
  | aminu (f : AtmOp)
  | amax (f : AtmOp)
  | amaxu (f : AtmOp)
  | axch (f : AtmOp)
  | acas (f : AtmOp)
  | afadd (f : AtmOp)
  | bara (f : BarOp)
  | barw (f : BarOp)
  | baraw (f : BarOp)
  | barcfg (f : BarCfgOp)
  | tokw (f : TokwOp)
  | tokst (f : TokstOp)
  | ctrw (f : CtrwOp)
  | wpw (f : WpwOp)
  | qmark (f : SyOp)
  | fenceT (f : SyOp)
  | fenceG (f : SyOp)
  | fenceD (f : SyOp)
  | fenceS (f : SyOp)
  | ringcfg (f : RingCfgOp)
  | signalStore (f : SabOp)
  | signalAdd (f : SabOp)
  | dqadv (f : SabOp)
  | yield (f : SyOp)
  | waity (f : WaityOp)
  | queueEnable (q : Nat) (v : BitVec 64)
  | queueDisable (q : Nat) (v : BitVec 64)
  | qwrWrite (q : Nat) (v : BitVec 64)
  | qstatClear (q : Nat) (v : BitVec 64)
  | registerWrite (addr : Nat) (v : BitVec 64)
  | nextRecordValid (c : Nat)
  | slotDiscard (c : Nat)
  | slotPreempt (c : Nat)
  | invContext (v : BitVec 64)
  | invPage (v : BitVec 64)
  | invLargePage (v : BitVec 64)
  | invAll (v : BitVec 64)
  | ctxbaseWrite (v : BitVec 64)
  | migrate64m (v : BitVec 64)
  | migrate64k (v : BitVec 64)
  | keyLoad (v : BitVec 64)
  | keyDestroy (v : BitVec 64)
  | formatRegionEnable (r : Nat) (v : BitVec 64)
  | formatRegionDisable (r : Nat) (v : BitVec 64)
  | formatRegionFlush (r : Nat) (v : BitVec 64)
  | hallowWrite (h : Nat) (v : BitVec 64)
  | evrdWrite (v : BitVec 64)
  | featreqWrite (w : Nat) (v : BitVec 64)
  | mclatClear (k : Nat) (v : BitVec 64)
  | domainEnable (v : BitVec 64)
  | domainDisable (v : BitVec 64)
  | logClear (k : Nat) (v : BitVec 64)
  | remapEntryWrite (k : Nat) (v : BitVec 64)
  | dieMapOut (k : Nat) (v : BitVec 64)
  | trippedClear (v : BitVec 64)
  | segCopyStart (c : Nat)
  | segmentCopyComplete (c : Nat)
  | loadLand (c k : Nat)
  | loadPerform (c : Nat) (f : Bool) (j : Nat)
  | storePerform (c : Nat) (f : Bool) (j : Nat)
  | atomicPerform (c : Nat) (f : Bool)
  | atomicOldLand (c : Nat) (f : Bool) (k : Nat)
  | probeFillLand (c k : Nat)
  | translationMissAccept (c : Nat)
  | pageWalkComplete (c : Nat) (f : Bool) (q : Bool) (k : Nat)
  | barrierArrivalCount (c k : Nat)
  | barrierCompletion (c bar : Nat)
  | tokstComplete (c k : Nat)
  | linkTransferStamp (c k : Nat) (ok : Bool) (data : List (BitVec 8))
  | engineCommandComplete (mx : Bool) (c k : Nat)
  | hearthCommandEffect (h k : Nat)
  | mmacAccumulate (h k : Nat)
  | mmacPassComplete (h k : Nat)
  | mwldComplete (h k : Nat)
  | mdrnComplete (h k : Nat)
  | leaseGrant (h c : Nat)
  | leaseCountExpiry (h : Nat)
  | leaseIdleExpiry (h : Nat)
  | copyBytesLand (c k : Nat) (rd : Bool)
  | counterUpdate (k : Nat)
  | bankRowOpen (c k : Nat)
  | taskFinish (c : Nat)
  | contextCapture (c : Nat)
  | gangSwitch (c : Nat)
  | hearthZeroingComplete (h : Nat)
  | resultLand (c k : Nat)
  | vectorUnitFree (c : Nat) (u : VUnit)
  | deferredFaultTake (c : Nat)
  | hwerrDetect (c sub : Nat)
  | fFault (c cause sub : Nat) (addr : BitVec 64)
  | kloopPassBoundary (c : Nat)
  | ctrwRelease (c : Nat)
  | vpatldComplete (c k : Nat)
  | gridComplete (k : Nat)
  | waityResume (k : Nat)
  | launch (q : Nat)
  | waitall (q : Nat)
  | waitany (q : Nat)
  | waitRound (q : Nat)
  | signalPacket (q : Nat)
  | preloadComplete (c : Nat)
  | budgetExpiry (c : Nat)
  | invalidationComplete
  | migrationComplete
  | keyCommandComplete
  | flushComplete (r : Nat)
  | decodedWriteback (k : Nat)
  | refreshTick (k : Nat)
  | refpb (k bank : Nat)
  | refreshManagement (k bank : Nat)
  | dieTempSample (k : Nat) (t : BitVec 64)
  | scrubRow (k : Nat)
  | cimScrubRow (h half row : Nat)
  | frameBoundary (stamp : Nat)
  | frameLossTimeout
  | linkStateChange (l st : Nat)
  | tierPortDown (p : Nat)
  | hostMemAccess (wr : Bool) (addr len data : Nat)
  | hostReleased
  | pageReturnToHost (ctx va : Nat)
  | vacated
  | firmwareUpdate
  | attest
  | svnCommit
  | certRead
  | errorEvent (log cls sub loc : Nat)
  | errorJudgement (k : Nat)
  | mapOutComplete (k : Nat)
  | powerUp
  | hearthTrip (h : Nat)
  | allowanceStep (h : Nat)
  | heatCount (k : Nat)
  | heatHalving
  | i3cPrivateWrite (b : List (BitVec 8))
  | i3cRead (n : Nat)
  | dynamicAddressAssignment (a : BitVec 7)
  | linkHandshakeCrossed (c k n fmt : Nat)
  | hostPortDown
  | powerLoss (cut : Bool)
  deriving DecidableEq, Repr

end Sys2Proof
end

