-- ==== Sys2Proof/Machine/Checks.lean ====
section
/-! DEFINITION. The checks on a bundle's bits alone (spec/05 R134 to R148, R156; spec/06 to spec/09), which a core makes whatever
the guards hold, and the fields each instruction names. -/

namespace Sys2Proof.Machine
open Sys2Proof

/-- What the encoding checks may know beside the bits: the kind of core, whether the firmware context runs, and the launch shape
(NTASK of each stage of the lane; one stage for an ordinary grid). -/
structure EncCtx where
  grotto : Bool
  inF : Bool
  ntasks : List Nat
  deriving DecidableEq, Repr

/-! ## Operand fields (05 R137 to R139) -/

/-- A scalar source: s0 to s63 or sa1 to sa16 (R138). -/
def sSrcOk (f : BitVec 7) : Bool :=
  decide (f.toNat < 64) || (decide (65 ≤ f.toNat) && decide (f.toNat ≤ 80))

/-- A scalar destination: an s code (R138). -/
def sDstOk (f : BitVec 7) : Bool := decide (f.toNat < 64)

/-- A scalar register in a 9-bit operand field: bits [8:7] zero (R138). -/
def sSrc9Ok (f : BitVec 9) : Bool := decide (f.toNat < 128) && sSrcOk (f.setWidth 7)
def sDst9Ok (f : BitVec 9) : Bool := decide (f.toNat < 64)

/-- The level and index of a vector operand field (R137). -/
def vLevel (f : BitVec 9) : Nat := f.toNat / 128
def vIndex (f : BitVec 9) : Nat := f.toNat % 128

/-- A vector source (R137; on a grotto core v0 to v31, va1 to va16, vz and vix, R34). -/
def vSrcOk (x : EncCtx) (f : BitVec 9) : Bool :=
  match vLevel f with
  | 0 => decide (vIndex f < if x.grotto then 32 else 96)
  | 1 => !x.grotto && decide (vIndex f < 16)
  | 2 => decide (1 ≤ vIndex f) && decide (vIndex f ≤ 16)
  | _ => decide (vIndex f ≤ 1)

/-- A vector destination: a main or operand-file register, the age queue only, or vz (R19, R21, R137). -/
def vDstOk (x : EncCtx) (f : BitVec 9) : Bool :=
  match vLevel f with
  | 0 => decide (vIndex f < if x.grotto then 32 else 96)
  | 1 => !x.grotto && decide (vIndex f < 16)
  | 2 => decide (vIndex f = 0)
  | _ => decide (vIndex f = 0)

/-- A destination at level 0b00 or 0b01, as loads and MDRN require (09 R241, 08 R216). -/
def vRegDstOk (x : EncCtx) (f : BitVec 9) : Bool := vDstOk x f && decide (vLevel f ≤ 1)

/-- A vector predicate field; p8 to p15 are absent on a grotto core (R156). -/
def pOk (x : EncCtx) (p : BitVec 4) : Bool := !x.grotto || decide (p.toNat < 8)

/-- A token number; tk32 to tk63 are absent on a grotto core (R156). -/
def tkOk (x : EncCtx) (t : BitVec 6) : Bool := !x.grotto || decide (t.toNat < 32)

/-- A token field: valid, or wholly zero (R139). -/
def tkFieldOk (x : EncCtx) (f : BitVec 7) : Bool :=
  if 64 ≤ f.toNat then tkOk x (f.setWidth 6) else decide (f = 0)

/-- The token a token field names. -/
def tkName (f : BitVec 7) : Option Nat := if 64 ≤ f.toNat then some (f.toNat - 64) else none

/-! ## S slot (05 R141 to R143, 06 R157) -/

/-- SR with the fields it uses: D, A, B, C, GS (R157). The other fields must be zero, LAT at least the bound. -/
def srOk (bound : Nat) (d a b c gs : Bool) (f : SR) : Bool :=
  decide (bound ≤ f.lat.toNat)
  && (if d then sDstOk f.d else decide (f.d = 0)) && (if a then sSrcOk f.a else decide (f.a = 0))
  && (if b then sSrcOk f.b else decide (f.b = 0)) && (if c then sSrcOk f.c else decide (f.c = 0))
  && (gs || decide (f.gs = 0))

def siOk (f : SI) : Bool := decide (1 ≤ f.lat.toNat) && sDstOk f.d && sSrcOk f.a
/-- A shift immediate uses bits [5:0] (R140). -/
def siShiftOk (f : SI) : Bool := siOk f && decide (f.imm.toNat < 64)
def slOk (f : SL) : Bool := decide (1 ≤ f.lat.toNat) && sDstOk f.d
def scOk (bound : Nat) (f : SC) : Bool := decide (bound ≤ f.lat.toNat) && sSrcOk f.a && sSrcOk f.b
def sciOk (f : SCI) : Bool := decide (1 ≤ f.lat.toNat) && sSrcOk f.a
def sgOk (f : SG) : Bool := decide (1 ≤ f.lat.toNat)
def sfOk (f : SF) : Bool :=
  decide (4 ≤ f.lat.toNat) && sDstOk f.d && sSrcOk f.a && fmtAssigned f.src.toNat && fmtAssigned f.dst.toNat

/-- The system registers of 06 R176. -/
def sregKnown (n : Nat) : Bool :=
  decide (n ≤ 8) || (decide (0x10 ≤ n) && decide (n ≤ 0x19)) || decide (n = 0x20) || decide (n = 0x21)
    || decide (n = 0x28) || decide (n = 0x29)

/-- The system registers MTSR may write: LCOUNT, RRB, VFLAGS, THBASE and PROBECFG (06 R176). -/
def sregWritable (n : Nat) : Bool :=
  decide (n = 0) || decide (n = 1) || decide (n = 3) || decide (n = 4) || decide (n = 5)

/-- A system register that exists on this kind of core: HSTAT and THBASE do not on a grotto core (R34). -/
def sregHere (x : EncCtx) (n : Nat) : Bool := sregKnown n && !(x.grotto && (decide (n = 4) || decide (n = 8)))

/-! ## Vector slots (05 R144, R150; 07 R181 to R183) -/

def vUnitOk (x : EncCtx) (u : VUnit) : Bool := !x.inF && !(x.grotto && decide (u = .b))

/-- The classes of FMT (07 R181). -/
def fmtWNI (f : BitVec 6) : Bool := fmtWide f.toNat || fmtNarrowFloat f.toNat || fmtInteger f.toNat
def fmtW (f : BitVec 6) : Bool := fmtWide f.toNat
def fmtAny (f : BitVec 6) : Bool := fmtAssigned f.toNat
def fmt0 (f : BitVec 6) : Bool := decide (f = 0)
/-- The packed formats of VUNPK and VPACK. -/
def fmtPacked (f : BitVec 6) : Bool :=
  decide (f.toNat = 6) || decide (f.toNat = 7) || decide (f.toNat = 0x0C) || decide (f.toNat = 0x0A) || decide (f.toNat = 0x0B)

/-- V3 with its used operands and its FMT class. -/
def v3Ok (x : EncCtx) (bound : Nat) (a b c : Bool) (cls : BitVec 6 → Bool) (f : V3) : Bool :=
  vUnitOk x f.u && decide (bound ≤ f.lat.toNat) && pOk x f.p && cls f.fmt && vDstOk x f.d
  && (if a then vSrcOk x f.a else decide (f.a = 0)) && (if b then vSrcOk x f.b else decide (f.b = 0))
  && (if c then vSrcOk x f.c else decide (f.c = 0))

/-- VI with its used operands, its FMT class and the limits of IMM9. -/
def viOk (x : EncCtx) (bound : Nat) (b : Bool) (cls : BitVec 6 → Bool) (imm : Nat → Bool) (f : VI) : Bool :=
  vUnitOk x f.u && decide (bound ≤ f.lat.toNat) && pOk x f.p && cls f.fmt && vDstOk x f.d && vSrcOk x f.a
  && (if b then vSrcOk x f.b else decide (f.b = 0)) && imm f.imm.toNat

/-- Elements per row, E of R180. -/
def elemsPerRow (fmt : Nat) : Nat := 2048 / fmtRegWidth fmt

/-- Sub-elements per cell. -/
def subsPerCell (fmt : Nat) : Nat := 32 / fmtRegWidth fmt

/-- VCVT (07 R189): TO assigned, PART in its range, B zero when the destination is as wide or wider. -/
def vcvtOk (x : EncCtx) (f : VI) : Bool :=
  let dst := bitsAt f.imm.toNat 0 6
  let part := bitsAt f.imm.toNat 7 2
  let ks := subsPerCell f.fmt.toNat
  let kd := subsPerCell dst
  fmtAssigned dst && viOk x 6 (decide (ks < kd)) fmtAny
    (fun _ => if kd ≤ ks then decide (part < ks / kd) else decide (part < kd / ks)) f

/-- VQNT and VDQNT (07 R190): C holds BLK and PART. -/
def vqntOk (x : EncCtx) (f : V3) : Bool :=
  v3Ok x 6 true true false (fun m => fmtAny m && decide (m.toNat ≠ 0x0D)) { f with c := 0 }
  && decide (bitsAt f.c.toNat 0 3 ≤ 4) && decide (bitsAt f.c.toNat 3 2 < subsPerCell f.fmt.toNat)
  && decide (f.c.toNat < 32)

/-- VCTD (07 R205): PART below 4 / kd. -/
def vctdOk (x : EncCtx) (f : VI) : Bool :=
  viOk x 6 false fmtAny (fun i => decide (i < 16) && decide (i / 4 < 4 / subsPerCell f.fmt.toNat)) f

/-- The vector forms with no result and no bound: LAT zero, P naming p0 (R182). -/
def vNoResultOk (x : EncCtx) (f : VI) (imm : Nat → Bool) : Bool :=
  vUnitOk x f.u && decide (f.lat = 0) && decide (f.p = 0) && decide (f.fmt = 0) && decide (f.d = 0) && vSrcOk x f.a
  && decide (f.b = 0) && imm f.imm.toNat

/-- VSPLATI (07 R207): the bits of IMM18 the format allows. -/
def vsplatiOk (x : EncCtx) (f : VL) : Bool :=
  vUnitOk x f.u && decide (6 ≤ f.lat.toNat) && pOk x f.p && fmtAny f.fmt && vDstOk x f.d && decide (f.a = 0)
  && (match f.fmt.toNat with
      | 0x03 => true
      | 0x00 => decide (f.imm.toNat < 2 ^ 16)
      | m => decide (f.imm.toNat < 2 ^ fmtWidth m))

def vpOk (x : EncCtx) (f : VP) : Bool :=
  vUnitOk x f.u && decide (2 ≤ f.lat.toNat) && decide (f.fmt = 0) && pOk x f.p && pOk x f.pd && pOk x f.pa && pOk x f.pb

/-! ## Engine slots (05 R145, 08 R208, R209) -/

/-- The token fields of a command. -/
def ecTokensOk (x : EncCtx) (e : EC) : Bool :=
  tkFieldOk x e.tp && tkFieldOk x e.tc0 && tkFieldOk x e.tc1 && tkFieldOk x e.tc2

def ecNoShape (e : EC) : Bool := decide (e.sw = 0) && decide (e.z = 0)

/-- MLEASE and MREL: SW, Z and all token fields zero. -/
def ecBareOk (e : EC) : Bool :=
  ecNoShape e && decide (e.tp = 0) && decide (e.tc0 = 0) && decide (e.tc1 = 0) && decide (e.tc2 = 0)

/-- The MX slot is absent on grotto cores and is not the firmware context's (R34, R43). -/
def mxHere (x : EncCtx) : Bool := !x.grotto && !x.inF

def mdrnOk (x : EncCtx) (f : MDrnOp) : Bool :=
  mxHere x && ecTokensOk x f.e && sSrcOk f.s
  && (if f.dst = 0 then ecNoShape f.e && decide (64 ≤ f.e.tp.toNat) && vRegDstOk x f.v else sSrc9Ok f.v)

/-- MMAC: KB bounds for MXIN = 1 (07 R215); those of MXIN = 0 need the selector. -/
def mmacOk (x : EncCtx) (f : MMacOp) : Bool :=
  mxHere x && ecTokensOk x f.e && ecNoShape f.e && vSrcOk x f.v && sSrcOk f.s
  && (decide (f.mxin = 0) || (if f.t = 1 then decide (f.kb = 0) else decide (f.kb.toNat ≤ 1)))

/-- A copy command: absent on grotto cores (R156). -/
def cpOk (x : EncCtx) (f : CpOp) : Bool :=
  !x.grotto && !x.inF && ecTokensOk x f.e && sSrcOk f.a && sSrcOk f.b && sSrcOk f.c

/-- A bank command: C names a register other than s0 (08 R230), SW and Z zero. -/
def bkOk (x : EncCtx) (f : BkOp) : Bool :=
  !x.inF && ecTokensOk x f.e && ecNoShape f.e && sSrcOk f.a && sSrcOk f.b && sSrcOk f.c && decide (f.c ≠ 0)

/-! ## Memory slots (05 R146, 09 R236, R241, R250) -/

def aformOk (x : EncCtx) (f : AForm) : Bool := match f with
  | .glob i _ => sSrcOk i
  | .loc i _ => sSrcOk i && !x.inF
  | .ring _ _ => !x.grotto && !x.inF

def aformFlat (f : AForm) : Bool := match f with
  | .ring _ _ => false
  | _ => true

def ldScalarOk (x : EncCtx) (f : MemOp) : Bool := sDst9Ok f.d && sSrcOk f.a && aformOk x f.f
def ldVecOk (x : EncCtx) (f : MemOp) : Bool := !x.inF && vRegDstOk x f.d && sSrcOk f.a && aformOk x f.f
def stScalarOk (x : EncCtx) (f : MemOp) : Bool := sSrc9Ok f.d && sSrcOk f.a && aformOk x f.f
def stVecOk (x : EncCtx) (f : MemOp) : Bool := !x.inF && vSrcOk x f.d && sSrcOk f.a && aformOk x f.f
def gatherOk (x : EncCtx) (f : GatOp) : Bool :=
  !x.inF && decide (f.as.toNat ≤ 1) && sSrcOk f.a && vSrcOk x f.vx
def atomicOk (x : EncCtx) (cas : Bool) (f : AtmOp) : Bool :=
  !x.inF && decide (f.as.toNat ≤ 1) && sSrc9Ok f.d && sSrcOk f.a && sSrcOk f.old && tkOk x f.tk
  && decide (f.scope.toNat ≤ 2) && (if cas then sSrcOk f.x else decide (f.x = 0))

/-! ## SY slot (05 R147, 09 R255 to R267) -/

/-- HSTG and HTSK against the launch shape (09 R256; HSTG is zero in an ordinary grid, R147). -/
def homeOk (x : EncCtx) (hstg : BitVec 4) (htsk : BitVec 2) : Bool :=
  match x.ntasks[hstg.toNat]? with
  | some n => decide (htsk.toNat < n)
  | none => false

/-- The encoding checks of one instruction (R134, R136): false where the device raises ILLEGAL_OP for its bits alone. F's bundles may not hold
what acts on a task's own state, and of the scalar forms not KLOOP, SHW, TRAP and EXIT, nor an MTSR to any register but VFLAGS (log 6). -/
def encOk (x : EncCtx) (i : Instr) : Bool :=
  match i with
  | .add f | .sub f | .and f | .or f | .xor f | .shl f | .shr f | .sar f | .min f | .minu f | .max f | .maxu f =>
    srOk 1 true true true false false f
  | .mul f | .mulh f | .mulhu f => srOk 3 true true true false false f
  | .div f | .divu f | .rem f | .remu f => srOk 15 true true true false false f
  | .addi f | .andi f | .ori f | .xori f => siOk f
  | .shli f | .shri f | .sari f => siShiftOk f
  | .movi f | .movhi f => slOk f
  | .ext f | .extu f | .ins f => srOk 1 true true true true false f
  | .clz f | .popc f => srOk 1 true true false false false f
  | .cmp f => scOk 1 f
  | .cmpi f => sciOk f
  | .gand f | .gor f | .gxor f => sgOk f
  | .sel f => srOk 1 true true true false true f
  | .fadd f | .fsub f | .fmul f | .fmin f | .fmax f => srOk 4 true true true false false f
  | .fma f => srOk 5 true true true true false f
  | .fdiv f => srOk 14 true true true false false f
  | .fsqrt f => srOk 14 true true false false false f
  | .fcmp f => scOk 4 f
  | .fcvt f => sfOk f
  | .br f => decide (f.lat = 0) && decide (f.d = 0)
  | .call f => decide (1 ≤ f.lat.toNat) && sDstOk f.d
  | .ret f => decide (f.lat = 0) && srOk 0 false true false false false f
  | .kloop f => decide (f.lat = 0) && decide (f.nst.toNat ≤ 7) && !(x.grotto && decide (f.rot = 1)) && !x.inF
  | .shw f => decide (f.lat = 0) && decide (f.sel.toNat ≤ 12) && sSrcOk f.a && !(x.grotto && decide (f.sh.toNat ≤ 3)) && !x.inF
  | .mfsr f => decide (2 ≤ f.lat.toNat) && sDstOk f.d && decide (f.a = 0) && sregHere x f.sreg.toNat
  | .mtsr f => decide (f.lat = 0) && decide (f.d = 0) && sSrcOk f.a && sregHere x f.sreg.toNat && sregWritable f.sreg.toNat
      && (!x.inF || decide (f.sreg.toNat = 3))
  | .trap f | .exit f => decide (f.lat = 0) && !x.inF
  | .tret f => decide (f.lat = 0) && x.inF && decide (f.code.toNat ≤ 2)
  | .vadd f | .vsub f | .vmul f | .vmin f | .vmax f => v3Ok x 6 true true false fmtWNI f
  | .vfma f | .vfms f => v3Ok x 6 true true true fmtWNI f
  | .vdiv f => v3Ok x 14 true true false fmtW f
  | .vsqrt f => v3Ok x 14 true false false fmtW f
  | .vabs f | .vneg f => v3Ok x 6 true false false fmtWNI f
  | .vand f | .vor f | .vxor f => v3Ok x 6 true true false fmt0 f
  | .vnot f => v3Ok x 6 true false false fmt0 f
  | .vshl f | .vshr f | .vsar f => v3Ok x 6 true true false fmtAny f
  | .vcvt f => vcvtOk x f
  | .vqnt f | .vdqnt f => vqntOk x f
  | .vunpk f =>
    viOk x 6 false fmtPacked (fun i => decide (i ≤ 1) && (decide (fmtWidth f.fmt.toNat = 4) || decide (i = 0))) f
  | .vpack f =>
    viOk x 6 true fmtPacked (fun i => decide (i ≤ 1) && (decide (fmtWidth f.fmt.toNat = 4) || decide (i = 0))) f
  | .vbdot f => !x.grotto && v3Ok x 12 true true true (fun m => fmtWNI m && decide (m.toNat ≠ 3)) f
  | .vexp f | .vlog f | .vsin f | .vcos f | .vtanh f | .vrsqrt f | .vrcp f | .vsigm f =>
    v3Ok x 10 true false false fmtW f
  | .vcmp f =>
    decide (f.d.toNat < 16) && pOk x (f.d.setWidth 4)
    && viOk x 6 true fmtWNI (fun i => decide (i < 16)) { f with d := 0 }
  | .vsel f => viOk x 6 true fmt0 (fun i => decide (i < 16)) f && pOk x (f.imm.setWidth 4)
  | .vrotr f | .vbcr f => viOk x 6 false fmtAny (fun i => decide (i < elemsPerRow f.fmt.toNat)) f
  | .vrotc f | .vbcc f => viOk x 8 false fmt0 (fun i => decide (i < 16)) f
  | .vredr f => viOk x 8 false fmtWNI (fun i => decide (i < 8)) f
  | .vredc f => viOk x 12 false fmtWNI (fun i => decide (i < 8)) f
  | .vshuf f => !x.grotto && viOk x 8 true fmt0 (fun i => decide (i < 64)) f
  | .vperm f => viOk x 8 true fmt0 (fun i => decide (i < 32) && (decide (16 ≤ i) || decide (i = 0))) f
  | .vpatld f => !x.grotto && vNoResultOk x f (fun _ => true)
  | .vpatsw f => !x.grotto && vUnitOk x f.u && decide (f.lat = 0) && decide (f.p = 0) && decide (f.fmt = 0)
      && decide (f.d = 0) && decide (f.a = 0) && decide (f.b = 0) && decide (f.c = 0)
  | .vctd f => vctdOk x f
  | .vctld f => vNoResultOk x f (fun i => decide (i < 64))
  | .vtrn f => v3Ok x 12 true false false fmtAny f
  | .vmov f => v3Ok x 6 true false false fmt0 f
  | .vsplats f =>
    viOk x 6 false fmtAny (fun i => decide (i = 0)) { f with a := 384 } && sSrc9Ok f.a
  | .vsplati f => vsplatiOk x f
  | .vpand f | .vpor f | .vpxor f => vpOk x f
  | .mlease e | .mrel e => mxHere x && ecBareOk e
  | .mmode f => mxHere x && ecTokensOk x f.e && ecNoShape f.e && sSrcOk f.s && (decide (f.mode = 1) || decide (f.wf = 0))
  | .mwld f => mxHere x && ecTokensOk x f.e && sSrcOk f.s
  | .mmac f => mmacOk x f
  | .mclr f => mxHere x && ecTokensOk x f.e && ecNoShape f.e && sSrcOk f.s
  | .mdrn f => mdrnOk x f
  | .mstat f => mxHere x && ecTokensOk x f.e && ecNoShape f.e && sSrcOk f.s && sSrcOk f.a
  | .cpyl f | .cpys f => cpOk x f
  | .cpyc f => cpOk x f && ecNoShape f.e && decide (f.c ≠ 0)
  | .cpfill f => cpOk x f && decide (f.b = 0)
  | .lxfr f => cpOk x f && ecNoShape f.e && decide (f.c ≠ 0)
  | .bkmac f | .bkkey f | .bkcmp f | .bkwr f | .bktt f | .bkrd f => bkOk x f
  | .ldb f | .ldbu f | .ldh f | .ldhu f | .ldw f | .ldwu f | .ldd f => ldScalarOk x f
  | .ldv f => ldVecOk x f
  | .ldvs f => ldVecOk x f && aformFlat f.f
  | .ldvg f => gatherOk x f && vRegDstOk x f.d
  | .probe f => !x.inF && decide (f.as = 0) && sDst9Ok f.d && sSrcOk f.a && decide (f.lk.toNat ≤ 2)
  | .pwait f => !x.inF && decide (f.as = 0) && decide (f.d = 0) && sSrcOk f.a && decide (f.off = 0)
  | .pref f => decide (f.as = 0) && decide (f.d = 0) && sSrcOk f.a
  | .llclk f | .llcul f => !x.inF && decide (f.as = 0) && sDst9Ok f.d && sSrcOk f.a
  | .stb f | .sth f | .stw f | .std f => stScalarOk x f
  | .stv f => stVecOk x f
  | .stvs f => stVecOk x f && aformFlat f.f
  | .stvx f => gatherOk x f && vSrcOk x f.d
  | .aadd f | .aand f | .aor f | .axor f | .amin f | .aminu f | .amax f | .amaxu f | .axch f | .afadd f => atomicOk x false f
  | .acas f => atomicOk x true f
  | .bara f | .barw f | .baraw f => !x.inF && homeOk x f.hstg f.htsk
  | .barcfg f => !x.inF && homeOk x f.hstg f.htsk
  | .tokw f => !x.inF && tkFieldOk x f.t0 && tkFieldOk x f.t1 && tkFieldOk x f.t2 && tkFieldOk x f.t3
      && (decide (64 ≤ f.t0.toNat) || decide (64 ≤ f.t1.toNat) || decide (64 ≤ f.t2.toNat) || decide (64 ≤ f.t3.toNat))
  | .tokst f => !x.inF && tkOk x f.tk
  | .ctrw f => !x.inF && sSrcOk f.a && sSrcOk f.b
  | .wpw f => !x.inF && sSrcOk f.a
  | .qmark _ | .fenceT _ | .fenceG _ | .fenceD _ | .fenceS _ => true
  | .ringcfg f => !x.grotto && !x.inF && sSrcOk f.a && sSrcOk f.b
  | .signalStore f | .signalAdd f => !x.inF && sSrcOk f.a && sSrcOk f.b
  | .dqadv f => !x.inF && sSrcOk f.a && sSrcOk f.b
  | .yield _ => !x.inF
  | .waity f => !x.inF && sSrcOk f.a
  | _ => true

/-! ## What an instruction names -/

/-- The guard of a slot instruction; events and NOP have none. -/
def guardOf (i : Instr) : Option (BitVec 4) :=
  match i with
  | .add f | .sub f | .mul f | .mulh f | .mulhu f | .div f | .divu f | .rem f | .remu f | .and f | .or f | .xor f
  | .shl f | .shr f | .sar f | .min f | .minu f | .max f | .maxu f | .ext f | .extu f | .ins f | .clz f | .popc f
  | .sel f | .fadd f | .fsub f | .fmul f | .fma f | .fdiv f | .fsqrt f | .fmin f | .fmax f | .ret f => some f.g
  | .addi f | .andi f | .ori f | .xori f | .shli f | .shri f | .sari f => some f.g
  | .movi f | .movhi f => some f.g
  | .cmp f | .fcmp f => some f.g
  | .cmpi f => some f.g
  | .gand f | .gor f | .gxor f => some f.g
  | .fcvt f => some f.g
  | .br f | .call f => some f.g
  | .kloop f => some f.g
  | .shw f => some f.g
  | .mfsr f | .mtsr f => some f.g
  | .trap f | .tret f | .exit f => some f.g
  | .vadd f | .vsub f | .vmul f | .vfma f | .vfms f | .vdiv f | .vsqrt f | .vmin f | .vmax f | .vabs f | .vneg f
  | .vand f | .vor f | .vxor f | .vnot f | .vshl f | .vshr f | .vsar f | .vqnt f | .vdqnt f | .vbdot f | .vexp f
  | .vlog f | .vsin f | .vcos f | .vtanh f | .vrsqrt f | .vrcp f | .vsigm f | .vpatsw f | .vtrn f | .vmov f => some f.g
  | .vcvt f | .vunpk f | .vpack f | .vcmp f | .vsel f | .vrotr f | .vrotc f | .vbcr f | .vbcc f | .vredr f | .vredc f
  | .vshuf f | .vperm f | .vpatld f | .vctd f | .vctld f | .vsplats f => some f.g
  | .vsplati f => some f.g
  | .vpand f | .vpor f | .vpxor f => some f.g
  | .mlease e | .mrel e => some e.g
  | .mmode f => some f.e.g
  | .mwld f => some f.e.g
  | .mmac f => some f.e.g
  | .mclr f => some f.e.g
  | .mdrn f => some f.e.g
  | .mstat f => some f.e.g
  | .cpyl f | .cpys f | .cpyc f | .cpfill f | .lxfr f => some f.e.g
  | .bkmac f | .bkkey f | .bkcmp f | .bkwr f | .bktt f | .bkrd f => some f.e.g
  | .ldb f | .ldbu f | .ldh f | .ldhu f | .ldw f | .ldwu f | .ldd f | .ldv f | .ldvs f
  | .stb f | .sth f | .stw f | .std f | .stv f | .stvs f => some f.g
  | .ldvg f | .stvx f => some f.g
  | .probe f => some f.g
  | .pwait f | .pref f | .llclk f | .llcul f => some f.g
  | .aadd f | .aand f | .aor f | .axor f | .amin f | .aminu f | .amax f | .amaxu f | .axch f | .acas f | .afadd f =>
    some f.g
  | .bara f | .barw f | .baraw f => some f.g
  | .barcfg f => some f.g
  | .tokw f => some f.g
  | .tokst f => some f.g
  | .ctrw f => some f.g
  | .wpw f => some f.g
  | .qmark f | .fenceT f | .fenceG f | .fenceD f | .fenceS f | .yield f => some f.g
  | .ringcfg f => some f.g
  | .signalStore f | .signalAdd f | .dqadv f => some f.g
  | .waity f => some f.g
  | _ => none

/-- The slot of an instruction (05 R149 to R155); none for NOP and the events. -/
def slotOf (i : Instr) : Option Slot :=
  match i with
  | .add _ | .sub _ | .mul _ | .mulh _ | .mulhu _ | .div _ | .divu _ | .rem _ | .remu _ | .and _ | .or _ | .xor _
  | .shl _ | .shr _ | .sar _ | .min _ | .minu _ | .max _ | .maxu _ | .addi _ | .andi _ | .ori _ | .xori _ | .shli _
  | .shri _ | .sari _ | .movi _ | .movhi _ | .ext _ | .extu _ | .ins _ | .clz _ | .popc _ | .cmp _ | .cmpi _ | .gand _
  | .gor _ | .gxor _ | .sel _ | .fadd _ | .fsub _ | .fmul _ | .fma _ | .fdiv _ | .fsqrt _ | .fmin _ | .fmax _ | .fcmp _
  | .fcvt _ | .br _ | .call _ | .ret _ | .kloop _ | .shw _ | .mfsr _ | .mtsr _ | .trap _ | .tret _ | .exit _ => some .s
  | .vadd f | .vsub f | .vmul f | .vfma f | .vfms f | .vdiv f | .vsqrt f | .vmin f | .vmax f | .vabs f | .vneg f
  | .vand f | .vor f | .vxor f | .vnot f | .vshl f | .vshr f | .vsar f | .vqnt f | .vdqnt f | .vbdot f | .vexp f
  | .vlog f | .vsin f | .vcos f | .vtanh f | .vrsqrt f | .vrcp f | .vsigm f | .vpatsw f | .vtrn f | .vmov f =>
    some (if f.u = .a then .va else .vb)
  | .vcvt f | .vunpk f | .vpack f | .vcmp f | .vsel f | .vrotr f | .vrotc f | .vbcr f | .vbcc f | .vredr f | .vredc f
  | .vshuf f | .vperm f | .vpatld f | .vctd f | .vctld f | .vsplats f => some (if f.u = .a then .va else .vb)
  | .vsplati f => some (if f.u = .a then .va else .vb)
  | .vpand f | .vpor f | .vpxor f => some (if f.u = .a then .va else .vb)
  | .mlease _ | .mrel _ | .mmode _ | .mwld _ | .mmac _ | .mclr _ | .mdrn _ | .mstat _ => some .mx
  | .cpyl _ | .cpys _ | .cpyc _ | .cpfill _ | .lxfr _ | .bkmac _ | .bkkey _ | .bkcmp _ | .bkwr _ | .bktt _ | .bkrd _ =>
    some .cp
  | .ldb _ | .ldbu _ | .ldh _ | .ldhu _ | .ldw _ | .ldwu _ | .ldd _ | .ldv _ | .ldvs _ | .ldvg _ | .probe _ | .pwait _
  | .pref _ | .llclk _ | .llcul _ => some .ld
  | .stb _ | .sth _ | .stw _ | .std _ | .stv _ | .stvs _ | .stvx _ | .aadd _ | .aand _ | .aor _ | .axor _ | .amin _
  | .aminu _ | .amax _ | .amaxu _ | .axch _ | .acas _ | .afadd _ => some .st
  | .bara _ | .barw _ | .baraw _ | .barcfg _ | .tokw _ | .tokst _ | .ctrw _ | .wpw _ | .qmark _ | .fenceT _ | .fenceG _
  | .fenceD _ | .fenceS _ | .ringcfg _ | .signalStore _ | .signalAdd _ | .dqadv _ | .yield _ | .waity _ => some .sy
  | _ => none

/-- A destination named for R135. va0, vz and s0 are none. -/
inductive DestName where
  | s (n : Nat) | g (n : Nat) | v (n : Nat) | vo (n : Nat) | p (n : Nat) | ct (n : Nat) | sh (n : Nat)
  deriving DecidableEq, Repr

def sName (d : BitVec 7) : List DestName := if d = 0 then [] else [.s d.toNat]
def vName (d : BitVec 9) : List DestName :=
  match vLevel d with
  | 0 => [.v (vIndex d)]
  | 1 => [.vo (vIndex d)]
  | _ => []

/-- The destinations an instruction names (R135). -/
def destsOf (i : Instr) : List DestName :=
  match i with
  | .add f | .sub f | .mul f | .mulh f | .mulhu f | .div f | .divu f | .rem f | .remu f | .and f | .or f | .xor f
  | .shl f | .shr f | .sar f | .min f | .minu f | .max f | .maxu f | .ext f | .extu f | .ins f | .clz f | .popc f
  | .sel f | .fadd f | .fsub f | .fmul f | .fma f | .fdiv f | .fsqrt f | .fmin f | .fmax f => sName f.d
  | .addi f | .andi f | .ori f | .xori f | .shli f | .shri f | .sari f => sName f.d
  | .movi f | .movhi f => sName f.d
  | .fcvt f => sName f.d
  | .call f => sName f.d
  | .mfsr f => sName f.d
  | .cmp f | .fcmp f => [.g f.gd.toNat]
  | .cmpi f => [.g f.gd.toNat]
  | .gand f | .gor f | .gxor f => [.g f.gd.toNat]
  | .vadd f | .vsub f | .vmul f | .vfma f | .vfms f | .vdiv f | .vsqrt f | .vmin f | .vmax f | .vabs f | .vneg f
  | .vand f | .vor f | .vxor f | .vnot f | .vshl f | .vshr f | .vsar f | .vqnt f | .vdqnt f | .vbdot f | .vexp f
  | .vlog f | .vsin f | .vcos f | .vtanh f | .vrsqrt f | .vrcp f | .vsigm f | .vtrn f | .vmov f => vName f.d
  | .vcvt f | .vunpk f | .vpack f | .vsel f | .vrotr f | .vrotc f | .vbcr f | .vbcc f | .vredr f | .vredc f
  | .vshuf f | .vperm f | .vctd f | .vsplats f => vName f.d
  | .vcmp f => [.p (f.d.toNat % 16)]
  | .vpatld f => [.sh (f.imm.toNat % 64)]
  | .vctld f => [.ct (f.imm.toNat % 4)]
  | .vsplati f => vName f.d
  | .vpand f | .vpor f | .vpxor f => [.p f.pd.toNat]
  | .mdrn f => if f.dst = 0 then vName f.v else []
  | .ldb f | .ldbu f | .ldh f | .ldhu f | .ldw f | .ldwu f | .ldd f => sName (f.d.setWidth 7)
  | .ldv f | .ldvs f => vName f.d
  | .ldvg f => vName f.d
  | .probe f => sName (f.d.setWidth 7)
  | .llclk f | .llcul f => sName (f.d.setWidth 7)
  | _ => []

/-- The common engine fields of a command. -/
def ecOf (i : Instr) : Option EC :=
  match i with
  | .mmode f => some f.e
  | .mwld f => some f.e
  | .mmac f => some f.e
  | .mclr f => some f.e
  | .mdrn f => some f.e
  | .mstat f => some f.e
  | .cpyl f | .cpys f | .cpyc f | .cpfill f | .lxfr f => some f.e
  | .bkmac f | .bkkey f | .bkcmp f | .bkwr f | .bktt f | .bkrd f => some f.e
  | _ => none

/-- The token an instruction names as its product (R135, 09 R253, R258). -/
def tokProduct (i : Instr) : Option Nat :=
  match i with
  | .tokst f => some f.tk.toNat
  | .aadd f | .aand f | .aor f | .axor f | .amin f | .aminu f | .amax f | .amaxu f | .axch f | .acas f | .afadd f =>
    some f.tk.toNat
  | _ => match ecOf i with
    | some e => tkName e.tp
    | none => none

/-- The tokens an instruction consumes, TOKW's among them. -/
def tokConsumed (i : Instr) : List Nat :=
  match i with
  | .tokw f => [f.t0, f.t1, f.t2, f.t3].filterMap tkName
  | _ => match ecOf i with
    | some e => [e.tc0, e.tc1, e.tc2].filterMap tkName
    | none => []

/-- A list holds some element twice. -/
def hasDup {α : Type} [DecidableEq α] : List α → Bool
  | [] => false
  | x :: xs => xs.contains x || hasDup xs

/-- The S forms that may not stand beside a PROBE (R148). -/
def isTransfer (i : Instr) : Bool :=
  match i with
  | .br _ | .call _ | .ret _ | .kloop _ | .trap _ | .tret _ | .exit _ => true
  | _ => false

def isProbe (i : Instr) : Bool := match i with
  | .probe _ => true
  | _ => false

def isPatsw (i : Instr) : Bool := match i with
  | .vpatsw _ => true
  | _ => false

/-- The pairing rules of R135, R148 and 07 R203 over the instructions of one bundle: true where they hold. -/
def pairOk (is : List Instr) : Bool :=
  !(hasDup (is.flatMap destsOf))
  && !(hasDup (is.filterMap tokProduct))
  && !((is.filterMap tokProduct).any fun t => (is.flatMap tokConsumed).contains t)
  && !(is.any isProbe && is.any isTransfer)
  && decide ((is.filter isPatsw).length ≤ 1)

end Sys2Proof.Machine
end

