-- ==== Sys2Proof/WellFormed.lean ====
section
/-! DEFINITION. A well-formed instruction: one whose bits pass every check that spec/05 R136 makes whatever the guard holds. -/

namespace Sys2Proof
open Sys2Proof.Machine

/-- The instruction passes the encoding checks of its slot on a core of this kind and launch shape, and the pairing rules
on its own (05 R134 to R148, R156). -/
def Instr.WellFormed (x : EncCtx) (i : Instr) : Prop := (encOk x i && pairOk [i]) = true

/-- WellFormed can be decided. -/
def Instr.wellFormedB (x : EncCtx) (i : Instr) : Bool := encOk x i && pairOk [i]

end Sys2Proof
end

