-- ==== Sys2Proof/Decode.lean ====
section
/-! DEFINITION. Decoding (spec/05 R131, R143 to R155): a slot word to its instruction, a bundle of 64 bytes to its header and
instructions, each refusal by name; and the encoder, written from the same tables. -/

namespace Sys2Proof
open Sys2Proof.Machine

/-- Why a bundle has no instruction: every one raises ILLEGAL_OP at issue (R134). -/
inductive DecodeErr where
  /-- A reserved header bit, or NSEG nonzero with SEG = 0. -/
  | header
  /-- An unassigned opcode, or a nonzero reserved field, in a valid slot. -/
  | slot (sl : Slot)
  deriving DecidableEq, Repr

/-! ## Formats

Each `dec` reads the fields of a format and refuses a nonzero reserved bit; each `enc` places the fields again. -/

def SR.dec (w : Nat) : Option SR := some ⟨fld w 36 4, fld w 32 4, fld w 25 7, fld w 18 7, fld w 11 7, fld w 4 7, fld w 0 4⟩
def SR.enc (f : SR) : Nat :=
  f.g.toNat * 2 ^ 36 + f.lat.toNat * 2 ^ 32 + f.d.toNat * 2 ^ 25 + f.a.toNat * 2 ^ 18 + f.b.toNat * 2 ^ 11 + f.c.toNat * 2 ^ 4 + f.gs.toNat

def SI.dec (w : Nat) : Option SI := some ⟨fld w 36 4, fld w 32 4, fld w 25 7, fld w 18 7, fld w 0 18⟩
def SI.enc (f : SI) : Nat :=
  f.g.toNat * 2 ^ 36 + f.lat.toNat * 2 ^ 32 + f.d.toNat * 2 ^ 25 + f.a.toNat * 2 ^ 18 + f.imm.toNat

def SL.dec (w : Nat) : Option SL := some ⟨fld w 36 4, fld w 32 4, fld w 25 7, fld w 0 25⟩
def SL.enc (f : SL) : Nat :=
  f.g.toNat * 2 ^ 36 + f.lat.toNat * 2 ^ 32 + f.d.toNat * 2 ^ 25 + f.imm.toNat

def SC.dec (w : Nat) : Option SC :=
  if bitsAt w 0 11 = 0 then some ⟨fld w 36 4, fld w 32 4, fld w 28 4, fld w 25 3, fld w 18 7, fld w 11 7⟩ else none
def SC.enc (f : SC) : Nat :=
  f.g.toNat * 2 ^ 36 + f.lat.toNat * 2 ^ 32 + f.gd.toNat * 2 ^ 28 + f.cc.toNat * 2 ^ 25 + f.a.toNat * 2 ^ 18 + f.b.toNat * 2 ^ 11

def SCI.dec (w : Nat) : Option SCI := some ⟨fld w 36 4, fld w 32 4, fld w 28 4, fld w 25 3, fld w 18 7, fld w 0 18⟩
def SCI.enc (f : SCI) : Nat :=
  f.g.toNat * 2 ^ 36 + f.lat.toNat * 2 ^ 32 + f.gd.toNat * 2 ^ 28 + f.cc.toNat * 2 ^ 25 + f.a.toNat * 2 ^ 18 + f.imm.toNat

def SG.dec (w : Nat) : Option SG :=
  if bitsAt w 0 18 = 0 then some ⟨fld w 36 4, fld w 32 4, fld w 28 4, fld w 24 4, fld w 20 4, fld w 19 1, fld w 18 1⟩ else none
def SG.enc (f : SG) : Nat :=
  f.g.toNat * 2 ^ 36 + f.lat.toNat * 2 ^ 32 + f.gd.toNat * 2 ^ 28 + f.ga.toNat * 2 ^ 24 + f.gb.toNat * 2 ^ 20 + f.na.toNat * 2 ^ 19 + f.nb.toNat * 2 ^ 18

def SF.dec (w : Nat) : Option SF :=
  if bitsAt w 0 5 = 0 then some ⟨fld w 36 4, fld w 32 4, fld w 25 7, fld w 18 7, fld w 12 6, fld w 6 6, fld w 5 1⟩ else none
def SF.enc (f : SF) : Nat :=
  f.g.toNat * 2 ^ 36 + f.lat.toNat * 2 ^ 32 + f.d.toNat * 2 ^ 25 + f.a.toNat * 2 ^ 18 + f.src.toNat * 2 ^ 12 + f.dst.toNat * 2 ^ 6 + f.rtz.toNat * 2 ^ 5

def SJ.dec (w : Nat) : Option SJ := some ⟨fld w 36 4, fld w 32 4, fld w 25 7, fld w 0 25⟩
def SJ.enc (f : SJ) : Nat :=
  f.g.toNat * 2 ^ 36 + f.lat.toNat * 2 ^ 32 + f.d.toNat * 2 ^ 25 + f.off.toNat

def SK.dec (w : Nat) : Option SK :=
  if bitsAt w 0 21 = 0 then some ⟨fld w 36 4, fld w 32 4, fld w 26 6, fld w 22 4, fld w 21 1⟩ else none
def SK.enc (f : SK) : Nat :=
  f.g.toNat * 2 ^ 36 + f.lat.toNat * 2 ^ 32 + f.len.toNat * 2 ^ 26 + f.nst.toNat * 2 ^ 22 + f.rot.toNat * 2 ^ 21

def SW.dec (w : Nat) : Option SW := some ⟨fld w 36 4, fld w 32 4, fld w 29 3, fld w 25 4, fld w 18 7, fld w 0 18⟩
def SW.enc (f : SW) : Nat :=
  f.g.toNat * 2 ^ 36 + f.lat.toNat * 2 ^ 32 + f.sh.toNat * 2 ^ 29 + f.sel.toNat * 2 ^ 25 + f.a.toNat * 2 ^ 18 + f.imm.toNat

def SS.dec (w : Nat) : Option SS :=
  if bitsAt w 0 6 = 0 then some ⟨fld w 36 4, fld w 32 4, fld w 25 7, fld w 18 7, fld w 6 12⟩ else none
def SS.enc (f : SS) : Nat :=
  f.g.toNat * 2 ^ 36 + f.lat.toNat * 2 ^ 32 + f.d.toNat * 2 ^ 25 + f.a.toNat * 2 ^ 18 + f.sreg.toNat * 2 ^ 6

def SX.dec (w : Nat) : Option SX :=
  if bitsAt w 0 16 = 0 then some ⟨fld w 36 4, fld w 32 4, fld w 16 16⟩ else none
def SX.enc (f : SX) : Nat :=
  f.g.toNat * 2 ^ 36 + f.lat.toNat * 2 ^ 32 + f.code.toNat * 2 ^ 16

def V3.dec (u : VUnit) (w : Nat) : Option V3 := some ⟨u, fld w 14 4, fld w 10 4, fld w 6 4, fld w 0 6, fld w 45 9, fld w 36 9, fld w 27 9, fld w 18 9⟩
def V3.enc (f : V3) : Nat :=
  f.g.toNat * 2 ^ 14 + f.p.toNat * 2 ^ 10 + f.lat.toNat * 2 ^ 6 + f.fmt.toNat + f.d.toNat * 2 ^ 45 + f.a.toNat * 2 ^ 36 + f.b.toNat * 2 ^ 27 + f.c.toNat * 2 ^ 18

def VI.dec (u : VUnit) (w : Nat) : Option VI := some ⟨u, fld w 14 4, fld w 10 4, fld w 6 4, fld w 0 6, fld w 45 9, fld w 36 9, fld w 27 9, fld w 18 9⟩
def VI.enc (f : VI) : Nat :=
  f.g.toNat * 2 ^ 14 + f.p.toNat * 2 ^ 10 + f.lat.toNat * 2 ^ 6 + f.fmt.toNat + f.d.toNat * 2 ^ 45 + f.a.toNat * 2 ^ 36 + f.b.toNat * 2 ^ 27 + f.imm.toNat * 2 ^ 18

def VL.dec (u : VUnit) (w : Nat) : Option VL := some ⟨u, fld w 14 4, fld w 10 4, fld w 6 4, fld w 0 6, fld w 45 9, fld w 36 9, fld w 18 18⟩
def VL.enc (f : VL) : Nat :=
  f.g.toNat * 2 ^ 14 + f.p.toNat * 2 ^ 10 + f.lat.toNat * 2 ^ 6 + f.fmt.toNat + f.d.toNat * 2 ^ 45 + f.a.toNat * 2 ^ 36 + f.imm.toNat * 2 ^ 18

def VP.dec (u : VUnit) (w : Nat) : Option VP :=
  if bitsAt w 49 5 = 0 ∧ bitsAt w 40 5 = 0 ∧ bitsAt w 31 5 = 0 ∧ bitsAt w 18 9 = 0 then some ⟨u, fld w 14 4, fld w 10 4, fld w 6 4, fld w 0 6, fld w 45 4, fld w 36 4, fld w 27 4⟩ else none
def VP.enc (f : VP) : Nat :=
  f.g.toNat * 2 ^ 14 + f.p.toNat * 2 ^ 10 + f.lat.toNat * 2 ^ 6 + f.fmt.toNat + f.pd.toNat * 2 ^ 45 + f.pa.toNat * 2 ^ 36 + f.pb.toNat * 2 ^ 27

/-- The common engine fields (R145). -/
def EC.fields (w : Nat) : EC :=
  ⟨fld w 55 4, fld w 54 1, fld w 52 2, fld w 45 7, fld w 38 7, fld w 31 7, fld w 24 7⟩
def EC.dec (w : Nat) : Option EC :=
  if bitsAt w 0 24 = 0 then some ⟨fld w 55 4, fld w 54 1, fld w 52 2, fld w 45 7, fld w 38 7, fld w 31 7, fld w 24 7⟩ else none
def EC.enc (f : EC) : Nat :=
  f.g.toNat * 2 ^ 55 + f.sw.toNat * 2 ^ 54 + f.z.toNat * 2 ^ 52 + f.tp.toNat * 2 ^ 45 + f.tc0.toNat * 2 ^ 38 + f.tc1.toNat * 2 ^ 31 + f.tc2.toNat * 2 ^ 24

def MModeOp.dec (w : Nat) : Option MModeOp :=
  if bitsAt w 0 15 = 0 then some ⟨EC.fields w, fld w 17 7, fld w 16 1, fld w 15 1⟩ else none
def MModeOp.enc (f : MModeOp) : Nat :=
  EC.enc f.e + f.s.toNat * 2 ^ 17 + f.mode.toNat * 2 ^ 16 + f.wf.toNat * 2 ^ 15

def MWldOp.dec (w : Nat) : Option MWldOp :=
  if bitsAt w 0 9 = 0 then some ⟨EC.fields w, fld w 16 8, fld w 9 7⟩ else none
def MWldOp.enc (f : MWldOp) : Nat :=
  EC.enc f.e + f.th.toNat * 2 ^ 16 + f.s.toNat * 2 ^ 9

def MMacOp.dec (w : Nat) : Option MMacOp :=
  if bitsAt w 0 4 = 0 then some ⟨EC.fields w, fld w 15 9, fld w 8 7, fld w 7 1, fld w 5 2, fld w 4 1⟩ else none
def MMacOp.enc (f : MMacOp) : Nat :=
  EC.enc f.e + f.v.toNat * 2 ^ 15 + f.s.toNat * 2 ^ 8 + f.t.toNat * 2 ^ 7 + f.kb.toNat * 2 ^ 5 + f.mxin.toNat * 2 ^ 4

def MClrOp.dec (w : Nat) : Option MClrOp :=
  if bitsAt w 0 17 = 0 then some ⟨EC.fields w, fld w 17 7⟩ else none
def MClrOp.enc (f : MClrOp) : Nat :=
  EC.enc f.e + f.s.toNat * 2 ^ 17

def MDrnOp.dec (w : Nat) : Option MDrnOp :=
  if bitsAt w 0 5 = 0 then some ⟨EC.fields w, fld w 15 9, fld w 8 7, fld w 7 1, fld w 6 1, fld w 5 1⟩ else none
def MDrnOp.enc (f : MDrnOp) : Nat :=
  EC.enc f.e + f.v.toNat * 2 ^ 15 + f.s.toNat * 2 ^ 8 + f.dst.toNat * 2 ^ 7 + f.bf.toNat * 2 ^ 6 + f.clr.toNat * 2 ^ 5

def MStatOp.dec (w : Nat) : Option MStatOp :=
  if bitsAt w 0 10 = 0 then some ⟨EC.fields w, fld w 17 7, fld w 10 7⟩ else none
def MStatOp.enc (f : MStatOp) : Nat :=
  EC.enc f.e + f.s.toNat * 2 ^ 17 + f.a.toNat * 2 ^ 10

def CpOp.dec (w : Nat) : Option CpOp := some ⟨EC.fields w, fld w 17 7, fld w 10 7, fld w 3 7, fld w 0 3⟩
def CpOp.enc (f : CpOp) : Nat :=
  EC.enc f.e + f.a.toNat * 2 ^ 17 + f.b.toNat * 2 ^ 10 + f.c.toNat * 2 ^ 3 + f.ch.toNat

def BkOp.dec (w : Nat) : Option BkOp :=
  if bitsAt w 0 3 = 0 then some ⟨EC.fields w, fld w 17 7, fld w 10 7, fld w 3 7⟩ else none
def BkOp.enc (f : BkOp) : Nat :=
  EC.enc f.e + f.a.toNat * 2 ^ 17 + f.b.toNat * 2 ^ 10 + f.c.toNat * 2 ^ 3

def GatOp.dec (w : Nat) : Option GatOp := some ⟨fld w 55 4, fld w 53 2, fld w 44 9, fld w 37 7, fld w 28 9, fld w 26 2, fld w 0 26⟩
def GatOp.enc (f : GatOp) : Nat :=
  f.g.toNat * 2 ^ 55 + f.as.toNat * 2 ^ 53 + f.d.toNat * 2 ^ 44 + f.a.toNat * 2 ^ 37 + f.vx.toNat * 2 ^ 28 + f.esz.toNat * 2 ^ 26 + f.off.toNat

def PrbOp.dec (w : Nat) : Option PrbOp :=
  if bitsAt w 27 8 = 0 then some ⟨fld w 55 4, fld w 53 2, fld w 44 9, fld w 37 7, fld w 35 2, fld w 0 27⟩ else none
def PrbOp.enc (f : PrbOp) : Nat :=
  f.g.toNat * 2 ^ 55 + f.as.toNat * 2 ^ 53 + f.d.toNat * 2 ^ 44 + f.a.toNat * 2 ^ 37 + f.lk.toNat * 2 ^ 35 + f.off.toNat

def LnOp.dec (w : Nat) : Option LnOp :=
  if bitsAt w 27 10 = 0 then some ⟨fld w 55 4, fld w 53 2, fld w 44 9, fld w 37 7, fld w 0 27⟩ else none
def LnOp.enc (f : LnOp) : Nat :=
  f.g.toNat * 2 ^ 55 + f.as.toNat * 2 ^ 53 + f.d.toNat * 2 ^ 44 + f.a.toNat * 2 ^ 37 + f.off.toNat

def AtmOp.dec (w : Nat) : Option AtmOp := some ⟨fld w 55 4, fld w 53 2, fld w 44 9, fld w 37 7, fld w 30 7, fld w 23 7, fld w 17 6, fld w 15 2, fld w 13 2, fld w 12 1, fld w 0 12⟩
def AtmOp.enc (f : AtmOp) : Nat :=
  f.g.toNat * 2 ^ 55 + f.as.toNat * 2 ^ 53 + f.d.toNat * 2 ^ 44 + f.a.toNat * 2 ^ 37 + f.x.toNat * 2 ^ 30 + f.old.toNat * 2 ^ 23 + f.tk.toNat * 2 ^ 17 + f.fl.toNat * 2 ^ 15 + f.scope.toNat * 2 ^ 13 + f.w.toNat * 2 ^ 12 + f.off.toNat

def BarOp.dec (w : Nat) : Option BarOp :=
  if bitsAt w 0 24 = 0 then some ⟨fld w 38 4, fld w 30 8, fld w 26 4, fld w 24 2⟩ else none
def BarOp.enc (f : BarOp) : Nat :=
  f.g.toNat * 2 ^ 38 + f.bar.toNat * 2 ^ 30 + f.hstg.toNat * 2 ^ 26 + f.htsk.toNat * 2 ^ 24

def BarCfgOp.dec (w : Nat) : Option BarCfgOp :=
  if bitsAt w 0 18 = 0 then some ⟨fld w 38 4, fld w 30 8, fld w 26 4, fld w 24 2, fld w 18 6⟩ else none
def BarCfgOp.enc (f : BarCfgOp) : Nat :=
  f.g.toNat * 2 ^ 38 + f.bar.toNat * 2 ^ 30 + f.hstg.toNat * 2 ^ 26 + f.htsk.toNat * 2 ^ 24 + f.cnt.toNat * 2 ^ 18

def TokwOp.dec (w : Nat) : Option TokwOp :=
  if bitsAt w 0 10 = 0 then some ⟨fld w 38 4, fld w 31 7, fld w 24 7, fld w 17 7, fld w 10 7⟩ else none
def TokwOp.enc (f : TokwOp) : Nat :=
  f.g.toNat * 2 ^ 38 + f.t0.toNat * 2 ^ 31 + f.t1.toNat * 2 ^ 24 + f.t2.toNat * 2 ^ 17 + f.t3.toNat * 2 ^ 10

def TokstOp.dec (w : Nat) : Option TokstOp :=
  if bitsAt w 0 32 = 0 then some ⟨fld w 38 4, fld w 32 6⟩ else none
def TokstOp.enc (f : TokstOp) : Nat :=
  f.g.toNat * 2 ^ 38 + f.tk.toNat * 2 ^ 32

def CtrwOp.dec (w : Nat) : Option CtrwOp := some ⟨fld w 38 4, fld w 31 7, fld w 24 7, fld w 0 24⟩
def CtrwOp.enc (f : CtrwOp) : Nat :=
  f.g.toNat * 2 ^ 38 + f.a.toNat * 2 ^ 31 + f.b.toNat * 2 ^ 24 + f.imm.toNat

def WpwOp.dec (w : Nat) : Option WpwOp := some ⟨fld w 38 4, fld w 35 3, fld w 28 7, fld w 0 28⟩
def WpwOp.enc (f : WpwOp) : Nat :=
  f.g.toNat * 2 ^ 38 + f.ch.toNat * 2 ^ 35 + f.a.toNat * 2 ^ 28 + f.imm.toNat

def SyOp.dec (w : Nat) : Option SyOp :=
  if bitsAt w 0 38 = 0 then some ⟨fld w 38 4⟩ else none
def SyOp.decFence (w : Nat) : Option SyOp :=
  if bitsAt w 0 36 = 0 then some ⟨fld w 38 4⟩ else none
def SyOp.enc (f : SyOp) : Nat :=
  f.g.toNat * 2 ^ 38

def RingCfgOp.dec (w : Nat) : Option RingCfgOp :=
  if bitsAt w 0 20 = 0 then some ⟨fld w 38 4, fld w 34 4, fld w 27 7, fld w 20 7⟩ else none
def RingCfgOp.enc (f : RingCfgOp) : Nat :=
  f.g.toNat * 2 ^ 38 + f.ring.toNat * 2 ^ 34 + f.a.toNat * 2 ^ 27 + f.b.toNat * 2 ^ 20

def SabOp.dec (w : Nat) : Option SabOp :=
  if bitsAt w 0 22 = 0 then some ⟨fld w 38 4, fld w 31 7, fld w 24 7⟩ else none
def SabOp.decDq (w : Nat) : Option SabOp :=
  if bitsAt w 0 24 = 0 then some ⟨fld w 38 4, fld w 31 7, fld w 24 7⟩ else none
def SabOp.enc (f : SabOp) : Nat :=
  f.g.toNat * 2 ^ 38 + f.a.toNat * 2 ^ 31 + f.b.toNat * 2 ^ 24

def WaityOp.dec (w : Nat) : Option WaityOp :=
  if bitsAt w 0 31 = 0 then some ⟨fld w 38 4, fld w 31 7⟩ else none
def WaityOp.enc (f : WaityOp) : Nat :=
  f.g.toNat * 2 ^ 38 + f.a.toNat * 2 ^ 31
/-- A scalar or vector load or store (R146). AS 0 and 1 carry an index and a shift, AS 2 a ring and a slot number. -/
def MemOp.dec (w : Nat) : Option MemOp :=
  match bitsAt w 53 2 with
  | 0 => some ⟨fld w 55 4, fld w 44 9, fld w 37 7, .glob (fld w 30 7) (fld w 27 3), fld w 0 27⟩
  | 1 => some ⟨fld w 55 4, fld w 44 9, fld w 37 7, .loc (fld w 30 7) (fld w 27 3), fld w 0 27⟩
  | 2 =>
    if bitsAt w 27 2 = 0 then some ⟨fld w 55 4, fld w 44 9, fld w 37 7, .ring (fld w 33 4) (fld w 29 4), fld w 0 27⟩
    else none
  | _ => none
/-- The bits [54:53] and [36:27] of an address form. -/
def AForm.enc (f : AForm) : Nat :=
  match f with
  | .glob x sc => x.toNat * 2 ^ 30 + sc.toNat * 2 ^ 27
  | .loc x sc => 2 ^ 53 + x.toNat * 2 ^ 30 + sc.toNat * 2 ^ 27
  | .ring k j => 2 * 2 ^ 53 + k.toNat * 2 ^ 33 + j.toNat * 2 ^ 29
def MemOp.enc (f : MemOp) : Nat :=
  f.g.toNat * 2 ^ 55 + f.d.toNat * 2 ^ 44 + f.a.toNat * 2 ^ 37 + AForm.enc f.f + f.off.toNat

/-! ## Opcode maps (R149 to R155) -/

/-- S slot (R149). -/
def decS (w : Nat) : Option Instr :=
  match bitsAt w 40 8 with
  | 0x01 => (SR.dec w).map .add
  | 0x02 => (SR.dec w).map .sub
  | 0x03 => (SR.dec w).map .mul
  | 0x04 => (SR.dec w).map .mulh
  | 0x05 => (SR.dec w).map .mulhu
  | 0x06 => (SR.dec w).map .div
  | 0x07 => (SR.dec w).map .divu
  | 0x08 => (SR.dec w).map .rem
  | 0x09 => (SR.dec w).map .remu
  | 0x0A => (SR.dec w).map .and
  | 0x0B => (SR.dec w).map .or
  | 0x0C => (SR.dec w).map .xor
  | 0x0D => (SR.dec w).map .shl
  | 0x0E => (SR.dec w).map .shr
  | 0x0F => (SR.dec w).map .sar
  | 0x10 => (SR.dec w).map .min
  | 0x11 => (SR.dec w).map .minu
  | 0x12 => (SR.dec w).map .max
  | 0x13 => (SR.dec w).map .maxu
  | 0x14 => (SI.dec w).map .addi
  | 0x15 => (SI.dec w).map .andi
  | 0x16 => (SI.dec w).map .ori
  | 0x17 => (SI.dec w).map .xori
  | 0x18 => (SI.dec w).map .shli
  | 0x19 => (SI.dec w).map .shri
  | 0x1A => (SI.dec w).map .sari
  | 0x1B => (SL.dec w).map .movi
  | 0x1C => (SL.dec w).map .movhi
  | 0x1D => (SR.dec w).map .ext
  | 0x1E => (SR.dec w).map .extu
  | 0x1F => (SR.dec w).map .ins
  | 0x20 => (SR.dec w).map .clz
  | 0x21 => (SR.dec w).map .popc
  | 0x22 => (SC.dec w).map .cmp
  | 0x23 => (SCI.dec w).map .cmpi
  | 0x24 => (SG.dec w).map .gand
  | 0x25 => (SG.dec w).map .gor
  | 0x26 => (SG.dec w).map .gxor
  | 0x27 => (SR.dec w).map .sel
  | 0x28 => (SR.dec w).map .fadd
  | 0x29 => (SR.dec w).map .fsub
  | 0x2A => (SR.dec w).map .fmul
  | 0x2B => (SR.dec w).map .fma
  | 0x2C => (SR.dec w).map .fdiv
  | 0x2D => (SR.dec w).map .fsqrt
  | 0x2E => (SR.dec w).map .fmin
  | 0x2F => (SR.dec w).map .fmax
  | 0x30 => (SC.dec w).map .fcmp
  | 0x31 => (SF.dec w).map .fcvt
  | 0x32 => (SJ.dec w).map .br
  | 0x33 => (SJ.dec w).map .call
  | 0x34 => (SR.dec w).map .ret
  | 0x35 => (SK.dec w).map .kloop
  | 0x36 => (SW.dec w).map .shw
  | 0x37 => (SS.dec w).map .mfsr
  | 0x38 => (SS.dec w).map .mtsr
  | 0x39 => (SX.dec w).map .trap
  | 0x3A => (SX.dec w).map .tret
  | 0x3B => (SX.dec w).map .exit
  | _ => none

/-- VA and VB slots (R150). -/
def decV (u : VUnit) (w : Nat) : Option Instr :=
  match bitsAt w 54 10 with
  | 0x01 => (V3.dec u w).map .vadd
  | 0x02 => (V3.dec u w).map .vsub
  | 0x03 => (V3.dec u w).map .vmul
  | 0x04 => (V3.dec u w).map .vfma
  | 0x05 => (V3.dec u w).map .vfms
  | 0x06 => (V3.dec u w).map .vdiv
  | 0x07 => (V3.dec u w).map .vsqrt
  | 0x08 => (V3.dec u w).map .vmin
  | 0x09 => (V3.dec u w).map .vmax
  | 0x0A => (V3.dec u w).map .vabs
  | 0x0B => (V3.dec u w).map .vneg
  | 0x10 => (V3.dec u w).map .vand
  | 0x11 => (V3.dec u w).map .vor
  | 0x12 => (V3.dec u w).map .vxor
  | 0x13 => (V3.dec u w).map .vnot
  | 0x14 => (V3.dec u w).map .vshl
  | 0x15 => (V3.dec u w).map .vshr
  | 0x16 => (V3.dec u w).map .vsar
  | 0x20 => (VI.dec u w).map .vcvt
  | 0x21 => (V3.dec u w).map .vqnt
  | 0x22 => (V3.dec u w).map .vdqnt
  | 0x23 => (VI.dec u w).map .vunpk
  | 0x24 => (VI.dec u w).map .vpack
  | 0x28 => (V3.dec u w).map .vbdot
  | 0x30 => (V3.dec u w).map .vexp
  | 0x31 => (V3.dec u w).map .vlog
  | 0x32 => (V3.dec u w).map .vsin
  | 0x33 => (V3.dec u w).map .vcos
  | 0x34 => (V3.dec u w).map .vtanh
  | 0x35 => (V3.dec u w).map .vrsqrt
  | 0x36 => (V3.dec u w).map .vrcp
  | 0x37 => (V3.dec u w).map .vsigm
  | 0x40 => (VI.dec u w).map .vcmp
  | 0x41 => (VI.dec u w).map .vsel
  | 0x50 => (VI.dec u w).map .vrotr
  | 0x51 => (VI.dec u w).map .vrotc
  | 0x52 => (VI.dec u w).map .vbcr
  | 0x53 => (VI.dec u w).map .vbcc
  | 0x54 => (VI.dec u w).map .vredr
  | 0x55 => (VI.dec u w).map .vredc
  | 0x60 => (VI.dec u w).map .vshuf
  | 0x61 => (VI.dec u w).map .vperm
  | 0x62 => (VI.dec u w).map .vpatld
  | 0x63 => (V3.dec u w).map .vpatsw
  | 0x64 => (VI.dec u w).map .vctd
  | 0x65 => (VI.dec u w).map .vctld
  | 0x66 => (V3.dec u w).map .vtrn
  | 0x70 => (V3.dec u w).map .vmov
  | 0x71 => (VI.dec u w).map .vsplats
  | 0x72 => (VL.dec u w).map .vsplati
  | 0x78 => (VP.dec u w).map .vpand
  | 0x79 => (VP.dec u w).map .vpor
  | 0x7A => (VP.dec u w).map .vpxor
  | _ => none

/-- MX slot (R151). -/
def decMX (w : Nat) : Option Instr :=
  match bitsAt w 59 5 with
  | 0x01 => (EC.dec w).map .mlease
  | 0x02 => (EC.dec w).map .mrel
  | 0x03 => (MModeOp.dec w).map .mmode
  | 0x04 => (MWldOp.dec w).map .mwld
  | 0x05 => (MMacOp.dec w).map .mmac
  | 0x06 => (MClrOp.dec w).map .mclr
  | 0x07 => (MDrnOp.dec w).map .mdrn
  | 0x08 => (MStatOp.dec w).map .mstat
  | _ => none

/-- CP slot (R152). -/
def decCP (w : Nat) : Option Instr :=
  match bitsAt w 59 5 with
  | 0x01 => (CpOp.dec w).map .cpyl
  | 0x02 => (CpOp.dec w).map .cpys
  | 0x03 => (CpOp.dec w).map .cpyc
  | 0x04 => (CpOp.dec w).map .cpfill
  | 0x05 => (CpOp.dec w).map .lxfr
  | 0x06 => (BkOp.dec w).map .bkmac
  | 0x07 => (BkOp.dec w).map .bkkey
  | 0x08 => (BkOp.dec w).map .bkcmp
  | 0x09 => (BkOp.dec w).map .bkwr
  | 0x0A => (BkOp.dec w).map .bktt
  | 0x0B => (BkOp.dec w).map .bkrd
  | _ => none

/-- LD slot (R153). -/
def decLD (w : Nat) : Option Instr :=
  match bitsAt w 59 5 with
  | 0x01 => (MemOp.dec w).map .ldb
  | 0x02 => (MemOp.dec w).map .ldbu
  | 0x03 => (MemOp.dec w).map .ldh
  | 0x04 => (MemOp.dec w).map .ldhu
  | 0x05 => (MemOp.dec w).map .ldw
  | 0x06 => (MemOp.dec w).map .ldwu
  | 0x07 => (MemOp.dec w).map .ldd
  | 0x08 => (MemOp.dec w).map .ldv
  | 0x09 => (MemOp.dec w).map .ldvs
  | 0x0A => (GatOp.dec w).map .ldvg
  | 0x0B => (PrbOp.dec w).map .probe
  | 0x0C => (LnOp.dec w).map .pwait
  | 0x0D => (LnOp.dec w).map .pref
  | 0x0E => (LnOp.dec w).map .llclk
  | 0x0F => (LnOp.dec w).map .llcul
  | _ => none

/-- ST slot (R154). -/
def decST (w : Nat) : Option Instr :=
  match bitsAt w 59 5 with
  | 0x01 => (MemOp.dec w).map .stb
  | 0x02 => (MemOp.dec w).map .sth
  | 0x03 => (MemOp.dec w).map .stw
  | 0x04 => (MemOp.dec w).map .std
  | 0x05 => (MemOp.dec w).map .stv
  | 0x06 => (MemOp.dec w).map .stvs
  | 0x07 => (GatOp.dec w).map .stvx
  | 0x08 => (AtmOp.dec w).map .aadd
  | 0x09 => (AtmOp.dec w).map .aand
  | 0x0A => (AtmOp.dec w).map .aor
  | 0x0B => (AtmOp.dec w).map .axor
  | 0x0C => (AtmOp.dec w).map .amin
  | 0x0D => (AtmOp.dec w).map .aminu
  | 0x0E => (AtmOp.dec w).map .amax
  | 0x0F => (AtmOp.dec w).map .amaxu
  | 0x10 => (AtmOp.dec w).map .axch
  | 0x11 => (AtmOp.dec w).map .acas
  | 0x12 => (AtmOp.dec w).map .afadd
  | _ => none

/-- SY slot (R155). FENCE and SIGNAL are told apart by SCOPE and OP (R147). -/
def decSY (w : Nat) : Option Instr :=
  match bitsAt w 42 6 with
  | 0x01 => (BarOp.dec w).map .bara
  | 0x02 => (BarOp.dec w).map .barw
  | 0x03 => (BarOp.dec w).map .baraw
  | 0x04 => (BarCfgOp.dec w).map .barcfg
  | 0x05 => (TokwOp.dec w).map .tokw
  | 0x06 => (TokstOp.dec w).map .tokst
  | 0x07 => (CtrwOp.dec w).map .ctrw
  | 0x08 => (WpwOp.dec w).map .wpw
  | 0x09 => (SyOp.dec w).map .qmark
  | 0x0A => match bitsAt w 36 2 with
    | 0 => (SyOp.decFence w).map .fenceT
    | 1 => (SyOp.decFence w).map .fenceG
    | 2 => (SyOp.decFence w).map .fenceD
    | _ => (SyOp.decFence w).map .fenceS
  | 0x0B => (RingCfgOp.dec w).map .ringcfg
  | 0x0C => match bitsAt w 22 2 with
    | 0 => (SabOp.dec w).map .signalStore
    | 1 => (SabOp.dec w).map .signalAdd
    | _ => none
  | 0x0D => (SabOp.decDq w).map .dqadv
  | 0x0E => (SyOp.dec w).map .yield
  | 0x0F => (WaityOp.dec w).map .waity
  | _ => none

/-- The instruction in a valid slot, none for ILLEGAL_OP. -/
def decodeSlot (sl : Slot) (w : Nat) : Option Instr :=
  match sl with
  | .s => decS w
  | .va => decV .a w
  | .vb => decV .b w
  | .mx => decMX w
  | .ld => decLD w
  | .st => decST w
  | .cp => decCP w
  | .sy => decSY w

/-- The slots in the order faults name them (R134). -/
def slotOrder : List Slot := [.s, .va, .vb, .mx, .ld, .st, .cp, .sy]

/-- Lowest bundle bit of a slot (R131). -/
def slotLow (sl : Slot) : Nat := match sl with
  | .s => 432 | .va => 368 | .vb => 304 | .mx => 240 | .ld => 176 | .st => 112 | .cp => 48 | .sy => 0

/-- Width of a slot (R131). -/
def slotWidth (sl : Slot) : Nat := match sl with
  | .s => 48 | .sy => 48 | _ => 64

/-- The bit of VALID of a slot, and of MASK of a fault record: S is bit 7, SY bit 0 (R131). -/
def validBit (sl : Slot) : Nat := match sl with
  | .s => 7 | .va => 6 | .vb => 5 | .mx => 4 | .ld => 3 | .st => 2 | .cp => 1 | .sy => 0

/-- A decoded bundle: the header fields of R131 and the instructions of its valid slots. -/
structure Bundle where
  seg : Bool
  drn : Bool
  nseg : Nat
  gap : Nat
  instrs : List Instr
  deriving DecidableEq, Repr

/-- Decode the valid slots of a bundle in the order of R134. -/
def decodeSlots (w : Nat) : List Slot → Except DecodeErr (List Instr)
  | [] => .ok []
  | sl :: rest =>
    if w / 2 ^ (496 + validBit sl) % 2 = 0 then decodeSlots w rest
    else match decodeSlot sl (bitsAt w (slotLow sl) (slotWidth sl)) with
      | none => .error (.slot sl)
      | some i => match decodeSlots w rest with
        | .ok is => .ok (i :: is)
        | .error e => .error e

/-- Decode a bundle of 512 bits: total on any bits, refusing by name (R131, R134). -/
def decodeBundle (w : Nat) : Except DecodeErr Bundle :=
  let seg := decide (w / 2 ^ 511 % 2 = 1)
  if bitsAt w 480 8 ≠ 0 ∨ (seg = false ∧ bitsAt w 504 6 ≠ 0) then .error .header
  else match decodeSlots w slotOrder with
    | .error e => .error e
    | .ok is => .ok ⟨seg, decide (w / 2 ^ 510 % 2 = 1), bitsAt w 504 6, bitsAt w 488 8, is⟩

/-- Bytes, first at the lowest address, as a little-endian number (00 R7). -/
def ofBytes : List Byte → Nat
  | [] => 0
  | b :: bs => b.toNat + 256 * ofBytes bs

/-- The `n` low bytes of a number, little-endian. -/
def toBytes : Nat → Nat → List Byte
  | 0, _ => []
  | n + 1, w => BitVec.ofNat 8 w :: toBytes n (w / 256)

/-- A control-die task of an ordinary grid: the shape against which a word standing alone is judged. -/
def plainCtx : EncCtx := ⟨false, false, [1]⟩

/-- The instruction a bundle word stands for when exactly one slot is valid, NOP when none is (R126), for the context `x`. -/
def decodeOne (x : EncCtx) (w : Nat) : Option Instr :=
  match decodeBundle w with
  | .error _ => none
  | .ok b => match b.instrs with
    | [] => some .nop
    | [i] => if i.wellFormedB x then some i else none
    | _ => none

/-- The instruction this decoder reads from the word of one opcode-table row. The table gives its rows no encoding, so the word
is a whole bundle of 512 bits, in the byte order of R131. -/
def decodeTableWord (_nbits w : Nat) : Option Instr := decodeOne plainCtx (ofBytes (toBytes 64 w))

/-- An opcode placed above the fields of an S, vector, engine or memory, or SY slot (R143 to R147). -/
def wordS (op fields : Nat) : Nat := op * 2 ^ 40 + fields
def wordV (op fields : Nat) : Nat := op * 2 ^ 54 + fields
def wordE (op fields : Nat) : Nat := op * 2 ^ 59 + fields
def wordY (op fields : Nat) : Nat := op * 2 ^ 42 + fields
def wordFence (scope fields : Nat) : Nat := wordY 0x0A (scope * 2 ^ 36 + fields)
def wordSignal (op fields : Nat) : Nat := wordY 0x0C (op * 2 ^ 22 + fields)

/-- The word of a slot instruction in its slot, from the encoding tables of R143 to R155; zero for NOP and the events. -/
def encode (i : Instr) : Nat :=
  match i with
  | .add f => wordS 0x01 f.enc
  | .sub f => wordS 0x02 f.enc
  | .mul f => wordS 0x03 f.enc
  | .mulh f => wordS 0x04 f.enc
  | .mulhu f => wordS 0x05 f.enc
  | .div f => wordS 0x06 f.enc
  | .divu f => wordS 0x07 f.enc
  | .rem f => wordS 0x08 f.enc
  | .remu f => wordS 0x09 f.enc
  | .and f => wordS 0x0A f.enc
  | .or f => wordS 0x0B f.enc
  | .xor f => wordS 0x0C f.enc
  | .shl f => wordS 0x0D f.enc
  | .shr f => wordS 0x0E f.enc
  | .sar f => wordS 0x0F f.enc
  | .min f => wordS 0x10 f.enc
  | .minu f => wordS 0x11 f.enc
  | .max f => wordS 0x12 f.enc
  | .maxu f => wordS 0x13 f.enc
  | .addi f => wordS 0x14 f.enc
  | .andi f => wordS 0x15 f.enc
  | .ori f => wordS 0x16 f.enc
  | .xori f => wordS 0x17 f.enc
  | .shli f => wordS 0x18 f.enc
  | .shri f => wordS 0x19 f.enc
  | .sari f => wordS 0x1A f.enc
  | .movi f => wordS 0x1B f.enc
  | .movhi f => wordS 0x1C f.enc
  | .ext f => wordS 0x1D f.enc
  | .extu f => wordS 0x1E f.enc
  | .ins f => wordS 0x1F f.enc
  | .clz f => wordS 0x20 f.enc
  | .popc f => wordS 0x21 f.enc
  | .cmp f => wordS 0x22 f.enc
  | .cmpi f => wordS 0x23 f.enc
  | .gand f => wordS 0x24 f.enc
  | .gor f => wordS 0x25 f.enc
  | .gxor f => wordS 0x26 f.enc
  | .sel f => wordS 0x27 f.enc
  | .fadd f => wordS 0x28 f.enc
  | .fsub f => wordS 0x29 f.enc
  | .fmul f => wordS 0x2A f.enc
  | .fma f => wordS 0x2B f.enc
  | .fdiv f => wordS 0x2C f.enc
  | .fsqrt f => wordS 0x2D f.enc
  | .fmin f => wordS 0x2E f.enc
  | .fmax f => wordS 0x2F f.enc
  | .fcmp f => wordS 0x30 f.enc
  | .fcvt f => wordS 0x31 f.enc
  | .br f => wordS 0x32 f.enc
  | .call f => wordS 0x33 f.enc
  | .ret f => wordS 0x34 f.enc
  | .kloop f => wordS 0x35 f.enc
  | .shw f => wordS 0x36 f.enc
  | .mfsr f => wordS 0x37 f.enc
  | .mtsr f => wordS 0x38 f.enc
  | .trap f => wordS 0x39 f.enc
  | .tret f => wordS 0x3A f.enc
  | .exit f => wordS 0x3B f.enc
  | .vadd f => wordV 0x001 f.enc
  | .vsub f => wordV 0x002 f.enc
  | .vmul f => wordV 0x003 f.enc
  | .vfma f => wordV 0x004 f.enc
  | .vfms f => wordV 0x005 f.enc
  | .vdiv f => wordV 0x006 f.enc
  | .vsqrt f => wordV 0x007 f.enc
  | .vmin f => wordV 0x008 f.enc
  | .vmax f => wordV 0x009 f.enc
  | .vabs f => wordV 0x00A f.enc
  | .vneg f => wordV 0x00B f.enc
  | .vand f => wordV 0x010 f.enc
  | .vor f => wordV 0x011 f.enc
  | .vxor f => wordV 0x012 f.enc
  | .vnot f => wordV 0x013 f.enc
  | .vshl f => wordV 0x014 f.enc
  | .vshr f => wordV 0x015 f.enc
  | .vsar f => wordV 0x016 f.enc
  | .vcvt f => wordV 0x020 f.enc
  | .vqnt f => wordV 0x021 f.enc
  | .vdqnt f => wordV 0x022 f.enc
  | .vunpk f => wordV 0x023 f.enc
  | .vpack f => wordV 0x024 f.enc
  | .vbdot f => wordV 0x028 f.enc
  | .vexp f => wordV 0x030 f.enc
  | .vlog f => wordV 0x031 f.enc
  | .vsin f => wordV 0x032 f.enc
  | .vcos f => wordV 0x033 f.enc
  | .vtanh f => wordV 0x034 f.enc
  | .vrsqrt f => wordV 0x035 f.enc
  | .vrcp f => wordV 0x036 f.enc
  | .vsigm f => wordV 0x037 f.enc
  | .vcmp f => wordV 0x040 f.enc
  | .vsel f => wordV 0x041 f.enc
  | .vrotr f => wordV 0x050 f.enc
  | .vrotc f => wordV 0x051 f.enc
  | .vbcr f => wordV 0x052 f.enc
  | .vbcc f => wordV 0x053 f.enc
  | .vredr f => wordV 0x054 f.enc
  | .vredc f => wordV 0x055 f.enc
  | .vshuf f => wordV 0x060 f.enc
  | .vperm f => wordV 0x061 f.enc
  | .vpatld f => wordV 0x062 f.enc
  | .vpatsw f => wordV 0x063 f.enc
  | .vctd f => wordV 0x064 f.enc
  | .vctld f => wordV 0x065 f.enc
  | .vtrn f => wordV 0x066 f.enc
  | .vmov f => wordV 0x070 f.enc
  | .vsplats f => wordV 0x071 f.enc
  | .vsplati f => wordV 0x072 f.enc
  | .vpand f => wordV 0x078 f.enc
  | .vpor f => wordV 0x079 f.enc
  | .vpxor f => wordV 0x07A f.enc
  | .mlease f => wordE 0x01 f.enc
  | .mrel f => wordE 0x02 f.enc
  | .mmode f => wordE 0x03 f.enc
  | .mwld f => wordE 0x04 f.enc
  | .mmac f => wordE 0x05 f.enc
  | .mclr f => wordE 0x06 f.enc
  | .mdrn f => wordE 0x07 f.enc
  | .mstat f => wordE 0x08 f.enc
  | .cpyl f => wordE 0x01 f.enc
  | .cpys f => wordE 0x02 f.enc
  | .cpyc f => wordE 0x03 f.enc
  | .cpfill f => wordE 0x04 f.enc
  | .lxfr f => wordE 0x05 f.enc
  | .bkmac f => wordE 0x06 f.enc
  | .bkkey f => wordE 0x07 f.enc
  | .bkcmp f => wordE 0x08 f.enc
  | .bkwr f => wordE 0x09 f.enc
  | .bktt f => wordE 0x0A f.enc
  | .bkrd f => wordE 0x0B f.enc
  | .ldb f => wordE 0x01 f.enc
  | .ldbu f => wordE 0x02 f.enc
  | .ldh f => wordE 0x03 f.enc
  | .ldhu f => wordE 0x04 f.enc
  | .ldw f => wordE 0x05 f.enc
  | .ldwu f => wordE 0x06 f.enc
  | .ldd f => wordE 0x07 f.enc
  | .ldv f => wordE 0x08 f.enc
  | .ldvs f => wordE 0x09 f.enc
  | .ldvg f => wordE 0x0A f.enc
  | .probe f => wordE 0x0B f.enc
  | .pwait f => wordE 0x0C f.enc
  | .pref f => wordE 0x0D f.enc
  | .llclk f => wordE 0x0E f.enc
  | .llcul f => wordE 0x0F f.enc
  | .stb f => wordE 0x01 f.enc
  | .sth f => wordE 0x02 f.enc
  | .stw f => wordE 0x03 f.enc
  | .std f => wordE 0x04 f.enc
  | .stv f => wordE 0x05 f.enc
  | .stvs f => wordE 0x06 f.enc
  | .stvx f => wordE 0x07 f.enc
  | .aadd f => wordE 0x08 f.enc
  | .aand f => wordE 0x09 f.enc
  | .aor f => wordE 0x0A f.enc
  | .axor f => wordE 0x0B f.enc
  | .amin f => wordE 0x0C f.enc
  | .aminu f => wordE 0x0D f.enc
  | .amax f => wordE 0x0E f.enc
  | .amaxu f => wordE 0x0F f.enc
  | .axch f => wordE 0x10 f.enc
  | .acas f => wordE 0x11 f.enc
  | .afadd f => wordE 0x12 f.enc
  | .bara f => wordY 0x01 f.enc
  | .barw f => wordY 0x02 f.enc
  | .baraw f => wordY 0x03 f.enc
  | .barcfg f => wordY 0x04 f.enc
  | .tokw f => wordY 0x05 f.enc
  | .tokst f => wordY 0x06 f.enc
  | .ctrw f => wordY 0x07 f.enc
  | .wpw f => wordY 0x08 f.enc
  | .qmark f => wordY 0x09 f.enc
  | .fenceT f => wordFence 0 f.enc
  | .fenceG f => wordFence 1 f.enc
  | .fenceD f => wordFence 2 f.enc
  | .fenceS f => wordFence 3 f.enc
  | .ringcfg f => wordY 0x0B f.enc
  | .signalStore f => wordSignal 0 f.enc
  | .signalAdd f => wordSignal 1 f.enc
  | .dqadv f => wordY 0x0D f.enc
  | .yield f => wordY 0x0E f.enc
  | .waity f => wordY 0x0F f.enc
  | _ => 0

/-- The bundle word that holds instruction `i` alone, with no header attribute. -/
def encodeBundle1 (i : Instr) : Nat :=
  match slotOf i with
  | none => 0
  | some sl => 2 ^ (496 + validBit sl) + encode i * 2 ^ slotLow sl

/-- The bundle word of a decoded bundle (R131). -/
def encodeBundle (b : Bundle) : Nat :=
  (if b.seg then 2 ^ 511 else 0) + (if b.drn then 2 ^ 510 else 0) + b.nseg * 2 ^ 504 + b.gap * 2 ^ 488
    + (b.instrs.map encodeBundle1).sum

end Sys2Proof
end

