-- ==== Sys2Proof/Machine/State.lean ====
section
/-! DEFINITION. The state of one module as plain data, the reasons a step may stop, and the state after reset (INVENTORY.md,
State). Every table lists only what differs from its default, so equal states are equal data. -/

namespace Sys2Proof.Machine
open Sys2Proof

/-! ## Stops -/

/-- A machine stop that is no exception of the part. -/
inductive Fault where
  /-- The module has lost its supply and nothing runs until POWER_UP (23 R392): raised by `step` after POWER_LOSS. Safe: the
  module does nothing there either. -/
  | powerLost
  /-- The boot ROM found no firmware it may run, and nothing further runs (22 R384): raised by `step`. Safe: the module does nothing
  there either. -/
  | bootFailed
  deriving DecidableEq, Repr

/-- Why an operation has no effect to model. -/
inductive Refusal where
  /-- The instruction has no meaning yet: raised by Dispatch only. Safe. -/
  | notModelled (mnemonic : String)
  deriving DecidableEq, Repr

/-- The outcome of an operation. -/
abbrev Res (σ : Type) := Host.Outcome σ Fault Refusal

/-! ## Results in flight (01 R14 to R16) -/

/-- A vector register that a result names: a physical main register (01 R23) or an operand-file register. -/
inductive VDest where
  | main (n : Nat)
  | op (n : Nat)
  deriving DecidableEq, Repr

/-- What a result in flight will write. -/
inductive Result where
  /-- s[d]; d = 0 discards (01 R22). -/
  | scal (d : Nat) (v : Word)
  /-- g[n]; n = 0 is ignored. -/
  | guard (n : Nat) (v : Bool)
  /-- A vector result with the cells its predicate enables (01 R20); none: the age queue only, or vz. -/
  | vec (d : Option VDest) (v : VReg) (en : PReg)
  /-- p[n] with the cells written. -/
  | pred (n : Nat) (v en : PReg)
  /-- A shuffle entry of the bank inactive when it lands (07 R202). -/
  | pat (n : Nat) (v : BitVec 4096)
  /-- A code table, seen by later bundles (01 R29). -/
  | ctab (n : Nat) (v : BitVec 256)
  deriving DecidableEq, Repr

/-- A result in flight: what it writes, the push it owns, its issue cycle and bound, its flags. -/
structure Pend where
  res : Result
  push : Option Nat
  issued : Nat
  lat : Nat
  flags : BitVec 5
  landed : Bool
  deriving DecidableEq, Repr

/-! ## Accesses in the queues (02 R56) -/

/-- The kinds of atomic (09 R253). -/
inductive AtomKind where
  | add | and | or | xor | min | minu | max | maxu | xchg | cas | fadd | faddBf
  deriving DecidableEq, Repr

/-- The address spaces of an access (05 R146). -/
inductive Space where
  | glob | loc | ring
  deriving DecidableEq, Repr

/-- The destination of a load. -/
inductive LDest where
  | s (n : Nat)
  | v (d : VDest)
  | none
  /-- A probe fill: local offset, slot and block number (02 R53); its poisoned sectors stand in bits 2048 to 2055 of the data. -/
  | fill (off slot block : Nat)
  deriving DecidableEq, Repr

/-- What an entry of a queue is. -/
inductive AccKind where
  /-- A scalar load of `size` bytes, sign-extended or not. -/
  | ldS (size : Nat) (signed : Bool)
  /-- LDV, LDVS, and LDVG element by element. -/
  | ldV
  /-- A probe fill of a 256-byte block (02 R53). -/
  | fill
  /-- A store, its bytes in `data`. -/
  | st
  /-- An atomic: operand, compare value, return address, token, flavour and scope (09 R253). -/
  | atom (op : AtomKind) (v cmp : Word) (old : Option Nat) (tk : Nat) (fl scope : Nat)
  /-- SIGNAL: add, or store (09 R264). -/
  | sig (add : Bool)
  /-- DQADV, a release at device scope (09 R265). -/
  | dqadv (q : Nat) (v : Word)
  /-- QMARK (02 R60), in both queues under one number. -/
  | mark
  /-- A fence of a scope 0 task to 3 system (02 R63), in both queues under one number. -/
  | fence (scope : Nat)
  /-- LLCLK or LLCUL whose translation failed: held outside the queues (09 R249). -/
  | line (lock : Bool)
  deriving DecidableEq, Repr

/-- A translated access: its physical address, and the key where the page has ENC or ITAG (22 R382). -/
structure Phys where
  pa : Nat
  enc : Option (BitVec 512)
  itag : Option (BitVec 512)
  deriving DecidableEq, Repr

/-- One contiguous part of an access, at most 32 bytes: its address in its space, its length, the place of its bytes in `data`,
and its physical address once it is known. -/
structure Piece where
  addr : Nat
  len : Nat
  off : Nat
  pa : Option Phys
  deriving DecidableEq, Repr

/-- An access in a queue. -/
structure Acc where
  /-- Place in program order, over both queues. -/
  seq : Nat
  kind : AccKind
  dest : LDest
  space : Space
  /-- Opcode of its slot and bundle address, for the fault record (20 R339). -/
  opc : Nat
  baddr : Nat
  /-- Its address, of the first part: the one a record names. -/
  addr : Nat
  /-- Gather or scatter: each piece is an access of its own. -/
  elems : Bool
  pieces : List Piece
  data : VReg
  /-- The bytes that have performed met poison (02 R74). -/
  poisoned : Bool
  /-- A translation failed or met a host-owned page: the access is held (09 R238). -/
  held : Bool
  /-- It was held, a TRET 0 has released it, and it has not performed (02 R63, 20 R341). -/
  freed : Bool
  deriving DecidableEq, Repr

/-- A value on its way to a register: the load has performed and not landed (01 R15). -/
structure Arrival where
  seq : Nat
  dest : LDest
  value : VReg
  /-- Requests it still counts for (09 R240). -/
  weight : Nat
  /-- The destination keeps its contents (09 R239). -/
  dropped : Bool
  deriving DecidableEq, Repr

/-- An atomic that has performed and whose old value has not landed (02 R65). -/
structure OldVal where
  seq : Nat
  addr : Nat
  width : Nat
  value : Nat
  tk : Nat
  deriving DecidableEq, Repr

/-! ## The scalar context: the task's, and F's own (01 R17, R43) -/

/-- Scalar registers, guards, flags, bundle address, queues and results in flight of one context. -/
structure SCtx where
  s : Tab Word
  /-- The scalar age queue by ring position, and its push counter. -/
  saq : Tab Word
  sapc : Nat
  /-- g1 to g15 by bit; bit 0 is not used, g0 reads true. -/
  g : BitVec 16
  /-- VFLAGS [4:0]. -/
  vflags : BitVec 5
  /-- The bundle address of the next bundle to issue. -/
  pc : Nat
  /-- The target of a control transfer made by the bundle in issue. -/
  jump : Option Nat
  /-- The bundle that issued last (20 R340, SEG at a transfer), the cycle of its issue, and its DRN mark (05 R132). -/
  last : Nat
  lastIssue : Option Nat
  drn : Bool
  pend : List Pend
  loadQ : List Acc
  storeQ : List Acc
  /-- Line locks and unlocks held by a failed translation (09 R249). -/
  lineQ : List Acc
  arrivals : List Arrival
  olds : List OldVal
  /-- The number of the next access in program order. -/
  seq : Nat
  deriving DecidableEq, Repr

/-! ## Synchronisation state of a core -/

/-- A barrier at its home (01 R28, 09 R257). -/
structure Barrier where
  cnt : Nat
  arr : Nat
  gen : BitVec 32
  pendCnt : Option Nat
  deriving DecidableEq, Repr

/-- The record of a task's last arrival at an index (09 R256). -/
structure ArrRec where
  stage : Nat
  task : Nat
  gen : BitVec 32
  seq : Nat
  counted : Bool
  deriving DecidableEq, Repr

/-- A barrier operation that has issued and not taken effect at the home: an arrival, or a BARCFG's count. -/
structure BarReq where
  bar : Nat
  stage : Nat
  task : Nat
  cfg : Option Nat
  seq : Nat
  deriving DecidableEq, Repr

/-- A ring descriptor (09 R262). -/
structure Ring where
  wordA : Word
  wordB : Word
  deriving DecidableEq, Repr

/-- The pointers PP and CP and the recorded barrier pair of a ring index at its home (10 R282, R283). -/
structure RingHome where
  pp : BitVec 32
  cp : BitVec 32
  pair : Option (Nat × Nat)
  deriving DecidableEq, Repr

/-- A TOKST waiting for the stores ahead of it (02 R69). -/
structure TokSt where
  tk : Nat
  seq : Nat
  deriving DecidableEq, Repr

/-- A probe slot's tag (02 R53, R54, 20 R346). -/
structure Tag where
  block : Nat
  valid : Bool
  locked : Bool
  age : Nat
  /-- The number of the fill that is pending for it, the newest one. -/
  fill : Option Nat
  deriving DecidableEq, Repr

/-! ## Engine commands (08 R208) -/

/-- A command in an engine's queue: the instruction, its captured operands, what it still waits for, and how far it has gone. -/
structure Cmd where
  core : Nat
  instr : Instr
  baddr : Nat
  /-- Context and launch of the task that issued it. -/
  ctx : Nat
  a : Word
  b : Word
  c : Word
  shape : BitVec 512
  vec : VReg
  /-- A vector destination of MDRN, resolved at issue. -/
  vdest : Option VDest
  tp : Option Nat
  /-- Consumed tokens that are not yet set. -/
  needs : List Nat
  /-- The block or handle entry, once read (01 R32). -/
  blk : Option (List Byte)
  /-- The hearth has taken it, or its first access is allowed. -/
  started : Bool
  /-- Bytes, sectors, vectors or rows done. -/
  prog : Nat
  /-- Status bits gathered for the status word. -/
  status : Word
  /-- The command stopped or was refused: nothing more of it happens but its completion. -/
  stopped : Bool
  /-- MMAC: the flags of its passes (03 R88). -/
  flags : BitVec 5
  /-- A bank command: where its rows stand, once it has opened them (08 R231). -/
  place : Option Phys
  /-- Copies: bytes read ahead of landing, and the values read, each with whether it was poisoned; of an MWLD the rows it has read ahead, of a
  drain to memory the image of each half, taken when it took effect (02 R67). -/
  rprog : Nat
  buf : List (Nat × Bool)
  /-- LXFR: what the far end's handshake names, N and EFMT with MX in bit 6 (08 R227). -/
  peer : Option (Nat × Nat)
  /-- CPYS: the destination sectors of the bytes it has read, by number, each with the translation taken before its source was read (08
  R225). -/
  dests : List (Nat × Phys)
  deriving DecidableEq, Repr

/-! ## Reports and the run state of a task (20 R337 to R342) -/

/-- A fault or trap report. -/
structure Report where
  cause : Nat
  sub : Nat
  addr : Word
  baddr : Nat
  /-- Faulting slot, 0 S to 7 SY; 255 none. -/
  slot : Nat
  mask : Nat
  deferred : Bool
  /-- NEXT is BADDR: the CTRW cases of 20 R340. -/
  again : Bool
  /-- The report of a held access (09 R238). -/
  held : Bool
  /-- CODE of a TRAP. -/
  code : Nat
  deriving DecidableEq, Repr

/-- A cached translation (20 R352): context, page address, page size exponent 16 or 26, leaf entry. -/
structure Xlat where
  ctx : Nat
  page : Nat
  large : Bool
  entry : Word
  deriving DecidableEq, Repr

/-- What the task bound to a core is doing. -/
inductive Run where
  /-- No task is bound. -/
  | idle
  /-- Issuing. -/
  | run
  /-- Stopped by a fault or trap, F in its handler (20 R334). -/
  | handler
  deriving DecidableEq, Repr

/-- Why a gang leaves its cores. -/
inductive Why where
  | budget | preempt | yield | waity
  /-- DISCARD (19 R329): the group ends, or it is to be rerun elsewhere (20 R342, R348). -/
  | ended | rerun
  deriving DecidableEq, Repr

/-- The identity of a task (01 R39) and what its bind record and launch fixed (19 R327). -/
structure Ident where
  task : Nat
  wide : Bool
  ntask : Nat
  x : Nat
  y : Nat
  z : Nat
  gx : Nat
  gy : Nat
  gz : Nat
  gridId : Nat
  stage : Nat
  nstage : Nat
  launchSeq : Nat
  ctx : Nat
  gang : Nat
  claim : Bool
  /-- Scratchpad bank bound: 0 A, 1 B. -/
  bank : Nat
  save : Nat
  budget : Nat
  args : Nat
  fuseId : Nat
  /-- Image base address, for segment copies (18 R310). -/
  image : Nat
  deriving DecidableEq, Repr

/-- An entry of a segment table (18 R310). -/
structure Seg where
  offset : Nat
  first : Nat
  count : Nat
  deriving DecidableEq, Repr

/-- A segment copy in progress (18 R311). -/
structure SegCopy where
  seg : Nat
  half : Nat
  /-- It failed translation: SEG at the transfer that needs the segment. -/
  failed : Bool
  deriving DecidableEq, Repr

/-- Instruction memory of a core. -/
structure IMem where
  /-- Bundles of the two halves, half × bundles per half + index. -/
  code : Tab (BitVec 512)
  /-- The segment each half holds. -/
  res0 : Option Nat
  res1 : Option Nat
  copy : Option SegCopy
  /-- Background copies asked for and not started (05 R132). -/
  asked : List Nat
  segtab : List Seg
  /-- Splice area (10 R274) and the number of fused bundles; with `fused` the task fetches from it. -/
  splice : Tab (BitVec 512)
  fused : Nat
  /-- A segment whose copy failed translation and was not retried (18 R311). -/
  failed : List Nat
  /-- The half that holds the next record's preload (19 R330). -/
  pre : Option Nat
  /-- The inserted KLOOP of a fused program: its address and trip count D (10 R275). -/
  loop : Option (Nat × Word)
  /-- The address of the producer's last fused bundle and the CODE of its removed EXIT (10 R281). -/
  pexit : Option (Nat × Nat)
  deriving DecidableEq, Repr

/-- Vector state of a core. -/
structure VSt where
  v : Tab VReg
  vo : Tab VReg
  /-- The vector age queue by ring position, and APC. -/
  vaq : Tab VReg
  apc : Nat
  p : Tab PReg
  /-- Shuffle entries: bank × 64 + entry; and the active bank. -/
  sh : Tab (BitVec 4096)
  active : Nat
  ct : Tab (BitVec 256)
  rrb : BitVec 6
  /-- The cycles in which the VA and VB units free (01 R13). -/
  freeA : Nat
  freeB : Nat
  deriving DecidableEq, Repr

/-- One core with the task bound to it and its firmware context. -/
structure Core where
  run : Run
  /-- The task's scalar context and F's. -/
  t : SCtx
  f : SCtx
  vs : VSt
  /-- Shape registers mz0 to mz3, cz0 to cz3 and their shadows (01 R25). -/
  shp : Tab (BitVec 512)
  shd : Tab (BitVec 512)
  /-- Pending tokens by bit: a clear bit is a set token (01 R27). -/
  tkPending : Word
  bars : Tab Barrier
  arecs : Tab (Option ArrRec)
  barQ : List BarReq
  /-- The barrier index a BARAW makes the next bundle wait at. -/
  bawait : Option Nat
  rings : Tab (Option Ring)
  ringHome : Tab RingHome
  wp : Tab Word
  lcount : Word
  lstat : Word
  thbase : Word
  probecfg : Word
  tags : Tab Tag
  tcycle : Word
  segstall : Word
  ident : Ident
  imem : IMem
  /-- The core's cycle counter. -/
  cyc : Nat
  /-- The code of an EXIT that has issued: no later bundle does (06 R179). -/
  exited : Option Nat
  cpQ : List Cmd
  toksts : List TokSt
  /-- A CTRW that stalls its bundle: counter address, threshold, and whether its read has seen the threshold (09 R259). -/
  ctrw : Option (Word × Word × Bool)
  reports : List Report
  /-- Retry mask of a kind A resume: the slots whose bits are 0 execute (20 R341). -/
  resume : Option Nat
  /-- Cycles of this residency, for the budget (19 R332). -/
  resident : Nat
  /-- The record in MMIO is a deferred one awaiting TRET (20 R341). -/
  handlerDeferred : Bool
  /-- Why the gang is leaving, once it is. -/
  why : Option Why
  /-- Held accesses up to this number perform before the next bundle (20 R341). -/
  hold : Option Nat
  /-- The next bundle waits for the base die to accept its translation miss (20 R352). -/
  missWait : Bool
  /-- The task has finished (06 R179); its core stays bound until its whole gang has (01 R36, log 22). -/
  finished : Bool
  /-- A fused task: the producer's exit status, once its last bundle has issued (10 R281). -/
  pcode : Option Nat
  /-- The next record's scratchpad preload is complete (19 R330). -/
  filled : Bool
  /-- Translations that the core itself caches, the newest first (20 R352). -/
  xlat : List Xlat
  /-- Model's own: whether F takes the cycle at each of the core's coming turns, outside its handlers (01 R43; log 91); and whether it
  has taken this one. -/
  fTurn : List Bool
  fNow : Bool
  /-- The window of 256 cycles in which F last took a cycle, and how many it took there (01 R43, 19 R334). -/
  fWin : Nat
  fUsed : Nat
  deriving DecidableEq, Repr

/-! ## Hearths (spec/04) -/

/-- The state of one half of a macro (04 R109). -/
structure Half where
  compute : Bool
  fp4 : Bool
  wbad : Bool
  psn : Bool
  deriving DecidableEq, Repr

/-- A group of a grid in flight: grid identifier, stage and coordinates. -/
structure GroupId where
  grid : Nat
  stage : Nat
  x : Nat
  y : Nat
  z : Nat
  deriving DecidableEq, Repr

/-- What a claiming group reads of its hearth's history (04 R121, R122): KEPT as 0 not yet, 1 kept, 2 lost; and LOSS. -/
structure Claim where
  id : GroupId
  /-- The hearth it was bound to last. -/
  hearth : Nat
  kept : Nat
  loss : Nat
  deriving DecidableEq, Repr

/-- One hearth. Halves are numbered (layer × 512 + macro) × 2 + half, accumulator cells
(((layer × 512 + macro) × 16 + vector) × 128 + column). -/
structure Hearth where
  halves : Tab Half
  acc : Tab (BitVec 32)
  /-- Commands received and not finished, in order (04 R110). -/
  cmds : List Cmd
  /-- Lease: holding core, commands left, cycle of the holder's last command, task index of the last holder. -/
  holder : Option Nat
  left : Nat
  lastMx : Nat
  lastHolder : Option Nat
  /-- Cores that request the lease. -/
  wants : List Nat
  /-- The claiming group bound last, and its context (04 R122). -/
  group : Option GroupId
  ctx : Nat
  zeroing : Bool
  deriving DecidableEq, Repr

/-! ## The module -/

/-- A bank unit: key, mask, tag vector, and the context that last wrote it (08 R231). -/
structure BankUnit where
  key : BitVec 32
  mask : BitVec 32
  tag : BitVec 256
  ctx : Option Nat
  deriving DecidableEq, Repr

/-- A counter update that is due (02 R70): the core whose task's command names it, 128 for a unit of the base die; its place and
increment; or, with `put`, a migration's status word that waits to be written (21 R366). A command's names its virtual address and the
command's bundle, for a report. -/
structure CtrDue where
  core : Nat
  at_ : Phys
  inc : Word
  put : Bool
  va : Nat
  baddr : Nat
  deriving DecidableEq, Repr

/-- The group of a task that launches children: its launch, stage and group coordinates (19 R325). -/
structure Parent where
  seq : Nat
  stage : Nat
  x : Nat
  y : Nat
  z : Nat
  deriving DecidableEq, Repr

/-- Units of a device-side queue that a DQADV exposed, as children of a group (19 R325). -/
structure Expose where
  queue : Nat
  lo : Nat
  hi : Nat
  parent : Parent
  deriving DecidableEq, Repr

/-- New numbers of a consumer's members by class, none for an unmarked one; the rotating offset; the hand-off names; Δ; and the shift of
rotating names in the section at hand (10 R275 to R277). -/
structure Renum where
  v : List (Option Nat)
  vo : List (Option Nat)
  s : List (Option Nat)
  g : List (Option Nat)
  p : List (Option Nat)
  tk : List (Option Nat)
  ch : List (Option Nat)
  mzs : List (Option Nat)
  czs : List (Option Nat)
  ct : List (Option Nat)
  sh : List (Option Nat)
  th : List (Option Nat)
  o : Nat
  hand : List (Nat × Nat)
  delta : Nat
  shift : Nat
  deriving DecidableEq, Repr

/-- A fused pair: Δ, Sf, the renumbering, and the trip count (10 R272). -/
structure Fusion where
  delta : Nat
  sf : Nat
  ren : Renum
  trip : Nat
  deriving DecidableEq, Repr

/-- A bundle of the fused program with its origin word (10 R280, 20 R344). -/
structure Fused where
  word : BitVec 512
  origin : Nat
  deriving DecidableEq, Repr

/-- A fused program as dispatch built it: the same each time a core takes it (10 R274, R281). `loopAt` is the address of its KLOOP, `pexit`
that of the producer's last bundle with the CODE of its EXIT. -/
structure FusedProg where
  fus : Fusion
  code : List Fused
  loopAt : Nat
  pexit : Option (Nat × Nat)
  deriving DecidableEq, Repr

/-- A grid in flight (19 R319 to R325). -/
structure Grid where
  id : Nat
  seq : Nat
  queue : Nat
  unit : Nat
  ctx : Nat
  gx : Nat
  gy : Nat
  gz : Nat
  ntask : Nat
  nstage : Nat
  flags : Nat
  nargs : Nat
  arg8 : Nat
  image : Nat
  /-- Argument block, as copied at dispatch. -/
  args : List Byte
  budget : Nat
  claim : Bool
  sig : Nat
  sigval : Word
  sigop : Bool
  intr : Bool
  rec_ : Nat
  /-- Level 0 for a host launch, and the group whose child it is (19 R325). -/
  level : Nat
  parent : Option Parent
  /-- Tasks still to finish over all groups. -/
  left : Nat
  status : Nat
  exitCode : Nat
  nexit : Nat
  /-- Program descriptors as read at dispatch, 64 bytes each (18 R306). -/
  descs : List (List Byte)
  /-- Splice header of stage 0 as read at dispatch, 256 bytes; empty without one (18 R309). -/
  header : List Byte
  /-- The grid this one is spliced with: 0 none; its role; and for a producer the fused program. -/
  fuseId : Nat
  consumer : Bool
  plan : Option FusedProg
  /-- GSTACK of a grotto grid: the stack its groups are bound to (19 R319). -/
  gstack : Option Nat
  deriving DecidableEq, Repr

/-- A wait packet being evaluated, by its first unit: its bytes as read (19 R318, R323). -/
structure Flight where
  queue : Nat
  unit : Nat
  packet : List Byte
  parent : Option Parent
  deriving DecidableEq, Repr

/-- A gang suspended by WAITY (09 R268): the core and bundle that issued it, where that context is saved, the block's address and bytes; and
the conditions whose address has failed, which stay false. -/
structure Susp where
  gang : Nat
  core : Nat
  baddr : Nat
  save : Nat
  at_ : Nat
  block : List Byte
  ctx : Nat
  parent : Parent
  dead : List Nat
  deriving DecidableEq, Repr

/-- A queued command of the invalidation unit (20 R353). -/
structure InvCmd where
  va : Nat
  ctr : Nat
  inc : Word
  ctx : Nat
  scope : Nat
  deriving DecidableEq, Repr

/-- A migration command that has started (21 R366): its refusal code of R367, 0 for a move; the source, which is MOVING while a move runs
(02 R76); the leaf entry's address and the entry as read. -/
structure MigRun where
  code : Nat
  src : Nat
  leafAt : Nat
  leaf : Word
  deriving DecidableEq, Repr

/-- A captured command of the migration engine (21 R365), and what it found once it has started. -/
structure MigCmd where
  va : Nat
  dst : Nat
  sts : Nat
  ctr : Nat
  inc : Word
  ctx : Nat
  large : Bool
  run : Option MigRun
  deriving DecidableEq, Repr

/-- A key command in progress (22 R382). -/
structure KeyCmd where
  ctx : Nat
  op : Nat
  ctr : Nat
  inc : Word
  deriving DecidableEq, Repr

/-- A decoded line's sector in a home slice (03 R98 to R100): region, sector address, its 32 bytes, dirty. -/
structure DecSec where
  addr : Nat
  data : BitVec 256
  dirty : Bool
  deriving DecidableEq, Repr

/-- An error record of a log (23 R387 to R389). -/
structure ErrRec where
  log : Nat
  seq : Nat
  cls : Nat
  loc : Nat
  time : Nat
  deriving DecidableEq, Repr

/-- What a save area keeps of a context beside the bytes the spec lists for it: the queue entries, their order and the reports
(20 R345 to R347). -/
structure Saved where
  toksts : List TokSt
  exited : Option Nat
  finished : Bool
  pcode : Option Nat
  loadQ : List Acc
  storeQ : List Acc
  lineQ : List Acc
  reports : List Report
  sapc : Nat
  apc : Nat
  seq : Nat
  pc : Nat
  last : Nat
  resume : Option Nat
  bawait : Option Nat
  drn : Bool
  handlerDeferred : Bool
  deriving DecidableEq, Repr

/-- Nothing kept. -/
def Saved.none : Saved := ⟨[], Option.none, false, Option.none, [], [], [], [], 0, 0, 0, 0, 0, Option.none, Option.none, false, false⟩

/-- The whole module. -/
structure State where
  /-- Model's own: events that happen next, in order (log 1). -/
  agenda : List Instr
  /-- Model's own: the core whose turn it is (log 1). -/
  cur : Nat
  /-- Model's own: the key of the next free value (log 3). -/
  fresh : Nat
  /-- Model's own: the bundle in issue has passed its checks; APC and the scalar push counter at its issue (01 R11, R18). -/
  issuing : Option (Nat × Nat)
  cores : Tab Core
  /-- Code of the firmware context, by bundle address (log 6). -/
  fcode : Tab (BitVec 512)
  hearths : Tab Hearth
  /-- Bytes by physical address (02 R46): HBM4E, tier, scratchpads, CIM storage and sidecar. -/
  mem : List Host.Cell
  /-- Host memory by host physical address (21 R359). -/
  hostMem : List Host.Cell
  /-- Host sectors whose completions are poisoned (1) or come back as errors (2), by host address / 32 (21 R360). -/
  hostBad : Tab Nat
  /-- Poisoned 32-byte sectors, by address / 32, rising (02 R73). -/
  poison : List Nat
  /-- Bit errors standing in stored sectors, as the bits that differ from what `mem` holds, by address / 32 (22 R380, 23 R399;
  log 15). -/
  flips : Tab (BitVec 256)
  /-- The key under which a sector's part of its line's integrity tag was last written, by address / 32 (22 R382; log 14). -/
  tags : Tab (Option (BitVec 512))
  /-- MMIO registers by physical address (02 R47). -/
  mmio : Tab Word
  banks : Tab BankUnit
  tlb : List Xlat
  /-- Translation misses queued at the base die: core and access number (20 R352). -/
  missQ : List (Nat × Nat)
  /-- Locked lines: line address and context (02 R50). -/
  locks : List (Nat × Nat)
  grids : List Grid
  /-- Claiming groups in flight (04 R122). -/
  claims : List Claim
  flights : List Flight
  /-- By priority, the queue from which the search for the next launch to serve begins (19 R336). -/
  serveFrom : Tab Nat
  /-- Launches that were dispatchable before the packet after them was exposed: queue and unit (10 R269). -/
  alone : List (Nat × Nat)
  exposes : List Expose
  susps : List Susp
  /-- By save-area address. -/
  saved : Tab Saved
  invQ : List InvCmd
  migQ : List MigCmd
  keys : Tab (Option (BitVec 512))
  keyQ : List KeyCmd
  /-- Lines filled under a key, by address / 64: the key, and whether written under it (22 R383). -/
  keyed : Tab (Option (BitVec 512 × Bool))
  /-- Format regions whose disable waits for their flush (03 R97). -/
  frOff : List Nat
  decoded : List DecSec
  counters : List CtrDue
  /-- Module sequence counters: launches, grids, error events (01 R39, 23 R387). -/
  launchSeq : Nat
  gridSeq : Nat
  devSeq : Nat
  /-- Records read by the firmware and not yet judged (23 R391). -/
  logs : List ErrRec
  /-- Events that wait for room in the ring (22 R386): two words each. -/
  heldEvents : List (Word × Word)
  /-- MSI-X vectors raised, newest first. -/
  msix : List Nat
  /-- Retired rows: the retirement store's records as 64-byte numbers (23 R392). -/
  retired : List Nat
  /-- Error history of this boot: the judged records (23 R391). -/
  history : List ErrRec
  /-- Rows under post-package repair since this boot, by bank and row (23 R394); pages sent for retirement and not yet vacated (R393);
  and the operator alarms raised: kind and place (R391, R392). -/
  repaired : List (Nat × Nat)
  retiring : List Nat
  /-- Banks judged lasting since boot, with the time of the record (R391). -/
  lastBanks : List (Nat × Nat)
  alarms : List (Nat × Nat)
  /-- The host mailbox (21 R361): a doorbell of H2D not yet served; D2H holds a message the host has not answered; messages that wait for
  it; and the replies that are expected, as words from the TYPE on. -/
  h2d : Bool
  mailBusy : Bool
  mailQ : List (List Nat)
  mailPend : List (List Nat)
  /-- Host CXL.mem accesses that wait at their home slices, the earlier first: whether a write, address, bytes, data; and the last response to
  one: 0 done, 1 unsupported, 2 poisoned, with the data (21 R358). -/
  hostQ : List (Bool × Nat × Nat × Nat)
  hostResp : Option (Nat × Nat)
  /-- Terms of the allowance step by hearth: heat, the steps it has been cool, power (24 R402; log 36). -/
  heatTerm : Tab Nat
  coolMs : Tab Nat
  powerTerm : Tab Nat
  /-- Capacity of the memory device attached at each expansion port, 0 for none (21 R362; log 13). -/
  tierCap : Tab Nat
  /-- What stands at the far end of each draught link: number of the module and of its link (21 R370; log 13). -/
  linkPeer : Tab (Option (Nat × Nat))
  /-- Remap entries whose spare the boot test finds defective, numbered over the module (23 R398; log 41). -/
  badSpare : List Nat
  /-- Stale rows of each bank: bank and row (22 R380). -/
  stale : List (Nat × Nat)
  /-- Refresh debt and next bank of each pseudo-channel, activation count of each bank (22 R375, R377). -/
  debt : Tab Nat
  head : Tab Nat
  acnt : Tab Nat
  /-- Requests that reached a slice and are not yet counted in the heat table, by page (21 R369). -/
  heatQ : List Nat
  /-- Links: the first frame from which a direction is free, by link × 2 + direction, 0 out and 1 in (21 R371); no frame boundary has come
  for too long (R372); and what has been sent: link, stamp, bytes, and of each byte whether it was poisoned (02 R74). -/
  linkFree : Tab Nat
  frameLost : Bool
  linkOut : List (Nat × Nat × List (Byte × Bool))
  /-- Firmware images of the two flash slots, the slot that the last accepted update wrote, security version floor and the running slot (24
  R405, R406). -/
  flash : Tab (List Byte)
  flashLast : Nat
  svnMin : Nat
  svn : Nat
  slotRun : Nat
  /-- CIM macros judged lasting whose spare waits until no group is bound to the hearth: hearth, layer, macro (23 R399). -/
  lasting : List (Nat × Nat × Nat)
  /-- Sideband target: register offset, the address it answers at, bytes of the last read, in-band interrupts sent (24 R404). -/
  i3cOff : BitVec 32
  i3cAddr : BitVec 7
  i3cOut : List Byte
  ibis : List Nat
  /-- POWER_UP has run (22 R384); and the supply is lost (23 R392). -/
  powered : Bool
  lost : Bool
  deriving DecidableEq, Repr

/-! ## Reset -/

/-- A scalar context with nothing in it (01 R33). -/
def SCtx.reset : SCtx := ⟨[], [], 0, 0, 0, 0, none, 0, none, false, [], [], [], [], [], [], 0⟩

/-- Vector state of a task at its start (01 R33). -/
def VSt.reset : VSt := ⟨[], [], [], 0, [], [], 0, [], 0, 0, 0⟩

/-- No task: every identity field zero (log 4). -/
def Ident.reset : Ident := ⟨0, false, 0, 0, 0, 0, 0, 0, 0, 0, 0, 0, 0, 0, 0, false, 0, 0, 0, 0, 0, 0⟩

/-- Instruction memory holding nothing. -/
def IMem.reset : IMem := ⟨[], none, none, none, [], [], [], 0, [], none, none, none⟩

/-- An idle core, its registers as at task start (01 R33, log 4). -/
def Core.reset : Core :=
  ⟨.idle, .reset, .reset, .reset, [], [], 0, [], [], [], none, [], [], [], 0, 0, 0, 0, [], 0, 0, .reset, .reset, 0, none,
    [], [], none, [], none, 0, false, none, none, false, false, none, false, [], [], false, 0, 0⟩

/-- A barrier at task start (01 R33). -/
def Barrier.reset : Barrier := ⟨1, 0, 0, none⟩
def RingHome.reset : RingHome := ⟨0, 0, none⟩
def Tag.reset : Tag := ⟨0, false, false, 0, none⟩
def Half.reset : Half := ⟨false, false, false, false⟩
/-- A hearth with no lease and nothing stored (04 R121, log 4). -/
def Hearth.reset : Hearth := ⟨[], [], [], none, 0, 0, none, [], none, 0, false⟩
def BankUnit.reset : BankUnit := ⟨0, 0, 0, none⟩

/-- The module right after reset. -/
def State.reset : State where
  agenda := []
  cur := 0
  fresh := 0
  issuing := none
  cores := []
  fcode := []
  hearths := []
  mem := []
  hostMem := []
  hostBad := []
  poison := []
  flips := []
  tags := []
  mmio := []
  banks := []
  tlb := []
  missQ := []
  locks := []
  grids := []
  claims := []
  flights := []
  serveFrom := []
  alone := []
  exposes := []
  susps := []
  saved := []
  invQ := []
  migQ := []
  keys := []
  keyQ := []
  keyed := []
  frOff := []
  decoded := []
  counters := []
  launchSeq := 0
  gridSeq := 0
  devSeq := 0
  logs := []
  heldEvents := []
  msix := []
  retired := []
  history := []
  repaired := []
  retiring := []
  lastBanks := []
  alarms := []
  h2d := false
  mailBusy := false
  mailQ := []
  mailPend := []
  hostQ := []
  hostResp := none
  heatTerm := []
  coolMs := []
  powerTerm := []
  tierCap := []
  linkPeer := []
  badSpare := []
  stale := []
  debt := []
  head := []
  acnt := []
  heatQ := []
  linkFree := []
  frameLost := false
  linkOut := []
  flash := []
  flashLast := 0
  svnMin := 0
  svn := 0
  slotRun := 0
  lasting := []
  i3cOff := 0
  i3cAddr := 0x3A
  i3cOut := []
  ibis := []
  powered := false
  lost := false

end Sys2Proof.Machine
end

