-- ==== Sys2Proof/Machine/Ops.lean ====
section
/-! DEFINITION. The named operations over the state: tables, memory cells, registers and results, tokens, reports and events, and
taking an exception (spec/20 R337 to R342), which every fault of the model goes through. -/

namespace Sys2Proof.Machine
open Sys2Proof

/-- An event happens where its condition holds; elsewhere it does not, and nothing changes (log 99). -/
def happens (s : State) (x : Option State) : Res State := .next (x.getD s)

/-! ## Tables -/

/-- The entry of a table, or the default of its key. -/
def tget {α : Type} (d : Nat → α) (t : Tab α) (k : Nat) : α :=
  match t with
  | [] => d k
  | (j, x) :: rest => if j = k then x else if k < j then d k else tget d rest k

/-- Drop or insert in rising order of keys. -/
def tput {α : Type} (t : Tab α) (k : Nat) (v : Option α) : Tab α :=
  match t with
  | [] => match v with
    | some x => [(k, x)]
    | none => []
  | (j, y) :: rest =>
    if j < k then (j, y) :: tput rest k v
    else if j = k then match v with
      | some x => (k, x) :: rest
      | none => rest
    else match v with
      | some x => (k, x) :: (j, y) :: rest
      | none => (j, y) :: rest

/-- Write an entry; the default is not listed. -/
def tset {α : Type} [DecidableEq α] (d : Nat → α) (t : Tab α) (k : Nat) (v : α) : Tab α :=
  tput t k (if v = d k then none else some v)

/-- The canonical form of a table: rising keys, no entry equal to its default. -/
def twf {α : Type} [DecidableEq α] (d : Nat → α) (t : Tab α) : Bool :=
  match t with
  | [] => true
  | [(k, v)] => decide (v ≠ d k)
  | (k, v) :: (j, w) :: rest => decide (v ≠ d k) && decide (k < j) && twf d ((j, w) :: rest)

/-! ## Memory cells

An unlisted address reads as zero (log 5). -/

/-- What an unlisted address reads as. -/
def unlisted : Byte := 0

/-- One byte of a memory. -/
def memGet (m : List Host.Cell) (a : Nat) : Byte := tget (fun _ => unlisted) m a

/-- Write one byte, keeping the canonical form. -/
def memSet (m : List Host.Cell) (a : Nat) (b : Byte) : List Host.Cell := tset (fun _ => unlisted) m a b

/-- The canonical form of a memory. -/
def Memory.wf (m : List Host.Cell) : Bool := twf (fun _ => unlisted) m

/-- `n` bytes from `a`, as a little-endian number (00 R7). -/
def memGetN (m : List Host.Cell) (a : Nat) : Nat → Nat
  | 0 => 0
  | n + 1 => (memGet m a).toNat + 256 * memGetN m (a + 1) n

/-- Write the `n` low bytes of a number from `a` on. -/
def memSetN (m : List Host.Cell) (a : Nat) : Nat → Nat → List Host.Cell
  | 0, _ => m
  | n + 1, w => memSetN (memSet m a (BitVec.ofNat 8 w)) (a + 1) n (w / 256)

/-- `n` bytes from `a`, as a list. -/
def memBytes (m : List Host.Cell) (a : Nat) : Nat → List Byte
  | 0 => []
  | n + 1 => memGet m a :: memBytes m (a + 1) n

/-- Write a list of bytes from `a` on. -/
def memSetBytes (m : List Host.Cell) (a : Nat) : List Byte → List Host.Cell
  | [] => m
  | b :: bs => memSetBytes (memSet m a b) (a + 1) bs

/-! ## Sets of numbers in rising order -/

def setIns : List Nat → Nat → List Nat
  | [], k => [k]
  | j :: rest, k => if j < k then j :: setIns rest k else if j = k then j :: rest else k :: j :: rest

def setDel (l : List Nat) (k : Nat) : List Nat := l.filter (fun j => decide (j ≠ k))

/-! ## Parts of the state -/

def State.core (s : State) (c : Nat) : Core := tget (fun _ => Core.reset) s.cores c
def State.setCore (s : State) (c : Nat) (k : Core) : State :=
  { s with cores := tset (fun _ => Core.reset) s.cores c k }
def State.modCore (s : State) (c : Nat) (f : Core → Core) : State := s.setCore c (f (s.core c))
def State.hearth (s : State) (h : Nat) : Hearth := tget (fun _ => Hearth.reset) s.hearths h
def State.setHearth (s : State) (h : Nat) (x : Hearth) : State :=
  { s with hearths := tset (fun _ => Hearth.reset) s.hearths h x }
def State.modHearth (s : State) (h : Nat) (f : Hearth → Hearth) : State := s.setHearth h (f (s.hearth h))

/-- Cores 64 to 127 are grotto cores (01 R39). -/
def isGrotto (c : Nat) : Bool := decide (64 ≤ c)

/-- The hearth of a control-die core's hearth group: four cores each (00, 01 R39). -/
def hearthOf (c : Nat) : Nat := c / 4

/-- KEPT, as the field of `Claim`, and LOSS of a claiming group (04 R121). -/
def claimOf (s : State) (g : Option GroupId) : Nat × Nat :=
  match s.claims.find? fun q => decide (some q.id = g) with
  | some q => (q.kept, q.loss)
  | none => (0, 0)

/-- The group of a bound task. -/
def Ident.groupId (i : Ident) : GroupId := ⟨i.gridId, i.stage, i.x, i.y, i.z⟩

/-- The task is stopped, and F runs its handler (19 R334). -/
def Core.handling (k : Core) : Bool := match k.run with
  | .handler => true
  | _ => false

/-- The firmware context has the cycle: in its handler, or taken beside a task or while none issues (01 R43, 19 R334). -/
def Core.inF (k : Core) : Bool := k.handling || k.fNow

/-- The scalar context that is running. -/
def Core.ctx (k : Core) (f : Bool) : SCtx := if f then k.f else k.t
def Core.setCtx (k : Core) (f : Bool) (x : SCtx) : Core := if f then { k with f := x } else { k with t := x }

/-! ## Local addresses (02 R45, R46) -/

/-- Bytes of the task's local range. -/
def localSize (c : Nat) (k : Core) : Nat :=
  if isGrotto c then 0x80000 else if k.ident.wide then 0x400000 else 0x200000

/-- The physical address of local offset 0. -/
def localBase (c : Nat) (k : Core) : Nat :=
  if isGrotto c then Config.gspadBase + (c - 64) * 0x80000
  else Config.spadBase + c * 0x400000 + (if k.ident.wide then 0 else k.ident.bank * 0x200000)

/-- The bytes of a local access lie in the range. -/
def inLocal (c : Nat) (k : Core) (off len : Nat) : Bool := decide (off + len ≤ localSize c k)

/-! ## MMIO registers (02 R47) -/

/-- Reset values of the MMIO registers that have a nonzero one. -/
def mmioReset (a : Nat) : Word :=
  if 0x0E0004008000 ≤ a ∧ a < 0x0E0004008400 ∧ a % 8 = 0 then 8                 -- FSHARE (19 R334)
  else if 0x0E0007010000 ≤ a ∧ a < 0x0E0007010100 then
    (if a % 16 = 0 then 256 else if a % 16 = 8 then 16 else 0)                    -- HALLOW, LEASEMAX (04 R119)
  else if a = 0x0E0006040000 then 1200 * 256                                      -- DOMCTL.FRAMELEN (21 R370)
  else if 0x0E0007100000 ≤ a ∧ a < 0x0E0007108000 then
    (match a % 0x1000 with
     | 0 => 8 + 85 * 256                                                          -- MCREF (22 R379)
     | 8 => 64                                                                    -- MCACT
     | 16 => 4 + 40 * 256 + 6 * 65536                                             -- MCCAW
     | 64 => 1000                                                                 -- MCSCRUB
     | _ => 0)
  else mmioResetFleet a
where
  /-- The registers of spec/23 and spec/24. -/
  mmioResetFleet (a : Nat) : Word :=
    if a = 0x0E0007200008 then 3 + 86400 * 256                                    -- JUDGE (23 R391)
    else if 0x0E0007200100 ≤ a ∧ a < 0x0E0007200140 ∧ a % 8 = 0 then 64 * 256      -- STKCTL.CAP (23 R396)
    else if a = 0x0E0007300090 then 1500                                          -- PCAP (24 R400)
    else if a = 0x0E0007300098 then 95 + 105 * 256                                -- THCTL
    else if 0x0E00073000A0 ≤ a ∧ a < 0x0E0007300120 ∧ a % 8 = 0 then 256           -- HCEIL
    else 0

/-- The stored value of an MMIO register. -/
def State.reg (s : State) (a : Nat) : Word := tget mmioReset s.mmio a
def State.setReg (s : State) (a : Nat) (v : Word) : State := { s with mmio := tset mmioReset s.mmio a v }

/-! ## Vectors as cells and elements (01, The vector hierarchy; 07 R180) -/

/-- Pack `n` fields of width `w`, field i at bit w × i. -/
def packW (w : Nat) (f : Nat → Nat) : Nat → Nat
  | 0 => 0
  | n + 1 => packW w f n + f n % 2 ^ w * 2 ^ (w * n)

/-- A vector register from its elements of width `w`, numbered over the whole register (row × E + i). -/
def ofElems (w : Nat) (f : Nat → Nat) : VReg := BitVec.ofNat 32768 (packW w f (32768 / w))

/-- Element `i` of width `w` of a register, numbered over the whole register. -/
def elemOf (v : VReg) (w i : Nat) : Nat := bitsAt v.toNat (w * i) w

/-- All cells. -/
def allCells : PReg := BitVec.allOnes 1024

/-- The 32-bit mask of each enabled cell. -/
def expandMask (en : PReg) : VReg :=
  if en = allCells then BitVec.allOnes 32768
  else ofElems 32 (fun i => if en.getLsbD i then 0xFFFFFFFF else 0)

/-- The cells of `new` where enabled, of `old` elsewhere (01 R20). -/
def mergeCells (en : PReg) (old new : VReg) : VReg :=
  let m := expandMask en
  (new &&& m) ||| (old &&& ~~~m)

/-! ## Rotation (01 R23) -/

/-- The physical main register of a name. -/
def physMain (rrb : BitVec 6) (x : Nat) : Nat :=
  if x < 32 then x else 32 + (x - 32 + 64 - rrb.toNat) % 64

/-- Where a vector destination field sends its result; none for va0 and vz (01 R19, R21). -/
def vdestOf (k : Core) (d : BitVec 9) : Option VDest :=
  match d.toNat / 128 with
  | 0 => some (.main (physMain k.vs.rrb (d.toNat % 128)))
  | 1 => some (.op (d.toNat % 128))
  | _ => none

/-! ## Results in flight (01 R14 to R18) -/

/-- Read a vector register. -/
def Core.vreg (k : Core) (d : VDest) : VReg :=
  match d with
  | .main n => tget (fun _ => 0) k.vs.v n
  | .op n => tget (fun _ => 0) k.vs.vo n

/-- Write a vector register. -/
def Core.setVreg (k : Core) (d : VDest) (v : VReg) : Core :=
  match d with
  | .main n => { k with vs := { k.vs with v := tset (fun _ => 0) k.vs.v n v } }
  | .op n => { k with vs := { k.vs with vo := tset (fun _ => 0) k.vs.vo n v } }

/-- A scalar context with s[d] written; s0 discards (01 R22). -/
def SCtx.setS (x : SCtx) (d : Nat) (v : Word) : SCtx :=
  if d = 0 then x else { x with s := tset (fun _ => 0) x.s d v }

/-- The push `n` still owns its ring position: the 17th push after it takes it (01 R18). -/
def ownsEntry (count n : Nat) : Bool := decide (count ≤ n + 16)

/-- Land a result in its destination and in its queue entry, and raise its flags (01 R14, R18, R20; 03 R88). -/
def landResult (f : Bool) (p : Pend) (k : Core) : Core :=
  let x := k.ctx f
  let k := k.setCtx f { x with vflags := x.vflags ||| p.flags }
  match p.res with
  | .scal d v =>
    let x := (k.ctx f).setS d v
    let x := match p.push with
      | some n => if ownsEntry x.sapc n then { x with saq := tset (fun _ => 0) x.saq (n % 16) v } else x
      | none => x
    k.setCtx f x
  | .guard n v =>
    let x := k.ctx f
    if n = 0 then k
    else k.setCtx f { x with g := if v then x.g ||| (1#16 <<< n) else x.g &&& ~~~(1#16 <<< n) }
  | .vec d v en =>
    let k := match d with
      | some r => k.setVreg r (mergeCells en (k.vreg r) v)
      | none => k
    match p.push with
    | some n =>
      if ownsEntry k.vs.apc n then
        { k with vs := { k.vs with vaq := tset (fun _ => 0) k.vs.vaq (n % 16) (v &&& expandMask en) } }
      else k
    | none => k
  | .pred n v en =>
    if n = 0 then k
    else
      let old := tget (fun _ => 0) k.vs.p n
      { k with vs := { k.vs with p := tset (fun _ => 0) k.vs.p n ((v &&& en) ||| (old &&& ~~~en)) } }
  | .pat n v =>
    { k with vs := { k.vs with sh := tset (fun _ => 0) k.vs.sh ((1 - k.vs.active) * 64 + n) v } }
  | .ctab n v => { k with vs := { k.vs with ct := tset (fun _ => 0) k.vs.ct n v } }

/-- Results whose bound has come land now; those that every reader sees are dropped (01 R14). -/
def landDue (f : Bool) (k : Core) : Core :=
  let due := (k.ctx f).pend.filter fun p => !p.landed && decide (p.issued + p.lat ≤ k.cyc)
  let k := due.foldl (fun k p => landResult f p k) k
  let x := k.ctx f
  let keep := (x.pend.map fun p => if p.issued + p.lat ≤ k.cyc then { p with landed := true } else p).filter
    fun p => decide (k.cyc ≤ p.issued + p.lat)
  k.setCtx f { x with pend := keep }

/-- A task is bound to the core. -/
def Core.bound (k : Core) : Bool := match k.run with
  | .idle => false
  | _ => true

/-- One core cycle passes: the counters advance and due results land (06 R176, 01 R14). -/
def Core.tick (k : Core) : Core :=
  let k := { k with cyc := k.cyc + 1, tcycle := if k.bound then k.tcycle + 1 else k.tcycle,
                    resident := if k.bound then k.resident + 1 else k.resident }
  landDue true (landDue false k)

/-- The key of a free value: the state's counter, the slot and the operand (log 3). -/
def fkey (s : State) (slot operand : Nat) : Nat := 128 * s.fresh + 16 * slot + operand

/-- A pending result may be half-seen by a reader in cycle `cyc`: after its issue cycle, before it is visible, one cycle later through
the main vector file (01 R14). -/
def inWindow (cyc : Nat) (main : Bool) (p : Pend) : Bool :=
  decide (p.issued < cyc) && decide (cyc < p.issued + p.lat + (if main then 1 else 0))

/-- The push counters at the issue of the bundle: reads through a queue count from them (01 R11, R18). -/
def Core.apcAt (s : State) (k : Core) : Nat := match s.issuing with
  | some (a, _) => a
  | none => k.vs.apc
def sapcAt (s : State) (x : SCtx) : Nat := match s.issuing with
  | some (_, a) => a
  | none => x.sapc

/-- Ring position of va N or sa N (01 R18). -/
def agePos (count n : Nat) : Nat := (count + 16 * 2 - n) % 16

/-- A scalar source (01 R14, R17, R22; 05 R138). A value still in flight is unpredictable. -/
def readS (s : State) (c : Nat) (f : Bool) (key : Nat) (r : BitVec 7) : Word :=
  let k := s.core c
  let x := k.ctx f
  let n := r.toNat
  if n = 0 then 0
  else if n < 64 then
    if x.pend.any (fun p => inWindow k.cyc false p && (match p.res with
        | .scal d _ => decide (d = n)
        | _ => false)) then Config.free 64 key
    else tget (fun _ => 0) x.s n
  else
    let cnt := sapcAt s x
    let i := n - 64
    if decide (i ≤ cnt) && x.pend.any (fun p => inWindow k.cyc false p && decide (p.push = some (cnt - i)) && (match p.res with
        | .scal _ _ => true
        | _ => false)) then Config.free 64 key
    else tget (fun _ => 0) x.saq (agePos cnt i)

/-- A scalar source in a 9-bit operand field (05 R138). -/
def readS9 (s : State) (c : Nat) (f : Bool) (key : Nat) (r : BitVec 9) : Word := readS s c f key (r.setWidth 7)

/-- A guard predicate; g0 reads true (01 R24). -/
def readG (s : State) (c : Nat) (f : Bool) (key : Nat) (g : BitVec 4) : Bool :=
  let k := s.core c
  let x := k.ctx f
  if g = 0 then true
  else if x.pend.any (fun p => inWindow k.cyc false p && (match p.res with
      | .guard n _ => decide (n = g.toNat)
      | _ => false)) then (Config.free 1 key).getLsbD 0
  else x.g.getLsbD g.toNat

/-- A vector predicate; p0 reads true in every cell (01 R24). -/
def readP (s : State) (c : Nat) (key : Nat) (p : BitVec 4) : PReg :=
  let k := s.core c
  if p = 0 then allCells
  else if k.t.pend.any (fun q => inWindow k.cyc false q && (match q.res with
      | .pred n _ _ => decide (n = p.toNat)
      | _ => false)) then Config.free 1024 key
  else tget (fun _ => 0) k.vs.p p.toNat

/-- vix: row × 64 + cell in each cell (01 R21). -/
def vix : VReg := ofElems 32 (fun i => i)

/-- A drain to this register has issued and not completed (04 R117). -/
def drainPending (s : State) (c : Nat) (d : VDest) : Bool :=
  (s.hearth (hearthOf c)).cmds.any fun m => decide (m.core = c) && decide (m.vdest = some d)

/-- A vector source (01 R14, R17 to R21; 05 R137). -/
def readV (s : State) (c : Nat) (key : Nat) (r : BitVec 9) : VReg :=
  let k := s.core c
  let i := r.toNat % 128
  match r.toNat / 128 with
  | 2 =>
    let cnt := k.apcAt s
    let stamp := cnt - i
    if decide (i ≤ cnt) && k.t.pend.any (fun p => inWindow k.cyc false p && decide (p.push = some stamp) && (match p.res with
        | .vec _ _ _ => true
        | _ => false)) then Config.free 32768 key
    else tget (fun _ => 0) k.vs.vaq (agePos cnt i)
  | 3 => if i = 1 then vix else 0
  | lv =>
    let d : VDest := if lv = 0 then .main (physMain k.vs.rrb i) else .op i
    if k.t.pend.any (fun p => inWindow k.cyc (decide (lv = 0)) p && (match p.res with
        | .vec (some e) _ _ => decide (e = d)
        | _ => false)) || drainPending s c d then Config.free 32768 key
    else k.vreg d

/-- Enter a scalar or guard result into flight; a result that pushes takes the next entry (01 R18, R22). -/
def issueS (s : State) (c : Nat) (f : Bool) (res : Result) (push : Bool) (lat : Nat) (fl : Flags) : State :=
  s.modCore c fun k =>
    let x := k.ctx f
    let p : Pend := ⟨res, if push then some x.sapc else none, k.cyc, lat, fl, false⟩
    k.setCtx f { x with pend := x.pend ++ [p], sapc := if push then x.sapc + 1 else x.sapc }

/-- Enter a vector, predicate, pattern or code-table result into flight (01 R18). -/
def issueV (s : State) (c : Nat) (res : Result) (push : Bool) (lat : Nat) (fl : Flags) : State :=
  s.modCore c fun k =>
    let p : Pend := ⟨res, if push then some k.vs.apc else none, k.cyc, lat, fl, false⟩
    { k with t := { k.t with pend := k.t.pend ++ [p] }, vs := { k.vs with apc := if push then k.vs.apc + 1 else k.vs.apc } }

/-! ## Events to the management core (19 R335, 22 R386) -/

def evBase : Nat := 0x0E0007020000

/-- Entries of the event ring; none until the firmware has given it a size (22 R386). -/
def evSize (s : State) : Nat :=
  let l := (s.reg (evBase + 8)).toNat % 32
  if 8 ≤ l ∧ l ≤ 16 then 2 ^ l else 0

/-- Post an event: it is held behind the others until the end of the step, where those that find room enter the ring (`postHeld`, 22 R386). -/
def postWords (s : State) (w0 w1 : Word) : State := { s with heldEvents := s.heldEvents ++ [(w0, w1)] }

/-- An event of R335: type, core number byte, grid, argument. -/
def postEvent (s : State) (ty core gridId : Nat) (arg : Word) : State :=
  postWords s (BitVec.ofNat 64 (ty % 65536 + core % 256 * 65536 + gridId % 2 ^ 32 * 2 ^ 32)) arg

/-- An event that a core raised at a stop, finish or switch is held: types 2, 3 and 5 of R335 name their core in byte 2, and that of a
fault of F the core + 128 (20 R343). The transition waits (22 R386). -/
def eventHeldFor (s : State) (c : Nat) : Bool :=
  s.heldEvents.any fun e =>
    let ty := bitsAt e.1.toNat 0 16
    (decide (ty = 2) || decide (ty = 3) || decide (ty = 5)) && decide (bitsAt e.1.toNat 16 7 = c)

/-- The event 5 of the stop of a core, or of a fault of its F, is held: its handler does not start (22 R386). -/
def stopHeld (s : State) (c : Nat) : Bool :=
  s.heldEvents.any fun e => decide (bitsAt e.1.toNat 0 16 = 5) && decide (bitsAt e.1.toNat 16 7 = c)

/-! ## Error logs (23 R387 to R389) -/

def logBase (i : Nat) : Nat := 0x0E0007201000 + i * 0x800

/-- A detected error: counted, numbered, and recorded with event 7, or lost (R389); the firmware reads a record on its event. The time of a record is a clock the model does
not hold, a free value (log 10). -/
def logError (s : State) (i cls sub loc : Nat) : State :=
  let b := logBase i
  let cnt := (bitsAt (s.reg (b + 8)).toNat 0 32 + 1) % 2 ^ 32
  let seq := s.devSeq + 1
  let s := { s with devSeq := seq, fresh := s.fresh + 1 }.setReg (b + 8) (BitVec.ofNat 64 cnt)
  let n := (s.reg b).toNat % 64
  if n < 32 then
    let r := b + 0x400 + n * 32
    let time := Config.free 64 (fkey s 0 0)
    let s := (((s.setReg r (BitVec.ofNat 64 seq)).setReg (r + 8) (BitVec.ofNat 64 (cnt + cls * 2 ^ 32 + sub * 2 ^ 40))).setReg
      (r + 16) (BitVec.ofNat 64 loc)).setReg (r + 24) time
    let s := { s with logs := s.logs ++ [ErrRec.mk i seq cls loc time.toNat] }.setReg b (s.reg b + 1)
    postEvent s 7 i 0 (BitVec.ofNat 64 seq)
  else
    let lost := (s.reg (b + 16)).toNat
    (s.setReg b (s.reg b ||| 64)).setReg (b + 16) (BitVec.ofNat 64 (min (2 ^ 32 - 1) (lost + 1)))

/-! ## Control transfer (05 R148) -/

/-- The bundle in issue transfers control. -/
def setJump (s : State) (c : Nat) (f : Bool) (target : Nat) : State :=
  s.modCore c fun k => k.setCtx f { k.ctx f with jump := some target }

/-- A bundle address plus a signed offset, as a 64-bit value. -/
def relTarget {n : Nat} (pc : Nat) (off : BitVec n) : Nat := (BitVec.ofNat 64 pc + off.signExtend 64).toNat

/-! ## Tokens (01 R27, 02 R68) -/

/-- The token is pending. -/
def tokPending (s : State) (c t : Nat) : Bool := (s.core c).tkPending.getLsbD t

/-- The local offset and length of the block or tile-handle entry a command reads (01 R32): an MWLD whose tokens are pending at issue takes the
THBASE in force when the last of them is set (log 107). -/
def blockPlace (k : Core) (m : Cmd) : Option (Nat × Nat) :=
  match m.instr with
  | .mwld f => some (k.thbase.toNat + 32 * f.th.toNat, 32)
  | .cpyc _ => some (m.c.toNat, 128)
  | .cpyl f => if f.c = 0 then none else some (m.c.toNat, 64)
  | .cpys f => if f.c = 0 then none else some (m.c.toNat, 64)
  | .cpfill f => if f.c = 0 then none else some (m.c.toNat, 64)
  | .lxfr _ => some (m.c.toNat, 64)
  | .bkmac _ | .bkkey _ | .bkcmp _ | .bkwr _ | .bktt _ | .bkrd _ => some (m.c.toNat, 64)
  | _ => none

/-- Read the block of a command whose tokens are all set: its bytes now, or none past the local range (01 R32). -/
def readBlock (s : State) (m : Cmd) : Cmd :=
  if m.blk = none ∧ m.needs = [] then
    let k := s.core m.core
    match blockPlace k m with
    | none => { m with blk := some [] }
    | some (off, len) =>
      { m with blk := some (if inLocal m.core k off len then memBytes s.mem (localBase m.core k + off) len else []) }
  else m

/-- Set a token: every command that waits for it no longer does, and one whose last token it was reads its block (01 R27, R32;
02 R68). -/
def setTok (s : State) (c t : Nat) : State :=
  let s := s.modCore c fun k => { k with tkPending := k.tkPending &&& ~~~(1#64 <<< t) }
  let s0 := s
  let upd : Cmd → Cmd := fun m => if m.core = c then readBlock s0 { m with needs := m.needs.filter (fun j => decide (j ≠ t)) } else m
  let s := s.modCore c fun k => { k with cpQ := k.cpQ.map upd }
  if isGrotto c then s else s.modHearth (hearthOf c) fun h => { h with cmds := h.cmds.map upd }

/-- Make a token pending at issue (01 R27). -/
def pendTok (s : State) (c t : Nat) : State := s.modCore c fun k => { k with tkPending := k.tkPending ||| (1#64 <<< t) }

def setTokOpt (s : State) (c : Nat) (t : Option Nat) : State := match t with
  | some n => setTok s c n
  | none => s

def pendTokOpt (s : State) (c : Nat) (t : Option Nat) : State := match t with
  | some n => pendTok s c n
  | none => s

/-! ## Faults and traps (20 R337 to R343) -/

/-- Causes of R337. -/
inductive Cause where
  | illegalOp | token | lease | align | ringCfg | seg | page | migrate | macroBusy | poison | nbProt | linkLate | trap | hwerr
  deriving DecidableEq, Repr

def Cause.code : Cause → Nat
  | .illegalOp => 1 | .token => 2 | .lease => 3 | .align => 4 | .ringCfg => 5 | .seg => 6 | .page => 7 | .migrate => 8
  | .macroBusy => 9 | .poison => 10 | .nbProt => 11 | .linkLate => 12 | .trap => 13 | .hwerr => 14

/-- Slot numbers of a fault record: 0 S to 7 SY (20 R339). -/
def slotNum (sl : Slot) : Nat := match sl with
  | .s => 0 | .va => 1 | .vb => 2 | .mx => 3 | .ld => 4 | .st => 5 | .cp => 6 | .sy => 7

/-- Every bit of the completion mask but the one of slot number `n` (bits laid out as VALID, S in bit 7). -/
def maskBut (n : Nat) : Nat := 255 - 2 ^ (7 - n)

/-- The fault record of a core in MMIO (20 R339). -/
def recAddr (c : Nat) : Nat :=
  if isGrotto c then 0x0E0005002000 + (c - 64) * 128 else 0x0E0005000000 + c * 128

/-- Bytes of an access as its instruction gives them, however many have performed; of a gather or scatter, of its next element. -/
def Acc.width (a : Acc) : Nat :=
  if a.elems then (a.pieces.head?.map (·.len)).getD 1
  else match a.kind with
    | .ldS n _ => n
    | .ldV => 4096
    | .fill => 256
    | .st => if a.opc = 5 ∨ a.opc = 6 then 4096 else 2 ^ (a.opc - 1)
    | .sig _ | .dqadv _ _ => 8
    | _ => (a.pieces.map (·.len)).sum

/-- Where an access stands for a record: opcode, ST bit, AS and width; of a gather or scatter, its next element (20 R339; 09 R244, R252). -/
def hopWord (a : Acc) : Nat :=
  let st : Nat := match a.kind with
    | .st | .atom _ _ _ _ _ _ _ | .sig _ | .dqadv _ _ => 1
    | _ => 0
  let as : Nat := match a.space with
    | .glob => 0 | .loc => 1 | .ring => 2
  a.opc % 32 + 32 * st + 64 * as + 256 * (if 256 ≤ a.width then 255 else a.width - 1)

/-- An access of the store queue that holds data: a store, an atomic, a SIGNAL or a DQADV. -/
def Acc.isStore (a : Acc) : Bool := match a.kind with
  | .st | .atom _ _ _ _ _ _ _ | .sig _ | .dqadv _ _ => true
  | _ => false

/-- The data an access still has to write, as a number: of a scatter, its next element's. -/
def Acc.dataNum (a : Acc) : Nat :=
  if a.elems then (match a.pieces with
    | p :: _ => a.data.toNat / 2 ^ (8 * p.off) % 2 ^ (8 * p.len)
    | [] => 0)
  else a.data.toNat

/-- Insert an access by its number, behind those of the same number: the elements of a scatter that was restored. -/
def insAcc (a : Acc) : List Acc → List Acc
  | [] => [a]
  | b :: rest => if a.seq < b.seq then a :: b :: rest else b :: insAcc a rest

/-- An access waits as held: until it has performed on resume or been discarded (02 R63). -/
def Acc.waits (a : Acc) : Bool := a.held || a.freed

/-- The held accesses of a context, the earlier first. -/
def heldOf (x : SCtx) : List Acc :=
  ((x.loadQ ++ x.storeQ ++ x.lineQ).filter Acc.waits).foldl (fun l a => insAcc a l) []

/-- The fusion entry of a fused task (20 R344). -/
def fuseEntry (id : Nat) : Nat := 0x0E0004100000 + id % 1024 * 4096

/-- Origin of a bundle: whether the consumer's, and its original address (10 R280; 20 R344). -/
def originOf (s : State) (k : Core) (baddr : Nat) : Bool × Nat :=
  if k.ident.fuseId = 0 then (false, baddr)
  else
    let a := fuseEntry k.ident.fuseId + 1024 + 4 * baddr
    let w := (s.reg (a / 8 * 8)).toNat / 2 ^ (a % 8 * 8) % 2 ^ 32
    (decide (2 ^ 31 ≤ w), w % 65536)

/-- LAUNCHSEQ of an origin's launch (10 R280). -/
def originSeq (s : State) (k : Core) (consumer : Bool) : Nat :=
  if k.ident.fuseId = 0 then k.ident.launchSeq
  else (s.reg (fuseEntry k.ident.fuseId + (if consumer then 8 else 0))).toNat

/-- A task that takes POISON or HWERR makes a record of its core's log, CLASS 3 or 6, naming its bundle (23 R387, R388; log 20). -/
def logTaken (s : State) (c : Nat) (cause : Cause) (baddr : Nat) : State :=
  let loc := c % 64 + baddr % 2 ^ 44 * 256
  match cause with
  | .poison => logError s (if isGrotto c then 34 else 33) 3 0 loc
  | .hwerr => logError s (if isGrotto c then 34 else 33) 6 0 loc
  | _ => s

/-- Write the fault record (20 R339, R340) and stop the task: post event 5 and start F's handler. A running KLOOP goes on after
the resume (06 R172). This is the one operation by which the model takes a fault or trap. -/
def takeFault (s : State) (c : Nat) (cause : Cause) (sub : Nat) (addr : Word) (baddr next mask slot code : Nat)
    (deferred : Bool) : State :=
  let k := s.core c
  let (cons, ob) := originOf s k baddr
  let held := heldOf k.t
  let hdata := match held.find? Acc.isStore with
    | some h => h.dataNum
    | none => 0
  let s := logTaken s c cause baddr
  let seq := s.devSeq + 1
  let a := recAddr c
  let bits : List (Nat × Nat) := [(cause.code, 0), (sub, 8), (mask, 16), (slot, 24), (code, 32), (if deferred then 1 else 0, 48),
    (if cons then 1 else 0, 49), (if held = [] then 0 else 1, 50), (if k.reports = [] then 0 else 1, 51)]
  let w48 := (bits.map fun p => p.1 * 2 ^ p.2).sum
  let s := { s with devSeq := seq }
  let s := [(0, baddr), (8, next), (16, addr.toNat), (24, seq), (32, originSeq s k cons), (40, ob + k.ident.fuseId * 2 ^ 32),
      (48, w48), (64, k.tkPending.toNat), (72, match held with
        | h :: _ => hopWord h
        | [] => 0), (80, hdata % 2 ^ 64), (88, hdata / 2 ^ 64 % 2 ^ 64)].foldl (fun s p => s.setReg (a + p.1) (BitVec.ofNat 64 p.2)) s
  let s := s.modCore c fun k =>
    { k with run := .handler, handlerDeferred := deferred, ctrw := none,
             f := { k.f with pc := 0, jump := none } }
  postEvent s 5 c k.ident.gridId (BitVec.ofNat 64 cause.code)

/-- A kind A fault: the bundle at the core's bundle address has no effect and a mask of zero (05 R134, 20 R340). -/
def faultA (s : State) (c : Nat) (cause : Cause) (sub : Nat) (addr : Word) (slot : Nat) : State :=
  let pc := (s.core c).t.pc
  takeFault s c cause sub addr pc pc 0 slot 0 false

/-- Add a report to the core; MORE of a record whose handler runs shows it (20 R338, R339). -/
def report (s : State) (c : Nat) (r : Report) : State :=
  let s := if (s.core c).handling then s.setReg (recAddr c + 48) (s.reg (recAddr c + 48) ||| (1#64 <<< 51)) else s
  s.modCore c fun k => { k with reports := k.reports ++ [r] }

/-- A deferred report of a command or of a store, atomic or SIGNAL that performed nothing: mask 0xFF (20 R340). -/
def reportCmd (s : State) (c : Nat) (cause : Cause) (sub : Nat) (addr : Nat) (baddr slot : Nat) : State :=
  report s c ⟨cause.code, sub, BitVec.ofNat 64 addr, baddr, slot, 255, true, false, false, 0⟩

def Cause.ofCode : Nat → Cause
  | 1 => .illegalOp | 2 => .token | 3 => .lease | 4 => .align | 5 => .ringCfg | 6 => .seg | 7 => .page | 8 => .migrate
  | 9 => .macroBusy | 10 => .poison | 11 => .nbProt | 12 => .linkLate | 13 => .trap | _ => .hwerr

/-- Take the first report of a core at a bundle boundary (20 R338, R340). -/
def takeReport (s : State) (c : Nat) : State :=
  match (s.core c).reports with
  | [] => s
  | r :: rest =>
    let s := s.modCore c fun k => { k with reports := rest }
    let k := s.core c
    takeFault s c (Cause.ofCode r.cause) r.sub r.addr r.baddr (if r.again then r.baddr else k.t.pc) r.mask r.slot r.code r.deferred

/-- A fault of F: the instruction has no effect, what F did before stands, F restarts at its entry point with cause and address in its s1 and s2, and event 5 is
posted with core + 128 (20 R343). -/
def faultF (s : State) (c : Nat) (cause : Nat) (addr : Word) : State :=
  let s := s.modCore c fun k =>
    { k with f := (({ k.f with pc := 0, jump := none }.setS 1 (BitVec.ofNat 64 cause)).setS 2 addr) }
  postEvent s 5 (c + 128) (s.core c).ident.gridId (BitVec.ofNat 64 cause)

end Sys2Proof.Machine
end

