-- ==== Sys2Proof/Machine/Flags.lean ====
section
/-! DEFINITION. The sticky flags (spec/03 R87, R88): how the flags of elements combine under a vector predicate, and how MTSR clears
them. -/

namespace Sys2Proof.Machine
open Sys2Proof

/-- Flags of one result over `n` parts. -/
def orFlags (f : Nat → Flags) : Nat → Flags
  | 0 => 0
  | n + 1 => orFlags f n ||| f n

/-- The cell that holds element `i` of width `w`, elements numbered over the whole register (07 R180). -/
def cellOf (w i : Nat) : Nat := i / (32 / w)

/-- Flags of an element-wise result: those of the elements whose cells the predicate enables (R88). -/
def vecFlags (w : Nat) (en : PReg) (f : Nat → Flags) : Flags :=
  orFlags (fun i => if en.getLsbD (cellOf w i) then f i else 0) (32768 / w)

/-- Flags of a result that some cells of a set receive: raised when one of them is enabled (R88, 07 R199). -/
def anyCell (en : PReg) (cells : List Nat) : Bool := cells.any fun c => en.getLsbD c

/-- MTSR to VFLAGS clears each flag whose bit is 1 (06 R176). -/
def clearFlags (fl : Flags) (v : Word) : Flags := fl &&& ~~~(v.setWidth 5)

/-- An element-wise vector result: each element with its flags. -/
def vecResult (w : Nat) (en : PReg) (f : Nat → Nat × Flags) : VReg × Flags :=
  (ofElems w fun i => (f i).1, vecFlags w en fun i => (f i).2)

end Sys2Proof.Machine
end

