-- ==== Sys2Proof/Machine/Home.lean ====
section
/-! DEFINITION. Where an access takes effect (spec/02 R46 to R49, R73, R74): the classes of physical address, reads and writes at
each kind of home, poison and check bits (spec/22 R380, R381), decoded windows (spec/03 R96 to R99), encryption (spec/22 R382), the
host aperture (spec/21 R359, R360). -/

namespace Sys2Proof.Machine
open Sys2Proof

/-! ## Feature bits (22 R385) -/

/-- The feature is acknowledged. -/
def feature (s : State) (bit : Nat) : Bool := (s.reg 0x0E0007030010).getLsbD bit

/-! ## HBM4E layout (22 R374, 23 R396, R397) -/

def stkctl (s : State) (st : Nat) : Nat := (s.reg (0x0E0007200100 + st * 8)).toNat

/-- The die of a stack is mapped out. -/
def stackOut (s : State) (st : Nat) : Bool := decide (stkctl s st / 16 % 2 = 1)

/-- Stack, channel, pseudo-channel, bank, row and sector of an HBM4E address. -/
structure HbmLoc where
  stack : Nat
  channel : Nat
  pc : Nat
  bank : Nat
  row : Nat
  sector : Nat
  deriving DecidableEq, Repr

/-- Where an HBM4E address lies (R374; R397 after a die has been mapped out). -/
def hbmLoc (s : State) (a : Nat) : HbmLoc :=
  let st := bitsAt a 16 3
  let bank := bitsAt a 10 4
  let lo := bitsAt a 14 2
  let sec := bitsAt a 5 5
  if stackOut s st then
    let die := stkctl s st % 16
    let q := bitsAt a 19 20
    let k := q % 60
    let c := k % 30
    ⟨st, if c < 2 * die then c else c + 2, k / 30, bank, (q / 60) * 4 + lo, sec⟩
  else ⟨st, bitsAt a 19 5, bitsAt a 24 1, bank, bitsAt a 25 14 * 4 + lo, sec⟩

/-- Number of a bank over the module, the key of bank tables. -/
def bankNum (l : HbmLoc) : Nat := ((l.stack * 32 + l.channel) * 2 + l.pc) * 16 + l.bank

/-- LOC of a record of logs 0 to 7 (23 R387). -/
def hbmLocWord (l : HbmLoc) : Nat :=
  l.stack + l.channel * 2 ^ 3 + l.pc * 2 ^ 8 + l.bank * 2 ^ 9 + l.row * 2 ^ 13 + l.sector * 2 ^ 29

/-! ## Classes of address (02 R46, R47) -/

/-- The home of a physical address. -/
inductive Home where
  | hbm
  | tier (port : Nat)
  | cim (hearth half : Nat)
  | side (hearth half : Nat)
  | spad (core : Nat)
  | dec (region : Nat)
  | reg
  | host (window : Nat)
  deriving DecidableEq, Repr

def tpReg (p off : Nat) : Nat := 0x0E0006010000 + p * 64 + off
def frReg (r off : Nat) : Nat := 0x0E0007000000 + r * 64 + off

/-- The page is on the offline list, or in the part of a stack that a map-out released (23 R395, R397). -/
def offlined (s : State) (a : Nat) : Bool :=
  let n := (s.reg 0x0E0007200020).toNat
  let base := (s.reg 0x0E0007200018).toNat
  (decide (a < 0x8000000000) && stackOut s (bitsAt a 16 3) && decide (983040 ≤ bitsAt a 19 20))
    || (List.range n).any fun i => decide (memGetN s.mem (base + 8 * i) 8 / 65536 = a / 65536)

/-- Elements of a region's window in bytes. -/
def frWindow (s : State) (r : Nat) : Nat :=
  (s.reg (frReg r 24)).toNat % 2 ^ 40 * (if (s.reg (frReg r 32)).getLsbD 17 then 4 else 2)

/-- The enabled region whose window holds an address (03 R97). -/
def regionOf (s : State) (a : Nat) : Option Nat :=
  if feature s 1 then
    (List.range 32).find? fun r => (s.reg (frReg r 32)).getLsbD 63 && decide ((s.reg (frReg r 16)).toNat ≤ a)
      && decide (a < (s.reg (frReg r 16)).toNat + frWindow s r)
  else none

/-- The port whose range holds a tier address (21 R363). -/
def tierPort (s : State) (a : Nat) : Option Nat :=
  (List.range 8).find? fun p => decide ((s.reg (tpReg p 16)).toNat ≤ a)
    && decide (a < (s.reg (tpReg p 16)).toNat + (s.reg (tpReg p 8)).toNat) && decide (bitsAt (s.reg (tpReg p 0)).toNat 0 2 ≠ 0)

/-- A host aperture register HAPn (21 R359). -/
def hap (s : State) (n : Nat) : Word := s.reg (0x0E0006000100 + n * 8)

/-- The home of an address, none for an unassigned or uninstalled one (02 R46). -/
def homeOf (s : State) (a : Nat) : Option Home :=
  if a < 0x8000000000 then
    (if offlined s a then none else some .hbm)
  else if 0x10000000000 ≤ a ∧ a < 0x90000000000 then
    match tierPort s a with
    | some p => if offlined s a then none else some (.tier p)
    | none => none
  else if Config.cimBase ≤ a ∧ a < Config.cimsBase then
    let m := (a - Config.cimBase) / 16384
    some (.cim (m / 4096) (m % 4096 * 2 + (a - Config.cimBase) % 16384 / 8192))
  else if Config.cimsBase ≤ a ∧ a < Config.cimsBase + 0x4000000 then
    let m := (a - Config.cimsBase) / 1024
    some (.side (m / 4096) (m % 4096 * 2 + (a - Config.cimsBase) % 1024 / 512))
  else if Config.spadBase ≤ a ∧ a < Config.spadBase + 0x10000000 then
    some (.spad ((a - Config.spadBase) / 0x400000))
  else if Config.gspadBase ≤ a ∧ a < Config.gspadBase + 0x2000000 then
    some (.spad (64 + (a - Config.gspadBase) / 0x80000))
  else if 0x0C0000000000 ≤ a ∧ a < 0x0E0000000000 then
    match regionOf s a with
    | some r => some (.dec r)
    | none => none
  else if 0x0E0080000000 ≤ a ∧ a < 0x0E0100000000 then
    let n := (a - 0x0E0080000000) / 0x4000000
    if (hap s n).getLsbD 0 then some (.host n) else none
  else if Config.mmioBase ≤ a ∧ a < 0x0E0080000000 then some .reg
  else none

/-- Homes that the slices cache: HBM4E, the tier and decoded windows (02 R47). -/
def Home.cached : Home → Bool
  | .hbm => true
  | .tier _ => true
  | .dec _ => true
  | _ => false

/-- A physical address with no page attribute. -/
def Phys.plain (a : Nat) : Phys := ⟨a, none, none⟩

/-! ## Poison and check bits (02 R73, 22 R380, R381) -/

def isPoison (s : State) (a : Nat) : Bool := s.poison.contains (a / 32)
def setPoison (s : State) (a : Nat) : State := { s with poison := setIns s.poison (a / 32) }
def clearPoison (s : State) (a : Nat) : State := { s with poison := setDel s.poison (a / 32) }

/-- The whole 64-byte line poisoned (R381). -/
def poisonLine (s : State) (a : Nat) : State := setPoison (setPoison s (a / 64 * 64)) (a / 64 * 64 + 32)

def flipsAt (s : State) (a : Nat) : BitVec 256 := tget (fun _ => 0) s.flips (a / 32)
def setFlips (s : State) (a : Nat) (v : BitVec 256) : State := { s with flips := tset (fun _ => 0) s.flips (a / 32) v }

/-- How many bits are set. -/
def popCount (w n : Nat) : Nat := match w with
  | 0 => 0
  | w + 1 => n % 2 + popCount w (n / 2)

/-- A row is on its bank's stale-row list (R380). -/
def rowStale (s : State) (l : HbmLoc) : Bool := s.stale.contains (bankNum l, l.row)

/-- Physical address of sector `i` of the row that holds address `a` (rows of 1 KiB, R374). -/
def rowSector (a i : Nat) : Nat := a / 1024 * 1024 + 32 * i

/-- STALE_ROW_REPAIR of R380: the check bits of every sector of the row are computed from its data as it stands, so the bits that differ
become the data, and the row leaves the list. -/
def repairRow (s : State) (a : Nat) : State :=
  let l := hbmLoc s a
  let s := (List.range 32).foldl (fun s i =>
    let p := rowSector a i
    let f := flipsAt s p
    if f = 0 then s
    else setFlips { s with mem := memSetN s.mem p 32 ((memGetN s.mem p 32) ^^^ f.toNat) } p 0) s
  { s with stale := s.stale.filter fun e => decide (e ≠ (bankNum l, l.row)) }

/-- A remap entry of a hearth-layer (23 R398). -/
def remapReg (h l i : Nat) : Nat := 0x0E0007280000 + (h * 8 + l) * 128 + i * 8

/-- The physical macro, 0 to 527, behind macro `m` of a hearth (layer × 512 + index): a spare where a valid entry names it (23 R387, R398). -/
def physMacro (s : State) (h m : Nat) : Nat :=
  match (List.range 16).find? fun i =>
      (s.reg (remapReg h (m / 512) i)).getLsbD 15 && decide (bitsAt (s.reg (remapReg h (m / 512) i)).toNat 0 9 = m % 512) with
  | some i => 512 + i
  | none => m % 512

/-- The LOC word and log of a location with check bits (23 R387): HBM4E, or a CIM row or sidecar granule. -/
def errPlace (s : State) (h : Home) (a : Nat) : Nat × Nat :=
  match h with
  | .cim hr hf =>
    let o := (a - Config.cimBase) % 8192
    (16 + hr, hf / 2 / 512 + physMacro s hr (hf / 2) * 2 ^ 3 + hf % 2 * 2 ^ 13 + o / 32 * 2 ^ 14)
  | .side hr hf =>
    let o := (a - Config.cimsBase) % 512
    (16 + hr, hf / 2 / 512 + physMacro s hr (hf / 2) * 2 ^ 3 + hf % 2 * 2 ^ 13 + o / 32 * 2 ^ 14 + 2 ^ 22)
  | .spad c => if c < 64 then (33, c + (a - Config.spadBase) % 0x400000 * 2 ^ 8) else (34, c - 64 + (a - Config.gspadBase) % 0x80000 * 2 ^ 8)
  | .tier p => (8 + p, a)
  | .dec _ => (32, a)
  | .host _ => (35, 15)
  | .reg => (32, a)
  | .hbm => let l := hbmLoc s a; (l.stack, hbmLocWord l)

/-- Count one poison or link-down event of a port (21 R363). -/
def portErr (s : State) (p : Nat) : State :=
  let a := tpReg p 24
  if s.reg a = BitVec.allOnes 64 then s else s.setReg a (s.reg a + 1)

/-- The stored bits stay as they are behind the poison: at a CIM row or granule, which scrub visits again (23 R399). -/
def Home.keepsFlips : Home → Bool
  | .cim _ _ => true
  | .side _ _ => true
  | _ => false

/-- A read brings a sector in (R380, R381; 23 R399): a listed row is repaired first; a single error is corrected, written back and logged as
CLASS 1; an uncorrectable one poisons the sector and is logged as CLASS 2, and counts at an expansion port (21 R363). `sub` is the record's
source detail. -/
def bringIn (s : State) (h : Home) (a sub : Nat) : State :=
  let s := match h with
    | .hbm => if rowStale s (hbmLoc s a) then repairRow s a else s
    | _ => s
  let f := flipsAt s a
  if f = 0 then s
  else
    let (lg, loc) := errPlace s h a
    if popCount 256 f.toNat = 1 then logError (setFlips s a 0) lg 1 sub loc
    else
      let s := logError (setPoison (if h.keepsFlips then s else setFlips s a 0) a) lg 2 sub loc
      match h with
      | .tier p => portErr s p
      | _ => s

/-! ## Ordinary activations (22 R377) -/

def mcReg (st off : Nat) : Nat := 0x0E0007100000 + st * 0x1000 + off

/-- The bank has reached ACTLIM. -/
def actFull (s : State) (n : Nat) : Bool :=
  decide (bitsAt (s.reg (mcReg (n / 1024) 8)).toNat 0 9 ≤ tget (fun _ => 0) s.acnt n)

/-- An ordinary access reaches its home. In HBM4E it may open a row: whether it does is a free value, and a bank at ACTLIM waits for its
refresh management first (22 R377; log 60). -/
def reachRow (s : State) (h : Home) (pa : Nat) : State :=
  match h with
  | .hbm =>
    let n := bankNum (hbmLoc s pa)
    let opens := decide (Config.free 1 (fkey s 7 15) = 1) && !actFull s n
    { s with fresh := s.fresh + 1, acnt := tset (fun _ => 0) s.acnt n (tget (fun _ => 0) s.acnt n + if opens then 1 else 0) }
  | _ => s

/-- An expansion port is DOWN (21 R364). -/
def portDown (s : State) (p : Nat) : Bool := decide (bitsAt (s.reg (tpReg p 0)).toNat 0 2 = 2)

/-- A sector that a port's device may return as poison counts as an event of the port where it does (21 R363, R364): whether it comes from the
device or from its slice is a free value (log 60). -/
def portPoison (s : State) (p a : Nat) : State :=
  if isPoison s a then
    (if Config.free 1 (fkey s 7 14) = 1 then portErr { s with fresh := s.fresh + 1 } p else { s with fresh := s.fresh + 1 })
  else s

/-- Bring a sector in for a read of its home: the state, and whether the sector is poisoned; a DOWN port delivers poison (R364). -/
def readSector (s : State) (h : Home) (a sub : Nat) : State × Bool :=
  match h with
  | .tier p =>
    if portDown s p then (portErr s p, true)
    else
      let poisoned := isPoison s a
      let t := bringIn s h a sub
      (if poisoned then portPoison t p a else t, isPoison t a)
  | _ => let t := bringIn s h a sub; (t, isPoison t a)

/-! ## Format regions (03 R96 to R99) -/

/-- The fields of a region's control register. -/
structure Region where
  pbase : Nat
  sbase : Nat
  dbase : Nat
  count : Nat
  efmt : Nat
  sfmt : Nat
  blk : Nat
  dfmt : Nat
  deriving DecidableEq, Repr

/-- Block size of BLK: 0 none, 8 to 128. -/
def frBlock (b : Nat) : Nat := match b with
  | 0 => 0 | 1 => 8 | 2 => 16 | 3 => 32 | 4 => 64 | 5 => 128 | _ => 0

def regionRegs (s : State) (r : Nat) : Region :=
  let c := (s.reg (frReg r 32)).toNat
  ⟨(s.reg (frReg r 0)).toNat, (s.reg (frReg r 8)).toNat, (s.reg (frReg r 16)).toNat, (s.reg (frReg r 24)).toNat % 2 ^ 40,
    bitsAt c 0 6, bitsAt c 8 6, frBlock (bitsAt c 14 3), if bitsAt c 17 1 = 1 then 0x00 else 0x01⟩

/-- Bytes per decoded element. -/
def Region.esize (x : Region) : Nat := if x.dfmt = 0 then 4 else 2

/-- The scale of element `i`: 1.0 with no blocks (R98). -/
def Region.scale (x : Region) (s : State) (i : Nat) : Val :=
  if x.blk = 0 then .fin false 1 0 else decodeFmt x.sfmt (memGet s.mem (x.sbase + i / x.blk)).toNat

/-- The packed code of element `i`, `width` bits at bit offset i × width (R78, R98). -/
def Region.code (x : Region) (s : State) (i : Nat) : Nat :=
  let w := fmtWidth x.efmt
  let b := i * w
  bitsAt (memGetN s.mem (x.pbase + b / 8) 5) (b % 8) w

/-- The decoded code of an element (R98): Convert with saturation in place of infinities. -/
def Region.decode (x : Region) (s : State) (i : Nat) : Nat :=
  let (v, _) := vMul (decodeFmt x.efmt (x.code s i)) (x.scale s i)
  let (c, _) := convert v x.dfmt .rne
  match v with
  | .nan => c
  | _ => match decodeFmt x.dfmt c with
    | .inf n => satFmt x.dfmt n
    | _ => c

/-- The 32 bytes of a decoded sector as a fill yields them (R98). -/
def Region.fill (x : Region) (s : State) (a : Nat) : Nat :=
  let n := 32 / x.esize
  let i0 := (a / 32 * 32 - x.dbase) / x.esize
  packW (8 * x.esize) (fun j => x.decode s (i0 + j)) n

/-- The sectors of a stretch of bytes that touches at most two. -/
def endSectors (lo hi : Nat) : List Nat := if lo / 32 = hi / 32 then [lo / 32 * 32] else [lo / 32 * 32, hi / 32 * 32]

/-- The sectors that hold the packed codes of the decoded sector at `a`. -/
def Region.packedAt (x : Region) (a : Nat) : List Nat :=
  let i0 := (a / 32 * 32 - x.dbase) / x.esize
  let w := fmtWidth x.efmt
  endSectors (x.pbase + i0 * w / 8) (x.pbase + ((i0 + 32 / x.esize) * w - 1) / 8)

/-- The sectors that hold its scales. -/
def Region.scalesAt (x : Region) (a : Nat) : List Nat :=
  let i0 := (a / 32 * 32 - x.dbase) / x.esize
  if x.blk = 0 then [] else endSectors (x.sbase + i0 / x.blk) (x.sbase + (i0 + 32 / x.esize - 1) / x.blk)

/-- One sector that a fill or a write-back reads is brought in at its home; whether it or one before it is poisoned (02 R74; 22 R380). -/
def fillSector (p : State × Bool) (a : Nat) : State × Bool :=
  match homeOf p.1 a with
  | some h =>
    let r := readSector (reachRow p.1 h a) h a 0
    (r.1, p.2 || r.2)
  | none => p

/-- The decoded sector in its home slice, if a fill or a store has brought it there. -/
def decodedAt (s : State) (a : Nat) : Option DecSec := s.decoded.find? fun d => decide (d.addr = a / 32 * 32)

/-- Put a decoded sector into its slice. -/
def putDecoded (s : State) (a : Nat) (data : Nat) (dirty : Bool) : State :=
  let rest := s.decoded.filter fun d => decide (d.addr ≠ a / 32 * 32)
  { s with decoded := rest ++ [⟨a / 32 * 32, BitVec.ofNat 256 data, dirty⟩] }

/-- A fill brings a decoded sector into its slice where it is absent (R98, R100): poisoned where something it reads is (02 R74). It stays there
until a flush (log 115). -/
def fillDecoded (s : State) (r a : Nat) : State :=
  match decodedAt s a with
  | some _ => s
  | none =>
    let x := regionRegs s r
    let (t, bad) := (x.packedAt a ++ x.scalesAt a).foldl fillSector (s, false)
    let t := putDecoded t a (x.fill t a) false
    if bad then setPoison t a else t

/-- The bytes of a decoded sector that is in its slice. -/
def decodedBytes (s : State) (a : Nat) : Nat := match decodedAt s a with
  | some d => d.data.toNat
  | none => 0

def cleanDecoded (s : State) (a : Nat) : State :=
  { s with decoded := s.decoded.map fun e => if e.addr = a then { e with dirty := false } else e }

/-- A partial store to a poisoned line is abandoned: the line is poisoned, and so written back, and the error is logged (22 R381). -/
def abandonDecoded (s : State) (r a : Nat) : State :=
  let lo := a / 64 * 64
  let t := fillDecoded (fillDecoded s r lo) r (lo + 32)
  logError (poisonLine { t with decoded := t.decoded.map fun e => if e.addr = lo ∨ e.addr = lo + 32 then { e with dirty := true } else e } a)
    32 2 1 a

/-- The packed line of a write-back that meets poison takes it (22 R381). -/
def poisonPacked (s : State) (a : Nat) : State :=
  match homeOf s a with
  | some h => let e := errPlace s h a; logError (poisonLine s a) e.1 2 1 e.2
  | none => s

/-- Re-encode the elements of a dirty decoded sector into the packed range (R99): a zero scale writes the zero code, a NaN scale leaves
the code as it is. The packed sectors and the scales are read first; over poison the write is abandoned (22 R381). -/
def writeBackDecoded (s : State) (r : Nat) (d : DecSec) : State :=
  let x := regionRegs s r
  let (s, bad) := (x.packedAt d.addr ++ x.scalesAt d.addr).foldl fillSector (s, false)
  cleanDecoded (if bad then (x.packedAt d.addr).foldl poisonPacked s else untagged (encodeSector s x d) (x.packedAt d.addr)) d.addr
where
 /-- The packed sectors are written under no integrity tag (22 R382; log 14). -/
 untagged (s : State) (l : List Nat) : State := { s with tags := l.foldl (fun t a => tset (fun _ => none) t (a / 32) none) s.tags }
 /-- The codes of the sector's elements. -/
 encodeSector (s : State) (x : Region) (d : DecSec) : State :=
  let n := 32 / x.esize
  let i0 := (d.addr - x.dbase) / x.esize
  let w := fmtWidth x.efmt
  (List.range n).foldl (fun s j =>
    let i := i0 + j
    let val := decodeFmt x.dfmt (bitsAt d.data.toNat (8 * x.esize * j) (8 * x.esize))
    let sc := x.scale s i
    match sc with
    | .nan => s
    | _ =>
      let code := if sc.isZero then 0 else (convert (vDiv val sc).1 x.efmt .rne).1
      let b := i * w
      let p := x.pbase + b / 8
      let old := memGetN s.mem p 5
      let sh := b % 8
      let new := old - bitsAt old sh w * 2 ^ sh + code % 2 ^ w * 2 ^ sh
      { s with mem := memSetN s.mem p 5 new }) s

/-! ## MMIO register reads (02 R47) -/

/-- Registers of a feature that is not acknowledged read as zero (22 R385): splicing, format regions, page heat, migration, keys, links. -/
def regHidden (s : State) (a : Nat) : Bool :=
  ((decide (a = 0x0E0004005000) || (decide (0x0E0004100000 ≤ a) && decide (a < 0x0E0004500000))) && !feature s 0)
  || (decide (0x0E0007000000 ≤ a) && decide (a < 0x0E0007000800) && !feature s 1)
  || (decide (0x0E0006040000 ≤ a) && decide (a < 0x0E0006040200) && !feature s 3)
  || (decide (0x0E0007040000 ≤ a) && decide (a < 0x0E0007040060) && !feature s 4 && !feature s 5)
  || (decide (0x0E0006030000 ≤ a) && decide (a < 0x0E0006030018) && !feature s 6)
  || (decide (0x0E0006020000 ≤ a) && decide (a < 0x0E0006020038) && !feature s 7)

/-- A register as a read returns it: write-only registers and hidden ones read as zero. -/
def regRead (s : State) (a : Nat) : Word :=
  if regHidden s a then 0
  else if 0x0E0007040000 ≤ a ∧ a < 0x0E0007040048 then 0          -- KEYDATA, KEYCMD (22 R382)
  else if a = 0x0E000400A018 ∨ a = 0x0E0006020028 then 0          -- INVCTL, MIGCTL
  else s.reg a

/-! ## Register writes as events

A store to a register is the event of the table that writes it, next to happen (02 R47). -/

/-- The events that a write of `v` to the register at `a` is. -/
def regEvents (s : State) (a : Nat) (v : Word) : List Instr :=
  let n := v.toNat
  if regHidden s a then []
  else if 0x0E0001000000 ≤ a ∧ a < 0x0E0001200000 then
    let q := (a - 0x0E0001000000) / 64
    match a % 64 with
    | 8 => if v.getLsbD 8 then [.queueEnable q v] else [.queueDisable q v]
    | 16 => [.qwrWrite q v]
    | 32 => [.qstatClear q v]
    | _ => [.registerWrite a v]
  else if 0x0E0004000000 ≤ a ∧ a < 0x0E0004004000 then
    if a % 128 = 120 ∧ v.getLsbD 0 = true then [.nextRecordValid ((a - 0x0E0004000000) / 128)] else [.registerWrite a v]
  else if 0x0E0004006200 ≤ a ∧ a < 0x0E0004006400 then []
  else if 0x0E0004006000 ≤ a ∧ a < 0x0E0004006600 then
    let c := if a < 0x0E0004006400 then (a - 0x0E0004006000) / 8 else 64 + (a - 0x0E0004006400) / 8
    if v.getLsbD 1 then [.slotDiscard c] else if v.getLsbD 0 then [.slotPreempt c] else []
  else if a = 0x0E000400A018 then
    match bitsAt n 16 2 with
    | 0 => [.invContext v]
    | 1 => [.invPage v]
    | 2 => [.invLargePage v]
    | _ => [.invAll v]
  else if a = 0x0E000400B000 then [.ctxbaseWrite v]
  else if a = 0x0E0006020028 then (if v.getLsbD 16 then [.migrate64m v] else [.migrate64k v])
  else if a = 0x0E0007040040 then
    match bitsAt n 16 2 with
    | 1 => [.keyLoad v]
    | 2 => [.keyDestroy v]
    | _ => []
  else if 0x0E0007000000 ≤ a ∧ a < 0x0E0007000800 ∧ a % 64 = 32 then
    let r := (a - 0x0E0007000000) / 64
    let on := (s.reg a).getLsbD 63
    if on = false ∧ v.getLsbD 63 = true then [.formatRegionEnable r v]
    else if on = true ∧ v.getLsbD 63 = false then [.formatRegionDisable r v]
    else if on = true ∧ v.getLsbD 62 = true then [.formatRegionFlush r v]
    else [.registerWrite a v]
  else if 0x0E0007010000 ≤ a ∧ a < 0x0E0007010100 ∧ a % 16 = 0 then [.hallowWrite ((a - 0x0E0007010000) / 16) v]
  else if a = evBase + 24 then [.evrdWrite v]
  else if a = 0x0E0007030000 then [.featreqWrite 0 v]
  else if a = 0x0E0007030008 then [.featreqWrite 1 v]
  else if 0x0E0007100000 ≤ a ∧ a < 0x0E0007108000 ∧ a % 0x1000 = 56 then [.mclatClear ((a - 0x0E0007100000) / 0x1000) v]
  else if a = 0x0E0006040000 then
    let on := (s.reg a).getLsbD 7
    if on = false ∧ v.getLsbD 7 = true then [.domainEnable v]
    else if on = true ∧ v.getLsbD 7 = false then [.domainDisable v]
    else [.registerWrite a v]
  else if 0x0E0007201000 ≤ a ∧ a < 0x0E0007213000 ∧ a % 0x800 = 0 then [.logClear ((a - 0x0E0007201000) / 0x800) v]
  else if 0x0E0007280000 ≤ a ∧ a < 0x0E0007284000 then [.remapEntryWrite ((a - 0x0E0007280000) / 8) v]
  else if 0x0E0007200100 ≤ a ∧ a < 0x0E0007200140 then
    if v.getLsbD 5 then [.dieMapOut ((a - 0x0E0007200100) / 8) v] else [.registerWrite a v]
  else if a = 0x0E0007300098 then
    [.registerWrite a v] ++ (if bitsAt n 16 16 = 0 then [] else [.trippedClear v])
  else [.registerWrite a v]

/-! ## Reads and writes at a home -/

/-- The cipher of a page with ENC, as a number over `len` bytes from `a` (22 R382, log 14). -/
def keyStream (key : BitVec 512) (a : Nat) : Nat → Nat
  | 0 => 0
  | n + 1 => (Config.cipherByte key a).toNat + 256 * keyStream key (a + 1) n

def applyKey (key : Option (BitVec 512)) (a len v : Nat) : Nat := match key with
  | some k => v ^^^ keyStream k a len
  | none => v

/-- Zeroing of a hearth holds the accesses at its storage port (04 R122). -/
def portWaits (s : State) (h : Home) : Bool := match h with
  | .cim hr _ => (s.hearth hr).zeroing
  | .side hr _ => (s.hearth hr).zeroing
  | _ => false

/-- What a read at a home yields: the state after, the bytes as a number, and whether any was poisoned. -/
structure Load where
  s : State
  v : Nat
  poison : Bool
  /-- The host's completion is an error (21 R360). -/
  err : Bool
  deriving DecidableEq, Repr

/-- The integrity tag of the line fails under the key of a page with ITAG, at the sector read (22 R382, log 14). -/
def tagFails (s : State) (x : Phys) : Bool := match x.itag with
  | some k => decide (tget (fun _ => none) s.tags (x.pa / 32) ≠ some k)
  | none => false

/-- A read whose tag fails poisons the line, and is logged (22 R382). -/
def checkTag (s : State) (h : Home) (x : Phys) (sub : Nat) : State :=
  if tagFails s x then logError (poisonLine s x.pa) (errPlace s h x.pa).1 4 sub (errPlace s h x.pa).2 else s

/-- The key a page's lines are filled under: that of ENC or of ITAG (22 R382). -/
def Phys.key (x : Phys) : Option (BitVec 512) := match x.enc with
  | some k => some k
  | none => x.itag

/-- A line is filled under a key, or written under it (22 R383). -/
def markKeyed (s : State) (x : Phys) (wr : Bool) : State := match x.key with
  | none => s
  | some k =>
    let old := tget (fun _ => none) s.keyed (x.pa / 64)
    let d := wr || decide (old = some (k, true))
    { s with keyed := tset (fun _ => none) s.keyed (x.pa / 64) (some (k, d)) }

/-- The host physical address behind an aperture address (21 R359). -/
def hostAddr (s : State) (n pa : Nat) : Nat := (hap s n).toNat / 0x4000000 * 0x4000000 + (pa - 0x0E0080000000) % 0x4000000

/-- LATMAX, where a read names it: the longest read service so far is a free value, no less than at the last read since the last clear (22
R379, log 60). -/
def raiseLat (s : State) (a : Nat) : State :=
  if 0x0E0007100000 ≤ a ∧ a < 0x0E0007108000 ∧ a % 0x1000 = 56 then
    let v := (Config.free 16 (fkey s 7 13)).setWidth 64
    { s.setReg a (if v.toNat < (s.reg a).toNat then s.reg a else v) with fresh := s.fresh + 1 }
  else s

/-- The addresses of the registers that `len` bytes at `pa` cover, in ascending order. -/
def regsAt (pa len : Nat) : List Nat := (List.range ((pa % 8 + len + 7) / 8)).map fun i => pa / 8 * 8 + 8 * i

/-- Read `len` bytes that lie in one 32-byte sector at their home (02 R47, R48). -/
def homeLoad (s : State) (h : Home) (x : Phys) (len : Nat) : Load :=
  match h with
  | .reg =>
    let rs := regsAt x.pa len
    let s := rs.foldl raiseLat s
    let w := packW 64 (fun i => (regRead s (rs.getD i 0)).toNat) rs.length
    ⟨s, bitsAt w (8 * (x.pa % 8)) (8 * len), false, false⟩
  | .host n =>
    let a := hostAddr s n x.pa
    let bad := tget (fun _ => 0) s.hostBad (a / 32)
    ⟨s, memGetN s.hostMem a len, decide (bad = 1), decide (bad = 2)⟩
  | .dec r =>
    let s := fillDecoded s r x.pa
    ⟨s, bitsAt (decodedBytes s x.pa) (8 * (x.pa % 32)) (8 * len), isPoison s x.pa, false⟩
  | .tier p =>
    if portDown s p then ⟨portErr s p, 0, true, false⟩
    else plainLoad s h x len
  | _ => plainLoad s h x len
where
  /-- A read of a home with check bits. -/
  plainLoad (s : State) (h : Home) (x : Phys) (len : Nat) : Load :=
    let s := checkTag (markKeyed (readSector s h x.pa 0).1 x false) h x 0
    ⟨s, applyKey x.enc x.pa len (memGetN s.mem x.pa len), isPoison s x.pa, false⟩

/-- The W1C bits of a register: a write clears those it covers (00 R8). -/
def w1cBits (a : Nat) : Word :=
  if 0x0E0001000000 ≤ a ∧ a < 0x0E0001200000 ∧ a % 64 = 32 then 0x30000
  else if a = 0x0E000400A020 ∨ a = 0x0E0006020030 then 2
  else if a = 0x0E0007300098 then 0xFFFF0000
  else 0

/-- The word that a store of `len` bytes of `v` at `pa` writes to the register at `a`: bytes it does not cover keep theirs, and write no W1C
bit (00 R8). -/
def mergedWord (s : State) (a pa len v : Nat) : Word :=
  let lo := max pa a
  let n := 8 * (min (pa + len) (a + 8) - lo)
  let sh := 8 * (lo - a)
  let old := (s.reg a &&& ~~~(w1cBits a)).toNat
  BitVec.ofNat 64 (old - bitsAt old sh n * 2 ^ sh + v / 2 ^ (8 * (lo - pa)) % 2 ^ n * 2 ^ sh)

/-- The events of a store to registers, in ascending order of address (02 R47). -/
def storeEvents (s : State) (pa len v : Nat) : List Instr :=
  (regsAt pa len).flatMap fun a => regEvents s a (mergedWord s a pa len v)

/-- What a write at a home came to. -/
inductive StRes where
  | done | refused
  deriving DecidableEq, Repr

/-- Write `len` bytes that lie in one 32-byte sector at their home (02 R47, R48, R73; 22 R381; 04 R109, R112; 21 R360, R364). A
partial write over poison is abandoned and logged; a whole sector clears poison. -/
def homeStore (s : State) (h : Home) (x : Phys) (len v : Nat) : State × StRes :=
  let plain : State → State := fun s =>
    let full := decide (len = 32)
    -- a partial write reads the rest of its sector first (R381)
    let s := if full then setFlips s x.pa 0 else checkTag (readSector s h x.pa 1).1 h x 1
    let s := markKeyed s x true
    if isPoison s x.pa && !full then
      let e := errPlace s h x.pa
      logError (match h with
        | .hbm => poisonLine s x.pa
        | .tier _ => poisonLine s x.pa
        | _ => s) e.1 2 1 e.2
    else
      -- the tag that stands with a sector is that of its last write: no page's, where that was none of a page with ITAG (22 R382; log 14)
      let s := { s with tags := tset (fun _ => none) s.tags (x.pa / 32) x.itag }
      clearPoisonIf full { s with mem := memSetN s.mem x.pa len (applyKey x.enc x.pa len v) }
  match h with
  | .reg =>
    ({ s with agenda := storeEvents s x.pa len v ++ s.agenda }, .done)
  | .host n =>
    let a := hostAddr s n x.pa
    -- a whole sector that is written is poisoned no more (02 R73)
    let healed := decide (len = 32) && decide (tget (fun _ => 0) s.hostBad (a / 32) = 1)
    ({ s with hostMem := memSetN s.hostMem a len v,
              hostBad := if healed then tset (fun _ => 0) s.hostBad (a / 32) 0 else s.hostBad }, .done)
  | .dec r =>
    if len = 32 then (clearPoison (putDecoded s x.pa v true) x.pa, .done)
    else
      let s := fillDecoded s r x.pa
      if isPoison s x.pa then (abandonDecoded s r x.pa, .done)
      else
        let w := decodedBytes s x.pa
        let sh := 8 * (x.pa % 32)
        (putDecoded s x.pa (w - bitsAt w sh (8 * len) * 2 ^ sh + v % 2 ^ (8 * len) * 2 ^ sh) true, .done)
  | .tier p =>
    if portDown s p then (logError (portErr s p) (8 + p) 2 1 x.pa, .done) else (plain s, .done)
  | .cim hr hf => if (tget (fun _ => Half.reset) (s.hearth hr).halves hf).compute then (s, .refused) else (plain s, .done)
  | .side hr hf => if (tget (fun _ => Half.reset) (s.hearth hr).halves hf).compute then (s, .refused) else (plain s, .done)
  | _ => (plain s, .done)
where
  /-- A whole-sector write clears poison (02 R73). -/
  clearPoisonIf (full : Bool) (s : State) : State := if full then clearPoison s x.pa else s

/-- Write a sector as poisoned: a whole sector whose bytes nothing reads (02 R74). The host's memory keeps the mark with its sector, where a
later completion shows it (21 R360; log 35). -/
def homePoison (s : State) (h : Home) (x : Phys) (len : Nat) : State × StRes :=
  match homeStore s h x len 0 with
  | (s, .refused) => (s, .refused)
  | (s, .done) => (match h with
    | .host n => { s with hostBad := tset (fun _ => 0) s.hostBad (hostAddr s n x.pa / 32) 1 }
    | _ => setPoison s x.pa, .done)

end Sys2Proof.Machine
end

