-- ==== Sys2Proof/Machine/Translate.lean ====
section
/-! DEFINITION. Translation of global addresses (spec/02 R44, spec/20 R349 to R352): page-table walks, the cached translations and
the checks each access makes (R351). -/

namespace Sys2Proof.Machine
open Sys2Proof

/-- A read at a physical address, none where nothing is assigned there: what a walk or dispatch meets. -/
def peekLoad (s : State) (a len : Nat) : Option Load := (homeOf s a).map fun h => homeLoad s h (.plain a) len

/-- The bytes at a physical address as a number, without any effect of reading them. -/
def peek (s : State) (a len : Nat) : Nat := match peekLoad s a len with
  | some l => l.v
  | none => 0

/-- The key of a context (22 R382). -/
def keyOf (s : State) (ctx : Nat) : Option (BitVec 512) := tget (fun _ => none) s.keys ctx

/-- The address of a context's descriptor (R349). -/
def ctxDesc (s : State) (ctx : Nat) : Nat := (s.reg 0x0E000400B000).toNat + ctx * 64

/-- The lock quota of a context (02 R50, R349); where its descriptor is poisoned, or its read ends in an error, a free value (log 100). -/
def llQuota (s : State) (ctx : Nat) : Word := match peekLoad s (ctxDesc s ctx + 16) 8 with
  | some l => if l.err || l.poison then Config.free 64 (fkey s 6 13) else BitVec.ofNat 64 l.v
  | none => 0

/-- LLUSED: the lines a context holds locked (02 R50, R51). -/
def llUsed (s : State) (ctx : Nat) : Word := BitVec.ofNat 64 (s.locks.filter fun l => decide (l.2 = ctx)).length

/-- A bit field of an entry that must be zero in every entry (R350). -/
def entryReserved (e : Nat) : Bool := decide (bitsAt e 9 3 ≠ 0) || decide (bitsAt e 52 12 ≠ 0)

/-- The PA field of an entry. -/
def entryPa (e : Nat) : Nat := bitsAt e 12 40 * 4096

/-- An entry of a table that the walk reads: its value, or the subcause of its failure, 0 where it is poisoned. A table in an unassigned
range, or behind a host completion that is an error, has no entry (21 R360; log 16). -/
def walkEntry (s : State) (table idx : Nat) : Except Nat Nat :=
  match peekLoad s (table + 8 * idx) 8 with
  | none => .error 5
  | some l =>
    if l.err then .error 5
    else if l.poison then .error 0
    else if l.v % 2 = 0 then .error 1
    else if entryReserved l.v then .error 4
    else .ok l.v

/-- The root that a context's descriptor names, as a walk reads it (R349); or the subcause of its failure, as for an entry. -/
def walkRoot (s : State) (ctx : Nat) : Except Nat Nat :=
  match peekLoad s (ctxDesc s ctx) 8, peekLoad s (ctxDesc s ctx + 8) 1 with
  | some l, some v =>
    if l.err || v.err then .error 5
    else if l.poison || v.poison then .error 0
    else if v.v % 2 = 0 then .error 1
    else .ok l.v
  | _, _ => .error 5

/-- A context's descriptor is read, and is not VALID (R349). -/
def ctxInvalid (s : State) (ctx : Nat) : Bool := match walkRoot s ctx with
  | .error 1 => true
  | _ => false

/-- The walk of R44 and R350: whether the leaf maps 64 MiB, and its entry; or subcause 1, 4 or 5, or 0 at a poisoned entry. -/
def walk (s : State) (ctx va : Nat) : Except Nat (Bool × Word) :=
  match walkRoot s ctx with
  | .error n => .error n
  | .ok root => match walkEntry s root (bitsAt va 37 11) with
    | .error n => .error n
    | .ok e1 =>
      if e1 / 2 % 2 = 1 ∨ entryPa e1 % 16384 ≠ 0 then .error 4
      else match walkEntry s (entryPa e1) (bitsAt va 26 11) with
        | .error n => .error n
        | .ok e2 =>
          if e2 / 2 % 2 = 1 then
            (if entryPa e2 % 2 ^ 26 ≠ 0 then .error 4 else .ok (true, BitVec.ofNat 64 e2))
          else if entryPa e2 % 8192 ≠ 0 then .error 4
          else match walkEntry s (entryPa e2) (bitsAt va 16 10) with
            | .error n => .error n
            | .ok e3 =>
              if e3 / 2 % 2 = 0 ∨ entryPa e3 % 2 ^ 16 ≠ 0 then .error 4 else .ok (false, BitVec.ofNat 64 e3)

/-- The addresses of the entries that the walk of a virtual address reads, in order: the context's descriptor, then a level at a time. -/
def walkPath (s : State) (ctx va : Nat) : List Nat :=
  ctxDesc s ctx :: (match walkRoot s ctx with
    | .error _ => []
    | .ok root => (root + 8 * bitsAt va 37 11) :: (match walkEntry s root (bitsAt va 37 11) with
      | .error _ => []
      | .ok e1 =>
        if e1 / 2 % 2 = 1 ∨ entryPa e1 % 16384 ≠ 0 then []
        else (entryPa e1 + 8 * bitsAt va 26 11) :: (match walkEntry s (entryPa e1) (bitsAt va 26 11) with
          | .error _ => []
          | .ok e2 => if e2 / 2 % 2 = 1 ∨ entryPa e2 % 8192 ≠ 0 then [] else [entryPa e2 + 8 * bitsAt va 16 10])))

/-- A list of cached translations has one of the page that holds `va`. -/
def lookupX (l : List Xlat) (ctx va : Nat) : Option (Bool × Word) :=
  match l.find? fun x => decide (x.ctx = ctx) && decide (x.page = if x.large then va / 2 ^ 26 * 2 ^ 26 else va / 2 ^ 16 * 2 ^ 16) with
  | some x => some (x.large, x.entry)
  | none => none

/-- A translation that the base die caches of the page that holds `va` (R352). -/
def cached (s : State) (ctx va : Nat) : Option (Bool × Word) := lookupX s.tlb ctx va

/-- A translation that a core caches of a page of its context. -/
def coreCached (s : State) (c va : Nat) : Option (Bool × Word) := lookupX (s.core c).xlat (s.core c).ident.ctx va

/-- The cached translation that an access of a core meets: its core's, else the base die's. -/
def cachedAt (s : State) (c va : Nat) : Option (Bool × Word) := match coreCached s c va with
  | some x => some x
  | none => cached s (s.core c).ident.ctx va

/-- Entries the base die caches, and entries a core caches (R352). -/
def tlbSize : Nat := 65536
def coreTlbSize : Nat := 512

/-- Put a leaf into a cache of `n` entries, in place of the page's old one; the oldest goes when it is full. -/
def putX (n : Nat) (l : List Xlat) (ctx va : Nat) (large : Bool) (e : Word) : List Xlat :=
  let page := if large then va / 2 ^ 26 * 2 ^ 26 else va / 2 ^ 16 * 2 ^ 16
  (⟨ctx, page, large, e⟩ :: l.filter fun x => !(decide (x.ctx = ctx) && decide (x.page = page) && decide (x.large = large))).take n

/-- The leaf that an access uses: with a cached one, that or what a walk finds now, by a free choice (R352; log 92). -/
def leafNow (s : State) (ctx va : Nat) (hit : Option (Bool × Word)) : Except Nat (Bool × Word) := match hit with
  | some x => if Config.seesOld s.fresh ctx (va / 65536) then .ok x else walk s ctx va
  | none => walk s ctx va

/-- What an access needs of its page (R351). -/
structure Need where
  rd : Bool
  wr : Bool
  bank : Bool
  deriving DecidableEq, Repr

def needRead : Need := ⟨true, false, false⟩
def needWrite : Need := ⟨false, true, false⟩
def needBoth : Need := ⟨true, true, false⟩

/-- What a translation comes to. -/
inductive Xres where
  | ok (x : Phys)
  | fail (cause : Cause) (sub : Nat)
  deriving DecidableEq, Repr

/-- The checks of R351 on a leaf, in their order, of either size (log 118); `stack` is the grotto core's own stack for a bank command. -/
def checkLeaf (s : State) (ctx va : Nat) (need : Need) (stack : Option Nat) (large : Bool) (e : Word) : Xres :=
  let enc := e.getLsbD 7 && feature s 4
  let itag := e.getLsbD 8 && feature s 5
  let nb := e.getLsbD 6 && feature s 2
  let pa := entryPa e.toNat + (if large then va % 2 ^ 26 else va % 2 ^ 16)
  if (enc || itag) && (keyOf s ctx).isNone then .fail .page 4
  else if (homeOf s pa).isNone then .fail .page 5
  else if e.getLsbD 4 && e.getLsbD 5 then .fail .migrate 0
  else if need.rd && !e.getLsbD 2 then .fail .page 2
  else if need.wr && !e.getLsbD 3 then .fail .page 3
  else if need.bank && !nb then .fail .page 8
  else if need.bank && (match stack with
      | some st => decide (bitsAt pa 16 3 ≠ st)
      | none => false) then .fail .page 8
  else if need.bank && (enc || itag) then .fail .nbProt 0
  else .ok ⟨pa, if enc then keyOf s ctx else none, if itag then keyOf s ctx else none⟩

/-- What the leaf found for an access comes to; a poisoned entry is POISON (21 R360; log 16). -/
def checkFound (s : State) (ctx va : Nat) (need : Need) (stack : Option Nat) : Except Nat (Bool × Word) → Xres
  | .error 0 => .fail .poison 0
  | .error n => .fail .page n
  | .ok (large, e) => checkLeaf s ctx va need stack large e

/-- Translate a virtual address of a context at the base die (R351, R352). -/
def translate (s : State) (ctx va : Nat) (need : Need) (stack : Option Nat) : Xres :=
  checkFound s ctx va need stack (leafNow s ctx va (cached s ctx va))

/-- Translate for an access of a core's task, by the core's own cache first. -/
def translateAt (s : State) (c va : Nat) (need : Need) : Xres :=
  checkFound s (s.core c).ident.ctx va need none (leafNow s (s.core c).ident.ctx va (cachedAt s c va))

/-- F's addresses are physical (log 6). -/
def translateF (s : State) (a : Nat) : Xres := if (homeOf s a).isNone then .fail .page 5 else .ok (.plain a)

/-- Translate for the task of a core or for its firmware context. -/
def translateFor (s : State) (c : Nat) (f : Bool) (va : Nat) (need : Need) : Xres :=
  if f then translateF s va else translateAt s c va need

/-- Bytes of the page that a migration command moves. -/
def MigCmd.size (m : MigCmd) : Nat := if m.large then 2 ^ 26 else 2 ^ 16

/-- The page is being moved by the migration engine (02 R76). -/
def pageMoving (s : State) (pa : Nat) : Bool := s.migQ.any fun m => match m.run with
  | some r => decide (r.code = 0) && decide (r.src ≤ pa) && decide (pa < r.src + m.size)
  | none => false

/-- The controller is mapping out a die of the stack that holds an HBM4E address: every access to the stack stalls (23 R397). -/
def stackBusy (s : State) (pa : Nat) : Bool := decide (pa < 0x8000000000) && decide (stkctl s (bitsAt pa 16 3) / 64 % 2 = 1)

/-- A bank command has the row open that holds this address, in this bank (08 R229, R231). -/
def rowOpen (s : State) (pa : Nat) : Bool :=
  (List.range 128).any fun c => (s.core c).cpQ.any fun m => match m.place with
    | some x => decide (x.pa / 16384 = pa / 16384) && m.b.getLsbD (bitsAt pa 10 4)
    | none => false

/-- An access to the bytes that stand here waits: at a zeroing hearth's port, or a write to a moving page (04 R122, 02 R76), or at a row
that a bank command has open (08 R231), or at a stack whose die is being mapped out (23 R397). -/
def sectorWaits (s : State) (pa : Nat) (wr : Bool) : Bool :=
  (match homeOf s pa with
    | some h => portWaits s h
    | none => false)
  || (wr && pageMoving s pa) || rowOpen s pa || stackBusy s pa

/-- A decoded sector that is not in its slice waits for the packed bits and scales that its fill reads (03 R98). -/
def fillWaits (s : State) (pa : Nat) : Bool := match homeOf s pa with
  | some (.dec r) => (decodedAt s pa).isNone
      && ((regionRegs s r).packedAt pa ++ (regionRegs s r).scalesAt pa).any fun a => sectorWaits s a false
  | _ => false

/-- An access at this place waits, for the bytes that stand there or for the fill of its decoded sector (log 114). -/
def placeWaits (s : State) (pa : Nat) (wr : Bool) : Bool := sectorWaits s pa wr || fillWaits s pa

/-- A leaf that is looked for now takes a walk. -/
def walks (s : State) (ctx va : Nat) (hit : Option (Bool × Word)) : Bool := hit.isNone || !Config.seesOld s.fresh ctx (va / 65536)

/-- The walk that a translation at the base die takes waits at an entry's place. -/
def xlatWaits (s : State) (ctx va : Nat) : Bool :=
  walks s ctx va (cached s ctx va) && (walkPath s ctx va).any fun a => placeWaits s a false

/-- The same of an access of a core, by the core's own cache first; F walks nothing. -/
def xlatWaitsAt (s : State) (c : Nat) (f : Bool) (va : Nat) : Bool :=
  !f && walks s (s.core c).ident.ctx va (cachedAt s c va) && (walkPath s (s.core c).ident.ctx va).any fun a => placeWaits s a false

/-- A request reaches a home slice: its page waits to be counted in the heat table while counting is on (21 R368, R369, log 37). -/
def countHeat (s : State) (h : Home) (pa : Nat) : State :=
  match h with
  | .hbm | .tier _ =>
    if (s.reg 0x0E0006030000).getLsbD 0 && feature s 6 then { s with heatQ := s.heatQ ++ [pa / 65536] } else s
  | _ => s

/-- A read or write of one sector that the heat table does not count: of the units of the base die (21 R369). -/
def loadQuiet (s : State) (x : Phys) (len : Nat) : Load :=
  match homeOf s x.pa with
  | none => ⟨s, 0, false, false⟩
  | some h => homeLoad (reachRow s h x.pa) h x len

def storeQuiet (s : State) (x : Phys) (len v : Nat) : State × StRes :=
  match homeOf s x.pa with
  | none => (s, .done)
  | some h => homeStore (reachRow s h x.pa) h x len v

/-- The second half of an indivisible update: the new contents. Over poison it changes nothing; at the host it is a FetchAdd, and one whose
completion is an error or poisoned is logged in log 35 (21 R360). -/
def finishUpdate (l : Load) (x : Phys) (w : Nat) (g : Nat → Nat) : Load :=
  if l.poison || l.err then
    (match homeOf l.s x.pa with
    | some (.host _) => { l with s := logError l.s 35 2 0 15, poison := false, err := true }
    | _ => l)
  else { l with s := (storeQuiet l.s x w (g l.v)).1 }

/-- An indivisible update of `w` bytes that the heat table does not count. -/
def updateQuiet (s : State) (x : Phys) (w : Nat) (g : Nat → Nat) : Load := finishUpdate (loadQuiet s x w) x w g

/-- Read `len` bytes of one sector at a translated address (02 R47). -/
def loadAt (s : State) (x : Phys) (len : Nat) : Load :=
  match homeOf s x.pa with
  | none => ⟨s, 0, false, false⟩
  | some h => homeLoad (reachRow (countHeat s h x.pa) h x.pa) h x len

/-- Write `len` bytes of one sector at a translated address. -/
def storeAt (s : State) (x : Phys) (len v : Nat) : State × StRes :=
  match homeOf s x.pa with
  | none => (s, .done)
  | some h => homeStore (reachRow (countHeat s h x.pa) h x.pa) h x len v

/-- Write a sector as poisoned at a translated address (02 R74). -/
def poisonAt (s : State) (x : Phys) (len : Nat) : State × StRes :=
  match homeOf s x.pa with
  | none => (s, .done)
  | some h => homePoison (reachRow (countHeat s h x.pa) h x.pa) h x len

/-- A read whose value is not used beyond `peek`: its effects at the home (R352; 22 R377, R380). -/
def touch (s : State) (a n : Nat) : State := (loadQuiet s (.plain a) n).s

/-- The walk's reads at the homes of the entries. -/
def walkReads (s : State) (ctx va : Nat) : State := (walkPath s ctx va).foldl (fun s a => touch s a 8) s

/-- What a translation at the base die leaves: the reads of its walk. -/
def walkLeft (s : State) (ctx va : Nat) : State := if walks s ctx va (cached s ctx va) then walkReads s ctx va else s

/-- A core's access misses the core's cache: the base die finds the leaf in its own, or walks; a leaf found is cached by both, and the miss
leaves the queue (R352). -/
def fillX (s : State) (c va : Nat) : State :=
  let ctx := (s.core c).ident.ctx
  if (coreCached s c va).isSome then s
  else
    let found := leafNow s ctx va (cached s ctx va)
    let s := walkLeft s ctx va
    match found with
    | .error _ => s
    | .ok (large, e) =>
      { s with tlb := putX tlbSize s.tlb ctx va large e }.modCore c fun k => { k with xlat := putX coreTlbSize k.xlat ctx va large e }

/-- The miss of a core's access `seq` is served. -/
def missServed (s : State) (c seq : Nat) : State := { s with missQ := s.missQ.filter fun m => decide (m ≠ (c, seq)) }

/-- Cut `n` bytes from address `a` at 32-byte sectors: pairs of address and length. -/
def sectors (a : Nat) : Nat → Nat → List (Nat × Nat)
  | 0, _ => []
  | fuel + 1, n =>
    if n = 0 then []
    else
      let k := min n (32 - a % 32)
      (a, k) :: sectors (a + k) fuel (n - k)

/-- Read `n` bytes sector by sector from a run of physical addresses: state, number, poison. -/
def loadRun (s : State) (x : Phys) (n : Nat) : Load :=
  (sectors x.pa (n / 32 + 2) n).foldl (fun l p =>
    let r := loadAt l.s { x with pa := p.1 } p.2
    ⟨r.s, l.v + r.v * 2 ^ (8 * (p.1 - x.pa)), l.poison || r.poison, l.err || r.err⟩) ⟨s, 0, false, false⟩

/-! ## Runs of physical bytes that the units of the base die read and write (22 R377, R380, R381; 21 R364) -/

/-- An access to a run of bytes waits at some sector. -/
def runWaits (s : State) (a n : Nat) (wr : Bool) : Bool := (sectors a (n / 32 + 2) n).any fun p => placeWaits s p.1 wr

/-- Read `n` bytes at their homes; what a unit takes from a poisoned sector is a free value (log 100). -/
def loadPhys (s : State) (a n : Nat) : State × Nat :=
  (sectors a (n / 32 + 2) n).foldl (fun r p =>
    let l := loadQuiet r.1 (.plain p.1) p.2
    let v := if l.poison then (Config.free (8 * p.2) (fkey l.s 6 0)).toNat else l.v
    (if l.poison then { l.s with fresh := l.s.fresh + 1 } else l.s, r.2 + v * 2 ^ (8 * (p.1 - a)))) (s, 0)

/-- Write a number of `n` bytes at its homes. -/
def storePhys (s : State) (a n v : Nat) : State :=
  (sectors a (n / 32 + 2) n).foldl (fun s p => (storeQuiet s (.plain p.1) p.2 (v / 2 ^ (8 * (p.1 - a)))).1) s

/-- Copy one whole sector; poison is copied as poison (02 R74). -/
def copySector (s : State) (x d : Phys) : State :=
  let l := loadQuiet s x 32
  if l.poison then (match homeOf l.s d.pa with
    | some h => (homePoison (reachRow l.s h d.pa) h d 32).1
    | none => l.s)
  else (storeQuiet l.s d 32 l.v).1

/-- Copy `n` bytes, whole sectors in ascending order. -/
def copyPhys (s : State) (src dst n : Nat) : State :=
  (List.range (n / 32)).foldl (fun s i => copySector s (.plain (src + 32 * i)) (.plain (dst + 32 * i))) s

/-! ## Reads of dispatch and of segment copies through a context's translation -/

/-- `n` bytes of a context's memory from `va` on, each piece within one line; none where a part fails translation, or its completion is an
error (21 R360). -/
def readVirt (s : State) (ctx : Nat) : Nat → Nat → Nat → Option (List Byte)
  | 0, _, _ => some []
  | fuel + 1, va, n =>
    if n = 0 then some []
    else if 2 ^ 48 ≤ va then none
    else
      let k := min n (64 - va % 64)
      match translate s ctx va needRead none with
      | .fail _ _ => none
      | .ok x =>
        let r := loadRun s x k
        if r.err then none
        else match readVirt s ctx fuel (va + k) (n - k) with
          | some l => some (toBytes k r.v ++ l)
          | none => none

def readBytes (s : State) (ctx va n : Nat) : Option (List Byte) := readVirt s ctx (n / 64 + 2) va n

/-- What such a read leaves at the homes: activates, repairs and error records (22 R377, R380). -/
def touchVirt (ctx : Nat) : Nat → Nat → Nat → State → State
  | 0, _, _, s => s
  | fuel + 1, va, n, s =>
    if n = 0 ∨ 2 ^ 48 ≤ va then s
    else
      let k := min n (64 - va % 64)
      match translate s ctx va needRead none with
      | .fail _ _ => walkLeft s ctx va
      | .ok x => touchVirt ctx fuel (va + k) (n - k)
          ((sectors x.pa (k / 32 + 2) k).foldl (fun s p => (loadQuiet s { x with pa := p.1 } p.2).s) (walkLeft s ctx va))

def touchBytes (s : State) (ctx va n : Nat) : State := touchVirt ctx (n / 64 + 2) va n s

/-- Such a read waits at a place that it needs (04 R122; 23 R397). -/
def virtWaits (s : State) (ctx : Nat) : Nat → Nat → Nat → Bool
  | 0, _, _ => false
  | fuel + 1, va, n =>
    if n = 0 ∨ 2 ^ 48 ≤ va then false
    else
      let k := min n (64 - va % 64)
      xlatWaits s ctx va || (match translate s ctx va needRead none with
        | .fail _ _ => false
        | .ok x => runWaits s x.pa k false || virtWaits s ctx fuel (va + k) (n - k))

def bytesWait (s : State) (ctx va n : Nat) : Bool := virtWaits s ctx (n / 64 + 2) va n

/-- Write `n` bytes sector by sector to a run of physical addresses; true where every sector was accepted. -/
def storeRun (s : State) (x : Phys) (n v : Nat) : State × Bool :=
  (sectors x.pa (n / 32 + 2) n).foldl (fun q p =>
    let r := storeAt q.1 { x with pa := p.1 } p.2 (v / 2 ^ (8 * (p.1 - x.pa)))
    (r.1, q.2 && decide (r.2 = .done))) (s, true)

/-! ## The host mailbox (21 R361) -/

def mailReg (off : Nat) : Nat := 0x0E0006000000 + off

/-- Put a message into D2H and ring DDB, which raises MBVEC. -/
def putMail (s : State) (m : List Nat) : State :=
  let s := (List.range 8).foldl (fun s i => s.setReg (mailReg (64 + 8 * i)) (BitVec.ofNat 64 ((m[i]?).getD 0))) s
  { s with mailBusy := true, msix := (let v := bitsAt (s.reg (mailReg 136)).toNat 4 12
                                if v < 2048 then v :: s.msix else s.msix) }

/-- Send a device message: at once where D2H is free, else after the messages before it. -/
def sendMail (s : State) (m : List Nat) : State := if s.mailBusy then { s with mailQ := s.mailQ ++ [m] } else putMail s m

/-- Send a message and expect a reply of the words given (R361, R354, 23 R393). -/
def askMail (s : State) (m reply : List Nat) : State := { sendMail s m with mailPend := s.mailPend ++ [reply] }

/-- Page base and bytes of the page that maps an address, 64 KiB where nothing maps it. -/
def pageOf (s : State) (ctx va : Nat) : Nat × Nat :=
  let large := match cached s ctx va with
    | some (l, _) => l
    | none => match walk s ctx va with
      | .ok (l, _) => l
      | .error _ => false
  if large then (va / 2 ^ 26 * 2 ^ 26, 2 ^ 26) else (va / 2 ^ 16 * 2 ^ 16, 2 ^ 16)

/-- The firmware asks the host to release a page that an access or an engine has met (20 R354, 08 R220): nothing where it has asked
already. -/
def askHost (s : State) (ctx va : Nat) : Option State :=
  let (b, n) := pageOf s ctx va
  if s.mailPend.contains [2, ctx, b, n] then none else some (askMail s [1, ctx, b, n] [2, ctx, b, n])

/-- The shipped firmware's handler of a MIGRATE fault asks the host for the page (20 R354). -/
def askTaken (s : State) (c : Nat) : State :=
  if (s.reg (recAddr c + 48)).toNat % 256 = 8 then
    (match askHost s (s.core c).ident.ctx (s.reg (recAddr c + 16)).toNat with
      | some t => t
      | none => s)
  else s

/-! ## The event ring (22 R386) -/

/-- The entry of the ring that the next event takes. -/
def eventPlace (s : State) : Nat := (s.reg evBase).toNat + (s.reg (evBase + 16)).toNat % evSize s * 16

/-- The ring has room. -/
def ringRoom (s : State) : Bool := decide ((s.reg (evBase + 16) - s.reg (evBase + 24)).toNat < evSize s)

/-- What starts once an event is posted: the handler of a fault that the task of a core has taken (20 R339, 22 R386). -/
def handlerStarts (s : State) (w0 : Word) : State :=
  let c := bitsAt w0.toNat 16 8
  if bitsAt w0.toNat 0 16 = 5 ∧ c < 128 then askTaken s c else s

/-- The first held event enters the ring, whole at its home before WR passes it; it stays held while the ring is full or its place waits. -/
def postNext (s : State) : State := match s.heldEvents with
  | [] => s
  | (w0, w1) :: rest =>
    if ringRoom s && !placeWaits s (eventPlace s) true then
      let t := (storeQuiet { s with heldEvents := rest } (.plain (eventPlace s)) 16 (w0.toNat + w1.toNat * 2 ^ 64)).1
      handlerStarts (t.setReg (evBase + 16) (t.reg (evBase + 16) + 1)) w0
    else s

/-- The events held at the end of a step enter the ring in order while there is room. -/
def postHeld (s : State) : State := s.heldEvents.foldl (fun s _ => postNext s) s

end Sys2Proof.Machine
end

