-- ==== Sys2Proof/Machine/Operands.lean ====
section
/-! DEFINITION. The operand forms: the registers an instruction reads (spec/05 R137, R138), and the addresses and pieces of every memory
form (spec/05 R146, spec/09 R236, R243, R244, spec/10 R282 to R287). -/

namespace Sys2Proof.Machine
open Sys2Proof

/-! ## Source registers, for the load interlock (01 R15) -/

/-- A vector unit form with its used vector sources. -/
def aformSrc (f : AForm) : List (BitVec 7) := match f with
  | .glob x _ => [x]
  | .loc x _ => [x]
  | .ring _ _ => []

/-- The scalar registers an instruction reads; fields a form does not use are zero and name s0. -/
def srcS (i : Instr) : List (BitVec 7) :=
  match i with
  | .add f | .sub f | .mul f | .mulh f | .mulhu f | .div f | .divu f | .rem f | .remu f | .and f | .or f | .xor f
  | .shl f | .shr f | .sar f | .min f | .minu f | .max f | .maxu f | .ext f | .extu f | .clz f | .popc f | .sel f
  | .fadd f | .fsub f | .fmul f | .fma f | .fdiv f | .fsqrt f | .fmin f | .fmax f | .ret f => [f.a, f.b, f.c]
  | .ins f => [f.a, f.b, f.c, f.d]
  | .addi f | .andi f | .ori f | .xori f | .shli f | .shri f | .sari f => [f.a]
  | .movhi f => [f.d]
  | .cmp f | .fcmp f => [f.a, f.b]
  | .cmpi f => [f.a]
  | .fcvt f => [f.a]
  | .shw f => [f.a]
  | .mtsr f => [f.a]
  | .vsplats f => [f.a.setWidth 7]
  | .mmode f => [f.s]
  | .mwld f => [f.s]
  | .mmac f => [f.s]
  | .mclr f => [f.s]
  | .mdrn f => if f.dst = 0 then [f.s] else [f.s, f.v.setWidth 7]
  | .mstat f => [f.s, f.a]
  | .cpyl f | .cpys f | .cpyc f | .cpfill f | .lxfr f => [f.a, f.b, f.c]
  | .bkmac f | .bkkey f | .bkcmp f | .bkwr f | .bktt f | .bkrd f => [f.a, f.b, f.c]
  | .ldb f | .ldbu f | .ldh f | .ldhu f | .ldw f | .ldwu f | .ldd f | .ldv f | .ldvs f | .stv f | .stvs f =>
    f.a :: aformSrc f.f
  | .stb f | .sth f | .stw f | .std f => f.d.setWidth 7 :: f.a :: aformSrc f.f
  | .ldvg f | .stvx f => [f.a]
  | .probe f => [f.a]
  | .pwait f | .pref f | .llclk f | .llcul f => [f.a]
  | .aadd f | .aand f | .aor f | .axor f | .amin f | .aminu f | .amax f | .amaxu f | .axch f | .acas f | .afadd f =>
    [f.d.setWidth 7, f.a, f.x, f.old]
  | .ctrw f => [f.a, f.b]
  | .wpw f => [f.a]
  | .ringcfg f => [f.a, f.b]
  | .signalStore f | .signalAdd f | .dqadv f => [f.a, f.b]
  | .waity f => [f.a]
  | _ => []

/-- The vector registers an instruction reads. -/
def srcV (i : Instr) : List (BitVec 9) :=
  match i with
  | .vadd f | .vsub f | .vmul f | .vdiv f | .vmin f | .vmax f | .vand f | .vor f | .vxor f | .vshl f | .vshr f | .vsar f
  | .vqnt f | .vdqnt f => [f.a, f.b]
  | .vfma f | .vfms f | .vbdot f => [f.a, f.b, f.c]
  | .vsqrt f | .vabs f | .vneg f | .vnot f | .vexp f | .vlog f | .vsin f | .vcos f | .vtanh f | .vrsqrt f | .vrcp f
  | .vsigm f | .vtrn f | .vmov f => [f.a]
  | .vcvt f => if subsPerCell f.fmt.toNat < subsPerCell (bitsAt f.imm.toNat 0 6) then [f.a, f.b] else [f.a]
  | .vpack f | .vcmp f | .vsel f | .vshuf f | .vperm f => [f.a, f.b]
  | .vunpk f | .vrotr f | .vrotc f | .vbcr f | .vbcc f | .vredr f | .vredc f | .vpatld f | .vctd f | .vctld f => [f.a]
  | .mmac f => [f.v]
  | .stv f | .stvs f => [f.d]
  | .ldvg f => [f.vx]
  | .stvx f => [f.d, f.vx]
  | _ => []

/-- Loads of a context that have not landed. -/
def pendingDests (x : SCtx) : List LDest :=
  x.loadQ.map (·.dest) ++ x.lineQ.map (·.dest) ++ x.arrivals.map (·.dest)

/-- A source is the destination of a load that has not landed (01 R12, R15). -/
def sourceStalls (s : State) (c : Nat) (f : Bool) (i : Instr) : Bool :=
  let k := s.core c
  let ds := pendingDests (k.ctx f)
  (srcS i).any (fun r => decide (r ≠ 0) && decide (r.toNat < 64) && ds.contains (.s r.toNat))
  || (srcV i).any (fun r => decide (r.toNat < 256) && (match vdestOf k r with
      | some d => ds.contains (.v d)
      | none => false))

/-! ## Addresses -/

/-- A sign-extended immediate as a 64-bit word (05 R140). -/
def sext {n : Nat} (x : BitVec n) : Word := x.signExtend 64

/-- s[X] << SC, modulo 2^64. -/
def shifted (x : Word) (sc : BitVec 3) : Word := x <<< sc.toNat

/-- One part of an access: its address and length, and the place of its bytes in the register. -/
structure Part where
  addr : Nat
  len : Nat
  off : Nat
  deriving DecidableEq, Repr

/-- 4,096 contiguous bytes by sectors (09 R243, R251). -/
def vectorParts (a : Word) : List Part :=
  (List.range 128).map fun i => ⟨(a + BitVec.ofNat 64 (32 * i)).toNat, 32, 32 * i⟩

/-- 16 rows of 256 bytes at a stride, by sectors. -/
def stridedParts (a stride : Word) : List Part :=
  (List.range 128).map fun i =>
    ⟨(a + BitVec.ofNat 64 (i / 8) * stride + BitVec.ofNat 64 (32 * (i % 8))).toNat, 32, 32 * i⟩

/-- The index element of a gather or scatter at position `i` of the whole register (09 R244). -/
def indexElem (vx : VReg) (esz i : Nat) : Word :=
  let w := 8 * 2 ^ esz
  let x := elemOf vx w i
  if esz = 2 then BitVec.ofInt 64 (signedOf 32 x) else BitVec.ofNat 64 x

/-- Elements of a gather or scatter in queue order (R244). -/
def gatherParts (base : Word) (vx : VReg) (esz : Nat) (off : BitVec 26) : List Part :=
  (List.range (4096 / 2 ^ esz)).map fun i =>
    ⟨(base + indexElem vx esz i + sext off).toNat, 2 ^ esz, i * 2 ^ esz⟩

/-! ## Homes of a lane (01 R28, 10 R282) -/

/-- The core of the task of a stage and index of the same gang as core `c`. -/
def laneCore (s : State) (c stage task : Nat) : Option Nat :=
  let id := (s.core c).ident
  (List.range 128).find? fun d =>
    let k := s.core d
    k.bound && decide (k.ident.gang = id.gang) && decide (k.ident.stage = stage) && decide (k.ident.task = task)

/-- NTASK of each stage of the lane: the shape against which HSTG and HTSK are checked. -/
def laneShape (s : State) (c : Nat) : List Nat :=
  let id := (s.core c).ident
  List.replicate (max 1 id.nstage) id.ntask

/-- The context of the encoding checks on a core. -/
def encCtx (s : State) (c : Nat) : EncCtx := ⟨isGrotto c, (s.core c).inF, laneShape s c⟩

/-! ## Rings (09 R262, R263; 10 R282 to R287) -/

def Ring.base (r : Ring) : Nat := bitsAt r.wordA.toNat 0 22
def Ring.logsz (r : Ring) : Nat := bitsAt r.wordA.toNat 24 4
def Ring.slots (r : Ring) : Nat := bitsAt r.wordA.toNat 28 4 + 1
def Ring.pbar (r : Ring) : Nat := bitsAt r.wordB.toNat 0 8
def Ring.cbar (r : Ring) : Nat := bitsAt r.wordB.toNat 8 8
def Ring.hstg (r : Ring) : Nat := bitsAt r.wordB.toNat 16 4
def Ring.htsk (r : Ring) : Nat := bitsAt r.wordB.toNat 20 2
def Ring.consumer (r : Ring) : Bool := r.wordB.getLsbD 22
def Ring.init (r : Ring) : Bool := r.wordB.getLsbD 23

/-- The descriptor of ring K of the task. -/
def ringOf (k : Core) (n : Nat) : Option Ring := tget (fun _ => none) k.rings n

/-- The pointers of ring K at its home: an access resolves by their newest values (log 119). -/
def ringPtrs (s : State) (home n : Nat) : RingHome := tget (fun _ => RingHome.reset) (s.core home).ringHome n

/-- F of R282: slots produced and not consumed. -/
def ringFill (h : RingHome) : Nat := (h.pp - h.cp).toNat

/-- A ring access would pass the stage limit (R285). -/
def ringStalls (s : State) (c : Nat) (kf jf : BitVec 4) : Bool :=
  match ringOf (s.core c) kf.toNat with
  | none => false
  | some r => match laneCore s c r.hstg r.htsk with
    | none => false
    | some home =>
      let fill := ringFill (ringPtrs s home kf.toNat)
      if r.consumer then decide (fill ≤ jf.toNat) else decide (r.slots ≤ jf.toNat + fill)

/-- The home core and local offset of slot offset `o` (R284). -/
def ringResolve (s : State) (c : Nat) (kf jf : BitVec 4) (o : Nat) : Option (Nat × Nat) :=
  match ringOf (s.core c) kf.toNat with
  | none => none
  | some r => match laneCore s c r.hstg r.htsk with
    | none => none
    | some home =>
      let h := ringPtrs s home kf.toNat
      let p := if r.consumer then h.cp.toNat else h.pp.toNat
      some (home, r.base + (p + jf.toNat) % r.slots * 2 ^ r.logsz + o)

/-- RING_CFG at a ring access: no descriptor, J past the slots, or a byte outside the slot (R237, R284). -/
def ringBad (s : State) (c : Nat) (kf jf : BitVec 4) (o : Word) (len : Nat) : Bool :=
  match ringOf (s.core c) kf.toNat with
  | none => true
  | some r => decide (r.slots ≤ jf.toNat) || decide (2 ^ r.logsz < o.toNat + len)

/-! ## A memory access, resolved as far as issue goes -/

/-- What an LD or ST instruction asks for: its space and parts, with what the ring and alignment checks need. -/
structure Req where
  space : Space
  parts : List Part
  elems : Bool
  /-- Alignment of each part's address. -/
  align : Nat
  /-- Ring number, slot and offset, for AS = 2. -/
  ring : Option (BitVec 4 × BitVec 4 × Word)
  deriving DecidableEq, Repr

/-- The parts of a form of `n` bytes: a scalar of 1 to 8, or a whole register. -/
def partsFor (a : Word) (n : Nat) : List Part := if n = 4096 then vectorParts a else [⟨a.toNat, n, 0⟩]

/-- Slot and slot's operand number of an instruction key: the LD slot is 4, the ST slot 5. -/
def memReq (s : State) (c : Nat) (f : Bool) (slot : Nat) (m : MemOp) (n : Nat) : Req :=
  let base := readS s c f (fkey s slot 0) m.a
  let al := if n = 4096 then 32 else n
  match m.f with
  | .glob x sc =>
    let a := base + shifted (readS s c f (fkey s slot 1) x) sc + sext m.off
    ⟨.glob, partsFor a n, false, al, none⟩
  | .loc x sc =>
    let a := base + shifted (readS s c f (fkey s slot 1) x) sc + sext m.off
    ⟨.loc, partsFor a n, false, al, none⟩
  | .ring k j =>
    let o := base + sext m.off
    ⟨.ring, partsFor o n, false, al, some (k, j, o)⟩

/-- LDVS and STVS: X and SC hold the stride (R243). -/
def strideReq (s : State) (c : Nat) (f : Bool) (slot : Nat) (m : MemOp) : Req :=
  let a := readS s c f (fkey s slot 0) m.a + sext m.off
  match m.f with
  | .glob x sc => ⟨.glob, stridedParts a (shifted (readS s c f (fkey s slot 1) x) sc), false, 32, none⟩
  | .loc x sc => ⟨.loc, stridedParts a (shifted (readS s c f (fkey s slot 1) x) sc), false, 32, none⟩
  | .ring _ _ => ⟨.loc, [], false, 32, none⟩

/-- LDVG and STVX (R244, R252). -/
def gatherReq (s : State) (c : Nat) (f : Bool) (slot : Nat) (m : GatOp) : Req :=
  let a := readS s c f (fkey s slot 0) m.a
  ⟨if m.as = 0 then .glob else .loc, gatherParts a (readV s c (fkey s slot 2) m.vx) m.esz.toNat m.off, true, 2 ^ m.esz.toNat, none⟩

/-- Width of an atomic's location (R253). -/
def atomWidth (fadd : Bool) (m : AtmOp) : Nat := if fadd || decide (m.w = 0) then 4 else 8

def atomReq (s : State) (c : Nat) (f : Bool) (fadd : Bool) (m : AtmOp) : Req :=
  let a := readS s c f (fkey s 5 0) m.a + sext m.off
  let w := atomWidth fadd m
  ⟨if m.as = 0 then .glob else .loc, [⟨a.toNat, w, 0⟩], false, w, none⟩

/-- The block a PROBE names (02 R53). -/
def probeBlock (a : Word) : Nat := a.toNat / 256

/-! ## The probe cache's slots (02 R52 to R54) -/

def probeBase (k : Core) : Nat := bitsAt k.probecfg.toNat 0 11 * 1024
def probeSets (k : Core) : Nat := 2 ^ bitsAt k.probecfg.toNat 16 4

def tagAt (k : Core) (n : Nat) : Tag := tget (fun _ => Tag.reset) k.tags n
def setTag (k : Core) (n : Nat) (t : Tag) : Core := { k with tags := tset (fun _ => Tag.reset) k.tags n t }

/-- The four slots of a set. -/
def waysOf (t : Nat) : List Nat := [4 * t, 4 * t + 1, 4 * t + 2, 4 * t + 3]

/-- The slot that a miss replaces: the least recently used unlocked one. Among slots never used since the tags were cleared the spec
names none: a free value picks it (log 19). -/
def victimOf (s : State) (k : Core) (t : Nat) : Option Nat :=
  let open_ := (waysOf t).filter fun w => !(tagAt k w).locked
  let unused := open_.filter fun w => !(tagAt k w).valid
  match unused with
  | [] => open_.foldl (fun b w => match b with
      | none => some w
      | some x => if (tagAt k x).age < (tagAt k w).age then some w else some x) none
  | w :: rest => some ((w :: rest).getD ((Config.free 2 (fkey s 4 6)).toNat % (rest.length + 1)) w)

/-- The slot of its set that holds a block. -/
def hitSlot (k : Core) (block : Nat) : Option Nat :=
  (waysOf (block % probeSets k)).find? fun w => (tagAt k w).valid && decide ((tagAt k w).block = block)

/-- A PROBE would queue a fill: a miss with a way to replace (R53). -/
def probeFills (s : State) (c : Nat) (f : Bool) (m : PrbOp) : Bool :=
  let k := s.core c
  let block := probeBlock (readS s c f (fkey s 4 0) m.a)
  (hitSlot k block).isNone && (victimOf s k (block % probeSets k)).isSome

/-- The memory request of an LD or ST instruction, of SIGNAL, or of CTRW. -/
def reqOf (s : State) (c : Nat) (f : Bool) (i : Instr) : Option Req :=
  match i with
  | .ldb m | .ldbu m => some (memReq s c f 4 m 1)
  | .ldh m | .ldhu m => some (memReq s c f 4 m 2)
  | .ldw m | .ldwu m => some (memReq s c f 4 m 4)
  | .ldd m => some (memReq s c f 4 m 8)
  | .ldv m => some (memReq s c f 4 m 4096)
  | .ldvs m => some (strideReq s c f 4 m)
  | .ldvg m => some (gatherReq s c f 4 m)
  | .probe m =>
    let a := readS s c f (fkey s 4 0) m.a
    some ⟨.glob, [⟨a.toNat, 1, 0⟩], false, 1, none⟩
  | .llclk m | .llcul m =>
    let a := readS s c f (fkey s 4 0) m.a + sext m.off
    some ⟨.glob, [⟨a.toNat, 1, 0⟩], false, 1, none⟩
  | .stb m => some (memReq s c f 5 m 1)
  | .sth m => some (memReq s c f 5 m 2)
  | .stw m => some (memReq s c f 5 m 4)
  | .std m => some (memReq s c f 5 m 8)
  | .stv m => some (memReq s c f 5 m 4096)
  | .stvs m => some (strideReq s c f 5 m)
  | .stvx m => some (gatherReq s c f 5 m)
  | .aadd m | .aand m | .aor m | .axor m | .amin m | .aminu m | .amax m | .amaxu m | .axch m | .acas m =>
    some (atomReq s c f false m)
  | .afadd m => some (atomReq s c f true m)
  | .signalStore m | .signalAdd m =>
    let a := readS s c f (fkey s 7 0) m.a
    some ⟨.glob, [⟨a.toNat, 8, 0⟩], false, 8, none⟩
  | .ctrw m => some ⟨.glob, [⟨(readS s c f (fkey s 7 0) m.a).toNat, 8, 0⟩], false, 8, none⟩
  | _ => none

/-- Weight of an access against the limit of 1,024 (R240; SIGNAL by 17 R299). A PROBE counts only where it queues a fill. -/
def weightOf (s : State) (c : Nat) (f : Bool) (i : Instr) : Nat :=
  match i with
  | .probe m => if probeFills s c f m then 1 else 0
  | .ldb _ | .ldbu _ | .ldh _ | .ldhu _ | .ldw _ | .ldwu _ | .ldd _ | .pref _ | .stb _ | .sth _ | .stw _
  | .std _ | .signalStore _ | .signalAdd _ | .aadd _ | .aand _ | .aor _ | .axor _ | .amin _ | .aminu _ | .amax _ | .amaxu _ | .axch _ | .acas _ | .afadd _ => 1
  | .ldv _ | .ldvs _ | .ldvg _ | .stv _ | .stvs _ | .stvx _ => 16
  | _ => 0

/-- Weight of an entry of a queue: STV, STVS and STVX weigh 16. -/
def Acc.weight (a : Acc) : Nat := match a.kind with
  | .ldV => 16
  | .st => if 5 ≤ a.opc then 16 else 1
  | .ldS _ _ | .fill | .atom _ _ _ _ _ _ _ | .sig _ => 1
  | _ => 0

/-- Requests outstanding (R240). -/
def outstanding (k : Core) : Nat :=
  let w := fun (x : SCtx) => ((x.loadQ.map Acc.weight).sum + (x.storeQ.map Acc.weight).sum + (x.arrivals.map (·.weight)).sum
    + x.olds.length)
  w k.t + w k.f

end Sys2Proof.Machine
end

