-- ==== Sys2Proof/Machine/Blocks.lean ====
section
/-! DEFINITION. Macro selectors, shapes, tile-handle entries and command blocks (spec/08 R210, R213, R218 to R230, spec/01 R25,
spec/18 R308): their fields, and the checks made on them at issue or when they are read (spec/01 R32). -/

namespace Sys2Proof.Machine
open Sys2Proof

/-! ## Macro selectors (R210) -/

structure Sel where
  macro_ : Nat
  count : Nat
  lmask : Nat
  h0 : Bool
  h1 : Bool
  afmt : Nat
  rsv : Nat
  deriving DecidableEq, Repr

def selOf (w : Word) : Sel :=
  let n := w.toNat
  ⟨bitsAt n 0 9, bitsAt n 9 9 + 1, bitsAt n 18 8, w.getLsbD 26, w.getLsbD 27, bitsAt n 28 6, bitsAt n 34 30⟩

/-- The general checks of R210. -/
def Sel.bad (x : Sel) (halves mmac : Bool) : Bool :=
  decide (512 < x.macro_ + x.count) || decide (x.lmask = 0) || (halves && !x.h0 && !x.h1) || decide (x.rsv ≠ 0)
    || (!mmac && decide (x.afmt ≠ 0))

/-- The macros named, by hearth-relative number, in order. -/
def Sel.macros (x : Sel) : List Nat :=
  (List.range 8).flatMap fun l =>
    if x.lmask / 2 ^ l % 2 = 1 then (List.range x.count).map fun i => l * 512 + x.macro_ + i else []

/-- The halves in order (R210). -/
def Sel.halves (x : Sel) : List Nat :=
  x.macros.flatMap fun m => (if x.h0 then [2 * m] else []) ++ (if x.h1 then [2 * m + 1] else [])

/-- Rows an activation register drives per vector, by its format (04 R116). -/
def rowsDriven (afmt : Nat) : Nat := match fmtRegWidth afmt with
  | 8 => 256
  | 16 => 128
  | _ => 64

/-- MMAC's checks on its selector (R214, R215). -/
def mmacBad (f : MMacOp) (x : Sel) : Bool :=
  x.bad true true ||
  (if f.mxin = 1 then decide (x.afmt ≠ 0)
   else !(fmtAssigned x.afmt) || decide (x.afmt = 0x03) || decide (x.afmt = 0x0D)
    || decide (256 < (f.kb.toNat + 1) * rowsDriven x.afmt))

/-! ## Shapes (01 R25) -/

def shpCnt (w : BitVec 512) (d : Nat) : Nat := bitsAt w.toNat (64 * d) 24
def shpStr (w : BitVec 512) (d : Nat) : Int := signedOf 40 (bitsAt w.toNat (64 * d + 24) 40)
def shpNdim (w : BitVec 512) : Nat := bitsAt w.toNat 384 3

def ndimBad (w : BitVec 512) : Bool := decide (shpNdim w = 0) || decide (shpNdim w = 7)

/-- Product of the counts in use. -/
def shpTotal (w : BitVec 512) : Nat := ((List.range (shpNdim w)).map (shpCnt w)).foldl (· * ·) 1

/-- Offset of run `r` (the digits of dimensions 1 and up) from the base. -/
def runOffset (w : BitVec 512) (r : Nat) : Int :=
  ((List.range (shpNdim w)).drop 1 |>.foldl (fun (p : Int × Nat) d =>
    let n := max 1 (shpCnt w d)
    (p.1 + ((p.2 % n : Nat) : Int) * shpStr w d, p.2 / n)) ((0 : Int), r)).1

/-- Lowest and highest offset a strided shape reaches. -/
def shpReach (w : BitVec 512) : Int × Int :=
  (List.range (shpNdim w)).drop 1 |>.foldl (fun (p : Int × Int) d =>
    let e := (((shpCnt w d - 1 : Nat)) : Int) * shpStr w d
    if e < 0 then (p.1 + e, p.2) else (p.1, p.2 + e)) ((0 : Int), (((shpCnt w 0 - 1 : Nat)) : Int))

/-! ## Bytes of a block -/

/-- `len` bytes of a block from `off`, little-endian. -/
def blkN (b : List Byte) (off len : Nat) : Nat := ofBytes ((b.drop off).take len)

/-- Some byte of a range is nonzero. -/
def blkNonzero (b : List Byte) (off len : Nat) : Bool := decide (blkN b off len ≠ 0)

/-- A check that fails: its cause, subcause and address. -/
abbrev Bad := Option (Cause × Nat × Nat)

def badIf (b : Bool) (c : Cause) (sub addr : Nat) : Bad := if b then some (c, sub, addr) else none

/-- The first failure in the order ILLEGAL_OP, ALIGN, PAGE (05 R134). -/
def firstBad : List Bad → Bad
  | [] => none
  | some x :: _ => some x
  | none :: rest => firstBad rest

def illegalIf (b : Bool) : Bad := badIf b .illegalOp 0 0
def alignIf (b : Bool) (a : Nat) : Bad := badIf b .align 0 a

/-- A local extent that passes the task's range (02 R45). -/
def localIf (c : Nat) (k : Core) (off len : Nat) : Bad := badIf (!inLocal c k off len) .page 6 off

/-- Misaligned or out-of-range block address, checked at issue whatever the tokens (R218). -/
def blockAddrBad (c : Nat) (k : Core) (a len : Nat) : Bad :=
  firstBad [alignIf (decide (a % 64 ≠ 0)) a, localIf c k a len]

/-! ## Tile-handle entries (18 R308, 08 R213) -/

structure Tile where
  base : Nat
  scale : Nat
  rows : Nat
  cols : Nat
  fmt : Nat
  blk : Nat
  top : Nat
  deriving DecidableEq, Repr

def tileOf (b : List Byte) : Tile :=
  ⟨blkN b 0 8, blkN b 8 8, blkN b 16 4, blkN b 20 4, blkN b 24 1 % 64, blkN b 25 1, blkN b 24 1 / 64⟩

/-- MWLD accepts mxint8 or e2m1, 256 rows, 32 or 64 columns, block size 32 (R213); of the bits that R213 leaves unassigned, those above a
format code are refused and bytes 26 to 31 ignored (log 109). -/
def Tile.bad (t : Tile) : Bool :=
  !(decide (t.rows = 256) && decide (t.blk = 3) && decide (t.top = 0)
    && ((decide (t.fmt = 0x0E) && decide (t.cols = 32)) || (decide (t.fmt = 0x0C) && decide (t.cols = 64))))

/-! ## Copy blocks (R218, R222) -/

/-- Geometry of CPYC (R222). -/
structure ConvGeo where
  nb : Nat
  h : Nat
  w : Nat
  c : Nat
  kh : Nat
  kw : Nat
  sh : Nat
  sw : Nat
  ph : Nat
  pw : Nat
  esz : Nat
  oh : Nat
  ow : Nat
  q0 : Nat
  p : Nat
  pitch : Nat
  deriving DecidableEq, Repr

def convOf (b : List Byte) : ConvGeo :=
  ⟨blkN b 64 2, blkN b 66 2, blkN b 68 2, blkN b 70 2, blkN b 72 1, blkN b 73 1, blkN b 74 1, blkN b 75 1, blkN b 76 1,
    blkN b 77 1, blkN b 78 1, blkN b 80 2, blkN b 82 2, blkN b 84 4, blkN b 88 4, blkN b 92 4⟩

/-- Bytes of a position's row that are written. -/
def ConvGeo.rowBytes (g : ConvGeo) : Nat := g.kh * g.kw * g.c * 2 ^ g.esz

/-- A field outside the limits of R222. -/
def ConvGeo.bad (g : ConvGeo) : Bool :=
  decide (g.nb = 0) || decide (g.h = 0) || decide (g.w = 0) || decide (g.c = 0)
  || decide (g.kh = 0) || decide (16 < g.kh) || decide (g.kw = 0) || decide (16 < g.kw)
  || decide (g.sh = 0) || decide (8 < g.sh) || decide (g.sw = 0) || decide (8 < g.sw)
  || decide (15 < g.ph) || decide (15 < g.pw) || decide (2 < g.esz) || decide (g.oh = 0) || decide (g.ow = 0)
  || decide (g.p = 0) || decide (g.pitch % 32 ≠ 0) || decide (g.pitch < g.rowBytes)

/-- A counter address that is not 8-byte aligned (02 R70). -/
def ctrBad (b : List Byte) (off : Nat) : Bad := alignIf (decide (blkN b off 8 % 8 ≠ 0)) (blkN b off 8)

/-- The checks on a copy block as read, for CPYL, CPYS, CPYC and CPFILL; `a` is the command's local address. Fields that the command does not
use are not checked (log 109). -/
def copyBlockBad (i : Instr) (c : Nat) (k : Core) (a : Nat) (b : List Byte) : Bad :=
  let store := match i with
    | .cpys _ => true
    | _ => false
  let conv := match i with
    | .cpyc _ => true
    | _ => false
  let g := convOf b
  firstBad [
    illegalIf (blkNonzero b 41 15 || (if store then decide (2 < blkN b 40 1) else blkNonzero b 16 8)
      || (conv && (g.bad || blkNonzero b 79 1 || blkNonzero b 96 32))),
    ctrBad b 0,
    if store then ctrBad b 16 else none,
    if conv then localIf c k a (g.p * g.pitch) else none]

/-! ## Link blocks (R226) -/

structure LinkBlk where
  stamp : Nat
  n : Nat
  link : Nat
  role : Nat
  efmt : Nat
  mx : Bool
  rq : Bool
  rfmt : Nat
  rmx : Bool
  ctr : Nat
  inc : Nat
  deriving DecidableEq, Repr

def linkOf (b : List Byte) : LinkBlk :=
  ⟨blkN b 0 8, blkN b 8 4, blkN b 12 1, blkN b 13 1, blkN b 14 1, decide (blkN b 15 1 % 2 = 1), decide (blkN b 15 1 / 2 % 2 = 1),
    blkN b 16 1, decide (blkN b 17 1 % 2 = 1), blkN b 40 8, blkN b 48 8⟩

/-- Bytes of a buffer of `n` elements, with its scale bytes in MX form (R226). -/
def bufBytes (n fmt : Nat) (mx : Bool) : Nat := (n * fmtWidth fmt + 7) / 8 + (if mx then n / 32 else 0)

/-- The two extents overlap without being the same place. -/
def overlaps (a la b lb : Nat) : Bool := decide (a < b + lb) && decide (b < a + la)

/-- MX elements are mxint8 or e2m1. -/
def mxFmt (f : Nat) : Bool := decide (f = 0x0E) || decide (f = 0x0C)

/-- The checks on a link block as read; `bz` says that B names s0. RFMT and RMX count for ROLE 2 alone (log 109); with
RMX too, N is a multiple of 32 (log 117). -/
def linkBlockBad (c : Nat) (k : Core) (a bv : Nat) (bz : Bool) (b : List Byte) : Bad :=
  let x := linkOf b
  let la := bufBytes x.n x.efmt x.mx
  let lr := bufBytes x.n x.rfmt x.rmx
  firstBad [
    illegalIf (decide (11 < x.link) || decide (2 < x.role) || !(fmtAssigned x.efmt) || decide (x.efmt = 0x0D)
      || decide (3 < blkN b 15 1) || decide (1 < blkN b 17 1) || blkNonzero b 18 22
      || (x.mx && (!mxFmt x.efmt || decide (x.n % 32 ≠ 0)))
      || (x.rq && decide (x.role ≠ 2)) || (decide (x.role ≠ 2) && !bz)
      || (decide (x.role = 2) && (!(fmtAssigned x.rfmt) || (!x.rq && (decide (x.rfmt ≠ 0) || x.rmx))
        || (x.rmx && (!mxFmt x.rfmt || decide (x.n % 32 ≠ 0))) || (decide (a ≠ bv) && overlaps a la bv lr)))),
    ctrBad b 40,
    localIf c k a la,
    if x.role = 2 then localIf c k bv lr else none]

/-! ## Bank blocks (R230) -/

structure BankBlk where
  key : BitVec 32
  mask : BitVec 32
  vec : Nat
  out : Nat
  ef : Nat
  mode : Nat
  ntt : Nat
  tt : Nat
  ctr : Nat
  inc : Nat
  deriving DecidableEq, Repr

def bankOf (b : List Byte) : BankBlk :=
  ⟨BitVec.ofNat 32 (blkN b 0 4), BitVec.ofNat 32 (blkN b 4 4), blkN b 8 8, blkN b 16 8, blkN b 24 1, blkN b 25 1, blkN b 26 1,
    blkN b 32 8, blkN b 40 8, blkN b 48 8⟩

/-- The checks on the fields a bank command uses. -/
def bankBlockBad (i : Instr) (c : Nat) (k : Core) (b : List Byte) : Bad :=
  let x := bankOf b
  let out : Bool := match i with
    | .bkmac _ | .bkrd _ => true
    | _ => false
  match i with
  | .bkmac _ => firstBad [illegalIf (!(decide (x.ef = 0x04) || decide (x.ef = 0x01) || decide (x.ef = 0x00))),
      alignIf (decide (x.vec % 32 ≠ 0)) x.vec, alignIf (decide (x.out % 32 ≠ 0)) x.out, ctrBad b 40,
      localIf c k x.vec 1024, localIf c k x.out 512]
  | .bkcmp _ => firstBad [illegalIf (decide (3 < x.mode)), ctrBad b 40]
  | .bkrd _ => firstBad [illegalIf (decide (2 < x.mode)), alignIf (out && decide (x.out % 32 ≠ 0)) x.out, ctrBad b 40,
      localIf c k x.out 512]
  | .bktt _ => firstBad [illegalIf (decide (x.ntt = 0) || decide (16 < x.ntt)), alignIf (decide (x.tt % 16 ≠ 0)) x.tt, ctrBad b 40,
      localIf c k x.tt (16 * x.ntt)]
  | _ => ctrBad b 40

/-- The checks on the block or tile-handle entry a command has read (R32): at issue, or when its last token is set. -/
def readBad (s : State) (i : Instr) (c : Nat) (a bv : Nat) (b : List Byte) : Bad :=
  let k := s.core c
  match i with
  | .mwld _ => illegalIf ((tileOf b).bad)
  | .cpyl f | .cpys f | .cpfill f => if f.c = 0 then none else copyBlockBad i c k a b
  | .cpyc _ => copyBlockBad i c k a b
  | .lxfr f => linkBlockBad c k a bv (decide (f.b = 0)) b
  | .bkmac _ | .bkkey _ | .bkcmp _ | .bkwr _ | .bktt _ | .bkrd _ => bankBlockBad i c k b
  | _ => none

/-! ## Wait condition blocks (09 R267) -/

structure WaitCond where
  addr : Nat
  val : Nat
  op : Nat
  deriving DecidableEq, Repr

def waitCount (b : List Byte) : Nat := blkN b 0 1
def waitAny (b : List Byte) : Bool := decide (blkN b 1 1 % 2 = 1)
def waitChild (b : List Byte) : Bool := decide (blkN b 1 1 / 2 % 2 = 1)
def waitConds (b : List Byte) : List WaitCond :=
  (List.range (waitCount b)).map fun i => ⟨blkN b (16 + 24 * i) 8, blkN b (24 + 24 * i) 8, blkN b (32 + 24 * i) 1⟩

/-- A comparison of R267. -/
def condHolds (op v want : Nat) : Bool := match op with
  | 0 => decide (want ≤ v)
  | 1 => decide (v = want)
  | 2 => decide (v ≠ want)
  | _ => decide (v < want)

/-- The checks of R267 on a condition block. Entries past COUNT are ignored; an ADDR with a bit of [63:48] set is a global address
fault at issue. -/
def waitBlockBad (b : List Byte) : Bad :=
  let cs := waitConds b
  firstBad [
    illegalIf (decide (4 < waitCount b) || (decide (waitCount b = 0) && !waitChild b) || decide (3 < blkN b 1 1) || blkNonzero b 2 14
      || (List.range (waitCount b)).any (fun i => blkNonzero b (33 + 24 * i) 7) || cs.any (fun x => decide (3 < x.op))),
    match cs.find? (fun x => decide (x.addr % 8 ≠ 0)) with
      | some x => alignIf true x.addr
      | none => none,
    match cs.find? (fun x => decide (2 ^ 48 ≤ x.addr)) with
      | some x => badIf true .page 7 x.addr
      | none => none]

end Sys2Proof.Machine
end

