-- ==== Sys2Proof/Machine/Issue.lean ====
section
/-! DEFINITION. What holds a bundle and what refuses it (spec/01 R12, R27; spec/05 R134, R136): for each instruction the stall causes
and the checks that need state, and the wrapper through which every slot instruction runs. -/

namespace Sys2Proof.Machine
open Sys2Proof

/-! ## The program image (18 R310, 05 R148) -/

/-- Bundles of the task's program image. -/
def imageEnd (k : Core) : Nat :=
  if 0 < k.imem.fused then k.imem.fused else (k.imem.segtab.map fun g => g.first + g.count).foldl max 0

/-- The segment that holds a bundle address. -/
def segOf (k : Core) (pc : Nat) : Option Nat :=
  if 0 < k.imem.fused then (if pc < k.imem.fused then some 0 else none)
  else k.imem.segtab.findIdx? fun g => decide (g.first ≤ pc) && decide (pc < g.first + g.count)

/-! ## Loop state (06 R173) -/

def lstatActive (w : Word) : Bool := w.getLsbD 0
def lstatLen (w : Word) : Nat := bitsAt w.toNat 1 6
def lstatNst (w : Word) : Nat := bitsAt w.toNat 7 3
def lstatRot (w : Word) : Bool := w.getLsbD 10
def lstatStart (w : Word) : Nat := bitsAt w.toNat 32 32

/-! ## Leases (04 R118 to R121) -/

def allowOf (s : State) (h : Nat) : Nat := min 256 (bitsAt (s.reg (0x0E0007010000 + h * 16)).toNat 0 9)
def leaseMax (s : State) (h : Nat) : Nat := bitsAt (s.reg (0x0E0007010000 + h * 16 + 8)).toNat 0 7

/-- A macro computes while either half is in compute mode (R118). -/
def ncomp (x : Hearth) : Nat :=
  ((x.halves.filter fun p => p.2.compute).foldl (fun l p => setIns l (p.1 / 2)) ([] : List Nat)).length

/-- The core holds the lease of its hearth with commands left. -/
def holdsLease (s : State) (c : Nat) : Bool := decide ((s.hearth (hearthOf c)).holder = some c)

/-! ## Tokens -/

/-- A producer of the token is in flight (01 R27). -/
def hasProducer (s : State) (c t : Nat) : Bool :=
  let k := s.core c
  k.cpQ.any (fun m => decide (m.tp = some t)) || k.toksts.any (fun x => decide (x.tk = t))
  || (!isGrotto c && (s.hearth (hearthOf c)).cmds.any (fun m => decide (m.core = c) && decide (m.tp = some t)))
  || k.t.storeQ.any (fun a => match a.kind with
      | .atom _ _ _ _ tk _ _ => decide (tk = t)
      | _ => false)
  || k.t.olds.any (fun o => decide (o.tk = t))

/-! ## Stalls of one instruction (R12) -/

/-- A barrier wait on the arrival recorded at index `bar` does not hold yet (09 R256). -/
def barrierWaits (s : State) (c bar : Nat) : Bool :=
  match tget (fun _ => none) (s.core c).arecs bar with
  | none => false
  | some r => !r.counted || (match laneCore s c r.stage r.task with
    | some home => decide ((tget (fun _ => Barrier.reset) (s.core home).bars bar).gen = r.gen)
    | none => true)

/-- The counter a CTRW reads, its threshold. -/
def ctrwArgs (s : State) (c : Nat) (m : CtrwOp) : Word × Word :=
  (readS s c false (fkey s 7 0) m.a, readS s c false (fkey s 7 1) m.b + m.imm.setWidth 64)

/-- What a CTRW's read meets: stall, pass, or a report that ends the stall (R259); an entry of the tables that is poisoned is as poison of
the counter (log 16). -/
inductive CtrRead where
  | wait | pass | poisoned
  /-- Its translation fails, or its completion is an error: PAGE at issue, or MIGRATE (R259; 21 R360). -/
  | failed (cause : Cause) (sub : Nat)
  deriving DecidableEq, Repr

def ctrRead (s : State) (c : Nat) (a thr : Word) : CtrRead :=
  if xlatWaitsAt s c false a.toNat then .wait
  else match translateAt s c a.toNat needRead with
  | .fail .poison _ => .poisoned
  | .fail cause sub => .failed cause sub
  | .ok x =>
    if placeWaits s x.pa false then .wait
    else
      let l := loadAt s x 8
      if l.err then .failed .page 5
      else if l.poison then .poisoned
      else if thr.toNat ≤ l.v then .pass
      else .wait

/-- What a CTRW's read at the counter's home leaves (R71; 20 R352; 21 R369). -/
def ctrTouch (s : State) (c : Nat) (a : Word) : State :=
  let t := missServed (fillX s c a.toNat) c (s.core c).t.seq
  match translateAt s c a.toNat needRead with
  | .ok x => (loadAt t x 8).s
  | .fail _ _ => t

/-- A wait of the CTRW with these operands is over: its read has seen the threshold. -/
def ctrSeen (k : Core) (a thr : Word) : Bool := decide (k.ctrw = some (a, thr, true))

/-- The line that a PREF names (09 R248). -/
def prefAddr (s : State) (c : Nat) (f : Bool) (m : LnOp) : Nat := (readS s c f (fkey s 4 0) m.a + sext m.off).toNat / 64 * 64

/-- The addresses that a WAITY reads (09 R267). -/
def waityAddrs (s : State) (c : Nat) (m : WaityOp) : List Nat :=
  let a := (readS s c false (fkey s 7 0) m.a).toNat
  if inLocal c (s.core c) a 128 then (waitConds (memBytes s.mem (localBase c (s.core c) + a) 128)).map (·.addr) else []

/-- The global addresses that an instruction's access translates: a PROBE that hits, or whose ways are all locked, reads nothing (02 R53). -/
def globalAddrs (s : State) (c : Nat) (f : Bool) (i : Instr) : List Nat := match i with
  | .pref m => [prefAddr s c f m]
  | .waity m => waityAddrs s c m
  | .probe m => if probeFills s c f m then [probeBlock (readS s c f (fkey s 4 0) m.a) * 256] else []
  | _ => match reqOf s c f i with
    | some r => if r.space = .glob then r.parts.map (·.addr) else []
    | none => []

/-- Some page of the instruction's global access is not in the core's cache (R12; 20 R352). -/
def translationMiss (s : State) (c : Nat) (f : Bool) (i : Instr) : Bool :=
  !f && (globalAddrs s c f i).any fun a => decide (a < 2 ^ 48) && (coreCached s c a).isNone

/-- The base die serves the misses of an instruction that translates as it issues: its leaves are cached, and its miss leaves the queue. -/
def serveMisses (s : State) (c : Nat) (l : List Nat) : State :=
  missServed (l.foldl (fun s a => if 2 ^ 48 ≤ a then s else fillX s c a) s) c (s.core c).t.seq

/-- Misses the base die queues (R352). -/
def missLimit : Nat := 4096

/-- The miss has no room at the base die. -/
def missStalls (s : State) (c : Nat) (f : Bool) (i : Instr) : Bool :=
  translationMiss s c f i && decide (missLimit ≤ s.missQ.length) && !(s.missQ.contains (c, (s.core c).t.seq))

/-- An MX command waits for the lease or for room in its queue (04 R120, 08 R208). -/
def mxStalls (s : State) (c : Nat) : Bool :=
  let h := s.hearth (hearthOf c)
  (s.core c).ident.claim && (!holdsLease s c || decide (h.left = 0) || decide (16 ≤ (h.cmds.filter fun m => decide (m.core = c)).length))

/-- Ring access of a form: stalled at the stage limit, once the checks of R237 pass (10 R284, R285). -/
def aformStalls (s : State) (c : Nat) (f : Bool) (i : Instr) (m : AForm) : Bool := match m with
  | .ring k j => (match reqOf s c f i with
      | some r => (match r.ring with
        | some (_, _, o) => !(ringBad s c k j o (if r.parts.length = 1 then (r.parts.map (·.len)).sum else 4096)) && ringStalls s c k j
        | none => false)
      | none => false)
  | _ => false

/-- The probe slot whose local offset is `a`, if the enabled region has one there (02 R53, 09 R247). -/
def probeSlot (k : Core) (a : Nat) : Option Nat :=
  let cfg := k.probecfg.toNat
  let base := bitsAt cfg 0 11 * 1024
  let n := 2 ^ bitsAt cfg 16 4 * 4
  if cfg / 2 ^ 63 = 1 ∧ base ≤ a ∧ (a - base) % 256 = 0 ∧ (a - base) / 256 < n then some ((a - base) / 256) else none

/-- The fill of the slot at `a` has not landed. -/
def pwaitStalls (k : Core) (a : Nat) : Bool :=
  match probeSlot k a with
  | some t => (tget (fun _ => Tag.reset) k.tags t).fill.isSome
  | none => false

/-- Stall causes of one instruction whose guard is true. -/
def slotStalls (s : State) (c : Nat) (f : Bool) (i : Instr) : Bool :=
  let k := s.core c
  sourceStalls s c f i
  || (match tokProduct i with
      | some t => tokPending s c t
      | none => false)
  || missStalls s c f i
  || (match i with
      | .tokw _ => (tokConsumed i).any fun t => tokPending s c t && hasProducer s c t
      | .mlease _ => k.ident.claim && !holdsLease s c
      | .mmode _ | .mwld _ | .mmac _ | .mclr _ | .mdrn _ | .mstat _ => mxStalls s c
      | .cpyl _ | .cpys _ | .cpyc _ | .cpfill _ | .lxfr _ | .bkmac _ | .bkkey _ | .bkcmp _ | .bkwr _ | .bktt _ | .bkrd _ =>
        decide (32 ≤ k.cpQ.length)
      | .ldb m | .ldbu m | .ldh m | .ldhu m | .ldw m | .ldwu m | .ldd m | .ldv m | .stb m | .sth m | .stw m | .std m | .stv m =>
        aformStalls s c f i m.f
      | .pwait m => pwaitStalls k (readS s c f (fkey s 4 0) m.a).toNat
      | .vpatsw _ => k.t.pend.any fun p => decide (p.issued < k.cyc) && !p.landed && (match p.res with
          | .pat _ _ => true
          | _ => false)
      | .barw m => barrierWaits s c m.bar.toNat && (match tget (fun _ => none) k.arecs m.bar.toNat with
          | some r => decide (r.stage = m.hstg.toNat) && decide (r.task = m.htsk.toNat)
          | none => false)
      | .ctrw m =>
        let (a, t) := ctrwArgs s c m
        decide (a.toNat % 8 = 0) && decide (a.toNat < 2 ^ 48) && !(ctrSeen k a t) && decide (ctrRead s c a t = .wait)
      | .wpw m =>
        decide ((tget (fun _ => 0) k.wp m.ch.toNat).toNat < (readS s c f (fkey s 7 0) m.a + m.imm.setWidth 64).toNat)
      | _ => false)

/-! ## Checks that need state (R134) -/

/-- What a failing check does: a kind A fault, or the deferred report of a CTRW that ends its stall unissued (R340). -/
inductive Trouble where
  | fault (cause : Cause) (sub addr : Nat)
  | again (cause : Cause) (sub addr : Nat)
  deriving DecidableEq, Repr

def troubleOf (b : Bad) : Option Trouble := match b with
  | none => none
  | some (c, sub, a) => some (.fault c sub a)

/-- Alignment, [63:48], and local range of a memory request (09 R237). -/
def reqBad (s : State) (c : Nat) (r : Req) : Bad :=
  let k := s.core c
  match r.ring with
  | some (kf, jf, o) =>
    let len := (r.parts.map (·.len)).sum
    firstBad [badIf (ringBad s c kf jf o len) .ringCfg 0 0, alignIf (decide (o.toNat % r.align ≠ 0)) o.toNat]
  | none =>
    firstBad [
      match r.parts.find? (fun p => decide (p.addr % r.align ≠ 0)) with
        | some p => alignIf true p.addr
        | none => none,
      if r.space = .glob then
        match r.parts.find? (fun p => decide (2 ^ 48 < p.addr + p.len)) with
        | some p => badIf true .page 7 p.addr
        | none => none
      else
        match r.parts.find? (fun p => !inLocal c k p.addr p.len) with
        | some p => badIf true .page 6 p.addr
        | none => none]

/-- The atomics' OLD address (R237). -/
def oldBad (s : State) (c : Nat) (f : Bool) (m : AtmOp) (w : Nat) : List Bad :=
  if m.old = 0 then []
  else
    let o := (readS s c f (fkey s 5 3) m.old).toNat
    [alignIf (decide (o % w ≠ 0)) o, localIf c (s.core c) o w]

/-- The alignment checks of both addresses precede the range checks. -/
def atomBad (s : State) (c : Nat) (f fadd : Bool) (m : AtmOp) : Bad :=
  let w := atomWidth fadd m
  let r := atomReq s c f fadd m
  let main := reqBad s c r
  match main with
  | some (.align, x, y) => some (.align, x, y)
  | _ => match oldBad s c f m w with
    | some b :: _ => some b
    | none :: rest => match main with
      | some b => some b
      | none => firstBad rest
    | [] => main

/-- The value MTSR would write is one the register refuses (06 R175). -/
def mtsrBad (c : Nat) (k : Core) (n : Nat) (v : Word) : Bool :=
  let w := v.toNat
  match n with
  | 1 => decide (64 ≤ w)
  | 3 => decide (32 ≤ w)
  | 4 => decide (w % 64 ≠ 0) || !inLocal c k w 8192
  | 5 => decide (bitsAt w 11 5 ≠ 0) || decide (bitsAt w 20 43 ≠ 0) || decide (10 < bitsAt w 16 4)
    || !inLocal c k (bitsAt w 0 11 * 1024) (2 ^ bitsAt w 16 4 * 1024)
  | _ => false

/-- A queue that the driver has granted to a context (19 R325). -/
def queueGranted (s : State) (q ctx : Nat) : Bool :=
  let ctl := s.reg (0x0E0001000000 + q * 64 + 8)
  ctl.getLsbD 9 && decide (bitsAt ctl.toNat 10 16 = ctx)

/-- The checks of RINGCFG (R263). -/
def ringCfgBad (s : State) (c : Nat) (m : RingCfgOp) : Bool :=
  let a := readS s c false (fkey s 7 0) m.a
  let b := readS s c false (fkey s 7 1) m.b
  let r : Ring := ⟨a, b⟩
  decide (bitsAt a.toNat 22 2 ≠ 0) || decide (2 ^ 32 ≤ a.toNat) || decide (2 ^ 24 ≤ b.toNat)
  || decide (r.logsz < 8) || decide (18 < r.logsz) || decide (r.slots = 1) || decide (r.base % 2 ^ r.logsz ≠ 0)
  || decide (r.pbar = r.cbar)
  || (match laneCore s c r.hstg r.htsk with
      | none => true
      | some h => !inLocal h (s.core h) r.base (r.slots * 2 ^ r.logsz) || (r.init && decide (h ≠ c)))

/-- Whether every token the instruction consumes is set. -/
def tokensSet (s : State) (c : Nat) (i : Instr) : Bool := (tokConsumed i).all fun t => !tokPending s c t

/-- The bytes of a block in the task's own scratchpad. -/
def localBytes (s : State) (c off len : Nat) : List Byte := memBytes s.mem (localBase c (s.core c) + off) len

/-- Active shape register of a command, after its swap (01 R26). -/
def shapeAt (k : Core) (e : EC) (base : Nat) : BitVec 512 :=
  let n := base + e.z.toNat
  if e.sw = 1 then tget (fun _ => 0) k.shd n else tget (fun _ => 0) k.shp n

/-- LEASE: the task's launch does not claim the hearth (04 R120). -/
def leaseBad (k : Core) : Bad := badIf (!k.ident.claim) .lease 0 0

/-- At-issue checks of a copy command: NDIM, block address, block contents, local extent (08 R218 to R222). -/
def copyBad (s : State) (c : Nat) (i : Instr) (f : CpOp) : Bad :=
  let k := s.core c
  let a := (readS s c false (fkey s 6 0) f.a).toNat
  let b := (readS s c false (fkey s 6 1) f.b).toNat
  let cc := (readS s c false (fkey s 6 2) f.c).toNat
  let shape := shapeAt k f.e 4
  let len := match i with
    | .cpyc _ => 128
    | _ => 64
  let place : Bad := if f.c = 0 then none else blockAddrBad c k cc len
  let read : Bad := match place with
    | some _ => none
    | none => if f.c = 0 ∨ !tokensSet s c i then none else readBad s i c a b (localBytes s c cc len)
  let nd : Bad := match i with
    | .cpyl _ | .cpys _ | .cpfill _ => illegalIf (ndimBad shape)
    | _ => none
  let ext : Bad := match i with
    | .cpyl _ | .cpys _ => if shpTotal shape = 0 then none else localIf c k a (shpTotal shape)
    | .cpfill _ =>
      if shpTotal shape = 0 then none
      else
        let (lo, hi) := shpReach shape
        badIf (decide ((a : Int) + lo < 0) || decide ((localSize c k : Int) ≤ (a : Int) + hi)) .page 6 a
    | _ => none
  match nd, read with
  | some x, _ => some x
  | none, some (.illegalOp, x, y) => some (.illegalOp, x, y)
  | none, r => match place with
    | some (.align, x, y) => some (.align, x, y)
    | p => match r with
      | some (.align, x, y) => some (.align, x, y)
      | _ => firstBad [p, ext, r]

/-- At-issue checks of a bank command (08 R229, R230). An s[A] with a bit of [63:48] set raises PAGE here, where R44 names no moment and R229
only the deferred PAGE of its page (DESIGN CHOICE, log 98). -/
def bankBad (s : State) (c : Nat) (i : Instr) (f : BkOp) : Bad :=
  let k := s.core c
  let a := (readS s c false (fkey s 6 0) f.a).toNat
  let b := (readS s c false (fkey s 6 1) f.b).toNat
  let cc := (readS s c false (fkey s 6 2) f.c).toNat
  let place := blockAddrBad c k cc 64
  let read : Bad := match place with
    | some _ => none
    | none => if !tokensSet s c i then none else readBad s i c a b (localBytes s c cc 64)
  firstBad [illegalIf (decide (a % 2 ^ 14 ≠ 0) || decide (b % 2 ^ 16 = 0) || decide (2 ^ 16 ≤ b)),
    match read with
      | some (.illegalOp, x, y) => some (.illegalOp, x, y)
      | _ => none,
    match place with
      | some (.align, x, y) => some (.align, x, y)
      | _ => none,
    match read with
      | some (.align, x, y) => some (.align, x, y)
      | _ => none,
    badIf (decide (2 ^ 48 ≤ a)) .page 7 a, place, read]

/-- The selector operand of an MX command. -/
def selAt (s : State) (c : Nat) (r : BitVec 7) : Sel := selOf (readS s c false (fkey s 3 0) r)

/-- At-issue checks of an MX command, in the order of R134. A drain whose s[A] has a bit of [63:48] set raises PAGE here, where R44 names no
moment and R216 names only the deferred PAGE of a sector (DESIGN CHOICE, log 98). -/
def mxBad (s : State) (c : Nat) (i : Instr) : Bad :=
  let k := s.core c
  match i with
  | .mlease _ | .mrel _ => leaseBad k
  | .mmode f => firstBad [illegalIf ((selAt s c f.s).bad true false), leaseBad k]
  | .mclr f => firstBad [illegalIf ((selAt s c f.s).bad true false), leaseBad k]
  | .mmac f => firstBad [illegalIf (mmacBad f (selAt s c f.s)), leaseBad k]
  | .mwld f =>
    let off := k.thbase.toNat + 32 * f.th.toNat
    firstBad [illegalIf ((selAt s c f.s).bad true false),
      if tokensSet s c i && inLocal c k off 32 then readBad s i c 0 0 (localBytes s c off 32) else none,
      leaseBad k, localIf c k off 32]
  | .mdrn f =>
    let x := selAt s c f.s
    let a := (readS s c false (fkey s 3 1) (f.v.setWidth 7)).toNat
    let str := wrapNat 40 (shpStr (shapeAt k f.e 0) 0)
    firstBad [illegalIf (x.bad true false || (decide (f.dst = 0) && decide (x.halves.length ≠ 1))), leaseBad k,
      if f.dst = 1 then alignIf (decide (a % 32 ≠ 0) || decide (str % 32 ≠ 0)) a else none,
      if f.dst = 1 then badIf (decide (2 ^ 48 ≤ a)) .page 7 a else none]
  | .mstat f =>
    let x := selAt s c f.s
    let a := (readS s c false (fkey s 3 1) f.a).toNat
    firstBad [illegalIf (x.bad false false || x.h0 || x.h1 || decide (x.macros.length ≠ 1)), leaseBad k,
      alignIf (decide (a % 8 ≠ 0)) a, localIf c k a 8]
  | _ => none

/-- The checks of one instruction whose guard is true. -/
def slotTrouble (s : State) (c : Nat) (f : Bool) (i : Instr) : Option Trouble :=
  let k := s.core c
  match i with
  | .kloop m => troubleOf (firstBad [illegalIf (lstatActive k.lstat),
      badIf (decide (segOf k (k.t.pc + 1 + m.len.toNat) ≠ segOf k k.t.pc) || (segOf k k.t.pc).isNone) .seg 2 0])
  | .mtsr m => troubleOf (illegalIf (mtsrBad c k m.sreg.toNat (readS s c f (fkey s 0 0) m.a)))
  | .mlease _ | .mrel _ | .mmode _ | .mwld _ | .mmac _ | .mclr _ | .mdrn _ | .mstat _ => troubleOf (mxBad s c i)
  | .cpyl m | .cpys m | .cpyc m | .cpfill m | .lxfr m => troubleOf (copyBad s c i m)
  | .bkmac m | .bkkey m | .bkcmp m | .bkwr m | .bktt m | .bkrd m => troubleOf (bankBad s c i m)
  | .probe _ => troubleOf (firstBad [illegalIf (!(k.probecfg.getLsbD 63)), (reqOf s c f i).bind (reqBad s c)])
  | .aadd m | .aand m | .aor m | .axor m | .amin m | .aminu m | .amax m | .amaxu m | .axch m | .acas m =>
    troubleOf (atomBad s c f false m)
  | .afadd m => troubleOf (atomBad s c f true m)
  | .tokw _ => troubleOf (badIf ((tokConsumed i).any fun t => tokPending s c t && !hasProducer s c t) .token 0 0)
  | .barw m => troubleOf (illegalIf (match tget (fun _ => none) k.arecs m.bar.toNat with
      | some r => decide (r.stage ≠ m.hstg.toNat) || decide (r.task ≠ m.htsk.toNat)
      | none => false))
  | .ctrw m =>
    let (a, t) := ctrwArgs s c m
    if a.toNat % 8 ≠ 0 then some (.fault .align 0 a.toNat)
    else if 2 ^ 48 ≤ a.toNat then some (.fault .page 7 a.toNat)
    else if ctrSeen k a t then none
    else match ctrRead s c a t with
      | .failed .migrate _ => some (.again .migrate 0 a.toNat)
      | .failed cause sub => some (.fault cause sub a.toNat)
      | .poisoned => some (.again .poison 0 a.toNat)
      | _ => none
  | .ringcfg m => troubleOf (badIf (ringCfgBad s c m) .ringCfg 0 0)
  | .dqadv m =>
    let q := (readS s c f (fkey s 7 0) m.a).toNat
    troubleOf (illegalIf (decide (2 ^ 15 ≤ q) || !queueGranted s q k.ident.ctx))
  | .waity m =>
    let a := (readS s c f (fkey s 7 0) m.a).toNat
    match blockAddrBad c k a 128 with
    | some b => troubleOf (match waitBlockBad (if inLocal c k a 128 then localBytes s c a 128 else []) with
        | some (.illegalOp, x, y) => if inLocal c k a 128 then some (.illegalOp, x, y) else some b
        | _ => some b)
    | none => troubleOf (waitBlockBad (localBytes s c a 128))
  | _ => troubleOf ((reqOf s c f i).bind (reqBad s c))

/-! ## A false guard (R136, 01 R20, R22) -/

/-- Latency of a form that pushes onto the scalar age queue (06 R157). -/
def pushS (i : Instr) : Option Nat :=
  match i with
  | .add f | .sub f | .mul f | .mulh f | .mulhu f | .div f | .divu f | .rem f | .remu f | .and f | .or f | .xor f
  | .shl f | .shr f | .sar f | .min f | .minu f | .max f | .maxu f | .ext f | .extu f | .ins f | .clz f | .popc f | .sel f
  | .fadd f | .fsub f | .fmul f | .fma f | .fdiv f | .fsqrt f | .fmin f | .fmax f => some f.lat.toNat
  | .addi f | .andi f | .ori f | .xori f | .shli f | .shri f | .sari f => some f.lat.toNat
  | .movi f | .movhi f => some f.lat.toNat
  | .fcvt f => some f.lat.toNat
  | .call f => some f.lat.toNat
  | .mfsr f => some f.lat.toNat
  | _ => none

/-- Latency of a form that pushes onto the vector age queue (05 R150). -/
def pushV (i : Instr) : Option Nat :=
  match i with
  | .vadd f | .vsub f | .vmul f | .vfma f | .vfms f | .vdiv f | .vsqrt f | .vmin f | .vmax f | .vabs f | .vneg f
  | .vand f | .vor f | .vxor f | .vnot f | .vshl f | .vshr f | .vsar f | .vqnt f | .vdqnt f | .vbdot f | .vexp f
  | .vlog f | .vsin f | .vcos f | .vtanh f | .vrsqrt f | .vrcp f | .vsigm f | .vtrn f | .vmov f => some f.lat.toNat
  | .vcvt f | .vunpk f | .vpack f | .vsel f | .vrotr f | .vrotc f | .vbcr f | .vbcc f | .vredr f | .vredc f
  | .vshuf f | .vperm f | .vctd f | .vsplats f => some f.lat.toNat
  | .vsplati f => some f.lat.toNat
  | _ => none

/-- The entry a pushing form leaves when its guard is false: zero, landing within its bound (log 17). -/
def guardFalse (s : State) (c : Nat) (f : Bool) (i : Instr) : State :=
  match pushS i, pushV i with
  | some l, _ => issueS s c f (.scal 0 0) true l 0
  | none, some l => issueV s c (.vec none 0 0) true l 0
  | none, none => s

/-- The cycles for which a vector instruction takes its unit (01 R13). -/
def unitCycles (i : Instr) : Nat := match i with
  | .vpand _ | .vpor _ | .vpxor _ | .vpatsw _ => 1
  | _ => 4

/-- The vector unit of an instruction and the cycles it takes. -/
def unitOf (i : Instr) : Option (VUnit × Nat) :=
  match slotOf i with
  | some .va => some (.a, unitCycles i)
  | some .vb => some (.b, unitCycles i)
  | _ => none

/-- The unit is still occupied. -/
def unitBusy (k : Core) (i : Instr) : Bool :=
  match unitOf i with
  | some (.a, _) => decide (k.cyc < k.vs.freeA)
  | some (.b, _) => decide (k.cyc < k.vs.freeB)
  | none => false

/-- Occupy the unit from this cycle on. -/
def occupy (s : State) (c : Nat) (i : Instr) : State :=
  match unitOf i with
  | some (.a, n) => s.modCore c fun k => { k with vs := { k.vs with freeA := k.cyc + n } }
  | some (.b, n) => s.modCore c fun k => { k with vs := { k.vs with freeB := k.cyc + n } }
  | none => s

/-- The guard of an instruction, read at issue; the key's operand 15 is the guard's. -/
def guardHolds (s : State) (c : Nat) (f : Bool) (i : Instr) : Bool :=
  match guardOf i, slotOf i with
  | some g, some sl => readG s c f (fkey s (slotNum sl) 15) g
  | _, _ => true

/-! ## A bundle (01 R11, R12; 05 R134) -/

/-- The instructions of a bundle that act: those whose guard holds. -/
def live (s : State) (c : Nat) (f : Bool) (is : List Instr) : List Instr := is.filter fun i => guardHolds s c f i

/-- Some slot stalls the bundle (R12). -/
def bundleStalls (s : State) (c : Nat) (f : Bool) (is : List Instr) : Bool :=
  let k := s.core c
  is.any (unitBusy k) || (live s c f is).any (slotStalls s c f)
  || (decide (0 < ((live s c f is).map (weightOf s c f)).sum)
      && decide (1024 < outstanding k + ((live s c f is).map (weightOf s c f)).sum))

/-- The first failing check of a bundle's slots, with its slot's number (R134). -/
def bundleTrouble (s : State) (c : Nat) (f : Bool) : List Instr → Option (Nat × Trouble)
  | [] => none
  | i :: rest =>
    match (if guardHolds s c f i then slotTrouble s c f i else none) with
    | some t => some ((match slotOf i with
        | some sl => slotNum sl
        | none => 255), t)
    | none => bundleTrouble s c f rest

/-- What the read of a CTRW that ends in a report leaves: its walk, and what it found at the counter's home (22 R377, R380, R381). A CTRW
reports before its read only a counter's address that is misaligned or above the space. -/
def troubleLeft (s : State) (c : Nat) (is : List Instr) (slot : Nat) (t : Trouble) : State :=
  match is.find? (fun i => match i with
      | .ctrw _ => true
      | _ => false), t with
  | some (.ctrw _), .fault .align _ _ | some (.ctrw _), .fault .page 7 _ => s
  | some (.ctrw m), _ => if slot = slotNum .sy then ctrTouch s c (ctrwArgs s c m).1 else s
  | _, _ => s

/-- Take what a failing check does: at F a fault of F (20 R343). -/
def takeTrouble (s : State) (c : Nat) (f : Bool) (slot : Nat) (t : Trouble) : State :=
  match t with
  | .fault cause sub a => if f then faultF s c cause.code (BitVec.ofNat 64 a) else faultA s c cause sub (BitVec.ofNat 64 a) slot
  | .again cause sub a =>
    let pc := (s.core c).t.pc
    takeReport (report s c ⟨cause.code, sub, BitVec.ofNat 64 a, pc, slot, 0, true, true, false, 0⟩) c

/-- A bundle that fails a check on its bits alone faults at once (R134); a header's fault names no slot. -/
def takeIllegal (s : State) (c : Nat) (f : Bool) (slot : Nat) : State :=
  takeTrouble s c f slot (.fault .illegalOp 0 0)

/-- An MX command that waits for the lease requests it; MREL never does (04 R120, 08 R211). -/
def wantsLease (i : Instr) : Bool := match i with
  | .mrel _ => false
  | _ => decide (slotOf i = some .mx)

/-- End the lease of a hearth (R120). -/
def endLease (s : State) (h : Nat) : State :=
  let task := match (s.hearth h).holder with
    | some c => some (s.core c).ident.task
    | none => (s.hearth h).lastHolder
  s.modHearth h fun x => { x with holder := none, left := 0, lastHolder := task }

/-- The count of a lease is spent: it is granted again at once if no other core requests it, and ends otherwise (R120). -/
def spendLease (s : State) (h : Nat) : State :=
  let x := s.hearth h
  match x.holder with
  | some c =>
    if x.left ≠ 0 then s
    else if setDel x.wants c = [] then s.modHearth h fun y => { y with left := leaseMax s h, wants := [], lastMx := (s.core c).cyc }
    else endLease s h
  | none => s

/-- One cycle of a core passes; a lease that its core has not used for 4,096 cycles ends (R120). -/
def tickCore (s : State) (c : Nat) : State :=
  let t := s.modCore c Core.tick
  let x := t.hearth (hearthOf c)
  if decide (x.holder = some c) && !isGrotto c && decide (x.lastMx + 4096 ≤ (t.core c).cyc) then endLease t (hearthOf c) else t

/-- A stalled cycle: an MX slot that waits requests the lease (04 R120), a CTRW whose operands have landed keeps what it waits for, a
miss waits at its core; the cycle passes. -/
def stallCycle (s : State) (c : Nat) (f : Bool) (is : List Instr) : State :=
  let act := live s c f is
  let s := if act.any wantsLease && (s.core c).ident.claim && !holdsLease s c then
      s.modHearth (hearthOf c) fun h => { h with wants := setIns h.wants c } else s
  let s := match act.find? (fun i => match i with
      | .ctrw _ => true
      | _ => false) with
    | some (.ctrw m) =>
      let (a, t) := ctrwArgs s c m
      if sourceStalls s c f (.ctrw m) then s.modCore c fun k => { k with ctrw := none }
      else
        let s := if missStalls s c f (.ctrw m) || xlatWaitsAt s c false a.toNat then s else missServed (fillX s c a.toNat) c (s.core c).t.seq
        s.modCore c fun k => { k with ctrw := if ctrSeen k a t then k.ctrw else some (a, t, false) }
    | _ => s
  let s := s.modCore c fun k => { k with missWait := act.any (missStalls s c f) }
  tickCore { s with fresh := s.fresh + 1 } c

/-- One slot instruction of a bundle whose checks have passed: its effect, or what a false guard leaves. -/
def actSlot (i : Instr) (eff : State → State) (s : State) : State :=
  let c := s.cur
  let f := (s.core c).inF
  let s1 := occupy s c i
  if guardHolds s c f i then eff s1 else guardFalse s1 c f i

/-- Run one slot instruction. Inside a bundle that has passed its checks (`issuing`) it only acts; on its own it is a bundle with one
valid slot, whose checks it makes itself: ILLEGAL_OP for its bits, a stalled cycle, a failing check, or its effect. -/
def runSlot (i : Instr) (eff : State → State) (s : State) : Res State :=
  match s.issuing with
  | some _ => .next (actSlot i eff s)
  | none =>
    let c := s.cur
    let f := (s.core c).inF
    let slot := match slotOf i with
      | some sl => slotNum sl
      | none => 255
    if !(i.wellFormedB (encCtx s c)) then .next (takeIllegal s c f slot)
    else if bundleStalls s c f [i] then .next (stallCycle s c f [i])
    else match bundleTrouble s c f [i] with
      | some (n, t) => .next (takeTrouble (troubleLeft s c [i] n t) c f n t)
      | none => let t := actSlot i eff s
        .next { t with fresh := t.fresh + 1 }

end Sys2Proof.Machine
end

