-- ==== Sys2Proof/Machine/Vector.lean ====
section
/-! DEFINITION. The arithmetic, logic, conversion and predicate forms of the vector slots (spec/07 R182 to R197). -/

namespace Sys2Proof.Machine
open Sys2Proof

/-- Slot number of a vector unit. -/
def unitNum (u : VUnit) : Nat := match u with
  | .a => 1
  | .b => 2

/-- Vector source `r`, the instruction's operand `n` (R182). -/
def vIn (s : State) (u : VUnit) (n : Nat) (r : BitVec 9) : VReg := readV s s.cur (fkey s (unitNum u) n) r
/-- The vector predicate of the instruction. -/
def pIn (s : State) (u : VUnit) (n : Nat) (p : BitVec 4) : PReg := readP s s.cur (fkey s (unitNum u) n) p

/-- Write the destination where the predicate enables it, and push (01 R18 to R21). -/
def vOut (s : State) (d : BitVec 9) (lat : BitVec 4) (en : PReg) (r : VReg × Flags) : State :=
  issueV s s.cur (.vec (vdestOf (s.core s.cur) d) r.1 en) true lat.toNat r.2

/-- An element of register width, decoded. -/
def elemVal (fmt : Nat) (v : VReg) (i : Nat) : Val := decodeFmt fmt (elemOf v (fmtRegWidth fmt) i)

/-! ## Element-wise arithmetic (R185 to R187) -/

def effV1 (op : Val → VF) (f : V3) (s : State) : State :=
  let a := vIn s f.u 0 f.a
  let en := pIn s f.u 14 f.p
  let m := f.fmt.toNat
  vOut s f.d f.lat en (vecResult (fmtRegWidth m) en fun i => deliver (op (elemVal m a i)) m .rne)

def effV2 (op : Val → Val → VF) (f : V3) (s : State) : State :=
  let a := vIn s f.u 0 f.a
  let b := vIn s f.u 1 f.b
  let en := pIn s f.u 14 f.p
  let m := f.fmt.toNat
  vOut s f.d f.lat en (vecResult (fmtRegWidth m) en fun i => deliver (op (elemVal m a i) (elemVal m b i)) m .rne)

def effV3 (op : Val → Val → Val → VF) (f : V3) (s : State) : State :=
  let a := vIn s f.u 0 f.a
  let b := vIn s f.u 1 f.b
  let c := vIn s f.u 2 f.c
  let en := pIn s f.u 14 f.p
  let m := f.fmt.toNat
  vOut s f.d f.lat en
    (vecResult (fmtRegWidth m) en fun i => deliver (op (elemVal m a i) (elemVal m b i) (elemVal m c i)) m .rne)

def execVadd (f : V3) (s : State) : Res State := runSlot (.vadd f) (effV2 vAdd f) s
def execVsub (f : V3) (s : State) : Res State := runSlot (.vsub f) (effV2 vSub f) s
def execVmul (f : V3) (s : State) : Res State := runSlot (.vmul f) (effV2 vMul f) s
def execVfma (f : V3) (s : State) : Res State := runSlot (.vfma f) (effV3 vFma f) s
/-- x × y − z as x × y + (−z) (03 R86). -/
def execVfms (f : V3) (s : State) : Res State := runSlot (.vfms f) (effV3 (fun x y z => vFma x y (vNeg z)) f) s
def execVdiv (f : V3) (s : State) : Res State := runSlot (.vdiv f) (effV2 vDiv f) s
def execVsqrt (f : V3) (s : State) : Res State := runSlot (.vsqrt f) (effV1 vSqrt f) s
def execVmin (f : V3) (s : State) : Res State := runSlot (.vmin f) (effV2 vMin f) s
def execVmax (f : V3) (s : State) : Res State := runSlot (.vmax f) (effV2 vMax f) s
def execVabs (f : V3) (s : State) : Res State := runSlot (.vabs f) (effV1 (fun x => (vAbs x, 0)) f) s
def execVneg (f : V3) (s : State) : Res State := runSlot (.vneg f) (effV1 (fun x => (vNeg x, 0)) f) s

/-! ## Logic and shifts (R188) -/

def effL2 (op : VReg → VReg → VReg) (f : V3) (s : State) : State :=
  vOut s f.d f.lat (pIn s f.u 14 f.p) (op (vIn s f.u 0 f.a) (vIn s f.u 1 f.b), 0)
def effNot (f : V3) (s : State) : State := vOut s f.d f.lat (pIn s f.u 14 f.p) (~~~(vIn s f.u 0 f.a), 0)

/-- A shift of a code of width `w` by `k`. -/
def shlCode (w x k : Nat) : Nat := if w ≤ k then 0 else x * 2 ^ k % 2 ^ w
def shrCode (w x k : Nat) : Nat := if w ≤ k then 0 else x / 2 ^ k
def sarCode (w x k : Nat) : Nat := wrapNat w (signedOf w x / ((2 ^ (min k w) : Nat) : Int))

/-- Shifts act on elements of the code width (R188). -/
def effShift (op : Nat → Nat → Nat → Nat) (f : V3) (s : State) : State :=
  let a := vIn s f.u 0 f.a
  let b := vIn s f.u 1 f.b
  let w := fmtRegWidth f.fmt.toNat
  let cw := fmtWidth f.fmt.toNat
  vOut s f.d f.lat (pIn s f.u 14 f.p)
    (ofElems w fun i => op cw (elemOf a w i % 2 ^ cw) (elemOf b w i % 2 ^ cw), 0)

def execVand (f : V3) (s : State) : Res State := runSlot (.vand f) (effL2 (· &&& ·) f) s
def execVor (f : V3) (s : State) : Res State := runSlot (.vor f) (effL2 (· ||| ·) f) s
def execVxor (f : V3) (s : State) : Res State := runSlot (.vxor f) (effL2 (· ^^^ ·) f) s
def execVnot (f : V3) (s : State) : Res State := runSlot (.vnot f) (effNot f) s
def execVshl (f : V3) (s : State) : Res State := runSlot (.vshl f) (effShift shlCode f) s
def execVshr (f : V3) (s : State) : Res State := runSlot (.vshr f) (effShift shrCode f) s
def execVsar (f : V3) (s : State) : Res State := runSlot (.vsar f) (effShift sarCode f) s

/-! ## Conversions (R189 to R191, R205) -/

/-- The mapping of R189 between `ks` source and `kd` destination sub-elements of a cell: for destination sub-element `j` of a cell, the
source sub-element it converts, or none where the merge source shows. -/
def cvtSource (ks kd part j : Nat) : Option Nat :=
  if kd ≤ ks then some (part * kd + j)
  else if part * ks ≤ j ∧ j < part * ks + ks then some (j - part * ks)
  else none

/-- Convert within cells from width-`ws` elements to width-`wd` elements, merging `b`, whose elements keep all their bits (log 116). -/
def cvtResult (ws wd part : Nat) (en : PReg) (conv : Nat → Nat × Flags) (a b : VReg) : VReg × Flags :=
  let ks := 32 / ws
  let kd := 32 / wd
  vecResult wd en fun i =>
    match cvtSource ks kd part (i % kd) with
    | some j => conv (elemOf a ws (i / kd * ks + j))
    | none => (elemOf b wd i, 0)

def effVcvt (f : VI) (s : State) : State :=
  let src := f.fmt.toNat
  let dst := bitsAt f.imm.toNat 0 6
  let mode : RMode := if bitsAt f.imm.toNat 6 1 = 1 then .rtz else .rne
  let ws := fmtRegWidth src
  let wd := fmtRegWidth dst
  let a := vIn s f.u 0 f.a
  let b := if wd < ws then vIn s f.u 1 f.b else 0
  let en := pIn s f.u 14 f.p
  vOut s f.d f.lat en (cvtResult ws wd (bitsAt f.imm.toNat 7 2) en (fun x => convTo (decodeFmt src x) dst mode) a b)
def execVcvt (f : VI) (s : State) : Res State := runSlot (.vcvt f) (effVcvt f) s

/-- Block size K in cells of the BLK field (R190). -/
def qntBlock (n : Nat) : Nat := match n with
  | 0 => 1 | 1 => 8 | 2 => 16 | 3 => 32 | _ => 64

/-- The fp32 scale of cell `i` (row × 64 + cell). -/
def qntScale (k : Nat) (b : VReg) (i : Nat) : Val := decodeFmt 0 (elemOf b 32 (i / 64 * 64 + i % 64 / k))

def effVqnt (f : V3) (s : State) : State :=
  let m := f.fmt.toNat
  let w := fmtRegWidth m
  let kd := 32 / w
  let k := qntBlock (bitsAt f.c.toNat 0 3)
  let part := bitsAt f.c.toNat 3 2
  let a := vIn s f.u 0 f.a
  let b := vIn s f.u 1 f.b
  let en := pIn s f.u 14 f.p
  vOut s f.d f.lat en (vecResult w en fun i =>
    if i % kd = part then deliver (vDiv (decodeFmt 0 (elemOf a 32 (i / kd))) (qntScale k b (i / kd))) m .rne else (0, 0))
def effVdqnt (f : V3) (s : State) : State :=
  let m := f.fmt.toNat
  let w := fmtRegWidth m
  let ks := 32 / w
  let k := qntBlock (bitsAt f.c.toNat 0 3)
  let part := bitsAt f.c.toNat 3 2
  let a := vIn s f.u 0 f.a
  let b := vIn s f.u 1 f.b
  let en := pIn s f.u 14 f.p
  vOut s f.d f.lat en (vecResult 32 en fun i =>
    deliver (vMul (decodeFmt m (elemOf a w (i * ks + part))) (qntScale k b i)) 0 .rne)
def execVqnt (f : V3) (s : State) : Res State := runSlot (.vqnt f) (effVqnt f) s
def execVdqnt (f : V3) (s : State) : Res State := runSlot (.vdqnt f) (effVdqnt f) s

/-- Code number `i` of row `n`, packed at width `cw` (03 R78). -/
def packedCode (v : VReg) (cw n i : Nat) : Nat := bitsAt v.toNat (2048 * n + cw * i) cw

def effVunpk (f : VI) (s : State) : State :=
  let cw := fmtWidth f.fmt.toNat
  let a := vIn s f.u 0 f.a
  let part := f.imm.toNat % 2
  vOut s f.d f.lat (pIn s f.u 14 f.p) (ofElems 8 fun i => packedCode a cw (i / 256) (part * 256 + i % 256), 0)

/-- One row with 256 codes put at code number `from`: the low bits of elements, as a number of 2,048 bits. -/
def packRow (cw : Nat) (a old : VReg) (first n : Nat) : Nat :=
  let row := bitsAt old.toNat (2048 * n) 2048
  let lo := cw * first
  let codes := packW cw (fun i => elemOf a 8 (256 * n + i)) 256
  row - bitsAt row lo (cw * 256) * 2 ^ lo + codes * 2 ^ lo

def effVpack (f : VI) (s : State) : State :=
  let cw := fmtWidth f.fmt.toNat
  let a := vIn s f.u 0 f.a
  let b := vIn s f.u 1 f.b
  vOut s f.d f.lat (pIn s f.u 14 f.p) (ofElems 2048 (packRow cw a b (f.imm.toNat % 2 * 256)), 0)
def execVunpk (f : VI) (s : State) : Res State := runSlot (.vunpk f) (effVunpk f) s
def execVpack (f : VI) (s : State) : Res State := runSlot (.vpack f) (effVpack f) s

/-- VCTD: the code table captured at issue (R205, 01 R29). -/
def effVctd (f : VI) (s : State) : State :=
  let m := f.fmt.toNat
  let a := vIn s f.u 0 f.a
  let ct := tget (fun _ => 0) (s.core s.cur).vs.ct (bitsAt f.imm.toNat 0 2)
  let en := pIn s f.u 14 f.p
  vOut s f.d f.lat en (cvtResult 8 (fmtRegWidth m) (bitsAt f.imm.toNat 2 2) en
    (fun x => convTo (decodeFmt 1 (bitsAt ct.toNat (16 * (x % 16)) 16)) m .rne) a 0)
def execVctd (f : VI) (s : State) : Res State := runSlot (.vctd f) (effVctd f) s

/-! ## Block-scaled dot product (R192, R193) -/

/-- A byte of row `n` of a register. -/
def rowByte (v : VReg) (n j : Nat) : Nat := bitsAt v.toNat (2048 * n + 8 * j) 8
def rowWord (v : VReg) (n j : Nat) : Nat := bitsAt v.toNat (2048 * n + 8 * j) 32

/-- K of KCODE. -/
def bdotK (n : Nat) : Nat := 8 * 2 ^ n

/-- The parameters of a row are invalid (R193). -/
def bdotBad (m : Nat) (c : VReg) (n : Nat) : Bool :=
  let sf := rowByte c n 136
  decide (64 ≤ sf) || !(fmtAssigned sf) || decide (fmtWidth sf ≠ 8) || decide (2 < rowByte c n 137) || decide (rowByte c n 138 = 0)
    || decide (elemsPerRow m < rowByte c n 138 * bdotK (rowByte c n 137))

/-- One row's result with its flags. -/
def bdotRow (m : Nat) (a b c : VReg) (n : Nat) : Nat × Flags :=
  if bdotBad m c n then (nan32, Flags.invalid)
  else
    let sf := rowByte c n 136
    let k := bdotK (rowByte c n 137)
    let e := elemsPerRow m
    let blocks := (List.range (rowByte c n 138)).map fun j =>
      ((List.range k).map fun i => (elemVal m a (n * e + j * k + i), elemVal m b (n * e + j * k + i)),
        decodeFmt sf (rowByte c n j), decodeFmt sf (rowByte c n (64 + j)))
    deliver (bdot (fmtExactClass m) blocks (decodeFmt 0 (rowWord c n 128)) (decodeFmt 0 (rowWord c n 132))) 0 .rne

def effVbdot (f : V3) (s : State) : State :=
  let a := vIn s f.u 0 f.a
  let b := vIn s f.u 1 f.b
  let c := vIn s f.u 2 f.c
  let en := pIn s f.u 14 f.p
  let r := bdotRow f.fmt.toNat a b c
  -- cell 0 of the row receives the result (R88, R192)
  let fl := orFlags (fun n => if en.getLsbD (64 * n) then (r n).2 else 0) 16
  vOut s f.d f.lat en (ofElems 32 fun i => if i % 64 = 0 then (r (i / 64)).1 else 0, fl)
def execVbdot (f : V3) (s : State) : Res State := runSlot (.vbdot f) (effVbdot f) s

/-! ## Transcendentals (R194, 03 R102 to R104) -/

/-- One element: within 2 ulp in fp32, delivered into F. -/
def transElem (fn : TFn) (m : Nat) (v : Val) : Nat × Flags :=
  deliver (transcendental fn v (convert v 0 .rne).1) m .rne

def effTrans (fn : TFn) (f : V3) (s : State) : State :=
  let a := vIn s f.u 0 f.a
  let en := pIn s f.u 14 f.p
  let m := f.fmt.toNat
  vOut s f.d f.lat en (vecResult (fmtRegWidth m) en fun i => transElem fn m (elemVal m a i))

def execVexp (f : V3) (s : State) : Res State := runSlot (.vexp f) (effTrans .exp f) s
def execVlog (f : V3) (s : State) : Res State := runSlot (.vlog f) (effTrans .log f) s
def execVsin (f : V3) (s : State) : Res State := runSlot (.vsin f) (effTrans .sin f) s
def execVcos (f : V3) (s : State) : Res State := runSlot (.vcos f) (effTrans .cos f) s
def execVtanh (f : V3) (s : State) : Res State := runSlot (.vtanh f) (effTrans .tanh f) s
def execVrsqrt (f : V3) (s : State) : Res State := runSlot (.vrsqrt f) (effTrans .rsqrt f) s
def execVrcp (f : V3) (s : State) : Res State := runSlot (.vrcp f) (effTrans .rcp f) s
def execVsigm (f : V3) (s : State) : Res State := runSlot (.vsigm f) (effTrans .sigm f) s

/-! ## Compare, select, predicate logic (R195 to R197) -/

/-- Bits of a predicate from a function of the cell. -/
def predOf (f : Nat → Bool) : PReg := BitVec.ofNat 1024 (packW 1 (fun i => if f i then 1 else 0) 1024)

/-- The condition of VCMP on a cell, over its sub-elements. -/
def vcmpCell (m cc : Nat) (any : Bool) (a b : VReg) (cell : Nat) : Bool :=
  let k := subsPerCell m
  let js := (List.range k).map fun j => fCond cc (elemVal m a (cell * k + j)) (elemVal m b (cell * k + j))
  if any then js.any id else js.all id

def effVcmp (f : VI) (s : State) : State :=
  let a := vIn s f.u 0 f.a
  let b := vIn s f.u 1 f.b
  let en := pIn s f.u 14 f.p
  issueV s s.cur (.pred (f.d.toNat % 16) (predOf (vcmpCell f.fmt.toNat (bitsAt f.imm.toNat 0 3) (decide (bitsAt f.imm.toNat 3 1 = 1)) a b)) en)
    false f.lat.toNat 0
def execVcmp (f : VI) (s : State) : Res State := runSlot (.vcmp f) (effVcmp f) s

def effVsel (f : VI) (s : State) : State :=
  let ps := pIn s f.u 13 (f.imm.setWidth 4)
  vOut s f.d f.lat (pIn s f.u 14 f.p) (mergeCells ps (vIn s f.u 1 f.b) (vIn s f.u 0 f.a), 0)
def execVsel (f : VI) (s : State) : Res State := runSlot (.vsel f) (effVsel f) s

def effVp (op : PReg → PReg → PReg) (f : VP) (s : State) : State :=
  issueV s s.cur (.pred f.pd.toNat (op (pIn s f.u 0 f.pa) (pIn s f.u 1 f.pb)) (pIn s f.u 14 f.p)) false f.lat.toNat 0
def execVpand (f : VP) (s : State) : Res State := runSlot (.vpand f) (effVp (· &&& ·) f) s
def execVpor (f : VP) (s : State) : Res State := runSlot (.vpor f) (effVp (· ||| ·) f) s
def execVpxor (f : VP) (s : State) : Res State := runSlot (.vpxor f) (effVp (· ^^^ ·) f) s

end Sys2Proof.Machine
end

