-- ==== Sys2Proof/Machine/Hearth.lean ====
section
/-! DEFINITION. The MX slot at issue (spec/08 R208 to R217, spec/04 R120) and the hearth's own events: command effects, passes, weight
loads, drains and leases (spec/04 R109 to R122, spec/03 R90 to R92). -/

namespace Sys2Proof.Machine
open Sys2Proof

/-! ## Engine commands at issue (R208) -/

/-- Exchange a shape register with its shadow where SW is set (01 R26). -/
def swapShape (s : State) (c : Nat) (e : EC) (base : Nat) : State :=
  if e.sw = 1 then
    s.modCore c fun k =>
      let n := base + e.z.toNat
      let a := tget (fun _ => 0) k.shp n
      let b := tget (fun _ => 0) k.shd n
      { k with shp := tset (fun _ => 0) k.shp n b, shd := tset (fun _ => 0) k.shd n a }
  else s

/-- A command with its captured operands (R208); its block is read at once where its tokens are set (01 R32). -/
def newCmd (s : State) (c : Nat) (i : Instr) (e : EC) (a b cc : Word) (shape : BitVec 512) (v : VReg) (vd : Option VDest) : Cmd :=
  let k := s.core c
  readBlock s ⟨c, i, k.t.pc, k.ident.ctx, a, b, cc, shape, v, vd, tkName e.tp, (tokConsumed i).filter (tokPending s c), none, false,
    0, 0, false, 0, none, 0, [], none, []⟩

/-- Send a command to the hearth: one of the lease's commands, its token pending; the last of them ends the lease (04 R110, R120). -/
def sendMx (s : State) (m : Cmd) : State :=
  let s := pendTokOpt s m.core m.tp
  let cyc := (s.core m.core).cyc
  spendLease (s.modHearth (hearthOf m.core) fun h => { h with cmds := h.cmds ++ [m], left := h.left - 1, lastMx := cyc }) (hearthOf m.core)

/-- Read a scalar operand of the MX slot. -/
def mxIn (s : State) (n : Nat) (r : BitVec 7) : Word := readS s s.cur false (fkey s 3 n) r

def effMlease (_e : EC) (s : State) : State := s
def effMrel (_e : EC) (s : State) : State := if holdsLease s s.cur then endLease s (hearthOf s.cur) else s
def effMmode (f : MModeOp) (s : State) : State := sendMx s (newCmd s s.cur (.mmode f) f.e (mxIn s 0 f.s) 0 0 0 0 none)
def effMwld (f : MWldOp) (s : State) : State :=
  let sel := mxIn s 0 f.s
  let shape := shapeAt (s.core s.cur) f.e 0
  let s := swapShape s s.cur f.e 0
  sendMx s (newCmd s s.cur (.mwld f) f.e sel 0 0 shape 0 none)
def effMmac (f : MMacOp) (s : State) : State :=
  sendMx s (newCmd s s.cur (.mmac f) f.e (mxIn s 0 f.s) 0 0 0 (readV s s.cur (fkey s 3 4) f.v) none)
def effMclr (f : MClrOp) (s : State) : State := sendMx s (newCmd s s.cur (.mclr f) f.e (mxIn s 0 f.s) 0 0 0 0 none)
def effMdrn (f : MDrnOp) (s : State) : State :=
  let sel := mxIn s 0 f.s
  if f.dst = 0 then sendMx s (newCmd s s.cur (.mdrn f) f.e sel 0 0 0 0 (vdestOf (s.core s.cur) f.v))
  else
    let a := mxIn s 1 (f.v.setWidth 7)
    let shape := shapeAt (s.core s.cur) f.e 0
    let s := swapShape s s.cur f.e 0
    sendMx s (newCmd s s.cur (.mdrn f) f.e sel a 0 shape 0 none)
def effMstat (f : MStatOp) (s : State) : State :=
  sendMx s (newCmd s s.cur (.mstat f) f.e (mxIn s 0 f.s) (mxIn s 1 f.a) 0 0 0 none)

def execMlease (e : EC) (s : State) : Res State := runSlot (.mlease e) (effMlease e) s
def execMrel (e : EC) (s : State) : Res State := runSlot (.mrel e) (effMrel e) s
def execMmode (f : MModeOp) (s : State) : Res State := runSlot (.mmode f) (effMmode f) s
def execMwld (f : MWldOp) (s : State) : Res State := runSlot (.mwld f) (effMwld f) s
def execMmac (f : MMacOp) (s : State) : Res State := runSlot (.mmac f) (effMmac f) s
def execMclr (f : MClrOp) (s : State) : Res State := runSlot (.mclr f) (effMclr f) s
def execMdrn (f : MDrnOp) (s : State) : Res State := runSlot (.mdrn f) (effMdrn f) s
def execMstat (f : MStatOp) (s : State) : Res State := runSlot (.mstat f) (effMstat f) s

/-! ## Reading and writing memory for an engine -/

/-- What an engine's next sector met. -/
inductive Met where
  | done | waits | failed (cause : Cause) (sub addr : Nat)
  deriving DecidableEq, Repr

/-- Progress of a run: state, bytes done, poison met, sectors refused, and why it stopped. -/
structure Run' where
  s : State
  done : Nat
  poison : Bool
  refused : Bool
  met : Met
  deriving DecidableEq, Repr

/-- Read `n` bytes at consecutive global addresses, sector by sector: progress, with the bytes as a number beside it. -/
def pullBytes (s : State) (ctx va : Nat) : Nat → Nat → Run' × Nat
  | 0, _ => (⟨s, 0, false, false, .done⟩, 0)
  | fuel + 1, n =>
    if n = 0 then (⟨s, 0, false, false, .done⟩, 0)
    else
      let va := va % 2 ^ 64
      let k := min n (32 - va % 32)
      if 2 ^ 48 ≤ va then (⟨s, 0, false, false, .failed .page 7 va⟩, 0)
      else if xlatWaits s ctx va then (⟨s, 0, false, false, .waits⟩, 0)
      else match translate s ctx va needRead none with
        | .fail cause sub => (⟨walkLeft s ctx va, 0, false, false, .failed cause sub va⟩, 0)
        | .ok x =>
          if placeWaits s x.pa false then (⟨s, 0, false, false, .waits⟩, 0)
          else
            let l := loadAt (walkLeft s ctx va) x k
            if l.err then (⟨l.s, 0, false, false, .failed .page 5 va⟩, 0)
            else
              let q := pullBytes l.s ctx (va + k) fuel (n - k)
              ({ q.1 with poison := q.1.poison || l.poison }, l.v + q.2 * 2 ^ (8 * k))

/-- Copy `n` bytes from a global address to a physical one, a whole destination row at a time (02 R48); it stops at a failing sector, before
the row that needs it (08 R225), or at a host-owned page, where the engine holds (08 R220). -/
def pullRun (s : State) (ctx va dst : Nat) : Nat → Nat → Run'
  | 0, _ => ⟨s, 0, false, false, .done⟩
  | fuel + 1, n =>
    if n = 0 then ⟨s, 0, false, false, .done⟩
    else
      let k := min n (32 - dst % 32)
      let (l, v) := pullBytes s ctx va 3 k
      match l.met with
      | .done =>
        let (s, r) := if l.poison then poisonAt l.s (.plain dst) k else storeAt l.s (.plain dst) k v
        let rest := pullRun s ctx (va + k) (dst + k) fuel (n - k)
        { rest with done := rest.done + k, poison := rest.poison || l.poison, refused := rest.refused || decide (r = .refused) }
      | _ => { l with done := 0 }

/-- Write the bytes of a number to a global address, sector by sector (08 R216). -/
def pushRun (s : State) (ctx va v : Nat) : Nat → Nat → Run'
  | 0, _ => ⟨s, 0, false, false, .done⟩
  | fuel + 1, n =>
    if n = 0 then ⟨s, 0, false, false, .done⟩
    else
      let va := va % 2 ^ 64
      let k := min n (32 - va % 32)
      if 2 ^ 48 ≤ va then ⟨s, 0, false, false, .failed .page 7 va⟩
      else if xlatWaits s ctx va then ⟨s, 0, false, false, .waits⟩
      else match translate s ctx va needWrite none with
        | .fail cause sub => ⟨walkLeft s ctx va, 0, false, false, .failed cause sub va⟩
        | .ok x =>
          if placeWaits s x.pa true then ⟨s, 0, false, false, .waits⟩
          else
            let (s, r) := storeAt (walkLeft s ctx va) x k v
            let rest := pushRun s ctx (va + k) (v / 2 ^ (8 * k)) fuel (n - k)
            { rest with done := rest.done + k, refused := rest.refused || decide (r = .refused) }

/-! ## Hearth commands in the queue (R110) -/

/-- The halves a command touches, and so their accumulator columns. -/
def cmdHalves (m : Cmd) : List Nat :=
  match m.instr with
  | .mstat _ => (selOf m.a).macros.flatMap fun x => [2 * x, 2 * x + 1]
  | _ => (selOf m.a).halves

/-- A drain to memory that has its images and clears nothing: only its writes to memory are left, which the hearth's order leaves out (R110; 02
R67). -/
def onlyWrites (e : Cmd) : Bool := match e.instr with
  | .mdrn f => e.started && e.vdest.isNone && decide (f.clr ≠ 1)
  | _ => false

/-- An earlier command of the hearth touches a half of this one and has not finished. -/
def hearthBlocked (h : Hearth) (k : Nat) : Bool :=
  match h.cmds[k]? with
  | none => true
  | some m =>
    let mine := cmdHalves m
    h.zeroing || (h.cmds.take k).any fun e => !onlyWrites e && (cmdHalves e).any fun x => mine.contains x

def halfOf (h : Hearth) (n : Nat) : Half := tget (fun _ => Half.reset) h.halves n
def setHalf (h : Hearth) (n : Nat) (x : Half) : Hearth := { h with halves := tset (fun _ => Half.reset) h.halves n x }

/-- Physical addresses of a half's bytes and of its sidecar (R107). -/
def halfAddr (hearth n : Nat) : Nat := Config.cimBase + (hearth * 4096 + n / 2) * 16384 + n % 2 * 8192
def sideAddr (hearth n : Nat) : Nat := Config.cimsBase + (hearth * 4096 + n / 2) * 1024 + n % 2 * 512

/-- Accumulator cell of macro, vector and column. -/
def accKey (macro_ v col : Nat) : Nat := (macro_ * 16 + v) * 128 + col

def setCmd (s : State) (h k : Nat) (m : Cmd) : State := s.modHearth h fun x => { x with cmds := x.cmds.set k m }
/-- A command is done: it leaves the queue and its token is set (R208). -/
def endCmd (s : State) (h k : Nat) (m : Cmd) : State :=
  setTokOpt (s.modHearth h fun x => { x with cmds := x.cmds.eraseIdx k }) m.core m.tp

/-- A refusal by the hearth: a deferred command fault; the command has no effect, leaves the queue, and its token is set (R111, R290). -/
def refuseCmd (s : State) (h k : Nat) (m : Cmd) (sub : Nat) : State :=
  endCmd (reportCmd s m.core .macroBusy sub 0 m.baddr 3) h k m

/-- A check on the handle entry that fails when it is read after issue (01 R32). -/
def lateBad (s : State) (m : Cmd) : Bad := match m.instr, m.blk with
  | .mwld _, some b => if b = [] then some (.page, 6, (s.core m.core).thbase.toNat) else readBad s m.instr m.core 0 0 b
  | _, _ => none

/-- +0 in every accumulator column of a half (R117). -/
def clearAcc (h : Hearth) (half : Nat) : Hearth :=
  { h with acc := h.acc.filter fun p => !(decide (p.1 / 2048 = half / 2) && decide (p.1 % 128 / 64 = half % 2)) }

/-- MMODE (R212): refused whole for a WBAD half or for the cap, else every half at one instant. The spec lists both refusals and gives them no
order: where both hold, the model reports BAD_WEIGHTS (DESIGN CHOICE, log 96). -/
def doMmode (s : State) (h k : Nat) (m : Cmd) (f : MModeOp) : State :=
  let x := s.hearth h
  let hs := cmdHalves m
  let done := { m with started := true }
  if f.mode = 0 then
    setCmd (s.modHearth h fun y => hs.foldl (fun y n => setHalf y n { halfOf y n with compute := false, fp4 := false }) y) h k done
  else if hs.any fun n => (halfOf x n).wbad then refuseCmd s h k m 5
  else
    let y := hs.foldl (fun y n => setHalf y n { halfOf y n with compute := true, fp4 := decide (f.wf = 1) }) x
    if ncomp x < ncomp y ∧ allowOf s h < ncomp y then refuseCmd s h k m 4 else setCmd (s.setHearth h y) h k done

/-- MSTAT's word (R217). -/
def mstatWord (s : State) (h : Hearth) (macro_ : Nat) : Nat :=
  let one := fun n => let x := halfOf h n
    (if x.compute then 1 else 0) + (if x.compute && x.fp4 then 2 else 0) + (if x.wbad then 4 else 0) + (if x.psn then 8 else 0)
  one (2 * macro_) + 16 * one (2 * macro_ + 1) + (if (claimOf s h.group).1 = 1 then 256 else 0)

/-- A half's columns as a register image: row v, cell c; fp32, or bf16 in the low bits of each cell (R117). -/
def drainImage (h : Hearth) (half : Nat) (bf : Bool) : VReg :=
  ofElems 32 fun i =>
    let acc := (tget (fun _ => 0) h.acc (accKey (half / 2) (i / 64) (half % 2 * 64 + i % 64))).toNat
    (convert (decodeFmt 0 acc) (if bf then 1 else 0) .rne).1

/-- Whether the command at `k` may take effect: its tokens are set and no earlier command on its halves is unfinished (R68, R110). -/
def effectReady (s : State) (h k : Nat) : Bool :=
  match (s.hearth h).cmds[k]? with
  | some m => !m.started && decide (m.needs = []) && !hearthBlocked (s.hearth h) k
  | none => false

/-- A hearth command takes effect (R110, R111). An MMAC that names a half that scrub has marked is refused whole (23 R399); the spec gives no
order between that refusal and the one for a half in storage mode: the model judges the mark first (DESIGN CHOICE, log 96). -/
def hearthEffect (s : State) (h k : Nat) : State :=
  match (s.hearth h).cmds[k]? with
  | none => s
  | some m =>
    match lateBad s m with
    | some (cause, sub, a) =>
      endCmd (reportCmd s m.core cause sub a m.baddr 3) h k m
    | none =>
      match m.instr with
      | .mmode f => doMmode s h k m f
      | .mmac _ =>
        if (cmdHalves m).any fun n => (halfOf (s.hearth h) n).compute && (halfOf (s.hearth h) n).wbad then refuseCmd s h k m 5
        else if (cmdHalves m).any fun n => !(halfOf (s.hearth h) n).compute then refuseCmd s h k m 2
        else setCmd s h k { m with started := true }
      | .mwld _ =>
        if (cmdHalves m).any fun n => (halfOf (s.hearth h) n).compute then refuseCmd s h k m 3
        else setCmd s h k { m with started := true }
      | .mclr _ => setCmd (s.modHearth h fun x => (cmdHalves m).foldl clearAcc x) h k { m with started := true }
      | .mstat _ => setCmd s h k { m with started := true, status := BitVec.ofNat 64 (mstatWord s (s.hearth h) ((selOf m.a).macros.headD 0)) }
      | .mdrn f =>
        let imgs := (cmdHalves m).map fun half => ((drainImage (s.hearth h) half (decide (f.bf = 1))).toNat, false)
        setCmd s h k { m with started := true, buf := if m.vdest.isNone then imgs else [] }
      | _ => setCmd s h k { m with started := true }

def evHearthCommandEffect (h k : Nat) (s : State) : Option State :=
  if effectReady s h k then some (hearthEffect s h k) else none

/-- HEARTH_COMMAND_EFFECT (log 99). -/
def execHearthCommandEffect (h k : Nat) (s : State) : Res State := happens s (evHearthCommandEffect h k s)

/-! ## Passes (R116, 03 R90 to R92) -/

/-- The driven blocks of one row: first block number, and scale byte and codes of each (R214, R215). -/
def drivenBlocks (f : MMacOp) (x : Sel) (v : VReg) (row : Nat) : Nat × List (Nat × List Nat) × Flags :=
  let fp4 := decide (f.t = 1)
  if f.mxin = 1 then
    let n := if fp4 then 8 else 4
    let code := fun i => if fp4 then packedCode v 4 row i else rowByte v row i
    (if fp4 then 0 else f.kb.toNat * 4,
      (List.range n).map (fun b => (rowByte v row (128 + b), (List.range 32).map fun i => code (32 * b + i))), 0)
  else
    let rows := rowsDriven x.afmt
    let bs := (List.range (rows / 32)).map fun b =>
      alignBlock fp4 ((List.range 32).map fun i => elemVal x.afmt v (row * rows + 32 * b + i))
    (f.kb.toNat * rows / 32, bs.map (fun b => (b.1, b.2.1)), bs.foldl (fun fl b => fl ||| b.2.2) 0)

/-- A byte of a macro as a pass reads it: its bits as they stand, no check bits applied (23 R399). -/
def rawByte (s : State) (a : Nat) : Nat := (memGet s.mem a).toNat ^^^ bitsAt (flipsAt s a).toNat (8 * (a % 32)) 8

/-- A stored weight's integer (R108, R91). -/
def weightInt (s : State) (base : Nat) (fp4 : Bool) (row col : Nat) : Int :=
  if fp4 then
    let b := rawByte s (base + 32 * row + col / 2)
    mxInt true (if col % 2 = 0 then b % 16 else b / 16)
  else mxInt false (rawByte s (base + 32 * row + col))

/-- One column of one half takes the eight blocks of one activation vector (R92). An undriven block enters R92 as R116 says, with S_b = 0 and
ScaleA = 0x00: where its sidecar scale is 0xFF, the accumulator becomes NaN by R92's own text, although R116 adds that undriven blocks leave
a finite accumulator unchanged (DESIGN CHOICE, log 96). -/
def passColumn (s : State) (h half : Nat) (actFp4 wFp4 : Bool) (first : Nat) (blocks : List (Nat × List Nat)) (col acc : Nat) : Nat × Flags :=
  let base := halfAddr h half
  let side := sideAddr h half
  (List.range 8).foldl (fun (p : Nat × Flags) b =>
    let sw := rawByte s (side + 64 * b + col)
    let (sa, sum) := match (if first ≤ b then blocks[b - first]? else none) with
      | none => (0, (0 : Int))
      | some (sc, codes) =>
        (sc, ((List.range 32).map fun i => mxInt actFp4 (codes.getD i 0) * weightInt s base wFp4 (32 * b + i) col).foldl (· + ·) 0)
    let r := accBlock p.1 sum sa sw (mxUnit actFp4) (mxUnit wFp4)
    (r.1, p.2 ||| r.2)) (acc, 0)

/-- One activation vector through every named half (R116). -/
def passVector (s : State) (h : Nat) (m : Cmd) (f : MMacOp) : State × Flags :=
  let (first, blocks, af) := drivenBlocks f (selOf m.a) m.vec m.prog
  (cmdHalves m).foldl (fun (p : State × Flags) half =>
    let w4 := (halfOf (p.1.hearth h) half).fp4
    (List.range (if w4 then 64 else 32)).foldl (fun (p : State × Flags) c =>
      let key := accKey (half / 2) m.prog (half % 2 * 64 + c)
      let old := (tget (fun _ => 0) (p.1.hearth h).acc key).toNat
      let r := passColumn p.1 h half (decide (f.t = 1)) w4 first blocks c old
      (p.1.modHearth h fun x => { x with acc := tset (fun _ => 0) x.acc key (BitVec.ofNat 32 r.1) }, p.2 ||| r.2)) p) (s, af)

/-- The command at `k` as a started, unrefused MMAC. -/
def runningMmac (s : State) (h k : Nat) : Option (Cmd × MMacOp) :=
  match (s.hearth h).cmds[k]? with
  | some m => match m.instr with
    | .mmac f => if m.started && !m.stopped then some (m, f) else none
    | _ => none
  | none => none

/-- One activation vector accumulates; passes wait while the allowance is 0 (R118). -/
def evMmacAccumulate (h k : Nat) (s : State) : Option State :=
  match runningMmac s h k with
  | some (m, f) =>
    if m.prog < 16 ∧ allowOf s h ≠ 0 then
      let (s, fl) := passVector s h m f
      some (setCmd s h k { m with prog := m.prog + 1, flags := m.flags ||| fl })
    else none
  | none => none

/-- MMAC_ACCUMULATE (log 99). -/
def execMmacAccumulate (h k : Nat) (s : State) : Res State := happens s (evMmacAccumulate h k s)

/-- The last accumulation has completed: flags, then the token (03 R88, R214). -/
def evMmacPassComplete (h k : Nat) (s : State) : Option State :=
  match runningMmac s h k with
  | some (m, _) =>
    if m.prog = 16 then
      let s := s.modCore m.core fun c => { c with t := { c.t with vflags := c.t.vflags ||| m.flags } }
      some (endCmd s h k m)
    else none
  | none => none

/-- MMAC_PASS_COMPLETE (log 99). -/
def execMmacPassComplete (h k : Nat) (s : State) : Res State := happens s (evMmacPassComplete h k s)

/-! ## Weight loads (R213, R114) -/

/-- Bytes `lo` to `n` of a half's image from the tile's weights, then its scales; progress counts both. -/
def loadHalf (s : State) (h half ctx : Nat) (t : Tile) (i : Nat) (str0 str1 : Int) : Run' :=
  let w := pullRun s ctx (wrapNat 64 (t.base + i * str0)) (halfAddr h half) 257 8192
  match w.met with
  | .done =>
    let q := pullRun w.s ctx (wrapNat 64 (t.scale + i * str1)) (sideAddr h half) 17 512
    { q with done := w.done + q.done, poison := w.poison || q.poison }
  | _ => w

/-- Rows of a half's image: of its weights, then of its scales; and where row `j` comes from and goes. -/
def halfRows : Nat := 272
def rowVa (t : Tile) (i j : Nat) (str0 str1 : Int) : Nat :=
  if j < 256 then wrapNat 64 (t.base + i * str0 + 32 * j) else wrapNat 64 (t.scale + i * str1 + 32 * (j - 256))
def rowPlace (h half j : Nat) : Nat := if j < 256 then halfAddr h half + 32 * j else sideAddr h half + 32 * (j - 256)

/-- MWLD reads the next row of its image ahead of the hearth's order, which does not cover it (02 R67): none past its last row, or where the
read waits or fails. -/
def prefetchRow (s : State) (m : Cmd) : Option (State × Cmd) :=
  let n := m.prog * halfRows + m.buf.length
  if (cmdHalves m).length * halfRows ≤ n then none
  else
    let r := pullBytes s m.ctx (rowVa (tileOf (m.blk.getD [])) (n / halfRows) (n % halfRows) (shpStr m.shape 0) (shpStr m.shape 1)) 3 32
    match r.1.met with
    | .done => some (r.1.s, { m with buf := m.buf ++ [(r.2, r.1.poison)] })
    | _ => none

/-- The rows of a half that have been read ahead land. -/
def landRows (s : State) (h half : Nat) (l : List (Nat × Bool)) : State × Bool :=
  l.zipIdx.foldl (fun q e =>
    let x := Phys.plain (rowPlace h half e.2)
    (if e.1.2 then (poisonAt q.1 x 32).1 else (storeAt q.1 x 32 e.1.1).1, q.2 || e.1.2)) (s, false)

/-- A half is whole: a poisoned row marks it; with the last half MWLD completes. -/
def halfLoaded (s : State) (h k half : Nat) (m : Cmd) (bad : Bool) : State :=
  let s := s.modHearth h fun x => setHalf x half { halfOf x half with wbad := bad, psn := bad }
  if (cmdHalves m).length = m.prog + 1 then endCmd s h k m else setCmd s h k { m with prog := m.prog + 1, buf := m.buf.drop halfRows }

/-- MWLD loads its next half, in the order of R210, and completes with the last one or at a translation fault. Before it has taken effect, and
while a half is read ahead in part, it reads one more row. -/
def evMwldComplete (h k : Nat) (s : State) : Option State :=
  match (s.hearth h).cmds[k]? with
  | none => none
  | some m => match m.instr with
    | .mwld _ =>
      if m.stopped then none
      else if m.started = false ∨ (m.buf ≠ [] ∧ m.buf.length < halfRows) then
        (if m.needs = [] ∧ m.blk ≠ none ∧ lateBad s m = none then (match prefetchRow s m with
          | some (t, n) => some (setCmd t h k n)
          | none => if m.started then some (setCmd s h k { m with buf := [] }) else none) else none)
      else match (cmdHalves m)[m.prog]? with
        | none => some (endCmd s h k m)
        | some half =>
          if m.buf ≠ [] then
            let r := landRows s h half (m.buf.take halfRows)
            some (halfLoaded r.1 h k half m r.2)
          else
          let r := loadHalf s h half m.ctx (tileOf (m.blk.getD [])) m.prog (shpStr m.shape 0) (shpStr m.shape 1)
          match r.met with
          | .waits => none
          | .failed .migrate _ a => askHost (walkLeft s m.ctx a) m.ctx a
          | .done =>
            some (halfLoaded r.s h k half m r.poison)
          | .failed cause sub a =>
            let s := r.s.modHearth h fun x => setHalf x half { halfOf x half with wbad := true, psn := r.poison }
            some (endCmd (reportCmd s m.core cause sub a m.baddr 3) h k m)
    | _ => none

/-- MWLD_COMPLETE (log 99). -/
def execMwldComplete (h k : Nat) (s : State) : Res State := happens s (evMwldComplete h k s)

/-! ## Drains (R117, R216) -/

def clearDrained (s : State) (h : Nat) (m : Cmd) (f : MDrnOp) : State :=
  if f.clr = 1 then s.modHearth h fun x => (cmdHalves m).foldl clearAcc x else s

/-- MDRN writes its register, or its next half's tile; it completes with the last, or at a sector that fails translation, when nothing
is cleared. -/
def evMdrnComplete (h k : Nat) (s : State) : Option State :=
  match (s.hearth h).cmds[k]? with
  | none => none
  | some m => match m.instr with
    | .mdrn f =>
      if m.started = false ∨ m.stopped then none
      else match (cmdHalves m)[m.prog]? with
        | none => some (endCmd s h k m)
        | some half =>
          match m.vdest with
          | some d => some (endCmd (clearDrained (s.modCore m.core fun c => c.setVreg d (drainImage (s.hearth h) half (decide (f.bf = 1)))) h m f) h k m)
          | none =>
            let img := ((m.buf[m.prog]?).getD (0, false)).1
            let r := pushRun s m.ctx (wrapNat 64 (m.b.toNat + m.prog * shpStr m.shape 0)) img 4097 4096
            match r.met with
            | .waits => none
            | .failed .migrate _ a => askHost (walkLeft s m.ctx a) m.ctx a
            | .failed cause sub a => some (endCmd (reportCmd r.s m.core cause sub a m.baddr 3) h k m)
            | .done =>
              some (if (cmdHalves m).length = m.prog + 1 then endCmd (clearDrained r.s h m f) h k m
                else setCmd r.s h k { m with prog := m.prog + 1 })
    | _ => none

/-- MDRN_COMPLETE (log 99). -/
def execMdrnComplete (h k : Nat) (s : State) : Res State := happens s (evMdrnComplete h k s)

/-! ## Leases (R120 to R122) -/

/-- The requesting core that is granted next: round-robin from the task index after the last holder's, from 0 when there was none. -/
def nextHolder (s : State) (h : Nat) : Option Nat :=
  let x := s.hearth h
  let first := match x.lastHolder with
    | some t => t + 1
    | none => 0
  (List.range 4).findSome? fun j => x.wants.find? fun c => decide ((s.core c).ident.task = (first + j) % 4)

/-- Grant the lease to core `c`: LEASEMAX commands; KEPT becomes 1 at the group's first grant, never after a loss (R121, R122). -/
def evLeaseGrant (h c : Nat) (s : State) : Option State :=
  if (s.hearth h).holder = none ∧ nextHolder s h = some c ∧ eventHeldFor s c = false then
    let s := { s with claims := s.claims.map (fun (q : Claim) =>
      if some q.id = (s.hearth h).group ∧ q.kept = 0 then { q with kept := 1 } else q) }
    some (s.modHearth h fun x =>
      { x with holder := some c, left := leaseMax s h, wants := setDel x.wants c, lastMx := (s.core c).cyc })
  else none

/-- LEASE_GRANT (log 99). -/
def execLeaseGrant (h c : Nat) (s : State) : Res State := happens s (evLeaseGrant h c s)

/-- 4,096 cycles of the holder's core without an MX command end the lease. -/
def evLeaseIdleExpiry (h : Nat) (s : State) : Option State :=
  match (s.hearth h).holder with
  | some c => if (s.hearth h).lastMx + 4096 ≤ (s.core c).cyc then some (endLease s h) else none
  | none => none

/-- LEASE_IDLE_EXPIRY (log 99). -/
def execLeaseIdleExpiry (h : Nat) (s : State) : Res State := happens s (evLeaseIdleExpiry h s)

/-- The holder has issued its LEASEMAX commands. -/
def evLeaseCountExpiry (h : Nat) (s : State) : Option State :=
  if (s.hearth h).holder.isSome ∧ (s.hearth h).left = 0 then some (spendLease s h) else none

/-- LEASE_COUNT_EXPIRY (log 99). -/
def execLeaseCountExpiry (h : Nat) (s : State) : Res State := happens s (evLeaseCountExpiry h s)

/-- Zeroing of a hearth bound under another context completes (R122). -/
def zeroHearth (s : State) (h : Nat) : State :=
  let lo := Config.cimBase + h * 0x4000000
  let slo := Config.cimsBase + h * 0x400000
  let inside := fun a => (decide (lo ≤ a) && decide (a < lo + 0x4000000)) || (decide (slo ≤ a) && decide (a < slo + 0x400000))
  { s with mem := s.mem.filter (fun p => !inside p.1), poison := s.poison.filter (fun p => !inside (32 * p)),
           flips := s.flips.filter (fun p => !inside (32 * p.1)) }.modHearth h fun x => { x with acc := [], zeroing := false }

def evHearthZeroingComplete (h : Nat) (s : State) : Option State :=
  if (s.hearth h).zeroing then some (zeroHearth s h) else none

/-- HEARTH_ZEROING_COMPLETE (log 99). -/
def execHearthZeroingComplete (h : Nat) (s : State) : Res State := happens s (evHearthZeroingComplete h s)

end Sys2Proof.Machine
end

