-- ==== Sys2Proof/Machine/Load.lean ====
section
/-! DEFINITION. The LD slot at issue (spec/09 R236 to R249, spec/02 R50 to R56): loads enter the load queue, PROBE checks its tags, and
the line locks act. -/

namespace Sys2Proof.Machine
open Sys2Proof

/-! ## Entering a queue (02 R56) -/

/-- Resolve the parts of a request as far as issue goes: local and ring parts to their scratchpad bytes, global parts not yet. -/
def piecesOf (s : State) (c : Nat) (r : Req) : List Piece :=
  match r.ring with
  | some (kf, jf, _) => r.parts.map fun p =>
      match ringResolve s c kf jf p.addr with
      | some (home, o) => ⟨p.addr, p.len, p.off, some (.plain (localBase home (s.core home) + o))⟩
      | none => ⟨p.addr, p.len, p.off, none⟩
  | none => r.parts.map fun p =>
      ⟨p.addr, p.len, p.off, if r.space = .loc then some (.plain (localBase c (s.core c) + p.addr)) else none⟩

/-- A new access of the bundle in issue. -/
def newAcc (s : State) (c : Nat) (f : Bool) (kind : AccKind) (dest : LDest) (opc : Nat) (r : Req) (data : VReg) : Acc :=
  let x := (s.core c).ctx f
  ⟨x.seq, kind, dest, r.space, opc, x.pc, (r.parts.map (·.addr)).headD 0, r.elems, piecesOf s c r, data, false, false, false⟩

/-- Take the next number of program order. -/
def bumpSeq (s : State) (c : Nat) (f : Bool) : State :=
  s.modCore c fun k => k.setCtx f { k.ctx f with seq := (k.ctx f).seq + 1 }

/-- A global access that misses the core's cache joins the misses at the base die (20 R352). -/
def noteMiss (s : State) (c : Nat) (f : Bool) (a : Acc) : State :=
  if f = false && decide (a.space = .glob) && a.pieces.any (fun p => (coreCached s c p.addr).isNone)
      && !(s.missQ.contains (c, a.seq)) then
    { s with missQ := s.missQ ++ [(c, a.seq)] }
  else s

def pushLoad (s : State) (c : Nat) (f : Bool) (a : Acc) : State :=
  let s := noteMiss s c f a
  bumpSeq (s.modCore c fun k => k.setCtx f { k.ctx f with loadQ := (k.ctx f).loadQ ++ [a] }) c f

def pushStore (s : State) (c : Nat) (f : Bool) (a : Acc) : State :=
  let s := noteMiss s c f a
  bumpSeq (s.modCore c fun k => k.setCtx f { k.ctx f with storeQ := (k.ctx f).storeQ ++ [a] }) c f

/-! ## What marks and fences order (02 R60, R62, R63) -/

/-- A home lies in a scope: 0 task, 1 group or lane, 2 device, 3 system (R62). -/
def inScope (s : State) (c scope pa : Nat) : Bool :=
  match scope with
  | 0 => decide (homeOf s pa = some (.spad c))
  | 1 => match homeOf s pa with
    | some (.spad d) => decide (d = c) || ((s.core d).bound && decide ((s.core d).ident.gang = (s.core c).ident.gang))
    | _ => false
  | 2 => match homeOf s pa with
    | some (.host _) => false
    | _ => true
  | _ => true

/-- A scope covers an access: one of unknown home, and a held one until it has performed, count as covered by every scope (R63). -/
def covered (s : State) (c scope : Nat) (a : Acc) : Bool :=
  match a.kind with
  | .mark | .fence _ => false
  | .dqadv _ _ => decide (2 ≤ scope)
  | _ => a.waits || a.pieces.any fun p => match p.pa with
    | none => true
    | some x => inScope s c scope x.pa

/-- An earlier access of the other queue that an entry waits for: any for a mark, the covered ones for a fence. -/
def markWaits (s : State) (c : Nat) (m : Acc) (other : List Acc) : Bool :=
  other.any fun a => decide (a.seq < m.seq) && (match m.kind with
    | .mark => (match a.kind with
        | .mark | .fence _ => false
        | _ => true)
    | .fence sc => covered s c sc a
    | _ => false)

/-- A mark or fence leaves the head of a queue once nothing of the other queue holds it. -/
def trimHead (s : State) (c : Nat) (other : List Acc) : List Acc → List Acc
  | [] => []
  | m :: rest => match m.kind with
    | .mark | .fence _ => if markWaits s c m other then m :: rest else trimHead s c other rest
    | _ => m :: rest

/-- Marks and fences at the heads of a context's queues that hold nothing any longer leave. -/
def trimQ (s : State) (c : Nat) (f : Bool) : State :=
  let x := (s.core c).ctx f
  let l := trimHead s c x.storeQ x.loadQ
  let t := trimHead s c l x.storeQ
  s.modCore c fun k => k.setCtx f { k.ctx f with loadQ := l, storeQ := t }

/-- A mark or fence: one entry in both queues (02 R60, R63). -/
def pushMark (s : State) (c : Nat) (f : Bool) (kind : AccKind) (opc : Nat) : State :=
  let x := (s.core c).ctx f
  let a : Acc := ⟨x.seq, kind, .none, .loc, opc, x.pc, 0, false, [], 0, false, false, false⟩
  trimQ (bumpSeq (s.modCore c fun k =>
    k.setCtx f { k.ctx f with loadQ := (k.ctx f).loadQ ++ [a], storeQ := (k.ctx f).storeQ ++ [a] }) c f) c f

/-- A value known at issue, on its way to a scalar register as an LD result (R246, R249). -/
def arriveS (s : State) (c : Nat) (f : Bool) (d : BitVec 9) (v : Word) : State :=
  s.modCore c fun k =>
    let x := k.ctx f
    k.setCtx f { x with arrivals := x.arrivals ++ [⟨x.seq, .s d.toNat, v.setWidth 32768, 0, false⟩] }

/-! ## Loads (R241 to R245) -/

/-- A scalar load: its opcode, size and extension. -/
def effLdS (opc size : Nat) (signed : Bool) (m : MemOp) (s : State) : State :=
  let c := s.cur
  let f := (s.core c).inF
  pushLoad s c f (newAcc s c f (.ldS size signed) (.s m.d.toNat) opc (memReq s c f 4 m size) 0)

/-- The destination of a vector load, a rotating name resolved now (01 R23). -/
def ldDest (s : State) (c : Nat) (d : BitVec 9) : LDest := match vdestOf (s.core c) d with
  | some v => .v v
  | none => .none

def effLdV (opc : Nat) (r : Nat → Bool → Req) (d : BitVec 9) (s : State) : State :=
  let c := s.cur
  let f := (s.core c).inF
  pushLoad s c f (newAcc s c f .ldV (ldDest s c d) opc (r c f) 0)

def effLdv (m : MemOp) (s : State) : State := effLdV 8 (fun c f => memReq s c f 4 m 4096) m.d s
def effLdvs (m : MemOp) (s : State) : State := effLdV 9 (fun c f => strideReq s c f 4 m) m.d s
def effLdvg (m : GatOp) (s : State) : State := effLdV 10 (fun c f => gatherReq s c f 4 m) m.d s

def execLdb (f : MemOp) (s : State) : Res State := runSlot (.ldb f) (effLdS 1 1 true f) s
def execLdbu (f : MemOp) (s : State) : Res State := runSlot (.ldbu f) (effLdS 2 1 false f) s
def execLdh (f : MemOp) (s : State) : Res State := runSlot (.ldh f) (effLdS 3 2 true f) s
def execLdhu (f : MemOp) (s : State) : Res State := runSlot (.ldhu f) (effLdS 4 2 false f) s
def execLdw (f : MemOp) (s : State) : Res State := runSlot (.ldw f) (effLdS 5 4 true f) s
def execLdwu (f : MemOp) (s : State) : Res State := runSlot (.ldwu f) (effLdS 6 4 false f) s
def execLdd (f : MemOp) (s : State) : Res State := runSlot (.ldd f) (effLdS 7 8 false f) s
def execLdv (f : MemOp) (s : State) : Res State := runSlot (.ldv f) (effLdv f) s
def execLdvs (f : MemOp) (s : State) : Res State := runSlot (.ldvs f) (effLdvs f) s
def execLdvg (f : GatOp) (s : State) : Res State := runSlot (.ldvg f) (effLdvg f) s

/-! ## The probe cache (02 R52 to R55, R246) -/

/-- Make slot `n` of its set the most recently used: age 0, the fresher ones one older. -/
def touchTag (k : Core) (n : Nat) : Core :=
  let old := tagAt k n
  let k := (waysOf (n / 4)).foldl (fun k w =>
    let t := tagAt k w
    if w ≠ n ∧ t.valid = true ∧ (old.valid = false ∨ t.age < old.age) then setTag k w { t with age := min 3 (t.age + 1) } else k) k
  setTag k n { tagAt k n with age := 0 }

/-- PROBE's lock field (R54). -/
def probeLock (lk : BitVec 2) (n : Nat) (k : Core) : Core :=
  let t := tagAt k n
  if lk = 1 then setTag k n { t with locked := true }
  else if lk = 2 then setTag k n { t with locked := false }
  else k

/-- PROBE (R53, R246). -/
def effProbe (m : PrbOp) (s : State) : State :=
  let c := s.cur
  let f := (s.core c).inF
  let k := s.core c
  let block := probeBlock (readS s c f (fkey s 4 0) m.a)
  let t := block % probeSets k
  let target := relTarget (k.ctx f).pc m.off
  let slotOff := fun n => probeBase k + n * 256
  match hitSlot k block with
  | some n => arriveS (s.modCore c fun k => probeLock m.lk n (touchTag k n)) c f m.d (BitVec.ofNat 64 (slotOff n))
  | none => match victimOf s k t with
    | none => setJump (arriveS s c f m.d (BitVec.allOnes 64)) c f target
    | some n =>
      let s1 := s.modCore c fun k =>
        let k := touchTag k n
        probeLock m.lk n (setTag k n { tagAt k n with block := block, valid := true, fill := some (k.ctx f).seq })
      let r : Req := ⟨.glob, (List.range 8).map (fun i => ⟨block * 256 + 32 * i, 32, 32 * i⟩), false, 1, none⟩
      let a := newAcc s1 c f .fill (.fill (slotOff n) n block) 11 r 0
      setJump (pushLoad (arriveS s1 c f m.d (BitVec.ofNat 64 (slotOff n))) c f a) c f target

/-- PWAIT: its wait is a stall of the bundle; past it, nothing (R247). -/
def effPwait (_m : LnOp) (s : State) : State := s
/-- PREF changes no value that any observer reads, and does nothing where it fails (R248, R49): its page is translated, unless the walk
waits. -/
def effPref (m : LnOp) (s : State) : State :=
  let f := (s.core s.cur).inF
  let a := prefAddr s s.cur f m
  if f then s else serveMisses s s.cur (if xlatWaitsAt s s.cur f a then [] else [a])

def execProbe (f : PrbOp) (s : State) : Res State := runSlot (.probe f) (effProbe f) s
def execPwait (f : LnOp) (s : State) : Res State := runSlot (.pwait f) (effPwait f) s
def execPref (f : LnOp) (s : State) : Res State := runSlot (.pref f) (effPref f) s

/-! ## Line locks (02 R50, R51, R249) -/

/-- Lines of a set that are locked, by whichever contexts: each takes one way (R50). -/
def setLocks (s : State) (line : Nat) : Nat :=
  ((s.locks.filter fun l => decide (Config.lineSet l.1 = Config.lineSet line)).foldl (fun l p => setIns l p.1) []).length

/-- The status of a lock or unlock of a line at a translated address, for a core's context (R50). -/
def lineStatus (s : State) (c : Nat) (lock : Bool) (pa : Nat) : Nat :=
  let ctx := (s.core c).ident.ctx
  let line := pa / 64
  let mine := s.locks.contains (line, ctx)
  if !(match homeOf s pa with
      | some h => h.cached
      | none => false) then 4
  else if lock then
    (if mine then 1
     else if pageMoving s pa then 5
     else if llUsed s ctx = llQuota s ctx then 2
     else if 12 ≤ setLocks s line then 3
     else 0)
  else if mine then 0 else 6

/-- The effect of a lock or unlock whose translation succeeded: its status, and the lock on a success. -/
def lineAct (s : State) (c : Nat) (lock : Bool) (x : Phys) : State × Nat :=
  let pa := x.pa
  let ctx := (s.core c).ident.ctx
  let st := lineStatus s c lock pa
  if st ≠ 0 then (s, st)
  else if lock then ({ markKeyed s x false with locks := s.locks ++ [(pa / 64, ctx)] }, st)
  else ({ s with locks := s.locks.filter fun l => decide (l ≠ (pa / 64, ctx)) }, st)

/-- The address that a line lock outside the queues names. -/
def lineVa (a : Acc) : Nat := match a.pieces with
  | p :: _ => p.addr
  | [] => 0

/-- A line lock of the task that its walk has kept (log 120) translates: it acts, and its status is on its way; or it is held, outside the
queues, with its report (R249, R238). -/
def lineTry (s : State) (c : Nat) (a : Acc) : State :=
  let va := lineVa a
  let lock := match a.kind with
    | .line l => l
    | _ => false
  let x := translateAt s c va needRead
  let s := missServed (fillX s c va) c a.seq
  match x with
  | .ok x =>
    let (s, st) := lineAct s c lock x
    s.modCore c fun k =>
      { k with t := { k.t with arrivals := k.t.arrivals ++ [⟨a.seq, a.dest, BitVec.ofNat 32768 st, 0, false⟩] } }
  | .fail cause sub =>
    report (s.modCore c fun k => { k with t := { k.t with lineQ := k.t.lineQ ++ [{ a with held := true, freed := false }] } }) c
      ⟨cause.code, sub, BitVec.ofNat 64 va, a.baddr, 4, maskBut 4, true, false, true, 0⟩

/-- A line lock acts at issue where its address translates; one whose walk waits is kept outside the queues, its status to land (R15; log
120); a failed one is held there with its report (R249, R238). -/
def effLine (lock : Bool) (opc : Nat) (m : LnOp) (s : State) : State :=
  let c := s.cur
  let f := (s.core c).inF
  let va := (readS s c f (fkey s 4 0) m.a + sext m.off).toNat
  let r : Req := ⟨.glob, [⟨va, 1, 0⟩], false, 1, none⟩
  let a := newAcc s c f (.line lock) (.s m.d.toNat) opc r 0
  if xlatWaitsAt s c f va then
    bumpSeq ((noteMiss s c f a).modCore c fun k => { k with t := { k.t with lineQ := k.t.lineQ ++ [a] } }) c f
  else
    let x := translateFor s c f va needRead
    let s := if f then s else missServed (fillX s c va) c (s.core c).t.seq
    match x with
    | .ok x =>
      let (s, st) := lineAct s c lock x
      arriveS s c f m.d (BitVec.ofNat 64 st)
    | .fail cause sub =>
      if f then faultF s c cause.code (BitVec.ofNat 64 va)
      else
        let s := bumpSeq (s.modCore c fun k => { k with t := { k.t with lineQ := k.t.lineQ ++ [{ a with held := true }] } }) c f
        report s c ⟨cause.code, sub, BitVec.ofNat 64 va, a.baddr, 4, maskBut 4, true, false, true, 0⟩

def execLlclk (f : LnOp) (s : State) : Res State := runSlot (.llclk f) (effLine true 14 f) s
def execLlcul (f : LnOp) (s : State) : Res State := runSlot (.llcul f) (effLine false 15 f) s

end Sys2Proof.Machine
end

