-- ==== Sys2Proof/Machine/Store.lean ====
section
/-! DEFINITION. The ST slot at issue (spec/09 R250 to R254, spec/02 R59, R65): stores and atomics enter the store queue with the data they
take at issue. -/

namespace Sys2Proof.Machine
open Sys2Proof

/-! ## Stores (R251, R252) -/

/-- A scalar store: its opcode and size. -/
def effStS (opc size : Nat) (m : MemOp) (s : State) : State :=
  let c := s.cur
  let f := (s.core c).inF
  let v := readS9 s c f (fkey s 5 4) m.d
  pushStore s c f (newAcc s c f .st .none opc (memReq s c f 5 m size) ((v.setWidth (8 * size)).setWidth 32768))

/-- A vector store: its opcode, request and data register. -/
def effStV (opc : Nat) (r : Nat → Bool → Req) (d : BitVec 9) (s : State) : State :=
  let c := s.cur
  let f := (s.core c).inF
  pushStore s c f (newAcc s c f .st .none opc (r c f) (readV s c (fkey s 5 4) d))

def effStv (m : MemOp) (s : State) : State := effStV 5 (fun c f => memReq s c f 5 m 4096) m.d s
def effStvs (m : MemOp) (s : State) : State := effStV 6 (fun c f => strideReq s c f 5 m) m.d s
def effStvx (m : GatOp) (s : State) : State := effStV 7 (fun c f => gatherReq s c f 5 m) m.d s

def execStb (f : MemOp) (s : State) : Res State := runSlot (.stb f) (effStS 1 1 f) s
def execSth (f : MemOp) (s : State) : Res State := runSlot (.sth f) (effStS 2 2 f) s
def execStw (f : MemOp) (s : State) : Res State := runSlot (.stw f) (effStS 3 4 f) s
def execStd (f : MemOp) (s : State) : Res State := runSlot (.std f) (effStS 4 8 f) s
def execStv (f : MemOp) (s : State) : Res State := runSlot (.stv f) (effStv f) s
def execStvs (f : MemOp) (s : State) : Res State := runSlot (.stvs f) (effStvs f) s
def execStvx (f : GatOp) (s : State) : Res State := runSlot (.stvx f) (effStvx f) s

/-! ## Atomics (R253) -/

/-- The low bits of a word that an atomic of `w` bytes uses. -/
def lowBytes (w : Nat) (v : Word) : Word := BitVec.ofNat 64 (v.toNat % 2 ^ (8 * w))

/-- An atomic enters the store queue: its operand, compare value and OLD address are read now, its token becomes pending. -/
def effAtom (opc : Nat) (op : AtomKind) (fadd : Bool) (m : AtmOp) (s : State) : State :=
  let c := s.cur
  let f := (s.core c).inF
  let w := atomWidth fadd m
  let v := lowBytes w (readS9 s c f (fkey s 5 4) m.d)
  let cmp := lowBytes w (readS s c f (fkey s 5 5) m.x)
  let old := if m.old = 0 then none else some (readS s c f (fkey s 5 3) m.old).toNat
  let kind : AccKind := .atom op v cmp old m.tk.toNat m.fl.toNat m.scope.toNat
  let a := newAcc s c f kind .none opc (atomReq s c f fadd m) (v.setWidth 32768)
  pushStore (pendTok s c m.tk.toNat) c f a

def execAadd (f : AtmOp) (s : State) : Res State := runSlot (.aadd f) (effAtom 8 .add false f) s
def execAand (f : AtmOp) (s : State) : Res State := runSlot (.aand f) (effAtom 9 .and false f) s
def execAor (f : AtmOp) (s : State) : Res State := runSlot (.aor f) (effAtom 10 .or false f) s
def execAxor (f : AtmOp) (s : State) : Res State := runSlot (.axor f) (effAtom 11 .xor false f) s
def execAmin (f : AtmOp) (s : State) : Res State := runSlot (.amin f) (effAtom 12 .min false f) s
def execAminu (f : AtmOp) (s : State) : Res State := runSlot (.aminu f) (effAtom 13 .minu false f) s
def execAmax (f : AtmOp) (s : State) : Res State := runSlot (.amax f) (effAtom 14 .max false f) s
def execAmaxu (f : AtmOp) (s : State) : Res State := runSlot (.amaxu f) (effAtom 15 .maxu false f) s
def execAxch (f : AtmOp) (s : State) : Res State := runSlot (.axch f) (effAtom 16 .xchg false f) s
def execAcas (f : AtmOp) (s : State) : Res State := runSlot (.acas f) (effAtom 17 .cas false f) s
/-- AFADD: W = 1 names two bf16 values. -/
def effAfadd (m : AtmOp) (s : State) : State := effAtom 18 (if m.w = 1 then .faddBf else .fadd) true m s
def execAfadd (f : AtmOp) (s : State) : Res State := runSlot (.afadd f) (effAfadd f) s

/-- The new contents of an atomic's location of `w` bytes (R253). -/
def atomNew (op : AtomKind) (w m : Nat) (v cmp : Word) : Nat :=
  let n := v.toNat
  let lt := decide (signedOf (8 * w) m < signedOf (8 * w) n)
  match op with
  | .add => (m + n) % 2 ^ (8 * w)
  | .and => m &&& n
  | .or => m ||| n
  | .xor => m ^^^ n
  | .min => if lt then m else n
  | .max => if lt then n else m
  | .minu => if m < n then m else n
  | .maxu => if m < n then n else m
  | .xchg => n
  | .cas => if m = cmp.toNat then n else m
  | .fadd => (deliver (vAdd (decodeFmt 0 m) (decodeFmt 0 n)) 0 .rne).1
  | .faddBf =>
    let half := fun h => (deliver (vAdd (decodeFmt 1 (bitsAt m (16 * h) 16)) (decodeFmt 1 (bitsAt n (16 * h) 16))) 1 .rne).1
    half 0 + half 1 * 2 ^ 16

end Sys2Proof.Machine
end

