-- ==== Sys2Proof/Machine/Sync.lean ====
section
/-! DEFINITION. The SY slot at issue (spec/09 R255 to R268, spec/10 R283): barriers, tokens, marks and fences, rings, signals, and giving up
the core. The waits of BARW, TOKW, CTRW and WPW are stalls of the bundle. -/

namespace Sys2Proof.Machine
open Sys2Proof

/-- An operand of the SY slot. -/
def syIn (s : State) (n : Nat) (r : BitVec 7) : Word := readS s s.cur (s.core s.cur).inF (fkey s 7 n) r

/-! ## Barriers (R256, R257) -/

/-- The home core of a barrier the task names. -/
def barHome (s : State) (c stage task : Nat) : Option Nat := laneCore s c stage task

def barAt (s : State) (home n : Nat) : Barrier := tget (fun _ => Barrier.reset) (s.core home).bars n
def setBar (s : State) (home n : Nat) (b : Barrier) : State :=
  s.modCore home fun k => { k with bars := tset (fun _ => Barrier.reset) k.bars n b }

/-- An arrival: it enters its core's queue of barrier operations, and the record of the index becomes this arrival's (R256). -/
def arrive (s : State) (c : Nat) (m : BarOp) : State :=
  let q := (s.core c).t.seq
  bumpSeq (s.modCore c fun k =>
    { k with barQ := k.barQ ++ [⟨m.bar.toNat, m.hstg.toNat, m.htsk.toNat, none, q⟩],
             arecs := tset (fun _ => none) k.arecs m.bar.toNat (some ⟨m.hstg.toNat, m.htsk.toNat, 0, q, false⟩) }) c false

/-- BARCFG at its home (R257). -/
def setCnt (s : State) (home n cnt : Nat) : State :=
  let b := barAt s home n
  setBar s home n (if b.arr = 0 then { b with cnt := cnt } else { b with pendCnt := some cnt })

def effBara (m : BarOp) (s : State) : State := arrive s s.cur m
def effBarw (_m : BarOp) (s : State) : State := s
def effBaraw (m : BarOp) (s : State) : State :=
  (arrive s s.cur m).modCore s.cur fun k => { k with bawait := some m.bar.toNat }
/-- A BARCFG takes effect at the home behind the task's own earlier operations on that barrier. -/
def effBarcfg (m : BarCfgOp) (s : State) : State :=
  let c := s.cur
  let (b, st, tk) := (m.bar.toNat, m.hstg.toNat, m.htsk.toNat)
  let cnt := m.cnt.toNat + 1
  if (s.core c).barQ.any fun r => decide (r.bar = b) && decide (r.stage = st) && decide (r.task = tk) then
    let q := (s.core c).t.seq
    bumpSeq (s.modCore c fun k => { k with barQ := k.barQ ++ [⟨b, st, tk, some cnt, q⟩] }) c false
  else match barHome s c st tk with
    | some home => setCnt s home b cnt
    | none => s

def execBara (f : BarOp) (s : State) : Res State := runSlot (.bara f) (effBara f) s
def execBarw (f : BarOp) (s : State) : Res State := runSlot (.barw f) (effBarw f) s
def execBaraw (f : BarOp) (s : State) : Res State := runSlot (.baraw f) (effBaraw f) s
def execBarcfg (f : BarCfgOp) (s : State) : Res State := runSlot (.barcfg f) (effBarcfg f) s

/-! ## Tokens, counters and write pointers (R258 to R260) -/

def effTokw (_m : TokwOp) (s : State) : State := s
/-- TOKST: its token becomes pending until the stores ahead of it have performed. -/
def effTokst (m : TokstOp) (s : State) : State :=
  (pendTok s s.cur m.tk.toNat).modCore s.cur fun k => { k with toksts := k.toksts ++ [⟨m.tk.toNat, k.t.seq⟩] }
/-- CTRW past its wait: where no read of a stalled cycle has released it, the read at the counter's home that does (R71). -/
def effCtrw (m : CtrwOp) (s : State) : State :=
  let c := s.cur
  let (a, t) := ctrwArgs s c m
  (if ctrSeen (s.core c) a t then s else ctrTouch s c a).modCore c fun k => { k with ctrw := none }
def effWpw (_m : WpwOp) (s : State) : State := s

def execTokw (f : TokwOp) (s : State) : Res State := runSlot (.tokw f) (effTokw f) s
def execTokst (f : TokstOp) (s : State) : Res State := runSlot (.tokst f) (effTokst f) s
def execCtrw (f : CtrwOp) (s : State) : Res State := runSlot (.ctrw f) (effCtrw f) s
def execWpw (f : WpwOp) (s : State) : Res State := runSlot (.wpw f) (effWpw f) s

/-! ## Marks and fences (R261) -/

def effMark (kind : AccKind) (opc : Nat) (s : State) : State := pushMark s s.cur (s.core s.cur).inF kind opc

def execQmark (f : SyOp) (s : State) : Res State := runSlot (.qmark f) (effMark .mark 9) s
def execFenceT (f : SyOp) (s : State) : Res State := runSlot (.fenceT f) (effMark (.fence 0) 10) s
def execFenceG (f : SyOp) (s : State) : Res State := runSlot (.fenceG f) (effMark (.fence 1) 10) s
def execFenceD (f : SyOp) (s : State) : Res State := runSlot (.fenceD f) (effMark (.fence 2) 10) s
def execFenceS (f : SyOp) (s : State) : Res State := runSlot (.fenceS f) (effMark (.fence 3) 10) s

/-! ## Rings (R262, R263; 10 R283) -/

/-- RINGCFG: the descriptor, the home's barrier pair, and with INIT its pointers. -/
def effRingcfg (m : RingCfgOp) (s : State) : State :=
  let c := s.cur
  let r : Ring := ⟨syIn s 0 m.a, syIn s 1 m.b⟩
  let n := m.ring.toNat
  let s := s.modCore c fun k => { k with rings := tset (fun _ => none) k.rings n (some r) }
  match laneCore s c r.hstg r.htsk with
  | none => s
  | some home => s.modCore home fun k =>
      let h := tget (fun _ => RingHome.reset) k.ringHome n
      let h := { h with pair := some (r.pbar, r.cbar) }
      let h := if r.init then { h with pp := 0, cp := 0 } else h
      { k with ringHome := tset (fun _ => RingHome.reset) k.ringHome n h }

def execRingcfg (f : RingCfgOp) (s : State) : Res State := runSlot (.ringcfg f) (effRingcfg f) s

/-! ## Signals and device queues (R264, R265) -/

/-- SIGNAL enters the store queue, a release at system scope. -/
def effSignal (add : Bool) (m : SabOp) (s : State) : State :=
  let c := s.cur
  let f := (s.core c).inF
  let a := (syIn s 0 m.a).toNat
  let r : Req := ⟨.glob, [⟨a, 8, 0⟩], false, 8, none⟩
  pushStore s c f (newAcc s c f (.sig add) .none 12 r ((syIn s 1 m.b).setWidth 32768))

/-- DQADV enters the store queue, a release at device scope. -/
def effDqadv (m : SabOp) (s : State) : State :=
  let c := s.cur
  let f := (s.core c).inF
  let v := syIn s 1 m.b
  pushStore s c f (newAcc s c f (.dqadv (syIn s 0 m.a).toNat v) .none 13 ⟨.loc, [], false, 1, none⟩ (v.setWidth 32768))

def execSignalStore (f : SabOp) (s : State) : Res State := runSlot (.signalStore f) (effSignal false f) s
def execSignalAdd (f : SabOp) (s : State) : Res State := runSlot (.signalAdd f) (effSignal true f) s
def execDqadv (f : SabOp) (s : State) : Res State := runSlot (.dqadv f) (effDqadv f) s

/-! ## Giving up the core (R266 to R268; 01 R42) -/

/-- The cores that hold the tasks of a gang. -/
def gangCores (s : State) (g : Nat) : List Nat :=
  (List.range 128).filter fun c => (s.core c).bound && decide ((s.core c).ident.gang = g)

/-- The slot-table records of a core: current at +0, next at +64 (19 R327). -/
def slotAddr (c : Nat) : Nat :=
  if isGrotto c then 0x0E0004002000 + (c - 64) * 128 else 0x0E0004000000 + c * 128

/-- A next record is in force. -/
def nextValid (s : State) (c : Nat) : Bool := (s.reg (slotAddr c + 64 + 56)).getLsbD 0

/-- Pre-empt a gang: every task of it stops at its next bundle boundary (19 R329, R332). The first reason stands. -/
def preempt (s : State) (g : Nat) (w : Why) : State :=
  (gangCores s g).foldl (fun s c => s.modCore c fun k => match k.why with
    | none => { k with why := some w }
    | some _ => k) s

/-- YIELD (R266). -/
def effYield (_m : SyOp) (s : State) : State :=
  let g := (s.core s.cur).ident.gang
  if (gangCores s g).any (nextValid s) then preempt s g .yield else s

/-- The group of a task, as a launcher of children from the bundle at `baddr` (10 R280). -/
def parentOf (s : State) (k : Core) (baddr : Nat) : Parent :=
  let i := k.ident
  ⟨originSeq s k (originOf s k baddr).1, i.stage, i.x, i.y, i.z⟩

/-- A child of the group is not complete: a grid, a wait packet, or units not yet read (19 R325). -/
def childPending (s : State) (own : Parent → Bool) : Bool :=
  s.grids.any (fun g => match g.parent with
    | some p => own p
    | none => false)
  || s.flights.any (fun w => match w.parent with
    | some p => own p
    | none => false)
  || s.exposes.any fun e => own e.parent && decide ((s.reg (0x0E0001000000 + e.queue * 64 + 24)).toNat < e.hi)

/-- What the read of a condition's address at its home comes to: whether the condition holds, or what the read met. -/
inductive CondRes where
  | holds (v : Bool)
  | failed (cause : Cause) (sub : Nat)
  deriving DecidableEq, Repr

/-- Read the address of one condition (R268, R323). A read that its home holds back sees no value yet: the condition is false for now
(04 R122). An error completion is PAGE 5 (21 R360), and poison is POISON (02 R74; log 93). -/
def condRead (s : State) (ctx : Nat) (w : WaitCond) : CondRes :=
  if 2 ^ 48 ≤ w.addr then .failed .page 7
  else if xlatWaits s ctx w.addr then .holds false
  else match translate s ctx w.addr needRead none with
  | .fail cause sub => .failed cause sub
  | .ok x =>
    if placeWaits s x.pa false then .holds false
    else
      let l := loadQuiet s x 8
      if l.err then .failed .page 5 else if l.poison then .failed .poison 0 else .holds (condHolds w.op l.v w.val)

/-- What the read of one condition leaves at its home; a core's own read is counted (21 R369). -/
def condTouch (core : Bool) (ctx : Nat) (s : State) (w : WaitCond) : State :=
  if decide (2 ^ 48 ≤ w.addr) || xlatWaits s ctx w.addr then s
  else match translate s ctx w.addr needRead none with
  | .ok x =>
    let t := walkLeft s ctx w.addr
    if placeWaits s x.pa false then t else (if core then loadAt t x 8 else loadQuiet t x 8).s
  | .fail _ _ => walkLeft s ctx w.addr

def condsTouch (core : Bool) (s : State) (ctx : Nat) (ws : List WaitCond) : State := ws.foldl (condTouch core ctx) s

/-- The conditions of a block, by number, but for those that have failed. -/
def liveConds (dead : List Nat) (b : List Byte) : List (WaitCond × Nat) := (waitConds b).zipIdx.filter fun w => !(dead.contains w.2)

/-- The block's condition holds now (R267, R268); a failed condition is false. -/
def blockHolds (s : State) (ctx : Nat) (own : Parent) (dead : List Nat) (b : List Byte) : Bool :=
  let vs := (waitConds b).zipIdx.map fun w => !(dead.contains w.2) && decide (condRead s ctx w.1 = .holds true)
  let conds := if waitCount b = 0 then true else if waitAny b then vs.any id else vs.all id
  conds && (!waitChild b || !(childPending s (fun p => decide (p = own))))

/-- The conditions of a block whose address fails now, with what each met. A host-owned page is no failure: it is asked for (20 R354). -/
def blockFails (s : State) (ctx : Nat) (dead : List Nat) (b : List Byte) : List (Nat × Cause × Nat) :=
  (liveConds dead b).filterMap fun w => match condRead s ctx w.1 with
    | .failed .migrate _ => none
    | .failed cause sub => some (w.2, cause, sub)
    | .holds _ => none

/-- The firmware asks the host for every host-owned page that a condition meets; none where it has asked already. -/
def askConds (s : State) (ctx : Nat) (dead : List Nat) (b : List Byte) : Option State :=
  (liveConds dead b).foldl (fun (r : Option State) w => match condRead s ctx w.1 with
    | .failed .migrate _ => (match askHost (r.getD s) ctx w.1.addr with
        | some t => some t
        | none => r)
    | _ => r) none

/-- The deferred fault of a WAITY whose condition's address fails: it names the block. -/
def waityReport (w : Susp) (cause : Cause) (sub : Nat) : Report :=
  ⟨cause.code, sub, BitVec.ofNat 64 w.at_, w.baddr, 7, 255, true, false, false, 0⟩

/-- WAITY (R267, R268): past a condition that holds, nothing more, an ANY block with one that fails among them too (log 63); else the group
or lane is suspended, and an address that fails translation makes its condition false and is reported as a deferred fault naming the block. -/
def effWaity (m : WaityOp) (s : State) : State :=
  let c := s.cur
  let k := s.core c
  let ctx := k.ident.ctx
  let a := (syIn s 0 m.a).toNat
  let b := localBytes s c a 128
  let own := parentOf s k k.t.pc
  let t := condsTouch true (serveMisses s c ((waitConds b).map (·.addr))) ctx (waitConds b)
  if blockHolds s ctx own [] b then t
  else
    let bad := blockFails s ctx [] b
    let w : Susp := ⟨k.ident.gang, c, k.t.pc, k.ident.save, a, b, ctx, own, bad.map (·.1)⟩
    let t := match bad with
      | f :: _ => report t c (waityReport w f.2.1 f.2.2)
      | [] => t
    let t := (askConds t ctx w.dead b).getD t
    preempt { t with susps := t.susps ++ [w] } k.ident.gang .waity

def execYield (f : SyOp) (s : State) : Res State := runSlot (.yield f) (effYield f) s
def execWaity (f : WaityOp) (s : State) : Res State := runSlot (.waity f) (effWaity f) s

end Sys2Proof.Machine
end

