-- ==== Sys2Proof/Machine/Queue.lean ====
section
/-! DEFINITION. Queue registers (spec/19 R312 to R318): reading a packet, the order of a queue, the write index, the error state, and raising
a queue's vector. -/

namespace Sys2Proof.Machine
open Sys2Proof

/-- A register of queue `q` (R312). -/
def qreg (q off : Nat) : Nat := 0x0E0001000000 + q * 64 + off

def qLogsz (s : State) (q : Nat) : Nat := bitsAt (s.reg (qreg q 8)).toNat 0 5
def qEn (s : State) (q : Nat) : Bool := (s.reg (qreg q 8)).getLsbD 8
def qDev (s : State) (q : Nat) : Bool := (s.reg (qreg q 8)).getLsbD 9
def qCtx (s : State) (q : Nat) : Nat := bitsAt (s.reg (qreg q 8)).toNat 10 16
def qVec (s : State) (q : Nat) : Nat := bitsAt (s.reg (qreg q 8)).toNat 26 11
def qPrio (s : State) (q : Nat) : Nat := bitsAt (s.reg (qreg q 8)).toNat 5 3
def qErr (s : State) (q : Nat) : Bool := (s.reg (qreg q 32)).getLsbD 0
def qWr (s : State) (q : Nat) : Nat := (s.reg (qreg q 16)).toNat
def qRd (s : State) (q : Nat) : Nat := (s.reg (qreg q 24)).toNat

/-- Raise an MSI-X vector; there are 2,048 (21 R356). -/
def raiseVec (s : State) (v : Nat) : State := if v < 2048 then { s with msix := v :: s.msix } else s

/-- A queue enters the error state (R317): ERR, ECAUSE and EIDX, and its vector once. -/
def queueError (s : State) (q cause idx : Nat) : State :=
  if qErr s q then s
  else
    let st := (s.reg (qreg q 32)).toNat
    raiseVec ((s.setReg (qreg q 32) (BitVec.ofNat 64 (st / 256 * 256 + 1 + cause * 2))).setReg (qreg q 40) (BitVec.ofNat 64 idx))
      (qVec s q)

/-! ## Packets (R316, R317) -/

/-- Units of a packet by its type; none for an unassigned type. -/
def unitsOf (ty : Nat) : Option Nat := match ty with
  | 1 => some 2
  | 2 | 3 => some 4
  | 4 => some 1
  | _ => none

/-- Virtual address of a unit of a queue (R314). -/
def unitAddr (s : State) (q i : Nat) : Nat := (s.reg (qreg q 0)).toNat % 2 ^ 48 + i % 2 ^ qLogsz s q * 64

/-- The bytes of `n` units from unit `i` on. -/
def readUnits (s : State) (q i : Nat) : Nat → Option (List Byte)
  | 0 => some []
  | n + 1 => match readBytes s (qCtx s q) (unitAddr s q i) 64 with
    | none => none
    | some l => match readUnits s q (i + 1) n with
      | some r => some (l ++ r)
      | none => none

def pkType (b : List Byte) : Nat := blkN b 0 1
/-- A flag of the header word: 8 AP, 9 SPLICE, 10 CLAIM, 11 IND, 12 SIGOP, 13 INTR. -/
def pkFlag (b : List Byte) (i : Nat) : Bool := decide (blkN b 0 8 / 2 ^ i % 2 = 1)

/-- Header bits that the type does not use are zero. -/
def headerUnused (b : List Byte) : Bool :=
  let w := blkN b 0 8 / 256
  match pkType b with
  | 1 => decide (64 ≤ w)
  | 4 => decide (w % 64 - w % 64 / 16 % 4 * 16 - w % 2 ≠ 0) || decide (64 ≤ w)
  | _ => decide (2 ≤ w)

/-- COUNT or OP of a wait packet out of range: ECAUSE 4. -/
def waitMalformed (b : List Byte) : Bool :=
  let n := blkN b 8 1
  decide (n = 0) || decide (12 < n) || (List.range 12).any fun i => decide (i < n) && decide (3 < blkN b (16 + i) 1)

/-- A reserved or unused byte is nonzero, or an address is misaligned: ECAUSE 2. -/
def packetMalformed (b : List Byte) : Bool :=
  headerUnused b || (match pkType b with
    | 1 =>
      blkNonzero b 30 2 || blkNonzero b 80 48 || (!(pkFlag b 11) && blkNonzero b 32 8) || decide (blkN b 8 8 % 64 ≠ 0)
      || decide (blkN b 32 8 % 4 ≠ 0) || decide (blkN b 40 8 % 8 ≠ 0) || decide (blkN b 56 8 % 8 ≠ 0) || decide (blkN b 72 8 % 16 ≠ 0)
    | 4 => blkNonzero b 24 40 || decide (blkN b 8 8 % 8 ≠ 0)
    | _ =>
      let n := blkN b 8 1
      blkNonzero b 9 7 || blkNonzero b 28 36
      || (List.range 12).any fun i =>
          if i < n then decide (blkN b (64 + 16 * i) 8 % 8 ≠ 0)
          else blkNonzero b (16 + i) 1 || blkNonzero b (64 + 16 * i) 16)

/-- What stands at a unit index of a queue: nothing dispatch may read yet, a packet in error, or a packet of some units. -/
inductive Pkt where
  | none
  | err (ty cause : Nat)
  | ok (bytes : List Byte)
  deriving DecidableEq, Repr

/-- A read of unit `i` waits at a place that it needs. -/
def unitWaits (s : State) (q i : Nat) : Bool := bytesWait s (qCtx s q) (unitAddr s q i) 64

/-- Read the packet at unit `i`, which QWR has exposed (R315); ECAUSE in the order of R317. An unassigned type counts as a LAUNCH's error. -/
def packetAt (s : State) (q i : Nat) : Pkt :=
  if qWr s q ≤ i ∨ unitWaits s q i = true then .none
  else match readUnits s q i 1 with
    | none => .err 1 5
    | some h => match unitsOf (pkType h) with
      | none => .err 1 1
      | some n =>
        if qWr s q < i + n ∨ ((List.range n).any fun j => unitWaits s q (i + j)) = true then .none
        else match readUnits s q i n with
          | none => .err (pkType h) 5
          | some b =>
            if (pkType b = 2 ∨ pkType b = 3) ∧ waitMalformed b = true then .err (pkType b) 4
            else if packetMalformed b then .err (pkType b) 2
            else .ok b

/-! ## The order of a queue (R318, R324) -/

/-- A wait packet of the queue is not satisfied. -/
def queueWaiting (s : State) (q : Nat) : Bool := s.flights.any fun w => decide (w.queue = q)

/-- The previous packet of the queue has completed. -/
def previousDone (s : State) (q : Nat) : Bool := !(s.grids.any fun g => decide (g.queue = q) && decide (g.unit + 2 = qRd s q))

/-- Every earlier packet of the queue has completed. -/
def earlierDone (s : State) (q : Nat) : Bool := !(s.grids.any fun g => decide (g.queue = q))

/-- The queue may dispatch. -/
def queueOpen (s : State) (q : Nat) : Bool := qEn s q && !(qErr s q) && !(queueWaiting s q)

/-- The packet at the read index, if it may be dispatched now. -/
def dispatchable (s : State) (q : Nat) : Pkt :=
  if !(queueOpen s q) then .none
  else match packetAt s q (qRd s q) with
    | .ok b =>
      if pkFlag b 8 && !(previousDone s q) then .none
      else if decide (pkType b = 4) && !(earlierDone s q) then .none
      else .ok b
    | p => p

/-- Enabled queues, by number. -/
def liveQueues (s : State) : List Nat :=
  (s.mmio.filter fun p => decide (0x0E0001000000 ≤ p.1) && decide (p.1 < 0x0E0001200000) && decide (p.1 % 64 = 8) && p.2.getLsbD 8).map
    fun p => (p.1 - 0x0E0001000000) / 64

/-- The enabled queues of one priority, from the one at which the search begins, round. -/
def queuesOf (s : State) (prio : Nat) : List Nat :=
  let l := (liveQueues s).filter fun q => decide (qPrio s q = prio)
  let i := tget (fun _ => 0) s.serveFrom prio
  l.filter (fun q => decide (i ≤ q)) ++ l.filter (fun q => decide (q < i))

/-- The order in which the shipped firmware looks at the queues: descending PRIO (R336). -/
def serveOrder (s : State) : List Nat := (List.range 8).reverse.flatMap (queuesOf s)

/-- The table of R314: a new write index of a queue. A launch that is dispatchable before the packet after it is exposed is dispatched alone
(10 R269). -/
def queueAdvance (s : State) (q : Nat) (v : Word) : State :=
  if v.toNat ≤ qWr s q then s
  else
    let alone : Bool := match dispatchable s q with
      | .ok b => decide (pkType b = 1) && decide (packetAt s q (qRd s q + 2) = .none)
        && !((List.range 4).any fun j => decide (qRd s q + 2 + j < qWr s q) && unitWaits s q (qRd s q + 2 + j))
      | _ => false
    let s1 := s.setReg (qreg q 16) v
    let s1 := if alone then { s1 with alone := (q, qRd s q) :: s1.alone.filter fun e => decide (e.1 ≠ q) } else s1
    if v.toNat ≤ qRd s q + 2 ^ qLogsz s q then s1 else queueError s1 q 3 (qWr s q)

/-- A DQADV performs: the units it exposes are children of the issuing group (R325), in an errored queue too. -/
def deviceAdvance (s : State) (q : Nat) (v : Word) (own : Parent) : State :=
  let lo := qWr s q
  let s1 := queueAdvance s q v
  if lo < v.toNat ∧ v.toNat ≤ qRd s q + 2 ^ qLogsz s q then { s1 with exposes := s1.exposes ++ [⟨q, lo, v.toNat, own⟩] } else s1

end Sys2Proof.Machine
end

