-- ==== Sys2Proof/Machine/Trap.lean ====
section
/-! DEFINITION. TRAP, TRET and EXIT (spec/06 R177 to R179), what they do to a running loop (06 R172), and the discard of held accesses
(spec/20 R341, R342). -/

namespace Sys2Proof.Machine
open Sys2Proof

/-- A control transfer out of a running body ends the loop: only LSTAT.ACTIVE changes (06 R172). -/
def endLoop (k : Core) : Core := { k with lstat := k.lstat &&& ~~~1#64 }

/-! ## TRAP and EXIT (R177, R179) -/

/-- TRAP: a report of kind T, taken after the bundle. No slot of it faulted (20 R339; log 24). -/
def effTrap (m : SX) (s : State) : State :=
  let c := s.cur
  let pc := (s.core c).t.pc
  (report s c ⟨Cause.trap.code, 0, 0, pc, 255, 255, false, false, false, m.code.toNat⟩).modCore c endLoop

/-- EXIT: no later bundle issues; the task finishes once its work in flight is done (TASK_FINISH). -/
def effExit (m : SX) (s : State) : State :=
  s.modCore s.cur fun k => { endLoop k with exited := some m.code.toNat }

def execTrap (f : SX) (s : State) : Res State := runSlot (.trap f) (effTrap f) s
def execExit (f : SX) (s : State) : Res State := runSlot (.exit f) (effExit f) s

/-! ## Held accesses at a resume (20 R341) -/

/-- Release a held access: it performs in its queue's order, each page translated again. -/
def unhold (a : Acc) : Acc :=
  if a.held then
    { a with held := false, freed := true, pieces := if a.space = .glob then a.pieces.map fun p => { p with pa := none } else a.pieces }
  else a

/-- The token of an atomic. -/
def accToken (a : Acc) : Option Nat := match a.kind with
  | .atom _ _ _ _ tk _ _ => some tk
  | _ => none

/-- What the discard of a held access does beside removing it: an atomic's token is set, a fill's slot no longer waits and holds
nothing. -/
def discardEffect (s : State) (c : Nat) (a : Acc) : State :=
  let s := setTokOpt s c (accToken a)
  match a.dest with
  | .fill _ slot _ => s.modCore c fun k =>
      let t := tget (fun _ => Tag.reset) k.tags slot
      if t.fill = some a.seq then { k with tags := tset (fun _ => Tag.reset) k.tags slot { t with valid := false, fill := none } } else k
  | _ => s

/-- A queue without its held accesses: of a scatter the held element alone goes (09 R252); a gather whose element is discarded never
lands (09 R244). -/
def dropHeld (q : List Acc) : List Acc :=
  q.filterMap fun a =>
    if a.waits then
      (if a.elems && decide (a.kind = .st) && decide (1 < a.pieces.length) then
        some { a with held := false, freed := false, pieces := a.pieces.drop 1 } else none)
    else some a

/-- Discard the held accesses of a task (R341, R342). -/
def discardHeld (s : State) (c : Nat) : State :=
  let held := heldOf (s.core c).t
  let s := held.foldl (fun s a => discardEffect s c a) s
  let s := s.modCore c fun k =>
    { k with t := { k.t with loadQ := dropHeld k.t.loadQ, storeQ := dropHeld k.t.storeQ, lineQ := k.t.lineQ.filter (fun a => !a.waits) }, hold := none }
  trimQ s c false

/-- Go on at bundle address `a`; any address but NEXT ends a running loop (R341, 06 R172). A BARAW's wait stays with the bundle that it
stands before (09 R256). -/
def resumeAt (s : State) (c a : Nat) : State :=
  let next := (s.reg (recAddr c + 8)).toNat
  s.modCore c fun k =>
    let k := if a = next then k else endLoop k
    { k with run := .run, handlerDeferred := false, bawait := if a = k.t.pc then k.bawait else none,
             t := { k.t with pc := a, jump := none } }

/-- Try the line locks and unlocks that a task's walks or faults have kept again (09 R249): each acts, or is reported afresh, unless its walk
waits (log 120). -/
def retryLines (s : State) (c : Nat) : State :=
  let ls := (s.core c).t.lineQ
  let s := s.modCore c fun k => { k with t := { k.t with lineQ := [] } }
  ls.foldl (fun s a =>
    if xlatWaitsAt s c false (lineVa a) then
      s.modCore c fun k => { k with t := { k.t with lineQ := k.t.lineQ ++ [{ a with held := false, freed := a.waits }] } }
    else lineTry s c a) s

/-- The held accesses of a task are released: they perform before its next bundle (R341). -/
def releaseHeld (s : State) (c : Nat) : State :=
  let last := ((s.core c).t.loadQ ++ (s.core c).t.storeQ).foldl (fun m a => if a.held then max m (a.seq + 1) else m) 0
  retryLines (s.modCore c fun k =>
    { k with t := { k.t with loadQ := k.t.loadQ.map unhold, storeQ := k.t.storeQ.map unhold },
             hold := match k.hold with
               | some n => some (max n last)
               | none => if last = 0 then none else some last }) c

/-- TRET with CODE 0 (R341): the incomplete slots of BADDR; or, after a deferred fault, the held accesses first and then NEXT. -/
def tretMask (s : State) (c : Nat) : State :=
  let r := recAddr c
  let w := (s.reg (r + 48)).toNat
  let mask := bitsAt w 16 8
  if (s.core c).handlerDeferred then resumeAt (releaseHeld s c) c (s.reg (r + 8)).toNat
  else if mask = 255 then resumeAt s c (s.reg (r + 8)).toNat
  else (resumeAt s c (s.reg r).toNat).modCore c fun k => { k with resume := if mask = 0 then none else some mask }

/-- TRET (R178, R341): F ends its handler, and the task resumes. A task that took HWERR is never resumed (R338): it stays stopped. Beside
a task that is not stopped F only goes back to its entry point (log 91). -/
def effTret (m : SX) (s : State) : State :=
  let c := s.cur
  let s := s.modCore c fun k => { k with f := { k.f with jump := some 0 } }
  if !(s.core c).handling || decide ((s.reg (recAddr c + 48)).toNat % 256 = Cause.hwerr.code) then s
  else match m.code.toNat with
  | 0 => tretMask s c
  | 1 => resumeAt (discardHeld s c) c (s.reg (recAddr c)).toNat
  | _ => resumeAt (discardHeld s c) c ((s.reg (recAddr c)).toNat + 1)

def execTret (f : SX) (s : State) : Res State := runSlot (.tret f) (effTret f) s

end Sys2Proof.Machine
end

