-- ==== Sys2Proof/Machine/Perform.lean ====
section
/-! DEFINITION. How the accesses of a core's queues perform and land (spec/02 R47, R56 to R66; spec/09 R238 to R254; spec/20 R352): one
event performs one part of the access at the head of a queue. -/

namespace Sys2Proof.Machine
open Sys2Proof

/-! ## Resolving an access (R238, R254) -/

def accNeed (a : Acc) : Need := match a.kind with
  | .st | .sig _ => needWrite
  | .atom _ _ _ _ _ _ _ => needBoth
  | _ => needRead

/-- The slot that a record names for an access. -/
def accSlot (a : Acc) : Nat := match a.kind with
  | .st | .atom _ _ _ _ _ _ _ => 5
  | .sig _ | .dqadv _ _ => 7
  | _ => 4

/-- The parts that translate together: every part, or the next element of a gather or scatter. -/
def accTodo (a : Acc) : List Piece := if a.elems then a.pieces.take 1 else a.pieces

/-- A part misses the core's cache. -/
def needsWalk (s : State) (c : Nat) (f : Bool) (a : Acc) : Bool :=
  !f && (accTodo a).any fun p => p.pa.isNone && (coreCached s c p.addr).isNone

/-- The walk of a part waits at an entry's place. -/
def partsWait (s : State) (c : Nat) (f : Bool) (a : Acc) : Bool := (accTodo a).any fun p => p.pa.isNone && xlatWaitsAt s c f p.addr

/-- What translating an access comes to. -/
inductive Rsl where
  | fail (cause : Cause) (sub addr : Nat)
  /-- An atomic at an MMIO or CIM home (R254). -/
  | noAtomic (addr : Nat)
  | ok (a : Acc)
  deriving DecidableEq, Repr

/-- A home where an update of this kind has no effect (R254, R264). -/
def badHome (s : State) (a : Acc) (pa : Nat) : Bool :=
  match a.kind, homeOf s pa with
  | .atom _ _ _ _ _ _ _, some .reg | .atom _ _ _ _ _ _ _, some (.host _) | .atom _ _ _ _ _ _ _, some (.cim _ _)
  | .atom _ _ _ _ _ _ _, some (.side _ _) => true
  | .sig true, some .reg | .sig true, some (.cim _ _) | .sig true, some (.side _ _) => true
  | _, _ => false

/-- Translate the parts, in order; the first failure decides. A place that is no longer in force, a closed host window or a page that has
gone, fails as an unassigned one (02 R46; 21 R359; 23 R395). -/
def resolveParts (s : State) (c : Nat) (f : Bool) (need : Need) : List Piece → Except (Cause × Nat × Nat) (List Piece)
  | [] => .ok []
  | p :: rest => match p.pa with
    | some x =>
      if (homeOf s x.pa).isNone then .error (.page, 5, p.addr)
      else match resolveParts s c f need rest with
        | .ok l => .ok (p :: l)
        | .error e => .error e
    | none => match translateFor s c f p.addr need with
      | .fail cause sub => .error (cause, sub, p.addr)
      | .ok x => match resolveParts s c f need rest with
        | .ok l => .ok ({ p with pa := some x } :: l)
        | .error e => .error e

def resolveAcc (s : State) (c : Nat) (f : Bool) (a : Acc) : Rsl :=
  match resolveParts s c f (accNeed a) (accTodo a) with
  | .error (cause, sub, x) => .fail cause sub x
  | .ok l =>
    if l.any (fun p => match p.pa with
        | some x => badHome s a x.pa
        | none => false) then .noAtomic a.addr
    else .ok { a with pieces := l ++ a.pieces.drop l.length }

/-! ## Walks (20 R352) -/

/-- The base die serves every part that the core's cache does not have. -/
def walkParts (s : State) (c : Nat) (a : Acc) : State :=
  (accTodo a).foldl (fun s p => if p.pa.isNone then fillX s c p.addr else s) s

def queueOf (x : SCtx) (q : Bool) : List Acc := if q then x.storeQ else x.loadQ
def setQueue (x : SCtx) (q : Bool) (l : List Acc) : SCtx := if q then { x with storeQ := l } else { x with loadQ := l }

/-- Replace entry `k` of a queue, or take it out. -/
def putAcc (s : State) (c : Nat) (f q : Bool) (k : Nat) (a : Option Acc) : State :=
  s.modCore c fun m =>
    let x := m.ctx f
    let l := queueOf x q
    m.setCtx f (setQueue x q (match a with
      | some b => l.set k b
      | none => l.eraseIdx k))

/-- An access that fails translation, or meets a host-owned page, is held where it stands with its report (R238); F restarts instead
(20 R343). -/
def holdAcc (s : State) (c : Nat) (f q : Bool) (k : Nat) (a : Acc) (cause : Cause) (sub addr : Nat) : State :=
  if f then faultF (putAcc s c f q k none) c cause.code (BitVec.ofNat 64 addr)
  else
    report (putAcc s c f q k (some { a with held := true })) c
      ⟨cause.code, sub, BitVec.ofNat 64 addr, a.baddr, accSlot a, maskBut (accSlot a), true, false, true, 0⟩

/-- A report about an access that performed nothing, or whose value was poisoned, with its address (R239, R254, R112). -/
def reportAcc (s : State) (c : Nat) (f : Bool) (a : Acc) (addr : Nat) (cause : Cause) (sub : Nat) : State :=
  if f then faultF s c cause.code (BitVec.ofNat 64 addr)
  else report s c ⟨cause.code, sub, BitVec.ofNat 64 addr, a.baddr, accSlot a, 255, true, false, false, 0⟩

/-- The address that a report of an access names: of a gather or scatter, each of whose elements is an access, the element's (R244,
R252). -/
def partAddr (a : Acc) (p : Piece) : Nat := if a.elems then p.addr else a.addr

/-- An entry whose next parts are not translated, or whose places are gone. -/
def wantsWalk (s : State) (a : Acc) : Bool := !a.held && (accTodo a).any fun p => match p.pa with
  | none => true
  | some x => (homeOf s x.pa).isNone

/-- A walk for entry `k` of a queue completes: its leaves are cached, and the access is translated, held or turned away. -/
def pageWalk (s : State) (c : Nat) (f q : Bool) (k : Nat) (a : Acc) : State :=
  let s := missServed (if f then s else walkParts s c a) c a.seq
  match resolveAcc s c f a with
  | .ok b => trimQ (putAcc s c f q k (some b)) c f
  | .noAtomic _ => trimQ (setTokOpt (reportAcc (putAcc s c f q k none) c f a a.addr .align 0) c (accToken a)) c f
  | .fail cause sub x => holdAcc s c f q k a cause sub x

/-- The walk of line lock `k` of a task, which waited, completes (R249; log 120). -/
def lineWalk (c k : Nat) (s : State) : Option State :=
  match (s.core c).t.lineQ[k]? with
  | some a =>
    if a.held || xlatWaitsAt s c false (lineVa a) then none
    else some (lineTry (s.modCore c fun m => { m with t := { m.t with lineQ := m.t.lineQ.eraseIdx k } }) c a)
  | none => none

/-- The walk of entry `k` completes: of a queue, or, past the load queue of a task, of a line lock that stands outside the queues. -/
def evPageWalkComplete (c : Nat) (f q : Bool) (k : Nat) (s : State) : Option State :=
  let l := queueOf ((s.core c).ctx f) q
  match l[k]? with
  | some a => if wantsWalk s a && !partsWait s c f a then some (pageWalk s c f q k a) else none
  | none => if f || q then none else lineWalk c (k - l.length) s

/-- PAGE_WALK_COMPLETE (log 99). -/
def execPageWalkComplete (c : Nat) (f q : Bool) (k : Nat) (s : State) : Res State := happens s (evPageWalkComplete c f q k s)

/-- The base die accepts a miss that waited at its core (R352). -/
def evTranslationMissAccept (c : Nat) (s : State) : Option State :=
  let k := s.core c
  if k.missWait = true ∧ s.missQ.length < missLimit ∧ (s.missQ.contains (c, k.t.seq)) = false then
    some ({ s with missQ := s.missQ ++ [(c, k.t.seq)] }.modCore c fun k => { k with missWait := false })
  else none

/-- TRANSLATION_MISS_ACCEPT (log 99). -/
def execTranslationMissAccept (c : Nat) (s : State) : Res State := happens s (evTranslationMissAccept c s)

/-! ## Loads (R57, R242 to R245) -/

/-- An earlier acquire atomic of the task has not performed (02 R65). -/
def acquireWaits (x : SCtx) (seq : Nat) : Bool :=
  x.storeQ.any fun a => decide (a.seq < seq) && (match a.kind with
    | .atom _ _ _ _ _ fl _ => fl % 2 == 1
    | _ => false)

/-- The value a load that has read all its bytes writes. -/
def loadValue (a : Acc) : VReg := match a.kind with
  | .ldS size signed =>
    let v := a.data.toNat % 2 ^ (8 * size)
    if signed then BitVec.ofNat 32768 (wrapNat 64 (signedOf (8 * size) v)) else BitVec.ofNat 32768 v
  | _ => a.data

/-- The head of the load queue has read its last part: its value is on its way, or, where a byte was poisoned, the destination keeps its
contents (R239); a poisoned fill goes on. -/
def finishLoad (s : State) (c : Nat) (f : Bool) (a : Acc) : State :=
  let s := putAcc s c f false 0 none
  let s := if a.poisoned && !decide (a.kind = .fill) then s
    else s.modCore c fun k =>
      let x := k.ctx f
      k.setCtx f { x with arrivals := x.arrivals ++ [⟨a.seq, a.dest, loadValue a, a.weight, false⟩] }
  trimQ s c f

/-- Take the bytes of one part into the access. -/
def takeBytes (a : Acc) (p : Piece) (v : Nat) (poison : Bool) : Acc :=
  let bit : Nat := if poison && decide (a.kind = .fill) then 2 ^ (2048 + p.off / 32) else 0
  { a with data := a.data ||| BitVec.ofNat 32768 (v * 2 ^ (8 * p.off)) ||| BitVec.ofNat 32768 bit, poisoned := a.poisoned || poison }

/-- The access at the head of a queue, translated, if its kind is one that `sel` picks. -/
def readyHead (s : State) (c : Nat) (f q : Bool) (sel : AccKind → Bool) : Option Acc :=
  match queueOf ((s.core c).ctx f) q with
  | a :: _ =>
    if a.held || needsWalk s c f a || partsWait s c f a || !(sel a.kind) then none
    else match resolveAcc s c f a with
      | .ok b => some b
      | _ => none
  | [] => none

def isLoadKind (k : AccKind) : Bool := match k with
  | .ldS _ _ | .ldV | .fill => true
  | _ => false

/-- Part `j` of the load at the head of the queue performs at its home. -/
def evLoadPerform (c : Nat) (f : Bool) (j : Nat) (s0 : State) : Option State :=
  let s := trimQ s0 c f
  match readyHead s c f false isLoadKind with
  | none => none
  | some a =>
    if acquireWaits ((s.core c).ctx f) a.seq ∨ (a.elems ∧ j ≠ 0) then none
    else match a.pieces[j]? with
      | none => none
      | some p => match p.pa with
        | none => none
        | some x =>
          if placeWaits s x.pa false then none
          else
            let l := loadAt s x p.len
            if l.err then some (holdAcc l.s c f false 0 a .page 5 p.addr)
            else
              let b : Acc := { takeBytes a p l.v l.poison with pieces := a.pieces.eraseIdx j, freed := a.freed && !a.elems }
              let t := if b.pieces = [] then finishLoad l.s c f b else putAcc l.s c f false 0 (some b)
              -- POISON is detected at the first poisoned byte (R239)
              some (if l.poison && !a.poisoned && !decide (a.kind = .fill) then reportAcc t c f a (partAddr a p) .poison 0 else t)

/-- LOAD_PERFORM (log 99). -/
def execLoadPerform (c : Nat) (f : Bool) (j : Nat) (s0 : State) : Res State := happens s0 (evLoadPerform c f j s0)

/-- Land a value in its register (01 R15). -/
def landArrival (f : Bool) (r : Arrival) (k : Core) : Core :=
  match r.dest with
  | .s n => k.setCtx f ((k.ctx f).setS n (r.value.setWidth 64))
  | .v d => k.setVreg d r.value
  | _ => k

/-- Arrival `k` of a core, the task's first, then F's. -/
def arrivalAt (m : Core) (k : Nat) : Option (Bool × Nat × Arrival) :=
  match m.t.arrivals[k]? with
  | some r => some (false, k, r)
  | none => match m.f.arrivals[k - m.t.arrivals.length]? with
    | some r => some (true, k - m.t.arrivals.length, r)
    | none => none

def dropArrival (f : Bool) (i : Nat) (k : Core) : Core :=
  k.setCtx f { k.ctx f with arrivals := (k.ctx f).arrivals.eraseIdx i }

def isFillDest (d : LDest) : Bool := match d with
  | .fill _ _ _ => true
  | _ => false

def evLoadLand (c k : Nat) (s : State) : Option State :=
  match arrivalAt (s.core c) k with
  | some (f, i, r) =>
    if isFillDest r.dest then none
    else some (s.modCore c fun m => landArrival f r (dropArrival f i m))
  | none => none

/-- LOAD_LAND (log 99). -/
def execLoadLand (c k : Nat) (s : State) : Res State := happens s (evLoadLand c k s)

/-! ## Probe fills (02 R53, R55) -/

/-- The eight sectors of a fill reach the slot, poisoned where they were (02 R74). -/
def writeFill (s : State) (c off : Nat) (v : VReg) : State :=
  let base := localBase c (s.core c) + off
  (List.range 8).foldl (fun s i =>
    let x := Phys.plain (base + 32 * i)
    if v.getLsbD (2048 + i) then (poisonAt s x 32).1
    else (storeAt s x 32 (bitsAt v.toNat (256 * i) 256)).1) s

/-- An earlier fill of the same bytes has not landed. -/
def fillBehind (x : SCtx) (off seq : Nat) : Bool :=
  let here : LDest → Bool := fun d => match d with
    | .fill o _ _ => decide (o = off)
    | _ => false
  x.loadQ.any (fun a => decide (a.seq < seq) && here a.dest) || x.arrivals.any fun r => decide (r.seq < seq) && here r.dest

/-- A fill lands, after the earlier fills of its slot, its eight sectors at one instant (log 113); the tag that records it, if one still does,
has no fill pending any more (R53; 06 R175). -/
def evProbeFillLand (c k : Nat) (s : State) : Option State :=
  match (s.core c).t.arrivals[k]? with
  | some r => match r.dest with
    | .fill off slot _ =>
      if fillBehind (s.core c).t off r.seq then none
      else
        let s := writeFill s c off r.value
        some (s.modCore c fun m =>
          let m := dropArrival false k m
          let t := tget (fun _ => Tag.reset) m.tags slot
          if t.fill = some r.seq then { m with tags := tset (fun _ => Tag.reset) m.tags slot { t with fill := none } } else m)
    | _ => none
  | none => none

/-- PROBE_FILL_LAND (log 99). -/
def execProbeFillLand (c k : Nat) (s : State) : Res State := happens s (evProbeFillLand c k s)

/-! ## Stores (R57, R61, R251, R252, R264, R265) -/

/-- A release waits for an earlier load that its scope covers; earlier stores stand ahead of it in its own queue (02 R65). -/
def releaseWaits (s : State) (c : Nat) (x : SCtx) (scope seq : Nat) : Bool :=
  x.loadQ.any fun a => decide (a.seq < seq) && covered s c scope a

def isStoreKind (k : AccKind) : Bool := match k with
  | .st | .sig false | .dqadv _ _ => true
  | _ => false

/-- The store has written its last part: it leaves its queue; a refused sector is reported (04 R112). -/
def finishStore (s : State) (c : Nat) (f : Bool) (a : Acc) : State :=
  let s := putAcc s c f true 0 none
  trimQ (if a.poisoned then reportAcc s c f a a.addr .macroBusy 1 else s) c f

/-- Part `j` of the store at the head of the queue performs at its home; the parts of a scatter or a strided store go in order, an STVS whose
rows do not overlap too (log 108). -/
def evStorePerform (c : Nat) (f : Bool) (j : Nat) (s0 : State) : Option State :=
  let s := trimQ s0 c f
  match readyHead s c f true isStoreKind with
  | none => none
  | some a =>
    let x := (s.core c).ctx f
    match a.kind with
    | .dqadv q v =>
      if releaseWaits s c x 2 a.seq then none
      else some (trimQ (deviceAdvance (putAcc s c f true 0 none) q v (parentOf s (s.core c) a.baddr)) c f)
    | kind =>
      if (decide (kind = .sig false) && releaseWaits s c x 3 a.seq) || ((a.elems || decide (a.opc = 6)) && decide (j ≠ 0)) then
        none
      else match a.pieces[j]? with
        | none => none
        | some p => match p.pa with
          | none => none
          | some y =>
            if placeWaits s y.pa true then none
            else
              let r := storeAt s y p.len (a.data.toNat / 2 ^ (8 * p.off) % 2 ^ (8 * p.len))
              let no := decide (r.2 = .refused)
              let b : Acc := { a with pieces := a.pieces.eraseIdx j, poisoned := a.poisoned || (no && !a.elems), freed := a.freed && !a.elems }
              let t := if b.pieces = [] then finishStore r.1 c f b else putAcc r.1 c f true 0 (some b)
              -- an element of a scatter is a store of its own (R252)
              some (if no && a.elems then reportAcc t c f a p.addr .macroBusy 1 else t)

/-- STORE_PERFORM (log 99). -/
def execStorePerform (c : Nat) (f : Bool) (j : Nat) (s0 : State) : Res State := happens s0 (evStorePerform c f j s0)

/-! ## Atomics (02 R64, R65; R253, R254) -/

def isAtomKind (k : AccKind) : Bool := match k with
  | .atom _ _ _ _ _ _ _ | .sig true => true
  | _ => false

/-- The scope a release form waits at: group, device or system; none for a relaxed or acquire form. -/
def releaseScope (k : AccKind) : Option Nat := match k with
  | .atom _ _ _ _ _ fl sc => if 2 ≤ fl then some (sc + 1) else none
  | .sig _ => some 3
  | _ => none

/-- An indivisible update of `w` bytes at a translated address: state after, old contents, whether it was poisoned. -/
def updateAt (s : State) (x : Phys) (w : Nat) (g : Nat → Nat) : Load := finishUpdate (loadAt s x w) x w g

/-- An atomic, or a SIGNAL that adds, performs. -/
def evAtomicPerform (c : Nat) (f : Bool) (s0 : State) : Option State :=
  let s := trimQ s0 c f
  match readyHead s c f true isAtomKind with
  | none => none
  | some a =>
    if (match releaseScope a.kind with
        | some sc => releaseWaits s c ((s.core c).ctx f) sc a.seq
        | none => false) then none
    else match a.pieces with
      | [] => none
      | p :: _ => match p.pa with
        | none => none
        | some x =>
          if placeWaits s x.pa true then none
          else match a.kind with
            | .atom op v cmp old tk _ _ =>
              let l := updateAt s x p.len fun m => atomNew op p.len m v cmp
              let s := putAcc l.s c f true 0 none
              if l.poison then some (trimQ (setTok (reportAcc s c f a a.addr .poison 0) c tk) c f)
              else match old with
                | some o => some (trimQ (s.modCore c fun k =>
                    k.setCtx f { k.ctx f with olds := (k.ctx f).olds ++ [⟨a.seq, o, p.len, l.v, tk⟩] }) c f)
                | none => some (trimQ (setTok s c tk) c f)
            | _ =>
              let l := updateAt s x 8 fun m => (m + a.data.toNat) % 2 ^ 64
              let s := putAcc l.s c f true 0 none
              some (trimQ (if l.poison then reportAcc s c f a a.addr .poison 0 else s) c f)

/-- ATOMIC_PERFORM (log 99). -/
def execAtomicPerform (c : Nat) (f : Bool) (s0 : State) : Res State := happens s0 (evAtomicPerform c f s0)

/-- The old value of an atomic lands at its local address, and sets its token (02 R65). -/
def evAtomicOldLand (c : Nat) (f : Bool) (k : Nat) (s : State) : Option State :=
  match ((s.core c).ctx f).olds[k]? with
  | some o =>
    let s := (storeAt s (.plain (localBase c (s.core c) + o.addr)) o.width o.value).1
    let s := s.modCore c fun m => m.setCtx f { m.ctx f with olds := (m.ctx f).olds.eraseIdx k }
    some (setTok s c o.tk)
  | none => none

/-- ATOMIC_OLD_LAND (log 99). -/
def execAtomicOldLand (c : Nat) (f : Bool) (k : Nat) (s : State) : Res State := happens s (evAtomicOldLand c f k s)

/-! ## Barriers (02 R66; R256, R257; 10 R282) -/

/-- An earlier access of the task that an arrival waits for: every one, host accesses too (02 R66; 21 R360). -/
def arrivalWaits (s : State) (c seq : Nat) : Bool :=
  let x := (s.core c).t
  (x.loadQ ++ x.storeQ).any (fun a => decide (a.seq < seq) && covered s c 3 a) || x.olds.any fun o => decide (o.seq < seq)

/-- An earlier operation of the task on the same barrier has not taken effect. -/
def barBehind (k : Core) (r : BarReq) : Bool :=
  k.barQ.any fun e => decide (e.bar = r.bar) && decide (e.stage = r.stage) && decide (e.task = r.task) && decide (e.seq < r.seq)

/-- An operation of a task on a barrier takes effect at its home: an arrival counts, or a BARCFG queued behind one. -/
def evBarrierArrivalCount (c k : Nat) (s : State) : Option State :=
  match (s.core c).barQ[k]? with
  | none => none
  | some r => match barHome s c r.stage r.task with
    | none => none
    | some home =>
      if barBehind (s.core c) r then none
      else
        let gone := s.modCore c fun m => { m with barQ := m.barQ.eraseIdx k }
        match r.cfg with
        | some cnt => some (setCnt gone home r.bar cnt)
        | none =>
          -- a complete generation ends before another arrival counts
          if arrivalWaits s c r.seq ∨ (barAt s home r.bar).arr = (barAt s home r.bar).cnt then
            none
          else
            let b := barAt gone home r.bar
            let s := setBar gone home r.bar { b with arr := b.arr + 1 }
            some (s.modCore c fun m => { m with arecs := match tget (fun _ => none) m.arecs r.bar with
              | some e => if e.seq = r.seq then tset (fun _ => none) m.arecs r.bar (some { e with gen := b.gen, counted := true }) else m.arecs
              | none => m.arecs })

/-- BARRIER_ARRIVAL_COUNT (log 99). -/
def execBarrierArrivalCount (c k : Nat) (s : State) : Res State := happens s (evBarrierArrivalCount c k s)

/-- The pointers of each ring whose pair names the completing barrier advance (10 R282, R283). -/
def advanceRings (home bar : Nat) (s : State) : State :=
  (List.range 16).foldl (fun s n => s.modCore home fun k =>
    let h := tget (fun _ => RingHome.reset) k.ringHome n
    match h.pair with
    | some (p, q) =>
      let h := { h with pp := if p = bar then h.pp + 1 else h.pp, cp := if q = bar then h.cp + 1 else h.cp }
      { k with ringHome := tset (fun _ => RingHome.reset) k.ringHome n h }
    | none => k) s

/-- The arrival count has reached the participant count (01 R28, R256). -/
def evBarrierCompletion (c bar : Nat) (s : State) : Option State :=
  let b := barAt s c bar
  if (s.core c).bound = true ∧ b.cnt ≤ b.arr then
    some (advanceRings c bar (setBar s c bar
      { b with arr := 0, gen := b.gen + 1, cnt := match b.pendCnt with
          | some n => n
          | none => b.cnt, pendCnt := none }))
  else none

/-- BARRIER_COMPLETION (log 99). -/
def execBarrierCompletion (c bar : Nat) (s : State) : Res State := happens s (evBarrierCompletion c bar s)

/-! ## Tokens of stores, and counter waits (02 R69, R71) -/

/-- A store, atomic or SIGNAL ahead of a TOKST has not performed (R258). -/
def tokstWaits (x : SCtx) (seq : Nat) : Bool := x.storeQ.any fun a => decide (a.seq < seq) && (match a.kind with
  | .st | .atom _ _ _ _ _ _ _ | .sig _ => true
  | _ => false)

def evTokstComplete (c k : Nat) (s : State) : Option State :=
  match (s.core c).toksts[k]? with
  | some t =>
    if tokstWaits (s.core c).t t.seq then none
    else some (setTok (s.modCore c fun m => { m with toksts := m.toksts.eraseIdx k }) c t.tk)
  | none => none

/-- TOKST_COMPLETE (log 99). -/
def execTokstComplete (c k : Nat) (s : State) : Res State := happens s (evTokstComplete c k s)

/-- A stalled CTRW's read sees its threshold (R71, R259): the wait is over. -/
def evCtrwRelease (c : Nat) (s : State) : Option State :=
  match (s.core c).ctrw with
  | some (a, thr, false) =>
    if ctrRead s c a thr = .pass then some ((ctrTouch s c a).modCore c fun m => { m with ctrw := some (a, thr, true) })
    else none
  | _ => none

/-- CTRW_RELEASE (log 99). -/
def execCtrwRelease (c : Nat) (s : State) : Res State := happens s (evCtrwRelease c s)

end Sys2Proof.Machine
end

