-- ==== Sys2Proof/Machine/Copy.lean ====
section
/-! DEFINITION. The copy commands (spec/08 R208, R218 to R225; spec/02 R70, R72, R74): at issue, and the bytes they land; and the counters that
engine commands update. -/

namespace Sys2Proof.Machine
open Sys2Proof

/-! ## At issue (R208, R218) -/

/-- Read a scalar operand of the CP slot. -/
def cpIn (s : State) (n : Nat) (r : BitVec 7) : Word := readS s s.cur false (fkey s 6 n) r

/-- A command of the CP slot enters its core's queue with its operands, its token pending (R208). -/
def sendCp (s : State) (m : Cmd) : State :=
  (pendTokOpt s m.core m.tp).modCore m.core fun k => { k with cpQ := k.cpQ ++ [m] }

/-- A copy or link command: its shape is captured after its swap (01 R26). -/
def effCp (i : Instr) (shaped : Bool) (m : CpOp) (s : State) : State :=
  let c := s.cur
  let shape := if shaped then shapeAt (s.core c) m.e 4 else 0
  let cmd := newCmd s c i m.e (cpIn s 0 m.a) (cpIn s 1 m.b) (cpIn s 2 m.c) shape 0 none
  sendCp (if shaped then swapShape s c m.e 4 else s) cmd

def execCpyl (f : CpOp) (s : State) : Res State := runSlot (.cpyl f) (effCp (.cpyl f) true f) s
def execCpys (f : CpOp) (s : State) : Res State := runSlot (.cpys f) (effCp (.cpys f) true f) s
def execCpyc (f : CpOp) (s : State) : Res State := runSlot (.cpyc f) (effCp (.cpyc f) false f) s
def execCpfill (f : CpOp) (s : State) : Res State := runSlot (.cpfill f) (effCp (.cpfill f) true f) s
/-- A link command keeps the place of its issue among the link commands of the module (R227). -/
def effLxfr (f : CpOp) (s : State) : State :=
  let c := s.cur
  sendCp s { newCmd s c (.lxfr f) f.e (cpIn s 0 f.a) (cpIn s 1 f.b) (cpIn s 2 f.c) 0 0 none with rprog := s.fresh }

def execLxfr (f : CpOp) (s : State) : Res State := runSlot (.lxfr f) (effLxfr f) s

/-! ## Commands in the queue -/

def setCp (s : State) (c k : Nat) (m : Cmd) : State := s.modCore c fun x => { x with cpQ := x.cpQ.set k m }

/-- The command has read its block and waits for no token (02 R68). -/
def cmdReady (m : Cmd) : Bool := decide (m.needs = []) && m.blk.isSome
def blkOf (m : Cmd) : List Byte := m.blk.getD []

/-- A check of the block that fails when it is read after issue (01 R32): the command ends with no effect but its token. -/
def lateBlock (s : State) (m : Cmd) : Bad :=
  if blkOf m = [] then none else readBad s m.instr m.core m.a.toNat m.b.toNat (blkOf m)

/-- End a command whose late block fails. -/
def refuseLate (s : State) (c k : Nat) (m : Cmd) (cause : Cause) (sub addr : Nat) : State :=
  setCp (reportCmd s c cause sub addr m.baddr 6) c k { m with started := true, stopped := true, blk := some [] }

/-- The channel of a copy. A link command may name a channel too (R209) and no rule gives it a use: it delivers on none (log 48). -/
def chanOf (m : Cmd) : Option Nat := match m.instr with
  | .cpyl f | .cpys f | .cpyc f | .cpfill f => some f.ch.toNat
  | _ => none

/-- An earlier copy of the core on the same channel has not delivered everything (02 R72). -/
def chanBlocked (k : Core) (i : Nat) (m : Cmd) : Bool :=
  (k.cpQ.take i).any fun e => (chanOf e).isSome && decide (chanOf e = chanOf m)

/-! ## Where a copy's bytes go (R219, R221, R223) -/

/-- Byte `x` mod 8 of a fill pattern (R221). -/
def fillByte (v : Word) (x : Nat) : Nat := bitsAt v.toNat (8 * (x % 8)) 8

/-- Bytes a copy delivers. -/
def copyTotal (m : Cmd) : Nat := match m.instr with
  | .cpyc _ =>
    let g := convOf (blkOf m)
    g.p * g.rowBytes
  | _ => shpTotal m.shape

/-- Byte `t` of a shape of runs from a base (R219, R221). -/
def runByte (m : Cmd) (base t : Nat) : Int :=
  let cnt := max 1 (shpCnt m.shape 0)
  (base : Int) + runOffset m.shape (t / cnt) + (t % cnt : Nat)

/-- Where byte `t` of a gather comes from; none for a pad (R223). -/
def convSrc (m : Cmd) (t : Nat) : Option Nat :=
  let g := convOf (blkOf m)
  let e := 2 ^ g.esz
  let ce := g.c * e
  let q := g.q0 + t / g.rowBytes
  let w := t % g.rowBytes
  let n := q / (g.oh * g.ow)
  let iy : Int := (q / g.ow % g.oh * g.sh : Nat) - (g.ph : Int) + (w / ce / g.kw : Nat)
  let ix : Int := (q % g.ow * g.sw : Nat) - (g.pw : Int) + (w / ce % g.kw : Nat)
  if g.nb ≤ n ∨ iy < 0 ∨ (g.h : Int) ≤ iy ∨ ix < 0 ∨ (g.w : Int) ≤ ix then none
  else some (wrapNat 64 ((m.b.toNat : Int) + (((((n * g.h : Nat) : Int) + iy) * g.w + ix) * g.c * e + (w % ce : Nat))))

/-- Where byte `t` of the traversal comes from: a global address, for a store a local offset; none for a pad or a fill. -/
def srcAt (m : Cmd) (t : Nat) : Option Nat := match m.instr with
  | .cpyc _ => convSrc m t
  | .cpfill _ => none
  | .cpys _ => some (m.a.toNat + t)
  | _ => some (wrapNat 64 (runByte m m.b.toNat t))

/-- Where byte `t` goes: a local offset, for a store a global address. -/
def dstAt (m : Cmd) (t : Nat) : Nat := match m.instr with
  | .cpyc _ =>
    let g := convOf (blkOf m)
    m.a.toNat + t / g.rowBytes * g.pitch + t % g.rowBytes
  | .cpfill _ => (runByte m m.a.toNat t).toNat
  | .cpys _ => wrapNat 64 (runByte m m.b.toNat t)
  | _ => m.a.toNat + t

/-- Byte `t` where nothing is read: a byte of the pad element, or of the pattern. -/
def padAt (m : Cmd) (t : Nat) : Nat :=
  let v := blkN (blkOf m) 32 8
  match m.instr with
  | .cpyc _ =>
    let g := convOf (blkOf m)
    bitsAt v (8 * (t % g.rowBytes % 2 ^ g.esz)) 8
  | _ => fillByte (BitVec.ofNat 64 v) (dstAt m t)

/-- How many bytes from `t` on, `k` of them known, stand together in one 32-byte sector, or are together in none. -/
def stretchFrom (f : Nat → Option Nat) (t total : Nat) : Nat → Nat → Nat
  | 0, k => k
  | fuel + 1, k =>
    if total ≤ t + k then k
    else match f t, f (t + k) with
      | some a, some b => if b = a + k ∧ b / 32 = a / 32 then stretchFrom f t total fuel (k + 1) else k
      | none, none => stretchFrom f t total fuel (k + 1)
      | _, _ => k

/-- Bytes that one read of the engine brings from byte `t` on, and that one write of it lands: of a sector, all that the copy touches there
without a break, so that a whole aligned sector is one access (02 R48). -/
def srcLen (m : Cmd) (t : Nat) : Nat := stretchFrom (srcAt m) t (copyTotal m) 31 1
def dstLen (m : Cmd) (t : Nat) : Nat := stretchFrom (fun i => some (dstAt m i)) t (copyTotal m) 31 1

def isStoreCopy (m : Cmd) : Bool := match m.instr with
  | .cpys _ => true
  | _ => false

/-- The physical place of a local offset of the command's core. -/
def localPhys (s : State) (m : Cmd) (o : Nat) : Phys := .plain (localBase m.core (s.core m.core) + o)

/-- What the global end of an access comes to. -/
def globRes (s : State) (m : Cmd) (g : Nat) : Xres :=
  if 2 ^ 48 ≤ g then .fail .page 7
  else translate s m.ctx g (if isStoreCopy m then needWrite else needRead) none

/-- The translation that a destination sector took before its source was read. -/
def destKept (m : Cmd) (g : Nat) : Option Phys := (m.dests.find? fun d => decide (d.1 = g / 32)).map (·.2)

/-- Where a byte of a store-direction copy goes (R225): by the translation that its sector has taken, a place gone since being an unassigned
one (21 R359; 23 R395; log 101); else by one looked for now. -/
def destRes (s : State) (m : Cmd) (g : Nat) : Xres := match destKept m g with
  | some x => if (homeOf s x.pa).isNone then .fail .page 5 else .ok { x with pa := x.pa + g % 32 }
  | none => globRes s m g

/-- The walk of a global address of a copy waits, or what it leaves at the homes (22 R377, R380). -/
def globWaits (s : State) (m : Cmd) (glob : Bool) (g : Nat) : Bool := glob && decide (g < 2 ^ 48) && xlatWaits s m.ctx g
def globLeft (s : State) (m : Cmd) (glob : Bool) (g : Nat) : State := if glob && decide (g < 2 ^ 48) then walkLeft s m.ctx g else s

/-- The walk of a destination waits. -/
def destWaits (s : State) (m : Cmd) (g : Nat) : Bool := (destKept m g).isNone && globWaits s m true g

/-- The destination sectors of bytes `t` to `t + n - 1` of a store-direction copy that have no translation yet, each with the one it takes. -/
def newDests (s : State) (m : Cmd) (t n : Nat) : List (Nat × Phys) :=
  if isStoreCopy m then
    (List.range n).foldl (fun l i =>
      let g := dstAt m (t + i)
      match destRes s m g with
      | .ok x => if (m.dests ++ l).any (fun d => decide (d.1 = g / 32)) then l else l ++ [(g / 32, { x with pa := x.pa - g % 32 })]
      | .fail _ _ => l) []
  else []

/-- Bytes read ahead of landing, each with whether its sector was poisoned. -/
abbrev ReadBytes := List (Nat × Bool)

/-- The bytes of a number, `n` of them. -/
def splitBytes (v n : Nat) (poison : Bool) : ReadBytes := (List.range n).map fun i => (bitsAt v (8 * i) 8, poison)
def joinBytes (l : ReadBytes) : Nat := l.foldr (fun b v => b.1 + 256 * v) 0

/-- What reading the next source sector comes to: the state and the bytes; or why not. -/
inductive ReadRes where
  | got (s : State) (l : ReadBytes)
  | waits
  | failed (s : State) (cause : Cause) (sub addr : Nat)
  deriving DecidableEq, Repr

/-- Byte `t` of a store-direction copy has a destination that may be written: where not, the copy stops or holds there, and nothing from it
on is read (R225). -/
def dstOpen (s : State) (m : Cmd) (t : Nat) : Bool := !isStoreCopy m || (!destWaits s m (dstAt m t) && (match destRes s m (dstAt m t) with
  | .ok _ => true
  | .fail _ _ => false))

/-- Bytes that the next read of the engine brings. -/
def readLen (s : State) (m : Cmd) (t : Nat) : Nat := ((List.range (srcLen m t)).takeWhile fun i => dstOpen s m (t + i)).length

/-- What the walks of the destinations of the next `n` bytes leave. -/
def destsLeft (s : State) (m : Cmd) (t n : Nat) : State := (newDests s m t n).foldl (fun s d => globLeft s m true (32 * d.1)) s

/-- Read from byte `t` on what one source sector holds, the destinations of a store translated before it: a pad or fill reads nothing. A
host-owned page holds the engine (R220). -/
def readChunk (s : State) (m : Cmd) (t : Nat) : ReadRes :=
  let n := readLen s m t
  let glob := !isStoreCopy m
  if n = 0 then .waits
  else match srcAt m t with
  | none => .got s ((List.range n).map fun i => (padAt m (t + i), false))
  | some a =>
    if globWaits s m glob a then .waits
    else match (if glob then globRes s m a else .ok (localPhys s m a)) with
    | .fail cause sub => .failed (globLeft s m glob a) cause sub a
    | .ok x =>
      if placeWaits s x.pa false then .waits
      else
        let l := loadAt (globLeft (destsLeft s m t n) m glob a) x n
        if l.err then .failed l.s .page 5 a else .got l.s (splitBytes l.v n l.poison)

/-- The first byte not yet read. -/
def readPos (m : Cmd) : Nat := m.prog + m.buf.length

/-- Take bytes read in state `s` into the buffer, and the translations of their destinations. -/
def buffered (s : State) (m : Cmd) (l : ReadBytes) : Cmd :=
  { m with rprog := readPos m + l.length, buf := m.buf ++ l, dests := m.dests ++ newDests s m (readPos m) l.length }

/-- What filling the buffer comes to. -/
inductive Filled where
  | got (s : State) (m : Cmd)
  | waits
  | failed (s : State) (m : Cmd) (cause : Cause) (sub addr : Nat)
  deriving DecidableEq, Repr

/-- Read source sectors until the buffer holds `n` bytes. -/
def fillBuf (n : Nat) : Nat → State → Cmd → Filled
  | 0, s, m => .got s m
  | fuel + 1, s, m =>
    if n ≤ m.buf.length then .got s m
    else match readChunk s m (readPos m) with
      | .got t l => fillBuf n fuel t (buffered s m l)
      | .waits => .waits
      | .failed t cause sub a => .failed t m cause sub a

/-- Write the first `n` bytes of the buffer at their destination: state, whether it was refused; none where it waits. -/
def writeChunk (s : State) (m : Cmd) (n : Nat) : Except (Option (Cause × Nat × Nat)) (State × Bool) :=
  let l := m.buf.take n
  let a := dstAt m m.prog
  match (if isStoreCopy m then destRes s m a else .ok (localPhys s m a)) with
  | .fail cause sub => .error (some (cause, sub, a))
  | .ok y =>
    if placeWaits s y.pa true then .error none
    else
      let r := if l.any (·.2) then poisonAt s y n else storeAt s y n (joinBytes l)
      .ok (r.1, decide (r.2 = .refused))

/-! ## Counters (02 R70; 21 R360) -/

/-- What the page of a counter comes to. -/
def counterRes (s : State) (m : Cmd) (va : Nat) : Xres :=
  if 2 ^ 48 ≤ va then .fail .page 7 else translate s m.ctx va needBoth none

/-- A counter becomes due: it joins the updates under way; or its address fails translation, which is reported and sets FAULT. -/
def dueCounter (s : State) (m : Cmd) (va inc : Nat) (slot : Nat) : State × Bool :=
  if va = 0 then (s, false)
  else match counterRes s m va with
    | .fail cause sub => (reportCmd (globLeft s m true va) m.core cause sub va m.baddr slot, true)
    | .ok x => ({ globLeft s m true va with counters := s.counters ++ [⟨m.core, x, BitVec.ofNat 64 inc, false, va, m.baddr⟩] }, false)

/-- The walk of a counter's page waits. -/
def countersWait (s : State) (m : Cmd) (l : List Nat) : Bool := l.any fun va => decide (va ≠ 0) && globWaits s m true va

/-- The first of some counters whose page is host-owned: the engine holds there (R220, 02 R75). -/
def heldCounter (s : State) (m : Cmd) (l : List Nat) : Option Nat :=
  l.find? fun va => decide (va ≠ 0) && (match counterRes s m va with
    | .fail .migrate _ => true
    | _ => false)

/-- The atomic ADD of a due counter performs at its home; at MMIO or CIM it has no effect, the host aperture apart (02 R64, 21 R360), nor over
poison (log 102). A place that is gone since is PAGE 5 of the command that names it (21 R359). -/
def addCounter (s : State) (d : CtrDue) : State :=
  if d.put then (storeQuiet s d.at_ 8 d.inc.toNat).1
  else match homeOf s d.at_.pa with
  | some .reg | some (.cim _ _) | some (.side _ _) => s
  | none => if d.core < 128 then reportCmd s d.core .page 5 d.va d.baddr 6 else s
  | _ =>
    let add := fun v => (v + d.inc.toNat) % 2 ^ 64
    (if d.core = 128 then updateQuiet s d.at_ 8 add else updateAt s d.at_ 8 add).s

def evCounterUpdate (k : Nat) (s : State) : Option State :=
  match s.counters[k]? with
  | some d =>
    -- a unit's counter rises after the status word written before it (21 R366)
    if placeWaits s d.at_.pa true ∨ (d.core = 128 ∧ (s.counters.take k).any (·.put)) then none
    else some (addCounter { s with counters := s.counters.eraseIdx k } d)
  | none => none

/-- COUNTER_UPDATE (log 99). -/
def execCounterUpdate (k : Nat) (s : State) : Res State := happens s (evCounterUpdate k s)

/-! ## Bytes land (R72, R219 to R225) -/

/-- A copy stops at a failing sector: FAULT, and PAGE as a deferred command fault (R225). -/
def stopCopy (s : State) (c k : Nat) (m : Cmd) (cause : Cause) (sub addr : Nat) : State :=
  setCp (reportCmd s c cause sub addr m.baddr 6) c k
    { m with stopped := true, buf := [], dests := [], status := m.status ||| 64#64 }

/-- The rise of the channel's write pointer when byte `t` and `n` bytes after it have landed: a gathered row counts whole (R223). -/
def wpRise (m : Cmd) (t n : Nat) : Nat := match m.instr with
  | .cpyc _ =>
    let g := convOf (blkOf m)
    ((t + n) / g.rowBytes - t / g.rowBytes) * g.pitch
  | _ => n

/-- The counter of a store-direction copy that its last read makes due (02 R70); at a host-owned page it waits for the copy's end. -/
def released (s : State) (m : Cmd) : State × Cmd :=
  if isStoreCopy m && decide (m.rprog = copyTotal m) && decide (m.flags = 0) && (heldCounter s m [blkN (blkOf m) 0 8]).isNone
      && !countersWait s m [blkN (blkOf m) 0 8] then
    let (s, bad) := dueCounter s m (blkN (blkOf m) 0 8) (blkN (blkOf m) 8 8) 6
    (s, { m with flags := 1, status := if bad then m.status ||| 64#64 else m.status })
  else (s, m)

/-- The engine reads its next source sector ahead of landing it. -/
def readAhead (s : State) (c k : Nat) (m : Cmd) : Option State :=
  if copyTotal m ≤ readPos m then none
  else match readChunk s m (readPos m) with
    | .got t l =>
      let (t, m) := released t (buffered s m l)
      some (setCp t c k m)
    | .failed t .migrate _ a => askHost t m.ctx a
    | _ => none

/-- Some of the bytes that land are pads of a gather. -/
def padded (m : Cmd) (n : Nat) : Bool := match m.instr with
  | .cpyc _ => (List.range n).any fun i => (srcAt m (m.prog + i)).isNone
  | _ => false

/-- The command with its first `n` buffered bytes landed: the translations of the rest are kept. -/
def drained (m : Cmd) (n : Nat) : Cmd :=
  let r := { m with prog := m.prog + n, buf := m.buf.drop n }
  { r with dests := m.dests.filter fun d => (List.range r.buf.length).any fun i => decide (dstAt m (r.prog + i) / 32 = d.1) }

/-- The first `n` bytes of the buffer land. -/
def putChunk (s : State) (c k : Nat) (m : Cmd) (n : Nat) : Option State :=
  match writeChunk s m n with
  | .error none => none
  | .error (some (cause, sub, a)) => some (stopCopy s c k m cause sub a)
  | .ok (s, refused) =>
    let st := m.status ||| (if (m.buf.take n).any (·.2) then 2#64 else 0) ||| (if refused then 4#64 else 0) ||| (if padded m n then 8#64 else 0)
    let ch := (chanOf m).getD 0
    let s := s.modCore c fun x =>
      { x with wp := tset (fun _ => 0) x.wp ch (tget (fun _ => 0) x.wp ch + BitVec.ofNat 64 (wpRise m m.prog n)) }
    let (s, m) := released s { drained m n with status := st, started := true }
    some (setCp s c k m)

/-- The next destination sector lands, its source sectors read first where they are not yet; before a source that fails, the bytes already
read land (R225). -/
def landChunk (s : State) (c k : Nat) (m : Cmd) : Option State :=
  if copyTotal m ≤ m.prog then none
  else if isStoreCopy m && destWaits s m (dstAt m m.prog) then none
  else match (if isStoreCopy m then destRes s m (dstAt m m.prog) else .ok (.plain 0)) with
  | .fail .migrate _ => askHost (globLeft s m true (dstAt m m.prog)) m.ctx (dstAt m m.prog)
  | .fail cause sub =>
    some (stopCopy (if (destKept m (dstAt m m.prog)).isSome then s else globLeft s m true (dstAt m m.prog)) c k m cause sub (dstAt m m.prog))
  | .ok _ => match fillBuf (dstLen m m.prog) 32 s m with
    | .waits => none
    | .failed t _ .migrate _ a => askHost t m.ctx a
    | .failed t m cause sub a => if m.buf = [] then some (stopCopy t c k m cause sub a) else putChunk t c k m m.buf.length
    | .got t m => putChunk t c k m (dstLen m m.prog)

/-- A copy that may go on: to deliver, where it is its turn on its channel (02 R72); the reads of its source wait for no other copy (R67). -/
def copyAt (s : State) (c k : Nat) (rd : Bool) : Option Cmd :=
  match (s.core c).cpQ[k]? with
  | some m => if (chanOf m).isSome && cmdReady m && !m.stopped && (rd || !chanBlocked (s.core c) k m) then some m else none
  | none => none

/-- The next bytes of a copy land in its traversal order; with `rd`, are read ahead. A block read late is checked first. -/
def evCopyBytesLand (c k : Nat) (rd : Bool) (s : State) : Option State :=
  match copyAt s c k rd with
  | none => none
  | some m =>
    match (if m.started then none else lateBlock s m) with
    | some (cause, sub, a) => some (refuseLate s c k m cause sub a)
    | none => match (if rd then readAhead s c k m else landChunk s c k m) with
      | some t => some t
      | none => none

/-- COPY_BYTES_LAND (log 99). -/
def execCopyBytesLand (c k : Nat) (rd : Bool) (s : State) : Res State := happens s (evCopyBytesLand c k rd s)

/-! ## A copy's end (R224) -/

/-- Rows past the batch among those begun. -/
def overrun (m : Cmd) : Nat :=
  let g := convOf (blkOf m)
  let rows := (m.prog + g.rowBytes - 1) / max 1 g.rowBytes
  let first := g.nb * (g.oh * g.ow)
  g.q0 + rows - max g.q0 (min first (g.q0 + rows))

/-- The counters of a copy that has delivered everything. -/
def copyCounters (s : State) (m : Cmd) : State × Bool :=
  let b := blkOf m
  if b = [] ∨ m.stopped then (s, false)
  else if isStoreCopy m then
    let r := if m.flags = 0 then dueCounter s m (blkN b 0 8) (blkN b 8 8) 6 else (s, false)
    let v := dueCounter r.1 m (blkN b 16 8) (blkN b 24 8) 6
    (v.1, r.2 || v.2)
  else dueCounter s m (blkN b 0 8) (blkN b 8 8) 6

/-- Write a status word into the block at local s[C]. -/
def putStatus (s : State) (m : Cmd) (w : Nat) : State :=
  if blkOf m = [] then s else (storeAt s (localPhys s m (m.c.toNat + 56)) 8 w).1

/-- The status word of a copy (R224). -/
def copyStatus (m : Cmd) (bad : Bool) : Nat :=
  let w := (m.status ||| 1#64 ||| (if bad then 64#64 else 0)).toNat % 2 ^ 32
  let n := match m.instr with
    | .cpyc _ => overrun m
    | _ => if w / 64 % 2 = 1 then m.prog else 0
  w + min n (2 ^ 32 - 1) * 2 ^ 32

/-- The counters that become due at the end of a copy. -/
def copyCtrs (m : Cmd) : List Nat :=
  let b := blkOf m
  if b = [] ∨ m.stopped then []
  else if isStoreCopy m then (if m.flags = 0 then [blkN b 0 8] else []) ++ [blkN b 16 8]
  else [blkN b 0 8]

/-- A copy completes: its counters become due, its status is written; its token follows. -/
def completeCopy (s : State) (m : Cmd) : State :=
  let (s, bad) := copyCounters s m
  putStatus s m (copyStatus m bad)

end Sys2Proof.Machine
end

