-- ==== Sys2Proof/Machine/Bank.lean ====
section
/-! DEFINITION. The bank commands (spec/08 R229 to R235, spec/16 R295): their issue, the opening of rows, and their effects on the bank
units and rows, with check bits and stale rows (spec/22 R377, R378, R380). -/

namespace Sys2Proof.Machine
open Sys2Proof

/-! ## At issue -/

def effBk (i : Instr) (m : BkOp) (s : State) : State :=
  sendCp s (newCmd s s.cur i m.e (cpIn s 0 m.a) (cpIn s 1 m.b) (cpIn s 2 m.c) 0 0 none)

def execBkmac (f : BkOp) (s : State) : Res State := runSlot (.bkmac f) (effBk (.bkmac f) f) s
def execBkkey (f : BkOp) (s : State) : Res State := runSlot (.bkkey f) (effBk (.bkkey f) f) s
def execBkcmp (f : BkOp) (s : State) : Res State := runSlot (.bkcmp f) (effBk (.bkcmp f) f) s
def execBkwr (f : BkOp) (s : State) : Res State := runSlot (.bkwr f) (effBk (.bkwr f) f) s
def execBktt (f : BkOp) (s : State) : Res State := runSlot (.bktt f) (effBk (.bktt f) f) s
def execBkrd (f : BkOp) (s : State) : Res State := runSlot (.bkrd f) (effBk (.bkrd f) f) s

/-! ## Kinds and places -/

def isBank (m : Cmd) : Bool := match m.instr with
  | .bkmac _ | .bkkey _ | .bkcmp _ | .bkwr _ | .bktt _ | .bkrd _ => true
  | _ => false

/-- It opens its rows (R232). -/
def opensRow (m : Cmd) : Bool := match m.instr with
  | .bkmac _ | .bkcmp _ | .bkwr _ | .bktt _ => true
  | _ => false

/-- It may write its rows. -/
def writesRow (m : Cmd) : Bool := match m.instr with
  | .bkwr _ | .bktt _ => true
  | _ => false

/-- What a bank command needs of its page (20 R351): RD and WR for BKCMP, BKWR and BKTT, NB for all. BKMAC's read of its rows asks for NB alone:
R351's line for engine reads, which asks for RD, is not taken to speak of it (DESIGN CHOICE, log 98). -/
def bankNeed (m : Cmd) : Need := match m.instr with
  | .bkcmp _ | .bkwr _ | .bktt _ => ⟨true, true, true⟩
  | _ => ⟨false, false, true⟩

/-- Where the command's rows stand: a near-bank page lies in HBM4E, for a grotto core in its own stack (R229). -/
def bankPlace (s : State) (m : Cmd) : Xres :=
  match translate s m.ctx m.a.toNat (bankNeed m) (if isGrotto m.core then some ((m.core - 64) / 8) else none) with
  | .ok x => if homeOf s x.pa = some .hbm then .ok x else .fail .page 8
  | r => r

/-- The banks selected, in order. -/
def bankSel (m : Cmd) : List Nat := (List.range 16).filter fun i => m.b.getLsbD i

/-- Address of the row of bank `i`. -/
def rowBase (x : Phys) (i : Nat) : Nat := x.pa + 1024 * i

/-- Two commands meet in some bank unit: the same pseudo-channel and a common bank. -/
def sameUnit (s : State) (x y : Phys) (m e : Cmd) : Bool :=
  decide (bankNum (hbmLoc s x.pa) / 16 = bankNum (hbmLoc s y.pa) / 16) && decide (m.b &&& e.b ≠ 0)

/-- An earlier bank command of the core on one of the units has not completed, or another core's has rows open there: one at a time
(R231). -/
def bankBlocked (s : State) (c k : Nat) (m : Cmd) (x : Phys) : Bool :=
  ((s.core c).cpQ.take k).any (fun e => isBank e && !e.stopped && (match bankPlace s e with
      | .ok y => sameUnit s x y m e
      | .fail .migrate _ => decide (m.b &&& e.b ≠ 0)
      | .fail _ _ => false))
  || (List.range 128).any fun d => decide (d ≠ c) && (s.core d).cpQ.any fun e => match e.place with
      | some y => sameUnit s x y m e
      | none => false

/-! ## Bank units (R231) -/

/-- A unit as a context sees it: zero where another context wrote it last. -/
def unitFor (s : State) (n ctx : Nat) : BankUnit :=
  let u := tget (fun _ => BankUnit.reset) s.banks n
  if u.ctx = some ctx then u else { BankUnit.reset with ctx := some ctx }

def setUnit (s : State) (n : Nat) (u : BankUnit) : State := { s with banks := tset (fun _ => BankUnit.reset) s.banks n u }

/-! ## Activations (22 R377) -/

/-- Add 1 to the half of a register from bit `lo`, saturating. -/
def satCount (s : State) (a lo : Nat) : State :=
  let w := (s.reg a).toNat
  if bitsAt w lo 32 = 2 ^ 32 - 1 then s else s.setReg a (BitVec.ofNat 64 (w + 2 ^ lo))

/-- A refresh-management command to a bank. -/
def refreshManage (s : State) (n : Nat) : State :=
  satCount { s with acnt := tset (fun _ => 0) s.acnt n 0 } (mcReg (n / 1024) 48) 32

/-- One activate of a bank, behind the refresh management it may need. -/
def activate (s : State) (n : Nat) : State :=
  let s := if actFull s n then refreshManage s n else s
  { s with acnt := tset (fun _ => 0) s.acnt n (tget (fun _ => 0) s.acnt n + 1) }

/-! ## Opening rows (R231, R378, R380; R295) -/

/-- Rows on a bank's stale-row list. -/
def staleCount (s : State) (n : Nat) : Nat := (s.stale.filter fun e => decide (e.1 = n)).length

/-- A selected bank whose row the command would add to a full list. -/
def listFull (s : State) (m : Cmd) (x : Phys) : Bool :=
  writesRow m && (bankSel m).any fun i =>
    let l := hbmLoc s (rowBase x i)
    decide ((unitFor s (bankNum l) m.ctx).tag ≠ 0) && !rowStale s l && decide (64 ≤ staleCount s (bankNum l))

/-- A refusal by its page: status, deferred fault, and nothing more but the completion (R229, R235). -/
def refuseBank (s : State) (c k : Nat) (m : Cmd) (cause : Cause) (sub : Nat) : State :=
  let st : Nat := match cause with
    | .nbProt => m.b.toNat % 65536 * 2 ^ 24
    | _ => 4
  setCp (reportCmd s c cause sub m.a.toNat m.baddr 6) c k
    { m with started := true, stopped := true, status := m.status ||| BitVec.ofNat 64 st }

/-- What the command copies from its scratchpad when it opens its rows: BKMAC's vector, BKTT's table; and whether some of it is
poisoned. -/
def bankInput (s : State) (m : Cmd) : Load :=
  let b := bankOf (blkOf m)
  match m.instr with
  | .bkmac _ => loadRun s (localPhys s m b.vec) 1024
  | .bktt _ => loadRun s (localPhys s m b.tt) (16 * b.ntt)
  | _ => ⟨s, 0, false, false⟩

/-- The rows open: the input is copied, one activate counted in each selected bank, in ascending order. -/
def openRows (s : State) (c k : Nat) (m : Cmd) (x : Phys) : State :=
  let l := bankInput s m
  let s := (bankSel m).foldl (fun s i => activate s (bankNum (hbmLoc s (rowBase x i)))) l.s
  setCp s c k { m with started := true, place := some x, vec := BitVec.ofNat 32768 l.v,
                       status := m.status ||| (if l.poison then 2#64 else 0) }

/-- A bank command that is ready and has not opened its rows. -/
def bankAt (s : State) (c k : Nat) : Option Cmd :=
  match (s.core c).cpQ[k]? with
  | some m => if isBank m && cmdReady m && !m.started then some m else none
  | none => none

def evBankRowOpen (c k : Nat) (s : State) : Option State :=
  match bankAt s c k with
  | none => none
  | some m =>
    if opensRow m = false then none
    else match lateBlock s m with
      | some (cause, sub, a) => some (refuseLate s c k m cause sub a)
      | none => if xlatWaits s m.ctx m.a.toNat then none else match bankPlace s m with
        | .fail .migrate _ => askHost (walkLeft s m.ctx m.a.toNat) m.ctx m.a.toNat
        | .fail cause sub => some (refuseBank (walkLeft s m.ctx m.a.toNat) c k m cause sub)
        | .ok x =>
          if bankBlocked s c k m x || stackBusy s x.pa then none
          else if listFull s m x then
            -- the stall counts once (R380)
            (if m.flags = 0 then some (setCp (satCount s (mcReg (hbmLoc s x.pa).stack 64) 32) c k { m with flags := 1 })
             else none)
          else some (openRows (walkLeft s m.ctx m.a.toNat) c k m x)

/-- BANK_ROW_OPEN (log 99). -/
def execBankRowOpen (c k : Nat) (s : State) : Res State := happens s (evBankRowOpen c k s)

/-! ## Reading and writing a row (R235, R380) -/

/-- What a bank unit reads: state after corrections, the row's 256 words as a number, and whether an error was uncorrectable. -/
structure RowRead where
  s : State
  v : Nat
  bad : Bool
  deriving DecidableEq, Repr

/-- An uncorrectable error of a bank unit's read, logged at the failing sector (R235; 23 R387). -/
def rowError (r : RowRead) (p : Nat) : RowRead :=
  let l := hbmLoc r.s p
  { r with s := logError r.s l.stack 2 3 (hbmLocWord l), bad := true }

/-- Read the row at `a`: a listed row as written, any other with its single errors corrected and logged. A poisoned sector is
uncorrectable. Each failing sector has a record of its own (log 50). -/
def readRow (s : State) (a : Nat) : RowRead :=
  let l := hbmLoc s a
  let listed := rowStale s l
  (List.range 32).foldl (fun (r : RowRead) i =>
    let p := rowSector a i
    let f := flipsAt r.s p
    let w := memGetN r.s.mem p 32
    let at_ := 2 ^ (256 * i)
    if isPoison r.s p then rowError r p
    else if f = 0 then { r with v := r.v + w * at_ }
    else if listed then { r with v := r.v + (w ^^^ f.toNat) * at_ }
    else if popCount 256 f.toNat = 1 then
      { r with s := logError (setFlips r.s p 0) l.stack 1 3 (hbmLocWord (hbmLoc s p)), v := r.v + w * at_ }
    else rowError r p) ⟨s, 0, false⟩

/-- Word `w` of a row. -/
def bankWord (v w : Nat) : BitVec 32 := BitVec.ofNat 32 (bitsAt v (32 * w) 32)

/-- Write a whole row: its check bits go stale, it enters its bank's list, and no integrity tag stands with it (R380, R382, R295). -/
def writeRow (s : State) (a v : Nat) : State :=
  let l := hbmLoc s a
  let s := { s with mem := memSetN s.mem (a / 1024 * 1024) 1024 v, tags := s.tags.filter fun p => decide (p.1 / 32 ≠ a / 1024) }
  let s := (List.range 32).foldl (fun s i => setFlips s (rowSector a i) 0) s
  if rowStale s l then s else { s with stale := s.stale ++ [(bankNum l, l.row)] }

/-- The rows' words after a function of word number and word. -/
def mapRow (v : Nat) (g : Nat → BitVec 32 → BitVec 32) : Nat := packW 32 (fun w => (g w (bankWord v w)).toNat) 256

/-! ## Effects (R232 to R234) -/

/-- BKTT on one word: the lowest matching entry (R233). -/
def ttWord (table : Nat) (n : Nat) (w : BitVec 32) : BitVec 32 :=
  let fld32 := fun (e j : Nat) => BitVec.ofNat 32 (bitsAt table (128 * e + 32 * j) 32)
  match (List.range n).find? fun e => decide ((w ^^^ fld32 e 0) &&& fld32 e 1 = 0) with
  | some e => (w &&& ~~~(fld32 e 3)) ||| (fld32 e 2 &&& fld32 e 3)
  | none => w

/-- BKMAC's dot product (R234): the int32 or fp32 code. -/
def bankDot (ef row vec : Nat) : Nat :=
  if ef = 0x04 then
    wrapNat 32 (((List.range 1024).map fun k => signedOf 8 (bitsAt row (8 * k) 8) * signedOf 8 (bitsAt vec (8 * k) 8)).foldl (· + ·) 0)
  else
    let w := if ef = 0x01 then 16 else 32
    (List.range (8192 / w)).foldl (fun acc k =>
      (convert (vAdd (decodeFmt 0 acc) (vMul (decodeFmt ef (bitsAt row (w * k) w)) (decodeFmt ef (bitsAt vec (w * k) w))).1).1 0 .rne).1) 0

/-- Write slot `i` of OUT: a value, or a poisoned granule. -/
def putSlot (s : State) (m : Cmd) (i : Nat) (v : Option Nat) : State :=
  let x := localPhys s m ((bankOf (blkOf m)).out + 32 * i)
  match v with
  | some n => (storeAt s x 32 n).1
  | none => (poisonAt s x 32).1

/-- The tag bits that words of a row give, under a condition. -/
def tagBits (p : Nat → Bool) : BitVec 256 := BitVec.ofNat 256 (packW 1 (fun w => if p w then 1 else 0) 256)

/-- The sectors of a row that hold a tagged word, poisoned: BKTT under a poisoned table (02 R74). -/
def poisonTagged (s : State) (a : Nat) (tag : BitVec 256) : State :=
  (List.range 32).foldl (fun s i => if bitsAt tag.toNat (8 * i) 8 = 0 then s else setPoison s (rowSector a i)) s

/-- The effect on bank `i` of a command whose rows are at `x`; its status bits are gathered. A BKMAC whose vector is poisoned sets the ERRMASK
bit of a bank whose row has failed too (log 103). -/
def bankOne (s : State) (m : Cmd) (x : Phys) (i : Nat) : State × Nat :=
  let b := bankOf (blkOf m)
  let a := rowBase x i
  let n := bankNum (hbmLoc s a)
  let u := unitFor s n m.ctx
  let err := 2 ^ (8 + i)
  match m.instr with
  | .bkkey _ => (setUnit s n { u with key := b.key, mask := b.mask }, 0)
  | .bkrd _ =>
    let v := match b.mode with
      | 0 => u.tag.toNat
      | 1 => popCount 256 u.tag.toNat
      | _ => u.key.toNat + u.mask.toNat * 2 ^ 32
    (putSlot s m i (some v), 0)
  | _ =>
    -- a write with nothing tagged reads nothing: its row closes unchanged (16 R295)
    if writesRow m && decide (u.tag = 0) then (s, 0)
    else
    let r := readRow s a
    let s := r.s
    let vecBad := m.status.getLsbD 1
    match m.instr with
    | .bkmac _ =>
      if r.bad || vecBad then (putSlot s m i none, (if r.bad then err else 0) + 2 )
      else (putSlot s m i (some (bankDot b.ef r.v m.vec.toNat)), 0)
    | .bkcmp _ =>
      if r.bad then (setUnit s n { u with tag := 0 }, err)
      else
        let cmp := tagBits fun w => decide ((bankWord r.v w ^^^ u.key) &&& u.mask = 0)
        let tag := match b.mode with
          | 0 => cmp
          | 1 => u.tag &&& cmp
          | 2 => u.tag ||| cmp
          | _ => u.tag &&& ~~~cmp
        (setUnit s n { u with tag := tag }, 0)
    | .bkwr _ =>
      if r.bad then (s, err)
      else (writeRow s a (mapRow r.v fun w o => if u.tag.getLsbD w then (o &&& ~~~u.mask) ||| (u.key &&& u.mask) else o), 0)
    | .bktt _ =>
      if r.bad then (s, err)
      else
        let s := writeRow s a (mapRow r.v fun w o => if u.tag.getLsbD w then ttWord m.vec.toNat b.ntt o else o)
        (if vecBad then poisonTagged s a u.tag else s, 0)
    | _ => (s, 0)

/-- Every selected bank, in ascending order. -/
def bankAll (s : State) (m : Cmd) (x : Phys) : State × Nat :=
  (bankSel m).foldl (fun (p : State × Nat) i =>
    let r := bankOne p.1 m x i
    (r.1, p.2 ||| r.2)) (s, 0)

/-- The counter that becomes due at the end of a bank command. -/
def bankCtrs (m : Cmd) : List Nat := if blkOf m = [] ∨ m.stopped then [] else [(bankOf (blkOf m)).ctr]

/-- A bank command's effects, counter and status (R230, R235): a refused one writes its status alone. -/
def completeBank (s : State) (m : Cmd) (x : Option Phys) : State :=
  if blkOf m = [] then s
  else match x with
    | none => putStatus s m ((m.status.toNat ||| 1) % 2 ^ 40)
    | some y =>
      let b := bankOf (blkOf m)
      let (s, bad) := dueCounter s m b.ctr b.inc 6
      let (s, st) := bankAll s m y
      putStatus s m ((m.status.toNat ||| st ||| 1 ||| (if bad then 4 else 0)) % 2 ^ 40)

end Sys2Proof.Machine
end

