-- ==== Sys2Proof/Machine/Link.lean ====
section
/-! DEFINITION. Link transfers (spec/08 R226 to R228, spec/03 R101) and the frame counter (spec/21 R370 to R372). What the far end sends is
data of the events (log 13). -/

namespace Sys2Proof.Machine
open Sys2Proof

/-! ## Registers (21 R370) -/

def domctl : Nat := 0x0E0006040000
def frameReg : Nat := 0x0E0006040008
def lnkstat (l : Nat) : Nat := 0x0E0006040100 + l * 8

def domEn (s : State) : Bool := (s.reg domctl).getLsbD 7
def frameLen (s : State) : Nat := bitsAt (s.reg domctl).toNat 8 24
def frameNow (s : State) : Nat := (s.reg frameReg).toNat
def linkUp (s : State) (l : Nat) : Bool := decide (bitsAt (s.reg (lnkstat l)).toNat 0 2 = 2)

/-! ## A posted transfer -/

def isLink (m : Cmd) : Bool := match m.instr with
  | .lxfr _ => true
  | _ => false

/-- Direction of a role: 0 out, 1 in. -/
def linkDir (x : LinkBlk) : Nat := if x.role = 0 then 0 else 1

/-- Bytes on the wire (R226). -/
def wireBytes (x : LinkBlk) : Nat := bufBytes x.n x.efmt x.mx

/-- Frames a transfer occupies (21 R371). -/
def linkFrames (s : State) (x : LinkBlk) : Nat := (wireBytes x + 256 + 160 * frameLen s - 1) / (160 * frameLen s)

/-- The far end's N, EFMT and MX match. -/
def peerMatches (m : Cmd) (x : LinkBlk) : Bool :=
  match m.peer with
  | some (n, f) => decide (n = x.n) && decide (f = x.efmt + (if x.mx then 64 else 0))
  | none => false

/-- The transfer is late: LATE in the status, LATECNT, and LINK_LATE as a deferred command fault (R227, 21 R371, R372). -/
def failLink (s : State) (c k : Nat) (m : Cmd) : State :=
  let l := (linkOf (blkOf m)).link
  let w := s.reg (lnkstat l)
  let s := if bitsAt w.toNat 32 32 = 2 ^ 32 - 1 then s else s.setReg (lnkstat l) (w + BitVec.ofNat 64 (2 ^ 32))
  setCp (reportCmd s c .linkLate 0 0 m.baddr 6) c k { m with started := true, stopped := true, status := m.status ||| 32#64 }

/-- A transfer that is posted and not yet judged. -/
def linkPending (m : Cmd) : Bool := isLink m && cmdReady m && !m.stopped && decide (m.prog = 0)

/-- A command that may run no more: out of the domain, frames lost, or its stamp reached. -/
def linkDue (s : State) (m : Cmd) : Bool := !domEn s || s.frameLost || decide ((linkOf (blkOf m)).stamp ≤ frameNow s)

/-- Another command that was posted before names the same link, role and stamp (R227): of two that wait for their handshake the one issued
first, by `rprog` (log 13). -/
def linkTwin (s : State) (c k rank : Nat) (x : LinkBlk) : Bool :=
  (List.range 128).any fun d => (List.range (s.core d).cpQ.length).any fun j =>
    !(decide (d = c) && decide (j = k)) && (match (s.core d).cpQ[j]? with
      | some e =>
        let y := linkOf (blkOf e)
        linkPending e && (e.started || decide (e.rprog < rank)) && decide (y.link = x.link) && decide (y.role = x.role) && decide (y.stamp = x.stamp)
      | none => false)

/-- Command `k` of a core as an unjudged transfer whose block has been read. -/
def linkAt (s : State) (c k : Nat) : Option Cmd :=
  match (s.core c).cpQ[k]? with
  | some m => if linkPending m then some m else none
  | none => none

/-- The handshake of the two ends has crossed: the command is ready, or fails at once (R227, 21 R372). -/
def evLinkHandshakeCrossed (c k n fmt : Nat) (s : State) : Option State :=
  match linkAt s c k with
  | some m =>
    if m.started then none
    else match lateBlock s m with
      | some (cause, sub, a) => some (refuseLate s c k m cause sub a)
      | none =>
        let m := { m with started := true, peer := some (n, fmt) }
        some (if linkDue s m || linkTwin s c k m.rprog (linkOf (blkOf m)) then failLink s c k m else setCp s c k m)
  | none => none

/-- LINK_HANDSHAKE_CROSSED (log 99). -/
def execLinkHandshakeCrossed (c k n fmt : Nat) (s : State) : Res State := happens s (evLinkHandshakeCrossed c k n fmt s)

/-! ## Data (R101, R228) -/

/-- A list of bytes as a number. -/
def numOf (bs : List Byte) : Nat := ofBytes bs

/-- Element `i` of a buffer of `n`, as an fp32 value (R101). -/
def linkElem (buf n fmt : Nat) (mx : Bool) (i : Nat) : Val :=
  let w := fmtWidth fmt
  let v := decodeFmt fmt (bitsAt buf (w * i) w)
  let v := if mx then (vMul v (decodeFmt 0x0D (bitsAt buf (8 * ((n * w + 7) / 8 + i / 32)) 8))).1 else v
  decodeFmt 0 (convert v 0 .rne).1

/-- The fp32 sum of an element. -/
def linkSum (a b : Val) : Val := decodeFmt 0 (convert (vAdd a b).1 0 .rne).1

/-- Some element of an aligned block saturates. -/
def blockSat (fp4 : Bool) (r : Nat × List Nat × Flags) (xs : List Val) : Bool :=
  xs.any fun v => match v with
    | .fin n m e => decide (r.1 ≠ 0xFF) && (convert (.fin n m (e - ((r.1 : Int) - 127))) (mxElemFmt fp4) .rne).2.getLsbD 1
    | _ => false

/-- The result buffer of ROLE 2 and whether a conversion saturated (R228). -/
def linkResult (x : LinkBlk) (own incoming : Nat) : Nat × Bool :=
  let sum := fun i => linkSum (linkElem own x.n x.efmt x.mx i) (linkElem incoming x.n x.efmt x.mx i)
  if x.rq && x.rmx then
    let fp4 := decide (x.rfmt = 0x0C)
    let w := fmtWidth x.rfmt
    let bs := (List.range (x.n / 32)).map fun b =>
      let xs := (List.range 32).map fun i => sum (32 * b + i)
      (alignBlock fp4 xs, xs)
    let codes := packW (32 * w) (fun b => match bs[b]? with
      | some p => packW w (fun i => p.1.2.1.getD i 0) 32
      | none => 0) (x.n / 32)
    let scales := packW 8 (fun b => match bs[b]? with
      | some p => p.1.1
      | none => 0) (x.n / 32)
    (codes + scales * 2 ^ (8 * ((x.n * w + 7) / 8)), bs.any fun p => blockSat fp4 p.1 p.2)
  else
    let f := if x.rq then x.rfmt else 0
    let cs := fun i => convTo (sum i) f .rne
    (packW (fmtWidth f) (fun i => (cs i).1) x.n, (List.range x.n).any fun i => (cs i).2.getLsbD 1 && !fmtWide f)

/-- The bytes of a number, least significant first. -/
def bytesOf (v : Nat) : Nat → List Byte
  | 0 => []
  | n + 1 => BitVec.ofNat 8 v :: bytesOf (v / 256) n

/-- Read a buffer of `n` bytes: the state, the bytes as a number, and of each whether it is poisoned. -/
def readBuf (s : State) (x : Phys) (n : Nat) : State × Nat × List Bool :=
  (sectors x.pa (n / 32 + 2) n).foldl (fun q p =>
    let r := loadAt q.1 { x with pa := p.1 } p.2
    (r.s, q.2.1 + r.v * 2 ^ (8 * (p.1 - x.pa)), q.2.2 ++ List.replicate p.2 r.poison)) (s, 0, [])

/-- Write a buffer sector by sector, a sector that takes a poisoned byte as poisoned (02 R74). -/
def writeBuf (s : State) (x : Phys) (n v : Nat) (bad : Nat → Bool) : State :=
  (sectors x.pa (n / 32 + 2) n).foldl (fun s p =>
    let o := p.1 - x.pa
    let y := { x with pa := p.1 }
    if (List.range p.2).any fun i => bad (o + i) then (poisonAt s y p.2).1
    else (storeAt s y p.2 (v / 2 ^ (8 * o))).1) s

/-- An element of a buffer at s[A], or its scale, holds a poisoned byte. -/
def elemPoisoned (x : LinkBlk) (l : List Bool) (i : Nat) : Bool :=
  let w := fmtWidth x.efmt
  let at_ := fun j => (l[j]?).getD false
  (List.range (w / 8 + 2)).any (fun j => decide (w * i / 8 + j ≤ (w * i + w - 1) / 8) && at_ (w * i / 8 + j))
  || (x.mx && at_ ((x.n * w + 7) / 8 + i / 32))

/-- Byte `b` of a ROLE 2 result comes from a poisoned element; of a result in MX form, from a block that has one. -/
def resultPoisoned (x : LinkBlk) (l : List Bool) (b : Nat) : Bool :=
  let w := if x.rq then fmtWidth x.rfmt else 32
  let codes := (x.n * w + 7) / 8
  if x.rq && x.rmx then
    let blk := if b < codes then 8 * b / w / 32 else b - codes
    (List.range 32).any fun i => elemPoisoned x l (32 * blk + i)
  else (List.range (8 / w + 2)).any fun i => decide (8 * b / w + i ≤ (8 * b + 7) / w) && elemPoisoned x l (8 * b / w + i)

/-- The matched transfer runs (R226, R228); its direction is taken for its frames (21 R371). -/
def runLink (s : State) (c k : Nat) (m : Cmd) (data : List Byte) : State :=
  let x := linkOf (blkOf m)
  let len := wireBytes x
  let dir := x.link * 2 + linkDir x
  let s := { s with linkFree := tset (fun _ => 0) s.linkFree dir (x.stamp + linkFrames s x) }
  let own := if x.role = 1 then (s, 0, []) else readBuf s (localPhys s m m.a.toNat) len
  let done := fun (s : State) (st : Nat) =>
    setCp s c k { m with prog := 1, status := m.status ||| BitVec.ofNat 64 (st + if own.2.2.any id then 2 else 0) }
  match x.role with
  | 0 => done { own.1 with linkOut := own.1.linkOut ++ [(x.link, x.stamp, (bytesOf own.2.1 len).zip own.2.2)] } 0
  | 1 => done (storeRun s (localPhys s m m.a.toNat) len (numOf data)).1 0
  | _ =>
    let r := linkResult x own.2.1 (numOf data)
    done (writeBuf own.1 (localPhys s m m.b.toNat) (bufBytes x.n x.rfmt x.rmx) r.1 (resultPoisoned x own.2.2)) (if r.2 then 16 else 0)

/-- The boundary that begins frame STAMP judges the transfer (R227, 21 R371, R372): `ok` says that the far end is ready and its data whole,
`data` is what it sent. -/
def evLinkTransferStamp (c k : Nat) (ok : Bool) (data : List (BitVec 8)) (s : State) : Option State :=
  match linkAt s c k with
  | some m =>
    if linkDue s m = false then none
    else match (if m.started then none else lateBlock s m) with
      | some (cause, sub, a) => some (refuseLate s c k m cause sub a)
      | none =>
        let x := linkOf (blkOf m)
        if ok && domEn s && !s.frameLost && m.started && decide (x.stamp = frameNow s) && linkUp s x.link && peerMatches m x
            && decide (tget (fun _ => 0) s.linkFree (x.link * 2 + linkDir x) ≤ x.stamp)
            && (decide (x.role = 0) || decide (data.length = wireBytes x)) then
          some (runLink s c k m data)
        else some (failLink s c k m)
  | none => none

/-- LINK_TRANSFER_STAMP (log 99). -/
def execLinkTransferStamp (c k : Nat) (ok : Bool) (data : List (BitVec 8)) (s : State) : Res State := happens s (evLinkTransferStamp c k ok data s)

/-- The counter that becomes due at the end of a transfer. -/
def linkCtrs (m : Cmd) : List Nat := if blkOf m = [] ∨ m.stopped then [] else [(linkOf (blkOf m)).ctr]

/-- A transfer completes: its counter if it ran, and its status word. -/
def completeLink (s : State) (m : Cmd) : State :=
  if blkOf m = [] then s
  else
    let x := linkOf (blkOf m)
    let (s, bad) := if m.stopped then (s, false) else dueCounter s m x.ctr x.inc 6
    putStatus s m ((m.status ||| 1#64 ||| (if bad then 64#64 else 0)).toNat % 2 ^ 32)

/-! ## Frames and the domain (21 R370, R372) -/

/-- Every pending transfer of the module fails. -/
def failAllLinks (s : State) : State :=
  (List.range 128).foldl (fun s c => (List.range (s.core c).cpQ.length).foldl (fun s k => match linkAt s c k with
    | some m => failLink s c k m
    | none => s) s) s

/-- A transfer whose stamp has come has not been judged. -/
def linkUnjudged (s : State) : Bool :=
  (List.range 128).any fun c => (s.core c).cpQ.any fun m => linkPending m && decide ((linkOf (blkOf m)).stamp ≤ frameNow s)

/-- A frame boundary of the master: FRAME advances by one and never wraps (R370). -/
def evFrameBoundary (stamp : Nat) (s : State) : Option State :=
  if domEn s = true ∧ linkUnjudged s = false ∧ stamp = frameNow s + 1 ∧ stamp < 2 ^ 64 then
    some { s.setReg frameReg (BitVec.ofNat 64 stamp) with frameLost := false }
  else none

/-- FRAME_BOUNDARY (log 99). -/
def execFrameBoundary (stamp : Nat) (s : State) : Res State := happens s (evFrameBoundary stamp s)

/-- No boundary for 4 × FRAMELEN cycles: pending transfers fail, and those that become ready until one comes (R372). -/
def evFrameLossTimeout (s : State) : Option State :=
  if domEn s = true ∧ s.frameLost = false then some { failAllLinks s with frameLost := true }
  else none

/-- FRAME_LOSS_TIMEOUT (log 99). -/
def execFrameLossTimeout (s : State) : Res State := happens s (evFrameLossTimeout s)

/-- DOMCTL with EN going to 1: the other fields are written, and FRAME is 0 (R370). A FRAMELEN outside its range keeps its value (log 21). -/
def evDomainEnable (v : BitVec 64) (s : State) : Option State :=
  if regHidden s domctl then some s
  else if domEn s = false ∧ v.getLsbD 7 = true then
    let len := bitsAt v.toNat 8 24
    let len := if 1200 ≤ len ∧ len ≤ 1200000 then len else frameLen s
    some { (s.setReg domctl (BitVec.ofNat 64 (bitsAt v.toNat 0 8 + len * 256))).setReg frameReg 0 with
            linkFree := [], frameLost := false }
  else none

/-- DOMAIN_ENABLE (log 99). -/
def execDomainEnable (v : BitVec 64) (s : State) : Res State := happens s (evDomainEnable v s)

/-- DOMCTL with EN going to 0: FRAME holds, every pending transfer fails (R372). The other fields keep their values: EN was 1. -/
def evDomainDisable (v : BitVec 64) (s : State) : Option State :=
  if regHidden s domctl then some s
  else if domEn s = true ∧ v.getLsbD 7 = false then some (failAllLinks (s.setReg domctl (s.reg domctl &&& ~~~128#64)))
  else none

/-- DOMAIN_DISABLE (log 99). -/
def execDomainDisable (v : BitVec 64) (s : State) : Res State := happens s (evDomainDisable v s)

/-- LNKSTAT with STATE `st`: a link that is UP names what stands at its far end (R370). -/
def linkWord (s : State) (l st : Nat) : Nat :=
  let w := (s.reg (lnkstat l)).toNat
  match tget (fun _ => none) s.linkPeer l with
  | some (m, n) => if st = 2 then w / 2 ^ 12 * 2 ^ 12 + n % 16 * 2 ^ 8 + m % 64 * 4 + 2 else w / 4 * 4 + st
  | none => w / 4 * 4 + st

/-- The link trains up or goes down: its STATE changes (R370), and a link that goes down is logged in log 35 as CLASS 5 (23 R388). -/
def evLinkStateChange (l st : Nat) (s : State) : Option State :=
  if l < 12 ∧ st < 3 then
    let w := (s.reg (lnkstat l)).toNat
    let s := s.setReg (lnkstat l) (BitVec.ofNat 64 (linkWord s l st))
    some (if st = 0 ∧ w % 4 ≠ 0 then logError s 35 5 0 l else s)
  else none

/-- LINK_STATE_CHANGE (log 99). -/
def execLinkStateChange (l st : Nat) (s : State) : Res State := happens s (evLinkStateChange l st s)

end Sys2Proof.Machine
end

