-- ==== Sys2Proof/Machine/Engine.lean ====
section
/-! DEFINITION. The end of an engine command (spec/08 R208, R217, R224, R226, R230; spec/02 R68): its status and its token. -/

namespace Sys2Proof.Machine
open Sys2Proof

/-- MSTAT writes its word into the scratchpad (08 R217); the other commands that end here have nothing more to write. -/
def hearthEnd (s : State) (m : Cmd) : State :=
  match m.instr with
  | .mstat _ => (storeAt s (localPhys s m m.b.toNat) 8 m.status.toNat).1
  | _ => s

/-- The hearth commands that end here: those done at once when they take effect. -/
def endsAtEffect (m : Cmd) : Bool :=
  m.started && (match m.instr with
    | .mmode _ | .mclr _ | .mstat _ => true
    | _ => false)

/-- A hearth command ends. -/
def hearthComplete (s : State) (h k : Nat) : Option State :=
  match (s.hearth h).cmds[k]? with
  | some m => if endsAtEffect m then some (endCmd (hearthEnd s m) h k m) else none
  | none => none

/-- A command of the CP slot leaves its queue and its token is set. -/
def endCp (s : State) (c k : Nat) (m : Cmd) : State :=
  setTokOpt (s.modCore c fun x => { x with cpQ := x.cpQ.eraseIdx k }) c m.tp

/-- A command whose counters are due at its end ends, or holds at one on a host-owned page (R220). -/
def endHeld (s : State) (m : Cmd) (l : List Nat) (t : State) : Option State := match heldCounter s m l with
  | some va => askHost (walkLeft s m.ctx va) m.ctx va
  | none => if countersWait s m l then none else some t

/-- A bank command that opens no row acts and ends at once; a failing page ends it (R229, R232). -/
def bankPlain (s : State) (c k : Nat) (m : Cmd) : Option State :=
  match lateBlock s m with
  | some (cause, sub, a) => some (refuseLate s c k m cause sub a)
  | none => if xlatWaits s m.ctx m.a.toNat then none else match bankPlace s m with
    | .fail .migrate _ => askHost (walkLeft s m.ctx m.a.toNat) m.ctx m.a.toNat
    | .fail cause sub => some (refuseBank (walkLeft s m.ctx m.a.toNat) c k m cause sub)
    | .ok x =>
      if bankBlocked s c k m x then none
      else endHeld s m (bankCtrs m) (endCp (completeBank (walkLeft s m.ctx m.a.toNat) m (some x)) c k m)

/-- A command of the CP slot ends. -/
def cpComplete (s : State) (c k : Nat) : Option State :=
  match (s.core c).cpQ[k]? with
  | none => none
  | some m =>
    if cmdReady m = false then none
    else if isLink m then
      (if m.stopped || decide (m.prog = 1) then endHeld s m (linkCtrs m) (endCp (completeLink s m) c k m)
       else none)
    else if isBank m then
      (if m.stopped then some (endCp (completeBank s m none) c k m)
       else if m.started then endHeld s m (bankCtrs m) (endCp (completeBank s m m.place) c k m)
       else if opensRow m then none
       else bankPlain s c k m)
    else if m.stopped then some (endCp (completeCopy s m) c k m)
    else if (chanBlocked (s.core c) k m && decide (copyTotal m ≠ 0)) || decide (m.prog < copyTotal m) then none
    else match (if m.started then none else lateBlock s m) with
      | some (cause, sub, a) => some (refuseLate s c k m cause sub a)
      | none => endHeld s m (copyCtrs m) (endCp (completeCopy s m) c k m)

/-- With `mx`, command `k` of hearth `c`; else command `k` of core `c`'s CP queue. -/
def evEngineCommandComplete (mx : Bool) (c k : Nat) (s : State) : Option State :=
  if mx then hearthComplete s c k else cpComplete s c k

/-- ENGINE_COMMAND_COMPLETE (log 99). -/
def execEngineCommandComplete (mx : Bool) (c k : Nat) (s : State) : Res State := happens s (evEngineCommandComplete mx c k s)

end Sys2Proof.Machine
end

