-- ==== Sys2Proof/Machine/Fetch.lean ====
section
/-! DEFINITION. A core's turn: fetching a bundle (spec/05 R131, R148; spec/18 R310, R311), the order of its checks and stalls (spec/05
R132, R134; spec/01 R12; spec/20 R338), and what follows its issue (spec/06 R170 to R172). -/

namespace Sys2Proof.Machine
open Sys2Proof

/-! ## Instruction memory -/

/-- Bundles per half: 2,048, or 512 on a grotto core (R310). -/
def halfSize (c : Nat) : Nat := if isGrotto c then 512 else 2048

/-- The half that holds a segment. -/
def halfOfSeg (k : Core) (g : Nat) : Option Nat :=
  if k.imem.res0 = some g then some 0 else if k.imem.res1 = some g then some 1 else none

/-- The 512 bits of a half's bundle. -/
def codeAt (c : Nat) (k : Core) (half i : Nat) : BitVec 512 := tget (fun _ => 0) k.imem.code (half * halfSize c + i)

/-- The word of the bundle at `pc`, whose segment is resident or which lies in the splice area (10 R274). -/
def fetchTask (c : Nat) (k : Core) (pc : Nat) : BitVec 512 :=
  if 0 < k.imem.fused then tget (fun _ => 0) k.imem.splice pc
  else match segOf k pc with
    | some g => match halfOfSeg k g, k.imem.segtab[g]? with
      | some half, some e => codeAt c k half (pc - e.first)
      | _, _ => 0
    | none => 0

/-- The word that a core issues next. -/
def fetch (s : State) (c : Nat) (f : Bool) : BitVec 512 :=
  let k := s.core c
  if f then tget (fun _ => 0) s.fcode k.f.pc else fetchTask c k k.t.pc

/-- The segment at `pc` is resident. -/
def segResident (k : Core) (pc : Nat) : Bool :=
  decide (0 < k.imem.fused) || (match segOf k pc with
    | some g => (halfOfSeg k g).isSome
    | none => false)

/-- The bundle that issues when a queued copy starts (R311): the next one where its segment is resident, as at the end of a stall for it; else
the one that issued last (log 105). -/
def issuingAt (k : Core) : Nat := if ((segOf k k.t.pc).bind (halfOfSeg k)).isSome then k.t.pc else k.t.last

/-- The half that a copy writes: the one that does not hold the bundle at `pc` (R311). -/
def copyHalf (k : Core) (pc : Nat) : Nat :=
  match (segOf k pc).bind (halfOfSeg k) with
  | some 0 => 1
  | some _ => 0
  | none => match k.imem.res0 with
    | some _ => 1
    | none => 0

/-- SLOTCTL of a core (19 R329). -/
def slotCtl (c : Nat) : Nat := if isGrotto c then 0x0E0004006400 + (c - 64) * 8 else 0x0E0004006000 + c * 8

/-- The preload of a core's next record waits for the switch: it names the bank that the current task holds, or either task is wide (19 R328). -/
def recordDeferred (s : State) (c : Nat) : Bool :=
  let k := s.core c
  let w := (s.reg (slotAddr c + 72)).toNat
  k.bound && (k.ident.wide || decide (bitsAt w 22 1 = 1) || decide (k.ident.bank = bitsAt w 24 1))

/-- A preload of instruction memory for the core's next record has begun and is not complete: it takes the idle half (19 R330). -/
def preloading (s : State) (c : Nat) : Bool :=
  let a := slotAddr c + 64
  nextValid s c && !recordDeferred s c && (s.reg (a + 8)).getLsbD 25 && decide (bitsAt (s.reg (a + 8)).toNat 32 32 = 0)
    && decide (bitsAt (s.reg (slotCtl c)).toNat 3 2 = 0)

/-- A segment copy takes the half that holds the next record's preload, or that one in progress writes: the preload is abandoned, DROPPED
reads 1 and READY 0 (19 R331). -/
def dropPreload (s : State) (c h : Nat) : State :=
  if (s.core c).imem.pre = some h || preloading s c then
    (s.setReg (slotCtl c) ((s.reg (slotCtl c) ||| 16) &&& ~~~8#64)).modCore c fun k => { k with imem := { k.imem with pre := none } }
  else s

/-- Start the copy of segment `g` beside the bundle at `pc`: the target half holds nothing from this instant (R311). -/
def startCopy (s : State) (c g pc : Nat) : State :=
  let h := copyHalf (s.core c) pc
  dropPreload (s.modCore c fun k =>
    { k with imem := { k.imem with copy := some ⟨g, h, false⟩,
                                   res0 := if h = 0 then none else k.imem.res0, res1 := if h = 1 then none else k.imem.res1 } }) c h

/-- With no copy in progress, the first copy that a SEG bit asked for starts, whatever is resident, beside the bundle at `pc` (05 R132). -/
def startAsked (s : State) (c pc : Nat) : State :=
  let k := s.core c
  match k.imem.copy, k.imem.asked with
  | none, g :: rest =>
    startCopy (s.modCore c fun m =>
      { m with imem := { m.imem with asked := rest, failed := m.imem.failed.filter fun j => decide (j ≠ g) } }) c g pc
  | _, _ => s

/-! ## SEG at a transfer (R148, R311; 20 R340) -/

/-- SEG at a transfer: the bundle that transferred or issued last has executed whole. -/
def takeSeg (s : State) (c sub : Nat) : State :=
  let k := s.core c
  takeFault s c .seg sub (BitVec.ofNat 64 k.t.pc) k.t.last k.t.pc 255 255 0 false

/-! ## Waits before a bundle may issue -/

/-- A result of the last bundle or an earlier one has not landed (R132). -/
def drnWaits (x : SCtx) : Bool :=
  x.drn && (x.pend.any (fun p => !p.landed) || decide (x.arrivals ≠ []) || decide (x.lineQ ≠ [])
    || x.loadQ.any fun a => match a.kind with
      | .ldS _ _ | .ldV => true
      | _ => false)

/-- The cycles of GAP have not passed (R132). -/
def gapWaits (k : Core) (x : SCtx) (gap : Nat) : Bool := match x.lastIssue with
  | some p => decide (k.cyc < p + gap + 1)
  | none => false

/-- The wait that a BARAW left for this bundle (09 R256). -/
def bawaitHolds (s : State) (c : Nat) : Bool := match (s.core c).bawait with
  | some b => barrierWaits s c b
  | none => false

/-- Accesses released by a TRET 0 that have not performed (20 R341). -/
def holdWaits (k : Core) : Bool := k.t.lineQ.any (·.freed) || (match k.hold with
  | some n => (k.t.loadQ ++ k.t.storeQ).any fun a => decide (a.seq < n)
  | none => false)

/-! ## The plan of a turn -/

/-- What the core whose turn it is does. -/
inductive Plan where
  /-- The whole turn is this change. -/
  | done (s : State)
  /-- The core waits: something else of it may happen; otherwise the turn is this change. -/
  | wait (s : State)
  /-- A deferred report is taken. -/
  | report
  /-- The bundle issues. -/
  | issue (b : Bundle)
  deriving DecidableEq, Repr

/-- A cycle in which nothing of the core issues. -/
def idleCycle (s : State) (c : Nat) : State := tickCore { s with fresh := s.fresh + 1 } c

/-- A cycle stalled for a segment (18 R311). -/
def segCycle (s : State) (c : Nat) : State := idleCycle (s.modCore c fun k => { k with segstall := k.segstall + 1 }) c

/-- The slots of a kind A resume: those the completion mask shows incomplete (20 R341). -/
def resumeSlots (mask : Option Nat) (is : List Instr) : List Instr := match mask with
  | none => is
  | some m => is.filter fun i => match slotOf i with
    | some sl => decide (m / 2 ^ validBit sl % 2 = 0)
    | none => true

/-- The first slot, in the order of R134, whose bits fail a check: it decodes to nothing, fails a check of its own, or conflicts with a
slot before it (R135; a PROBE and a transfer, R148; two VPATSWs, 07 R203): of two slots in conflict the later one (log 23). `before` holds the instructions of the slots already passed. -/
def firstIllegal (x : EncCtx) (w : Nat) : List Slot → List Instr → Option Slot
  | [], _ => none
  | sl :: rest, before =>
    if w / 2 ^ (496 + validBit sl) % 2 = 0 then firstIllegal x w rest before
    else match decodeSlot sl (bitsAt w (slotLow sl) (slotWidth sl)) with
      | none => some sl
      | some i => if encOk x i && pairOk (before ++ [i]) then firstIllegal x w rest (before ++ [i]) else some sl

/-- The number of the slot a record names for a bundle whose bits are refused. -/
def illegalSlot (x : EncCtx) (w : Nat) : Nat := match firstIllegal x w slotOrder [] with
  | some sl => slotNum sl
  | none => 255

/-- The checks and waits of a fetched word, in their order. -/
def planWord (s : State) (c : Nat) (f : Bool) (w : BitVec 512) : Plan :=
  let k := s.core c
  let x := k.ctx f
  match decodeBundle w.toNat with
  | .error .header => .done (takeIllegal s c f 255)
  | .error (.slot _) => .done (takeIllegal s c f (illegalSlot (encCtx s c) w.toNat))
  | .ok b =>
    if !(b.instrs.all (encOk (encCtx s c)) && pairOk b.instrs) then .done (takeIllegal s c f (illegalSlot (encCtx s c) w.toNat))
    else if gapWaits k x b.gap || drnWaits x || (!f && bawaitHolds s c) then .wait (idleCycle s c)
    else
      let is := resumeSlots (if f then none else k.resume) b.instrs
      if bundleStalls s c f is then .wait (stallCycle s c f is)
      else if b.seg && !f && decide (k.imem.segtab.length ≤ b.nseg) && decide (k.imem.fused = 0) then
        .done (takeTrouble s c f 255 (.fault .seg 1 0))
      else match bundleTrouble s c f is with
        | some (n, t) => .done (takeTrouble (troubleLeft s c is n t) c f n t)
        | none => .issue { b with instrs := is }

/-- The budget of the gang has run out on this core (19 R332). -/
def budgetDue (k : Core) : Bool := k.bound && decide (k.ident.budget ≠ 0) && decide (k.ident.budget ≤ k.resident) && k.why.isNone

/-- The whole gang is pre-empted, and the firmware receives event 2 (R332). -/
def expireBudget (s : State) (c : Nat) : State :=
  let g := (s.core c).ident.gang
  postEvent (preempt s g .budget) 2 c (s.core c).ident.gridId (BitVec.ofNat 64 g)

/-- The plan of a task's turn: reports first (20 R338), then a capture, the program image and its segments, then the word. -/
def planTask (s : State) (c : Nat) : Plan :=
  let k := s.core c
  if k.finished then .wait (idleCycle s c)
  else if k.reports ≠ [] && k.why.isNone then (if eventHeldFor s c then .done (idleCycle s c) else .report)
  else if k.why.isSome || k.exited.isSome then .wait (idleCycle s c)
  else if holdWaits k then .wait (idleCycle s c)
  else if imageEnd k ≤ k.t.pc then .done (takeSeg s c 2)
  else if !(segResident k k.t.pc) then
    match segOf k k.t.pc with
    | none => .done (takeSeg s c 2)
    | some g =>
      if k.imem.failed.contains g then
        .done (takeSeg (s.modCore c fun k => { k with imem := { k.imem with failed := k.imem.failed.filter fun j => decide (j ≠ g) } }) c 3)
      else match k.imem.copy, k.imem.asked with
        | none, [] => .done (segCycle (startCopy s c g k.t.last) c)
        | _, _ => .wait (segCycle s c)
  else planWord s c false (fetchTask c k k.t.pc)

/-- The plan of the core whose turn it is: F's bundle where F has the cycle, else what its task does. A handler starts once its event is
posted (22 R386). -/
def plan (s : State) : Plan :=
  let c := s.cur
  if budgetDue (s.core c) then .done (expireBudget s c)
  else if (s.core c).fNow then planWord s c true (fetch s c true)
  else match (s.core c).run with
  | .run => planTask s c
  | .handler =>
    -- a capture waits for arrivals that wait behind a held access, which the handler must release (15 R293)
    if ((s.core c).why.isSome && decide ((s.core c).barQ = [])) || stopHeld s c then .wait (idleCycle s c)
    else planWord s c true (fetch s c true)
  | .idle => .wait (idleCycle s c)

/-! ## Cycles of the firmware context (01 R43; 19 R334) -/

/-- FSHARE of a core. -/
def fshare (s : State) (c : Nat) : Nat := (s.reg (0x0E0004008000 + c * 8)).toNat % 128

/-- Cycles F has taken in the core's window of 256 cycles. -/
def fTaken (k : Core) : Nat := if k.fWin = k.cyc / 256 then k.fUsed else 0

/-- The bound task issues: F keeps to its share. -/
def taskIssues (k : Core) : Bool := decide (k.run = .run) && k.why.isNone && !k.finished

/-- F asks for this turn of the core, outside its handlers, and may have it (log 91). -/
def fAsks (s : State) : Bool :=
  let k := s.core s.cur
  decide (k.fTurn.head? = some true) && !k.handling && !(budgetDue k) && (!(taskIssues k) || decide (fTaken k < fshare s s.cur))

/-- The core with this cycle given to F. -/
def giveF (k : Core) : Core := { k with fNow := true, fWin := k.cyc / 256, fUsed := fTaken k + 1 }

/-- A turn begins: F takes the cycle where it asks for it and its bundle does not wait; else it stays the task's. -/
def beginTurn (s : State) : State :=
  if fAsks s then
    let t := s.modCore s.cur giveF
    match plan t with
    | .wait _ => s
    | _ => t
  else s

/-! ## Issue -/

/-- The order in which a bundle's instructions act: each reads before another's write at issue (01 R11; log 11). MFSR reads first, every
other S instruction writes last; VPATSW follows the other vector slot, and an MX command enters its queue after every slot has read. -/
def actOrder (is : List Instr) : List Instr :=
  let sl := fun t => is.filter fun i => decide (slotOf i = some t)
  let mfsr := fun (i : Instr) => match i with
    | .mfsr _ => true
    | _ => false
  let v := sl .va ++ sl .vb
  (sl .s).filter mfsr ++ sl .ld ++ sl .st ++ sl .cp ++ sl .sy ++ v.filter (fun i => !isPatsw i) ++ v.filter isPatsw ++ sl .mx
    ++ (sl .s).filter fun i => !mfsr i

/-- The bundle's slots begin to act: the push counters of its issue are kept, and what held this bundle is over. -/
def beginIssue (s : State) : State :=
  let k := s.core s.cur
  let s := { s with issuing := some (k.vs.apc, (k.ctx k.inF).sapc) }
  if k.inF then s else s.modCore s.cur fun k => { k with resume := none, bawait := none, hold := none }

/-- KLOOP's pass boundary (06 R170; 01 R23, R24). -/
def passBoundary (k : Core) : Core :=
  let cont := decide (1 < k.lcount.toNat)
  let g := k.t.g
  let up := (g <<< 1) &&& 0xFE00#16
  let g := (g &&& 0x00FF#16) ||| up ||| (if cont then 0x0100#16 else 0)
  let live := (List.range (lstatNst k.lstat + 1)).any fun i => g.getLsbD (8 + i)
  let k := { k with lcount := if cont then k.lcount - 1 else 0, t := { k.t with g := g },
                    vs := { k.vs with rrb := if lstatRot k.lstat then k.vs.rrb + 1 else k.vs.rrb } }
  if live then { k with t := { k.t with pc := lstatStart k.lstat } } else endLoop k

/-- The last body bundle of a running loop has issued. -/
def atBoundary (k : Core) : Bool := lstatActive k.lstat && decide (k.t.pc = lstatStart k.lstat + lstatLen k.lstat + 1)

/-- The row of the table for it: enabled where the loop stands past its last body bundle. -/
def evKloopPassBoundary (c : Nat) (s : State) : Option State :=
  if atBoundary (s.core c) then some (s.modCore c passBoundary) else none

/-- KLOOP_PASS_BOUNDARY (log 99). -/
def execKloopPassBoundary (c : Nat) (s : State) : Res State := happens s (evKloopPassBoundary c s)

/-- The jump of the bundle, or the next address; a transfer out of a running body ends the loop (06 R172). -/
def advance (f : Bool) (k : Core) : Core :=
  let x := k.ctx f
  match x.jump with
  | some t =>
    let k := k.setCtx f { x with last := x.pc, pc := t, jump := none }
    if f then k else endLoop k
  | none => k.setCtx f { x with last := x.pc, pc := x.pc + 1 }

/-- What follows the slots of a bundle: the address, the pass boundary, the copy its SEG asks for, DRN, and the cycle (R132, R170). F's
TRET leaves the task's own address standing; a SEG mark in a bundle of F asks for nothing, and its NSEG is not checked (log 6). -/
def endIssue (f : Bool) (b : Bundle) (s : State) : State :=
  let s := { s with issuing := none, fresh := s.fresh + 1 }
  let s := s.modCore s.cur fun k =>
    let k := advance f k
    let k := if !f && atBoundary k then passBoundary k else k
    let k := k.setCtx f { k.ctx f with lastIssue := some k.cyc, drn := b.drn }
    let k := match k.imem.pexit with
      | some (a, code) => if decide (k.t.last = a) && !f then { k with pcode := some code } else k
      | none => k
    if b.seg && !f && decide (k.imem.fused = 0) then
        { k with imem := { k.imem with asked := k.imem.asked ++ [b.nseg] } } else k
  startAsked (tickCore s s.cur) s.cur (s.core s.cur).t.last

/-- The turn ends: it goes to the next core with something bound or with turns of F to come, in order of number. -/
def nextTurn (s : State) : State :=
  let c := s.cur
  let s := s.modCore c fun k => { k with fTurn := k.fTurn.drop 1, fNow := false }
  match (List.range 128).find? (fun i => let k := s.core ((c + 1 + i) % 128)
                                         k.bound || decide (k.fTurn ≠ [])) with
  | some i => { s with cur := (c + 1 + i) % 128 }
  | none => s

end Sys2Proof.Machine
end

