-- ==== Sys2Proof/Machine/CoreEvents.lean ====
section
/-! DEFINITION. Events of a core that belong to no queue: results landing (spec/01 R14 to R16), vector units (R13), faults taken (spec/20
R338, R343, R348), and segment copies (spec/18 R311). -/

namespace Sys2Proof.Machine
open Sys2Proof

/-! ## Results in flight (01 R13, R14, R31) -/

/-- Result `k` of a core, the task's first, then F's. -/
def pendAt (m : Core) (k : Nat) : Option (Bool × Nat × Pend) :=
  match m.t.pend[k]? with
  | some p => some (false, k, p)
  | none => match m.f.pend[k - m.t.pend.length]? with
    | some p => some (true, k - m.t.pend.length, p)
    | none => none

def isPattern (p : Pend) : Bool := match p.res with
  | .pat _ _ => true
  | _ => false

/-- A result lands before its bound: any cycle after its issue (R14). -/
def landNow (c : Nat) (f : Bool) (i : Nat) (p : Pend) (s : State) : State :=
  s.modCore c fun m =>
    let m := landResult f p m
    m.setCtx f { m.ctx f with pend := (m.ctx f).pend.set i { p with landed := true } }

def evResultLand (c k : Nat) (s : State) : Option State :=
  match pendAt (s.core c) k with
  | some (f, i, p) =>
    if p.landed = false ∧ p.issued < (s.core c).cyc ∧ isPattern p = false then some (landNow c f i p s)
    else none
  | none => none

/-- RESULT_LAND (log 99). -/
def execResultLand (c k : Nat) (s : State) : Res State := happens s (evResultLand c k s)

/-- An earlier pattern load to the entry of this one has not landed: a later one overwrites it, so it lands first (07 R202). -/
def patBehind (l : List Pend) (i : Nat) (p : Pend) : Bool := (l.take i).any fun q => !q.landed && (match q.res, p.res with
  | .pat m _, .pat n _ => decide (m = n)
  | _, _ => false)

/-- A pattern load reaches the inactive shuffle bank (07 R202). -/
def evVpatldComplete (c k : Nat) (s : State) : Option State :=
  match pendAt (s.core c) k with
  | some (f, i, p) =>
    if p.landed = false ∧ p.issued < (s.core c).cyc ∧ isPattern p = true ∧ patBehind ((s.core c).ctx f).pend i p = false then some (landNow c f i p s)
    else none
  | none => none

/-- VPATLD_COMPLETE (log 99). -/
def execVpatldComplete (c k : Nat) (s : State) : Res State := happens s (evVpatldComplete c k s)

/-- The cycle in which a unit frees has come (R13): what passed it is forgotten. -/
def evVectorUnitFree (c : Nat) (u : VUnit) (s : State) : Option State :=
  let k := s.core c
  match u with
  | .a => if k.vs.freeA ≠ 0 ∧ k.vs.freeA ≤ k.cyc then some (s.modCore c fun m => { m with vs := { m.vs with freeA := 0 } })
    else none
  | .b => if k.vs.freeB ≠ 0 ∧ k.vs.freeB ≤ k.cyc then some (s.modCore c fun m => { m with vs := { m.vs with freeB := 0 } })
    else none

/-- VECTOR_UNIT_FREE (log 99). -/
def execVectorUnitFree (c : Nat) (u : VUnit) (s : State) : Res State := happens s (evVectorUnitFree c u s)

/-! ## Faults taken -/

/-- A core at a bundle boundary takes its first report (20 R338), once no event of a transition before it is held (22 R386). -/
def evDeferredFaultTake (c : Nat) (s : State) : Option State :=
  let k := s.core c
  if k.run = .run ∧ k.reports ≠ [] ∧ k.why = none ∧ eventHeldFor s c = false then some (takeReport s c) else none

/-- DEFERRED_FAULT_TAKE (log 99). -/
def execDeferredFaultTake (c : Nat) (s : State) : Res State := happens s (evDeferredFaultTake c s)

/-- A core's register state (1), instruction memory (2) or scratchpad (3) fails beyond correction: HWERR at once, ahead of every report; the
other reports stay (R338, R348). -/
def evHwerrDetect (c sub : Nat) (s : State) : Option State :=
  let k := s.core c
  if k.bound = true ∧ 1 ≤ sub ∧ sub ≤ 3 then some (takeFault s c .hwerr sub 0 k.t.pc k.t.pc 0 255 0 false)
  else none

/-- HWERR_DETECT (log 99). -/
def execHwerrDetect (c sub : Nat) (s : State) : Res State := happens s (evHwerrDetect c sub s)

/-- A fault of F itself (R343), in a handler or beside a task. -/
def evFFault (c cause _sub : Nat) (addr : BitVec 64) (s : State) : Option State :=
  if c < 128 then some (faultF s c cause addr) else none

/-- F_FAULT (log 99). -/
def execFFault (c cause _sub : Nat) (addr : BitVec 64) (s : State) : Res State := happens s (evFFault c cause _sub addr s)

/-! ## Segment copies (05 R132; 18 R311) -/

/-- The background copy that a SEG bit asked for starts where no copy is in progress. -/
def evSegCopyStart (c : Nat) (s : State) : Option State :=
  match (s.core c).imem.copy, (s.core c).imem.asked with
  | none, _ :: _ => some (startAsked s c (issuingAt (s.core c)))
  | _, _ => none

/-- SEG_COPY_START (log 99). -/
def execSegCopyStart (c : Nat) (s : State) : Res State := happens s (evSegCopyStart c s)

/-- Read `n` bundles of an image from virtual address `va` on, through the context's translation; none where a read fails. -/
def readBundles (s : State) (ctx va : Nat) : Nat → Option (List (BitVec 512))
  | 0 => some []
  | n + 1 => match readBytes s ctx va 64 with
    | none => none
    | some b => match readBundles s ctx (va + 64) n with
      | some l => some (BitVec.ofNat 512 (blkN b 0 64) :: l)
      | none => none

/-- Put bundles into a half from index `i` on. -/
def putBundles (c : Nat) (h : Nat) (code : Tab (BitVec 512)) : Nat → List (BitVec 512) → Tab (BitVec 512)
  | _, [] => code
  | i, b :: rest => putBundles c h (tset (fun _ => 0) code (h * halfSize c + i) b) (i + 1) rest

/-- The copy in progress completes: the half holds the segment; or its image read failed translation, and the transfer that needs the
segment raises SEG. A copy that waits for this one starts (05 R132). -/
def evSegmentCopyComplete (c : Nat) (s : State) : Option State :=
  let k := s.core c
  match k.imem.copy with
  | none => none
  | some q => match k.imem.segtab[q.seg]? with
    | none => none
    | some e =>
      let va := k.ident.image + e.offset
      if bytesWait s k.ident.ctx va (64 * e.count) then none
      else
      let t := touchBytes s k.ident.ctx va (64 * e.count)
      let t := t.modCore c fun m => match readBundles s k.ident.ctx va e.count with
        | none => { m with imem := { m.imem with copy := none, failed := m.imem.failed ++ [q.seg] } }
        | some bs => { m with imem := { m.imem with copy := none, code := putBundles c q.half m.imem.code 0 bs,
                                                    res0 := if q.half = 0 then some q.seg else m.imem.res0,
                                                    res1 := if q.half = 1 then some q.seg else m.imem.res1 } }
      some (startAsked t c (issuingAt (t.core c)))

/-- SEGMENT_COPY_COMPLETE (log 99). -/
def execSegmentCopyComplete (c : Nat) (s : State) : Res State := happens s (evSegmentCopyComplete c s)

end Sys2Proof.Machine
end

