-- ==== Sys2Proof/Machine/Splice.lean ====
section
/-! DEFINITION. Splicing (spec/10 R269 to R281, R408; spec/18 R309; spec/20 R344): the splice header, the conditions of R272, the
renumbering of R276 and R277, and the fused program of R273. -/

namespace Sys2Proof.Machine
open Sys2Proof

/-! ## The splice header (18 R309) -/

/-- A hand-off record. -/
structure Handoff where
  num : Nat
  ring : Bool
  keep : Bool
  consumer : Bool
  stage : Nat
  live : Nat
  reg : Nat
  addr : Nat
  handle : Nat
  j : Nat
  logsz : Nat
  nm1 : Nat
  deriving DecidableEq, Repr

/-- The valid hand-off records of a header. -/
def handoffs (h : List Byte) : List Handoff :=
  (List.range 8).filterMap fun n =>
    let o := 144 + 14 * n
    let b0 := blkN h o 1
    let b1 := blkN h (o + 1) 1
    if b0 % 2 = 0 then none
    else some ⟨n, decide (b0 / 2 % 2 = 1), decide (b0 / 4 % 2 = 1), decide (b0 / 8 % 2 = 1), b1 % 8, b1 / 8 % 8, blkN h (o + 2) 2 % 512,
      blkN h (o + 4) 4, blkN h (o + 8) 1, blkN h (o + 9) 1, blkN h (o + 10) 1, blkN h (o + 11) 1⟩

/-- A record whose fields contradict its kind: a ring outside R262's ranges, or ring fields in a tile hand-off. -/
def Handoff.bad (x : Handoff) : Bool :=
  if x.ring then decide (15 < x.handle) || decide (x.logsz < 8) || decide (18 < x.logsz) || decide (x.nm1 = 0) || decide (15 < x.nm1)
    || decide (x.nm1 < x.j)
  else decide (x.j ≠ 0) || decide (x.logsz ≠ 0) || decide (x.nm1 ≠ 0)

/-- FLAGS bits: 0 restartable, 1 age-closed, 2 straight, 3 PROBE, 4 VPATSW, 5 THBASE. -/
def hdrFlag (h : List Byte) (i : Nat) : Bool := decide (blkN h 2 1 / 2 ^ i % 2 = 1)
def hdrNst (h : List Byte) : Nat := blkN h 3 1 % 8
def hdrRot (h : List Byte) : Bool := decide (blkN h 3 1 / 8 % 2 = 1)
def hdrKloop (h : List Byte) : Nat := blkN h 4 4
def hdrFirst (h : List Byte) : Nat := blkN h 8 4
def hdrLast (h : List Byte) : Nat := blkN h 12 4
/-- Data offset of the tile-handle table; none without one. -/
def hdrTab (h : List Byte) : Option Nat := if blkN h 17 3 = 0xFFFFFF then none else some (blkN h 17 3)
/-- Highest stage index the program names. -/
def hdrSphi (h : List Byte) : Nat := blkN h 59 1 / 16 % 8

/-- The masks of a header, by class. -/
structure Masks where
  v : Nat
  vo : Nat
  s : Nat
  g : Nat
  p : Nat
  tk : Nat
  ch : Nat
  mz : Nat
  cz : Nat
  ct : Nat
  sh : Nat
  th : Nat
  rot : Nat
  rings : Nat
  deriving DecidableEq, Repr

/-- s0, g0 and p0 have no bit. -/
def hdrMasks (h : List Byte) : Masks :=
  ⟨blkN h 32 4, blkN h 36 2, blkN h 48 8 / 2 * 2, blkN h 38 1 / 2 * 2, blkN h 56 2 / 2 * 2, blkN h 64 8, blkN h 39 1, blkN h 58 1 % 16,
    blkN h 58 1 / 16, blkN h 59 1 % 16, blkN h 72 8, blkN h 112 32, blkN h 40 8, blkN h 60 2⟩

/-- The members of a mask of `n` bits, ascending. -/
def members (mask n : Nat) : List Nat := (List.range n).filter fun i => decide (mask / 2 ^ i % 2 = 1)

/-- The KLOOP of a bundle. -/
def kloopOf (w : BitVec 512) : Option SK :=
  match decodeBundle w.toNat with
  | .ok b => b.instrs.findSome? fun i => match i with
    | .kloop f => some f
    | _ => none
  | .error _ => none

/-- A malformed header (R309); `kl` is the program's bundle at the header's KLOOP address, in whichever segment. -/
def headerBad (h : List Byte) (nargs : Nat) (kl : Option (BitVec 512)) : Bool :=
  let ts := blkN h 16 1
  let body := match kl.bind kloopOf with
    | some f => decide (hdrFirst h = hdrKloop h + 1) && decide (hdrLast h = hdrFirst h + f.len.toNat)
    | none => false
  decide (h.length ≠ 256) || decide (blkN h 0 2 ≠ 0xA5C1) || decide (64 ≤ blkN h 2 1) || decide (16 ≤ blkN h 3 1)
  || decide (128 ≤ blkN h 59 1) || decide (blkN h 62 2 ≠ 0)
  || (List.range 8).any (fun n => decide (blkN h (144 + 14 * n + 12) 2 ≠ 0) || decide (16 ≤ blkN h (144 + 14 * n) 1)
    || decide (64 ≤ blkN h (144 + 14 * n + 1) 1) || decide (512 ≤ blkN h (144 + 14 * n + 2) 2))
  || !body
  || !(decide (ts = 0) || (decide (0x40 + 24 ≤ ts) && decide (ts < 0x40 + 24 + nargs)))
  || (match hdrTab h with
    | some t => decide (t % 64 ≠ 0)
    | none => false)
  || (handoffs h).any Handoff.bad

/-! ## A program as the splice unit sees it -/

/-- One program of a pair: what dispatch read of its launch, and its segment 0 and tile table. -/
structure Prog where
  ctx : Nat
  gx : Nat
  gy : Nat
  gz : Nat
  ntask : Nat
  nstage : Nat
  flags : Nat
  nargs : Nat
  arg8 : Nat
  args : List Byte
  nseg : Nat
  header : List Byte
  /-- The bundle at the header's KLOOP address. -/
  kloop : Option (BitVec 512)
  code : List (BitVec 512)
  /-- The entries of its tile-handle table that hand-offs name: handle and 32 bytes. -/
  tiles : List (Nat × List Byte)
  deriving DecidableEq, Repr

/-- Launch argument `k` of an argument block (18 R301). -/
def argValue (arg8 : Nat) (args : List Byte) (k : Nat) : Nat := if arg8 / 2 ^ k % 2 = 1 then blkN args (8 * k) 8 else blkN args (8 * k) 4

/-- The trip count. -/
def Prog.trip (p : Prog) : Nat :=
  let ts := blkN p.header 16 1
  if ts = 0 then blkN p.header 20 4 else argValue p.arg8 p.args (ts - 0x40 - 24)

/-- Length of the body. -/
def bodyLen (h : List Byte) : Nat := hdrLast h + 1 - hdrFirst h

/-! ## Renumbering (R275 to R277) -/

/-- The new number of a marked member. -/
def newMark (l : List (Option Nat)) (i : Nat) : Option Nat := (l[i]?).join

/-- The new number of a member; an unmarked one keeps its own. -/
def newNum (l : List (Option Nat)) (i : Nat) : Nat := (newMark l i).getD i

/-- Give the marked members of a class the lowest members that the producer leaves, from `lo` on; none where there is no room. -/
def allocate (lo n pm cm : Nat) : Option (List (Option Nat)) :=
  let free := (members (2 ^ n - 1 - pm % 2 ^ n) n).filter fun i => decide (lo ≤ i)
  let want := members cm n
  if free.length < want.length then none
  else some ((List.range n).map fun i => (want.findIdx? (fun j => decide (j = i))).bind fun k => free[k]?)

/-- Turn a rotating name by `k` places. -/
def turnName (x k : Nat) : Nat := if x < 32 ∨ 96 ≤ x then x else 32 + (x - 32 + k) % 64

/-- The new code of a vector register, by its field: hand-off names first, then its class; rotating names turn by the section's shift. -/
def Renum.vname (r : Renum) (x : Nat) : Nat :=
  match r.hand.find? fun q => decide (q.1 = x) with
  | some q => q.2
  | none =>
    if x < 32 then newNum r.v x
    else if x < 96 then turnName x r.o
    else if 128 ≤ x ∧ x < 144 then 128 + newNum r.vo (x - 128)
    else x

def Renum.v9 (r : Renum) (f : BitVec 9) : BitVec 9 := BitVec.ofNat 9 (turnName (r.vname f.toNat) r.shift)
def Renum.s7 (r : Renum) (f : BitVec 7) : BitVec 7 := if f.toNat < 64 ∧ f ≠ 0 then BitVec.ofNat 7 (newNum r.s f.toNat) else f
def Renum.s9 (r : Renum) (f : BitVec 9) : BitVec 9 := if f.toNat < 64 ∧ f ≠ 0 then BitVec.ofNat 9 (newNum r.s f.toNat) else f
/-- g1 to g7 by their class, g8 and up by Δ (R275). -/
def Renum.g4 (r : Renum) (f : BitVec 4) : BitVec 4 :=
  if f = 0 then f else if f.toNat < 8 then BitVec.ofNat 4 (newNum r.g f.toNat) else BitVec.ofNat 4 (f.toNat + r.delta)
def Renum.p4 (r : Renum) (f : BitVec 4) : BitVec 4 := if f = 0 then f else BitVec.ofNat 4 (newNum r.p f.toNat)
def Renum.tk6 (r : Renum) (f : BitVec 6) : BitVec 6 := BitVec.ofNat 6 (newNum r.tk f.toNat)
def Renum.tk7 (r : Renum) (f : BitVec 7) : BitVec 7 := if 64 ≤ f.toNat then BitVec.ofNat 7 (64 + newNum r.tk (f.toNat - 64)) else f
def Renum.ch3 (r : Renum) (f : BitVec 3) : BitVec 3 := BitVec.ofNat 3 (newNum r.ch f.toNat)
def Renum.th8 (r : Renum) (f : BitVec 8) : BitVec 8 := BitVec.ofNat 8 (newNum r.th f.toNat)
/-- SH of SHW: mz0 to mz3, then cz0 to cz3. -/
def Renum.shape (r : Renum) (f : BitVec 3) : BitVec 3 :=
  if f.toNat < 4 then BitVec.ofNat 3 (newNum r.mzs f.toNat) else BitVec.ofNat 3 (4 + newNum r.czs (f.toNat - 4))
def Renum.mz (r : Renum) (f : BitVec 2) : BitVec 2 := BitVec.ofNat 2 (newNum r.mzs f.toNat)
def Renum.cz (r : Renum) (f : BitVec 2) : BitVec 2 := BitVec.ofNat 2 (newNum r.czs f.toNat)
def Renum.noz (_r : Renum) (f : BitVec 2) : BitVec 2 := f
/-- The shuffle entry and the code table of an immediate. -/
def Renum.she (r : Renum) (f : BitVec 9) : BitVec 9 := BitVec.ofNat 9 (f.toNat / 64 * 64 + newNum r.sh (f.toNat % 64))
def Renum.cti (r : Renum) (f : BitVec 9) : BitVec 9 := BitVec.ofNat 9 (f.toNat / 4 * 4 + newNum r.ct (f.toNat % 4))
def Renum.af (r : Renum) (f : AForm) : AForm := match f with
  | .glob x sc => .glob (r.s7 x) sc
  | .loc x sc => .loc (r.s7 x) sc
  | .ring k j => .ring k j
def Renum.sr (r : Renum) (f : SR) : SR :=
  { f with g := r.g4 f.g, d := r.s7 f.d, a := r.s7 f.a, b := r.s7 f.b, c := r.s7 f.c, gs := r.g4 f.gs }
/-- V3 with the operands it uses; an unused field stays zero. -/
def Renum.v3 (r : Renum) (b c : Bool) (f : V3) : V3 :=
  { f with g := r.g4 f.g, p := r.p4 f.p, d := r.v9 f.d, a := r.v9 f.a, b := if b then r.v9 f.b else f.b,
           c := if c then r.v9 f.c else f.c }
def Renum.vi (r : Renum) (b : Bool) (f : VI) : VI :=
  { f with g := r.g4 f.g, p := r.p4 f.p, d := r.v9 f.d, a := r.v9 f.a, b := if b then r.v9 f.b else f.b }
def Renum.ec (r : Renum) (z : BitVec 2 → BitVec 2) (e : EC) : EC :=
  { e with g := r.g4 e.g, z := z e.z, tp := r.tk7 e.tp, tc0 := r.tk7 e.tc0, tc1 := r.tk7 e.tc1, tc2 := r.tk7 e.tc2 }

/-- An instruction with its registers and objects renumbered. -/
def mapRegs (r : Renum) (i : Instr) : Instr :=
  match i with
  | .add f => .add (r.sr f)
  | .sub f => .sub (r.sr f)
  | .mul f => .mul (r.sr f)
  | .mulh f => .mulh (r.sr f)
  | .mulhu f => .mulhu (r.sr f)
  | .div f => .div (r.sr f)
  | .divu f => .divu (r.sr f)
  | .rem f => .rem (r.sr f)
  | .remu f => .remu (r.sr f)
  | .and f => .and (r.sr f)
  | .or f => .or (r.sr f)
  | .xor f => .xor (r.sr f)
  | .shl f => .shl (r.sr f)
  | .shr f => .shr (r.sr f)
  | .sar f => .sar (r.sr f)
  | .min f => .min (r.sr f)
  | .minu f => .minu (r.sr f)
  | .max f => .max (r.sr f)
  | .maxu f => .maxu (r.sr f)
  | .ext f => .ext (r.sr f)
  | .extu f => .extu (r.sr f)
  | .ins f => .ins (r.sr f)
  | .clz f => .clz (r.sr f)
  | .popc f => .popc (r.sr f)
  | .sel f => .sel (r.sr f)
  | .fadd f => .fadd (r.sr f)
  | .fsub f => .fsub (r.sr f)
  | .fmul f => .fmul (r.sr f)
  | .fma f => .fma (r.sr f)
  | .fdiv f => .fdiv (r.sr f)
  | .fsqrt f => .fsqrt (r.sr f)
  | .fmin f => .fmin (r.sr f)
  | .fmax f => .fmax (r.sr f)
  | .ret f => .ret (r.sr f)
  | .addi f => .addi { f with g := r.g4 f.g, d := r.s7 f.d, a := r.s7 f.a }
  | .andi f => .andi { f with g := r.g4 f.g, d := r.s7 f.d, a := r.s7 f.a }
  | .ori f => .ori { f with g := r.g4 f.g, d := r.s7 f.d, a := r.s7 f.a }
  | .xori f => .xori { f with g := r.g4 f.g, d := r.s7 f.d, a := r.s7 f.a }
  | .shli f => .shli { f with g := r.g4 f.g, d := r.s7 f.d, a := r.s7 f.a }
  | .shri f => .shri { f with g := r.g4 f.g, d := r.s7 f.d, a := r.s7 f.a }
  | .sari f => .sari { f with g := r.g4 f.g, d := r.s7 f.d, a := r.s7 f.a }
  | .movi f => .movi { f with g := r.g4 f.g, d := r.s7 f.d }
  | .movhi f => .movhi { f with g := r.g4 f.g, d := r.s7 f.d }
  | .cmp f => .cmp { f with g := r.g4 f.g, gd := r.g4 f.gd, a := r.s7 f.a, b := r.s7 f.b }
  | .fcmp f => .fcmp { f with g := r.g4 f.g, gd := r.g4 f.gd, a := r.s7 f.a, b := r.s7 f.b }
  | .cmpi f => .cmpi { f with g := r.g4 f.g, gd := r.g4 f.gd, a := r.s7 f.a }
  | .gand f => .gand { f with g := r.g4 f.g, gd := r.g4 f.gd, ga := r.g4 f.ga, gb := r.g4 f.gb }
  | .gor f => .gor { f with g := r.g4 f.g, gd := r.g4 f.gd, ga := r.g4 f.ga, gb := r.g4 f.gb }
  | .gxor f => .gxor { f with g := r.g4 f.g, gd := r.g4 f.gd, ga := r.g4 f.ga, gb := r.g4 f.gb }
  | .fcvt f => .fcvt { f with g := r.g4 f.g, d := r.s7 f.d, a := r.s7 f.a }
  | .br f => .br { f with g := r.g4 f.g, d := r.s7 f.d }
  | .call f => .call { f with g := r.g4 f.g, d := r.s7 f.d }
  | .kloop f => .kloop { f with g := r.g4 f.g }
  | .shw f => .shw { f with g := r.g4 f.g, sh := r.shape f.sh, a := r.s7 f.a }
  | .mfsr f => .mfsr { f with g := r.g4 f.g, d := r.s7 f.d, a := r.s7 f.a }
  | .mtsr f => .mtsr { f with g := r.g4 f.g, d := r.s7 f.d, a := r.s7 f.a }
  | .trap f => .trap { f with g := r.g4 f.g }
  | .tret f => .tret { f with g := r.g4 f.g }
  | .exit f => .exit { f with g := r.g4 f.g }
  | .vadd f => .vadd (r.v3 true false f)
  | .vsub f => .vsub (r.v3 true false f)
  | .vmul f => .vmul (r.v3 true false f)
  | .vdiv f => .vdiv (r.v3 true false f)
  | .vmin f => .vmin (r.v3 true false f)
  | .vmax f => .vmax (r.v3 true false f)
  | .vand f => .vand (r.v3 true false f)
  | .vor f => .vor (r.v3 true false f)
  | .vxor f => .vxor (r.v3 true false f)
  | .vshl f => .vshl (r.v3 true false f)
  | .vshr f => .vshr (r.v3 true false f)
  | .vsar f => .vsar (r.v3 true false f)
  | .vqnt f => .vqnt (r.v3 true false f)
  | .vdqnt f => .vdqnt (r.v3 true false f)
  | .vfma f => .vfma (r.v3 true true f)
  | .vfms f => .vfms (r.v3 true true f)
  | .vbdot f => .vbdot (r.v3 true true f)
  | .vsqrt f => .vsqrt (r.v3 false false f)
  | .vabs f => .vabs (r.v3 false false f)
  | .vneg f => .vneg (r.v3 false false f)
  | .vnot f => .vnot (r.v3 false false f)
  | .vexp f => .vexp (r.v3 false false f)
  | .vlog f => .vlog (r.v3 false false f)
  | .vsin f => .vsin (r.v3 false false f)
  | .vcos f => .vcos (r.v3 false false f)
  | .vtanh f => .vtanh (r.v3 false false f)
  | .vrsqrt f => .vrsqrt (r.v3 false false f)
  | .vrcp f => .vrcp (r.v3 false false f)
  | .vsigm f => .vsigm (r.v3 false false f)
  | .vtrn f => .vtrn (r.v3 false false f)
  | .vmov f => .vmov (r.v3 false false f)
  | .vpatsw f => .vpatsw { f with g := r.g4 f.g }
  | .vcvt f => .vcvt (r.vi (decide (subsPerCell f.fmt.toNat < subsPerCell (bitsAt f.imm.toNat 0 6))) f)
  | .vpack f => .vpack (r.vi true f)
  | .vperm f => .vperm (r.vi true f)
  | .vunpk f => .vunpk (r.vi false f)
  | .vrotr f => .vrotr (r.vi false f)
  | .vbcr f => .vbcr (r.vi false f)
  | .vrotc f => .vrotc (r.vi false f)
  | .vbcc f => .vbcc (r.vi false f)
  | .vredr f => .vredr (r.vi false f)
  | .vredc f => .vredc (r.vi false f)
  | .vcmp f => .vcmp { r.vi true f with d := (r.p4 (f.d.setWidth 4)).setWidth 9 }
  | .vsel f => .vsel { r.vi true f with imm := (r.p4 (f.imm.setWidth 4)).setWidth 9 }
  | .vshuf f => .vshuf { r.vi true f with imm := r.she f.imm }
  | .vpatld f => .vpatld { f with g := r.g4 f.g, a := r.v9 f.a, imm := r.she f.imm }
  | .vctd f => .vctd { r.vi false f with imm := r.cti f.imm }
  | .vctld f => .vctld { f with g := r.g4 f.g, a := r.v9 f.a, imm := r.cti f.imm }
  | .vsplats f => .vsplats { f with g := r.g4 f.g, p := r.p4 f.p, d := r.v9 f.d, a := r.s9 f.a }
  | .vsplati f => .vsplati { f with g := r.g4 f.g, p := r.p4 f.p, d := r.v9 f.d }
  | .vpand f => .vpand { f with g := r.g4 f.g, p := r.p4 f.p, pd := r.p4 f.pd, pa := r.p4 f.pa, pb := r.p4 f.pb }
  | .vpor f => .vpor { f with g := r.g4 f.g, p := r.p4 f.p, pd := r.p4 f.pd, pa := r.p4 f.pa, pb := r.p4 f.pb }
  | .vpxor f => .vpxor { f with g := r.g4 f.g, p := r.p4 f.p, pd := r.p4 f.pd, pa := r.p4 f.pa, pb := r.p4 f.pb }
  | .mlease f => .mlease (r.ec r.noz f)
  | .mrel f => .mrel (r.ec r.noz f)
  | .mmode f => .mmode { f with e := r.ec r.noz f.e, s := r.s7 f.s }
  | .mclr f => .mclr { f with e := r.ec r.noz f.e, s := r.s7 f.s }
  | .mwld f => .mwld { f with e := r.ec r.mz f.e, th := r.th8 f.th, s := r.s7 f.s }
  | .mmac f => .mmac { f with e := r.ec r.noz f.e, v := r.v9 f.v, s := r.s7 f.s }
  | .mdrn f => .mdrn { f with e := r.ec (if f.dst = 0 then r.noz else r.mz) f.e, v := if f.dst = 0 then r.v9 f.v else r.s9 f.v, s := r.s7 f.s }
  | .mstat f => .mstat { f with e := r.ec r.noz f.e, s := r.s7 f.s, a := r.s7 f.a }
  | .cpyl f => .cpyl { f with e := r.ec r.cz f.e, a := r.s7 f.a, b := r.s7 f.b, c := r.s7 f.c, ch := r.ch3 f.ch }
  | .cpys f => .cpys { f with e := r.ec r.cz f.e, a := r.s7 f.a, b := r.s7 f.b, c := r.s7 f.c, ch := r.ch3 f.ch }
  | .cpfill f => .cpfill { f with e := r.ec r.cz f.e, a := r.s7 f.a, b := r.s7 f.b, c := r.s7 f.c, ch := r.ch3 f.ch }
  | .cpyc f => .cpyc { f with e := r.ec r.noz f.e, a := r.s7 f.a, b := r.s7 f.b, c := r.s7 f.c, ch := r.ch3 f.ch }
  | .lxfr f => .lxfr { f with e := r.ec r.noz f.e, a := r.s7 f.a, b := r.s7 f.b, c := r.s7 f.c, ch := r.ch3 f.ch }
  | .bkmac f => .bkmac { f with e := r.ec r.noz f.e, a := r.s7 f.a, b := r.s7 f.b, c := r.s7 f.c }
  | .bkkey f => .bkkey { f with e := r.ec r.noz f.e, a := r.s7 f.a, b := r.s7 f.b, c := r.s7 f.c }
  | .bkcmp f => .bkcmp { f with e := r.ec r.noz f.e, a := r.s7 f.a, b := r.s7 f.b, c := r.s7 f.c }
  | .bkwr f => .bkwr { f with e := r.ec r.noz f.e, a := r.s7 f.a, b := r.s7 f.b, c := r.s7 f.c }
  | .bktt f => .bktt { f with e := r.ec r.noz f.e, a := r.s7 f.a, b := r.s7 f.b, c := r.s7 f.c }
  | .bkrd f => .bkrd { f with e := r.ec r.noz f.e, a := r.s7 f.a, b := r.s7 f.b, c := r.s7 f.c }
  | .ldb m => .ldb { m with g := r.g4 m.g, d := r.s9 m.d, a := r.s7 m.a, f := r.af m.f }
  | .ldbu m => .ldbu { m with g := r.g4 m.g, d := r.s9 m.d, a := r.s7 m.a, f := r.af m.f }
  | .ldh m => .ldh { m with g := r.g4 m.g, d := r.s9 m.d, a := r.s7 m.a, f := r.af m.f }
  | .ldhu m => .ldhu { m with g := r.g4 m.g, d := r.s9 m.d, a := r.s7 m.a, f := r.af m.f }
  | .ldw m => .ldw { m with g := r.g4 m.g, d := r.s9 m.d, a := r.s7 m.a, f := r.af m.f }
  | .ldwu m => .ldwu { m with g := r.g4 m.g, d := r.s9 m.d, a := r.s7 m.a, f := r.af m.f }
  | .ldd m => .ldd { m with g := r.g4 m.g, d := r.s9 m.d, a := r.s7 m.a, f := r.af m.f }
  | .stb m => .stb { m with g := r.g4 m.g, d := r.s9 m.d, a := r.s7 m.a, f := r.af m.f }
  | .sth m => .sth { m with g := r.g4 m.g, d := r.s9 m.d, a := r.s7 m.a, f := r.af m.f }
  | .stw m => .stw { m with g := r.g4 m.g, d := r.s9 m.d, a := r.s7 m.a, f := r.af m.f }
  | .std m => .std { m with g := r.g4 m.g, d := r.s9 m.d, a := r.s7 m.a, f := r.af m.f }
  | .ldv m => .ldv { m with g := r.g4 m.g, d := r.v9 m.d, a := r.s7 m.a, f := r.af m.f }
  | .ldvs m => .ldvs { m with g := r.g4 m.g, d := r.v9 m.d, a := r.s7 m.a, f := r.af m.f }
  | .stv m => .stv { m with g := r.g4 m.g, d := r.v9 m.d, a := r.s7 m.a, f := r.af m.f }
  | .stvs m => .stvs { m with g := r.g4 m.g, d := r.v9 m.d, a := r.s7 m.a, f := r.af m.f }
  | .ldvg f => .ldvg { f with g := r.g4 f.g, d := r.v9 f.d, a := r.s7 f.a, vx := r.v9 f.vx }
  | .stvx f => .stvx { f with g := r.g4 f.g, d := r.v9 f.d, a := r.s7 f.a, vx := r.v9 f.vx }
  | .probe f => .probe { f with g := r.g4 f.g, d := r.s9 f.d, a := r.s7 f.a }
  | .pwait f => .pwait { f with g := r.g4 f.g, d := r.s9 f.d, a := r.s7 f.a }
  | .pref f => .pref { f with g := r.g4 f.g, d := r.s9 f.d, a := r.s7 f.a }
  | .llclk f => .llclk { f with g := r.g4 f.g, d := r.s9 f.d, a := r.s7 f.a }
  | .llcul f => .llcul { f with g := r.g4 f.g, d := r.s9 f.d, a := r.s7 f.a }
  | .aadd f => .aadd { f with g := r.g4 f.g, d := r.s9 f.d, a := r.s7 f.a, x := r.s7 f.x, old := r.s7 f.old, tk := r.tk6 f.tk }
  | .aand f => .aand { f with g := r.g4 f.g, d := r.s9 f.d, a := r.s7 f.a, x := r.s7 f.x, old := r.s7 f.old, tk := r.tk6 f.tk }
  | .aor f => .aor { f with g := r.g4 f.g, d := r.s9 f.d, a := r.s7 f.a, x := r.s7 f.x, old := r.s7 f.old, tk := r.tk6 f.tk }
  | .axor f => .axor { f with g := r.g4 f.g, d := r.s9 f.d, a := r.s7 f.a, x := r.s7 f.x, old := r.s7 f.old, tk := r.tk6 f.tk }
  | .amin f => .amin { f with g := r.g4 f.g, d := r.s9 f.d, a := r.s7 f.a, x := r.s7 f.x, old := r.s7 f.old, tk := r.tk6 f.tk }
  | .aminu f => .aminu { f with g := r.g4 f.g, d := r.s9 f.d, a := r.s7 f.a, x := r.s7 f.x, old := r.s7 f.old, tk := r.tk6 f.tk }
  | .amax f => .amax { f with g := r.g4 f.g, d := r.s9 f.d, a := r.s7 f.a, x := r.s7 f.x, old := r.s7 f.old, tk := r.tk6 f.tk }
  | .amaxu f => .amaxu { f with g := r.g4 f.g, d := r.s9 f.d, a := r.s7 f.a, x := r.s7 f.x, old := r.s7 f.old, tk := r.tk6 f.tk }
  | .axch f => .axch { f with g := r.g4 f.g, d := r.s9 f.d, a := r.s7 f.a, x := r.s7 f.x, old := r.s7 f.old, tk := r.tk6 f.tk }
  | .acas f => .acas { f with g := r.g4 f.g, d := r.s9 f.d, a := r.s7 f.a, x := r.s7 f.x, old := r.s7 f.old, tk := r.tk6 f.tk }
  | .afadd f => .afadd { f with g := r.g4 f.g, d := r.s9 f.d, a := r.s7 f.a, x := r.s7 f.x, old := r.s7 f.old, tk := r.tk6 f.tk }
  | .bara f => .bara { f with g := r.g4 f.g }
  | .barw f => .barw { f with g := r.g4 f.g }
  | .baraw f => .baraw { f with g := r.g4 f.g }
  | .barcfg f => .barcfg { f with g := r.g4 f.g }
  | .tokw f => .tokw { f with g := r.g4 f.g, t0 := r.tk7 f.t0, t1 := r.tk7 f.t1, t2 := r.tk7 f.t2, t3 := r.tk7 f.t3 }
  | .tokst f => .tokst { f with g := r.g4 f.g, tk := r.tk6 f.tk }
  | .ctrw f => .ctrw { f with g := r.g4 f.g, a := r.s7 f.a, b := r.s7 f.b }
  | .ringcfg f => .ringcfg { f with g := r.g4 f.g, a := r.s7 f.a, b := r.s7 f.b }
  | .signalStore f => .signalStore { f with g := r.g4 f.g, a := r.s7 f.a, b := r.s7 f.b }
  | .signalAdd f => .signalAdd { f with g := r.g4 f.g, a := r.s7 f.a, b := r.s7 f.b }
  | .dqadv f => .dqadv { f with g := r.g4 f.g, a := r.s7 f.a, b := r.s7 f.b }
  | .wpw f => .wpw { f with g := r.g4 f.g, ch := r.ch3 f.ch, a := r.s7 f.a }
  | .qmark f => .qmark { f with g := r.g4 f.g }
  | .fenceT f => .fenceT { f with g := r.g4 f.g }
  | .fenceG f => .fenceG { f with g := r.g4 f.g }
  | .fenceD f => .fenceD { f with g := r.g4 f.g }
  | .fenceS f => .fenceS { f with g := r.g4 f.g }
  | .yield f => .yield { f with g := r.g4 f.g }
  | .waity f => .waity { f with g := r.g4 f.g, a := r.s7 f.a }
  | i => i

/-- A renumbering that changes nothing but the producer's rotating names in its epilogue. -/
def Renum.only (shift : Nat) : Renum := ⟨[], [], [], [], [], [], [], [], [], [], [], [], 0, [], 0, shift⟩

/-! ## The plan of a pair -/

/-- The pairs of hand-off records. -/
def handPairs (p c : Prog) : List (Handoff × Handoff) :=
  (handoffs p.header).filterMap fun x => ((handoffs c.header).find? fun y => decide (y.num = x.num)).map fun y => (x, y)

/-- The access a record describes is an STV of a producer or an LDV of a consumer whose guard is the record's stage predicate (R271). -/
def accessOk (q : Prog) (x : Handoff) : Bool :=
  match q.code[x.addr]? with
  | none => false
  | some w => match decodeBundle w.toNat with
    | .error _ => false
    | .ok b => b.instrs.any fun i => (match i with
      | .stv m => !x.consumer && decide (m.g.toNat = 8 + x.stage) && decide (m.d.toNat = x.reg)
      | .ldv m => x.consumer && decide (m.g.toNat = 8 + x.stage) && decide (m.d.toNat = x.reg)
      | _ => false)

/-- The entry of a program's tile-handle table. -/
def Prog.tile (q : Prog) (h : Nat) : Option (List Byte) := (q.tiles.find? fun e => decide (e.1 = h)).map fun e => e.2

/-- Two records match (R271). -/
def recordsMatch (p c : Prog) (x y : Handoff) : Bool :=
  decide (x.ring = y.ring) && !x.consumer && y.consumer && decide (x.reg < 256) && decide (y.reg < 256)
  && accessOk p x && accessOk c y
  && (if x.ring then decide (x.handle = y.handle) && decide (x.j = y.j) && decide (x.logsz = y.logsz) && decide (x.nm1 = y.nm1)
    else match p.tile x.handle, c.tile y.handle with
      | some a, some b =>
        let t := tileOf a
        decide (a.take 26 = b.take 26) && decide (t.rows * t.cols * fmtWidth t.fmt = 8 * 4096)
      | _, _ => false)

/-- The names that the value of a hand-off takes within the consumer's live distance: vL + d and vS + d (R277). -/
def handNames (pairs : List (Handoff × Handoff)) : List (Nat × Nat) :=
  pairs.flatMap fun q => (List.range (q.2.live + 1)).map fun d => (turnName q.2.reg d, turnName q.1.reg d)

/-- How many instructions of a program write the register of a field's code. -/
def writers (code : List (BitVec 512)) (x : Nat) : Nat :=
  let d : DestName := if x < 128 then .v x else .vo (x - 128)
  (code.map fun w => match decodeBundle w.toNat with
    | .ok b => (b.instrs.filter fun i => (destsOf i).contains d).length
    | .error _ => 0).sum

/-- The value that a hand-off stores was written under the register's own name: it has no rotating name, or a bundle before the store in
the body writes it, or no body bundle writes a name that comes round to it by rotation (R270). -/
def ownName (p : Prog) (q : Handoff × Handoff) : Bool :=
  let x := q.1.reg
  let body := (p.code.take (hdrLast p.header + 1)).drop (hdrFirst p.header)
  decide (x < 32) || decide (96 ≤ x) || !(hdrRot p.header)
    || decide (0 < writers (body.take (q.1.addr - hdrFirst p.header)) x)
    || (List.range 63).all fun k => decide (writers body (turnName x (63 - k)) = 0)

/-- FORWARD (R272): no instruction writes the stored register but the one that wrote the value, none writes a name the value reaches, and
there is no live distance when it is static. -/
def forwardOk (p : Prog) (q : Handoff × Handoff) : Bool :=
  decide (writers p.code q.1.reg ≤ if ownName p q then 1 else 0)
  && (if q.1.reg < 32 ∨ 96 ≤ q.1.reg then decide (q.2.live = 0)
    else (List.range q.2.live).all fun d => decide (writers p.code (turnName q.1.reg (d + 1)) = 0))

/-- The least offset that keeps the renamed mask off the producer's, if one does (R276). -/
def rotOffset (pm cm : Nat) : Option Nat :=
  (List.range 64).find? fun o => (members cm 64).all fun i => decide (pm / 2 ^ ((i + o) % 64) % 2 = 0)

/-- The renumbering of R276, none where a class has no room. -/
def renumber (p c : Prog) (delta : Nat) : Option Renum :=
  let pm := hdrMasks p.header
  let cm := hdrMasks c.header
  let hand := handNames (handPairs p c)
  let drop := fun (mask lo n : Nat) => ((members mask n).filter fun i => !(hand.any fun q => decide (q.1 = i + lo))).map (2 ^ ·) |>.sum
  match allocate 0 32 pm.v (drop cm.v 0 32), allocate 0 16 pm.vo (drop cm.vo 128 16), allocate 1 64 pm.s cm.s, allocate 1 8 pm.g cm.g,
    allocate 1 16 pm.p cm.p, allocate 0 64 pm.tk cm.tk, allocate 0 8 pm.ch cm.ch, allocate 0 4 pm.mz cm.mz with
  | some v, some vo, some s, some g, some q, some tk, some ch, some mz =>
    match allocate 0 4 pm.cz cm.cz, allocate 0 4 pm.ct cm.ct, allocate 0 64 pm.sh cm.sh,
      (if hdrFlag c.header 5 then some ((List.range 256).map fun i => if cm.th / 2 ^ i % 2 = 1 then some i else none)
        else allocate 0 256 pm.th cm.th), rotOffset pm.rot (drop cm.rot 32 64) with
    | some cz, some ct, some sh, some th, some o => some ⟨v, vo, s, g, q, tk, ch, mz, cz, ct, sh, th, o, hand, delta, 0⟩
    | _, _, _, _, _ => none
  | _, _, _, _, _, _, _, _ => none

/-- Two offset ranges, each with its highest offset, meet; a range whose lowest is above its highest is empty. -/
def rangesMeet (a b lo hi : Nat) : Bool := decide (a ≤ b) && decide (lo ≤ hi) && decide (a ≤ hi) && decide (lo ≤ b)

/-- Where a consumer's tile-handle entries are copied to (R408): the handle's own number, and the local offset of its new entry. -/
def entryPlaces (hp hc : List Byte) (r : Renum) : List (Nat × Nat) :=
  if hdrFlag hc 5 then []
  else (members (hdrMasks hc).th 256).map fun i => (i, (hdrTab hp).getD 0 + 32 * newNum r.th i)

/-- The conditions of R272 in table order: the refusal code, or the fusion. -/
def fusePlan (p c : Prog) : Except Nat Fusion :=
  let hp := p.header
  let hc := c.header
  let pairs := handPairs p c
  let pm := hdrMasks hp
  let cm := hdrMasks hc
  let delta := match pairs with
    | q :: _ => q.1.stage - q.2.stage
    | [] => 0
  let sf := max (hdrNst hp + 1) (delta + hdrNst hc + 1)
  if headerBad hp p.nargs p.kloop || headerBad hc c.nargs c.kloop then .error 1
  else if p.ctx ≠ c.ctx ∨ p.gx ≠ c.gx ∨ p.gy ≠ c.gy ∨ p.gz ≠ c.gz ∨ p.ntask ≠ c.ntask ∨ p.nstage ≠ 1 ∨ c.nstage ≠ 1
      ∨ p.flags / 2 % 2 ≠ c.flags / 2 % 2 ∨ p.flags % 2 ≠ c.flags % 2 then .error 2
  else if p.trip ≠ c.trip then .error 3
  else if !(hdrFlag hp 2) || !(hdrFlag hc 2) || decide (p.nseg ≠ 1) || decide (c.nseg ≠ 1) then .error 4
  else if !(hdrFlag hp 1) || !(hdrFlag hc 1) then .error 5
  else if decide ((handoffs hp).map (·.num) ≠ (handoffs hc).map (·.num)) || pairs.any (fun q => !(recordsMatch p c q.1 q.2)) then .error 6
  else if pairs.any (fun q => decide (q.1.stage < q.2.stage) || decide (q.1.stage - q.2.stage ≠ delta)) || decide (8 < sf)
      || decide (7 < hdrSphi hc + delta) then .error 7
  else if decide (hdrRot hp ≠ hdrRot hc) && decide ((if hdrRot hp then cm.rot else pm.rot) ≠ 0) then .error 8
  else if pairs.any (fun q => !(forwardOk p q)) then .error 9
  else match renumber p c delta with
    | none => .error 10
    | some r =>
      let (lo, hi) := (blkN hc 24 4, blkN hc 28 4)
      let rings := (pairs.filter fun q => q.1.ring).map fun q => q.1.handle
      if rangesMeet (blkN hp 24 4) (blkN hp 28 4) lo hi || (entryPlaces hp hc r).any (fun e => rangesMeet e.2 (e.2 + 31) lo hi) then .error 11
      else if (members (pm.rings &&& cm.rings) 16).any (fun k => !(rings.contains k)) || (hdrFlag hp 3 && hdrFlag hc 3)
          || (hdrFlag hp 4 && hdrFlag hc 4) || (hdrFlag hp 5 && hdrFlag hc 5) || (hdrFlag hc 5 && decide (pm.th ≠ 0)) then .error 12
      else if 64 < bodyLen hp + bodyLen hc then .error 13
      else if 256 < p.code.length + c.code.length + 1 then .error 14
      else .ok ⟨delta, sf, r, p.trip⟩

/-! ## The fused program (R273) -/

/-- The instruction stands in none of the slots. -/
def keepsSlot (drop : List Slot) (i : Instr) : Bool := match slotOf i with
  | some sl => !(drop.contains sl)
  | none => true

/-- An offset `n` wide of a transfer that stands at bundle `i` of its program, as it is between the fused addresses that `place` gives. -/
def moveOff {n : Nat} (place : Nat → Nat) (i : Nat) (off : BitVec n) : BitVec n :=
  BitVec.ofInt n ((place (relTarget i off) : Int) - (place i : Int))

/-- A transfer with its offset rewritten to fused addresses. -/
def moveTransfer (place : Nat → Nat) (at_ : Nat) (i : Instr) : Instr := match i with
  | .br f => .br { f with off := moveOff place at_ f.off }
  | .call f => .call { f with off := moveOff place at_ f.off }
  | .probe f => .probe { f with off := moveOff place at_ f.off }
  | i => i

/-- A bundle with slots made invalid and the rest renumbered, its transfers rewritten; one that decodes to nothing is copied with those slots
cleared. -/
def fuseBundle (r : Renum) (drop : List Slot) (place : Nat → Nat) (at_ : Nat) (w : BitVec 512) : BitVec 512 :=
  match decodeBundle w.toNat with
  | .ok b => BitVec.ofNat 512
      (encodeBundle { b with instrs := (b.instrs.filter (keepsSlot drop)).map fun i => moveTransfer place at_ (mapRegs r i) })
  | .error _ =>
    drop.foldl (fun w sl =>
      w &&& ~~~(BitVec.ofNat 512 (2 ^ (496 + validBit sl) + (2 ^ slotWidth sl - 1) * 2 ^ slotLow sl))) w

/-- The bundle of the fused KLOOP (R275). -/
def fusedKloop (len nst : Nat) (rot : Bool) : BitVec 512 :=
  BitVec.ofNat 512 (encodeBundle1 (.kloop ⟨0, 0, BitVec.ofNat 6 len, BitVec.ofNat 4 nst, if rot then 1 else 0⟩))

/-- The origin word of bundle `i` of the producer or of the consumer (R344). -/
def originWord (cons : Bool) (i : Nat) : Nat := i + (if cons then 2 ^ 31 else 0)

/-- The origin words of bundles `lo` to before `hi`. -/
def originsOf (cons : Bool) (lo hi : Nat) : List Nat := (List.range (hi - lo)).map fun j => originWord cons (lo + j)

/-- The fused program's bundles in their order, by origin: prologues, KLOOP, bodies, epilogues (R273); `np` and `nc` are the lengths of the
programs. -/
def fusedOrder (hp hc : List Byte) (np nc : Nat) : List Nat :=
  originsOf false 0 (hdrKloop hp + 1) ++ originsOf true 0 (hdrKloop hc + 1) ++ [originWord false (hdrKloop hp)]
  ++ originsOf false (hdrKloop hp + 1) (hdrLast hp + 1) ++ originsOf true (hdrKloop hc + 1) (hdrLast hc + 1)
  ++ originsOf false (hdrLast hp + 1) np ++ originsOf true (hdrLast hc + 1) nc

/-- The fused address of a program's bundle; one past its end lies past the end of the fused program. -/
def fusedPlace (order : List Nat) (cons : Bool) (i : Nat) : Nat :=
  (order.findIdx? fun o => decide (o = originWord cons i)).getD (order.length + i)

/-- The section of a program from bundle `lo` to before `hi`. -/
def section_ (h : List Byte) (code : List (BitVec 512)) (r : Renum) (place : Nat → Nat) (cons : Bool) (lo hi : Nat) (lastS : Bool) :
    List Fused :=
  (List.range (hi - lo)).map fun j =>
    let i := lo + j
    let hs := (handoffs h).filter fun x => decide (x.addr = i) && (cons || !x.keep)
    let drop : List Slot := (if i = hdrKloop h then [.s] else []) ++ (if lastS ∧ i + 1 = code.length then [.s] else [])
      ++ (if hs = [] then [] else [if cons then .ld else .st])
    ⟨fuseBundle r drop place i (match code[i]? with
      | some w => w
      | none => 0), originWord cons i⟩

/-- The fused program. -/
def fuseCode (x : Fusion) (hp hc : List Byte) (cp cc : List (BitVec 512)) : List Fused :=
  let pr := Renum.only 0
  let kp := hdrKloop hp
  let kc := hdrKloop hc
  let order := fusedOrder hp hc cp.length cc.length
  let ap := fusedPlace order false
  let ac := fusedPlace order true
  let kl : Fused := ⟨fusedKloop (bodyLen hp + bodyLen hc - 1) (x.sf - 1) (hdrRot hp || hdrRot hc), originWord false kp⟩
  section_ hp cp pr ap false 0 (kp + 1) false
  ++ section_ hc cc { x.ren with shift := (64 - x.delta) % 64 } ac true 0 (kc + 1) false
  ++ [kl]
  ++ section_ hp cp pr ap false (kp + 1) (hdrLast hp + 1) true
  ++ section_ hc cc x.ren ac true (kc + 1) (hdrLast hc + 1) false
  ++ section_ hp cp (Renum.only (x.sf - hdrNst hp - 1)) ap false (hdrLast hp + 1) cp.length true
  ++ section_ hc cc { x.ren with shift := (x.sf - hdrNst hc - 1) % 64 } ac true (hdrLast hc + 1) cc.length false

/-- The fused address of the inserted KLOOP. -/
def fusedLoopAt (hp hc : List Byte) : Nat := hdrKloop hp + hdrKloop hc + 2

/-- The fused address of the producer's last bundle, and the CODE of its EXIT (R281). -/
def producerExit (code : List Fused) (cp : List (BitVec 512)) : Option (Nat × Nat) :=
  match code.findIdx? fun f => decide (f.origin + 1 = cp.length) with
  | none => none
  | some a => match cp.getLast? with
    | none => none
    | some w => match decodeBundle w.toNat with
      | .error _ => some (a, 0)
      | .ok b => some (a, (b.instrs.findSome? fun i => match i with
          | .exit f => some f.code.toNat
          | _ => none).getD 0)

/-! ## The fusion entry (20 R344) -/

/-- New number of a member for the entry; the hand-off names among the static ones too. -/
def entryBytes (x : Fusion) : List Nat :=
  let r := x.ren
  let named : Nat → List (Option Nat) → List (Option Nat) := fun lo l => l.zipIdx.map fun p =>
    (match r.hand.find? fun q => decide (q.1 = lo + p.2) with
      | some q => some (q.2 % 128)
      | none => p.1)
  (named 0 r.v ++ named 128 r.vo ++ r.s ++ r.g ++ r.p ++ r.tk ++ r.ch ++ r.mzs ++ r.czs ++ r.ct ++ r.sh ++ r.th).map (·.getD 0xFF)

/-- Group bytes into 64-bit register words. -/
def packBytes : Nat → List Nat → List Nat
  | 0, _ => []
  | fuel + 1, l => match l with
    | [] => []
    | _ => ((l.take 8).zipIdx.map fun p => p.1 * 256 ^ p.2).sum :: packBytes fuel (l.drop 8)

/-- What dispatch keeps of a fusion: the program, the place of its KLOOP, and where the producer ends (R274, R281). -/
def fusedProg (x : Fusion) (p c : Prog) : FusedProg :=
  let code := fuseCode x p.header c.header p.code c.code
  ⟨x, code, fusedLoopAt p.header c.header, producerExit code p.code⟩

/-- Write a fusion entry. -/
def writeEntry (s : State) (id seqP seqC : Nat) (x : Fusion) (code : List Fused) : State :=
  let a := fuseEntry id
  let words := packBytes 128 (code.flatMap fun f => (List.range 4).map fun j => f.origin / 256 ^ j % 256)
  let maps := packBytes 128 (entryBytes x)
  let put : State → Nat × Nat → State := fun s p => s.setReg p.1 (BitVec.ofNat 64 p.2)
  let s := put (put (put s (a, seqP)) (a + 8, seqC)) (a + 16, x.delta + x.ren.o * 256 + code.length * 65536)
  let s := (words.zipIdx.map fun p => (a + 1024 + 8 * p.2, p.1)).foldl put s
  (maps.zipIdx.map fun p => (a + 2048 + 8 * p.2, p.1)).foldl put s

end Sys2Proof.Machine
end

