-- ==== Sys2Proof/Machine/Launch.lean ====
section
/-! DEFINITION. Dispatch of packets (spec/19 R315 to R326; spec/18 R306, R310; spec/01 R41; spec/10 R269): reading a packet, what refuses
a launch, grids, wait and signal packets, and the completion of a grid. -/

namespace Sys2Proof.Machine
open Sys2Proof

/-! ## Reads and writes of dispatch through a context's translation -/

/-- An update of a signal by SIGOP at its home (R322, R324): none where it fails translation. An ADD at an MMIO or CIM home changes nothing;
one at the host whose completion fails is logged (21 R360). -/
def signalUpdate (s : State) (ctx addr : Nat) (add : Bool) (v : Word) : Option State :=
  if 2 ^ 48 ≤ addr then none
  else match translate s ctx addr needWrite none with
    | .fail _ _ => none
    | .ok x =>
      if add then
        match homeOf s x.pa with
        | some .reg | some (.cim _ _) | some (.side _ _) => some (walkLeft s ctx addr)
        | _ => some (updateQuiet (walkLeft s ctx addr) x 8 fun m => (m + v.toNat) % 2 ^ 64).s
      else some (storeQuiet (walkLeft s ctx addr) x 8 v.toNat).1

/-- What an update that fails translation leaves: the reads of its walk (22 R377, R380). -/
def signalLeft (s : State) (ctx addr : Nat) : State := if 2 ^ 48 ≤ addr then s else walkLeft s ctx addr

/-! ## What a packet's reads leave, and its errors (R315, R317) -/

/-- The group that exposed a unit, and the level its launch stands at (R325). -/
def parentAt (s : State) (q i : Nat) : Option Parent :=
  match s.exposes.find? fun e => decide (e.queue = q) && decide (e.lo ≤ i) && decide (i < e.hi) with
  | some e => some e.parent
  | none => none

def levelOf (s : State) (p : Option Parent) : Nat := match p with
  | none => 0
  | some o => match s.grids.find? fun g => decide (g.seq = o.seq) with
    | some g => g.level + 1
    | none => 1

/-- QRD passes `n` units; exposed ranges that are wholly read are forgotten. -/
def passUnits (s : State) (q n : Nat) : State :=
  let r := qRd s q + n
  let s := s.setReg (qreg q 24) (BitVec.ofNat 64 r)
  { s with exposes := s.exposes.filter fun e => !(decide (e.queue = q) && decide (e.hi ≤ r)) }

/-- Reads of a context's memory leave their traces at the homes. -/
def touchAll (s : State) (ctx : Nat) (reads : List (Nat × Nat)) : State := reads.foldl (fun s r => touchBytes s ctx r.1 r.2) s

/-- The reads of the `n` units from unit `i` of a queue on. -/
def unitReads (s : State) (q i n : Nat) : List (Nat × Nat) := (List.range n).map fun j => (unitAddr s q (i + j), 64)

/-- The units that dispatch has read of a packet of `n` units: those up to the first that fails. -/
def readUpTo (s : State) (q i n : Nat) : List (Nat × Nat) :=
  (unitReads s q i n).take ((((List.range n).takeWhile fun j => (readBytes s (qCtx s q) (unitAddr s q (i + j)) 64).isSome).length) + 1)

/-- A packet in error stops its queue; QRD passes one that dispatch has read whole (R315, R317). One of an unassigned type has its first
unit read. -/
def packetError (s : State) (q ty cause : Nat) : State :=
  let t := queueError s q cause (qRd s q)
  let n := (unitsOf ty).getD 0
  if cause = 2 ∨ cause = 4 then touchAll (passUnits t q n) (qCtx s q) (unitReads s q (qRd s q) n)
  else touchAll t (qCtx s q) (readUpTo s q (qRd s q) (if cause = 1 then 1 else n))

/-! ## What refuses a launch (R321) -/

/-- A byte range of a block is zero. -/
def zeroAt (b : List Byte) (off len : Nat) : Bool := !(blkNonzero b off len)

/-- The image header breaks R306. -/
def imageBad (h : List Byte) : Bool :=
  decide (blkN h 0 2 ≠ 0xA5C0) || decide (blkN h 2 1 ≠ 1) || decide (8 ≤ blkN h 3 1) || decide (blkN h 3 1 / 2 = 3)
  || decide (blkN h 4 1 = 0) || decide (16 < blkN h 4 1) || decide (16 < blkN h 5 1) || blkNonzero h 8 56

/-- Bytes of local range that an image's tasks have. -/
def imageLocal (flags : Nat) : Nat := if flags / 4 % 2 = 1 then 0x80000 else if flags / 2 % 2 = 1 then 0x400000 else 0x200000

/-- A program descriptor breaks R306. -/
def descBad (flags : Nat) (d : List Byte) : Bool :=
  decide (blkN d 0 8 % 16 ≠ 0) || decide (blkN d 8 1 = 0) || decide (64 < blkN d 8 1) || blkNonzero d 9 3
  || decide (imageLocal flags < blkN d 12 4) || decide (blkN d 16 8 % 64 ≠ 0) || blkNonzero d 32 32

/-- A segment table breaks R310: `next` is where the next segment must begin. -/
def segtabBad (grotto : Bool) (t : List Byte) : Nat → Nat → Nat → Bool
  | 0, _, _ => false
  | n + 1, i, next =>
    let e := t.drop (16 * i)
    decide (blkN e 0 8 % 64 ≠ 0) || decide (blkN e 8 4 ≠ next) || decide (blkN e 12 2 = 0)
    || decide ((if grotto then 512 else 2048) < blkN e 12 2) || blkNonzero e 14 2 || segtabBad grotto t n (i + 1) (next + blkN e 12 2)

/-- What dispatch reads of a launch (R320). -/
structure Taken where
  gx : Nat
  flags : Nat
  nstage : Nat
  nargs : Nat
  arg8 : Nat
  descs : List (List Byte)
  args : List Byte
  deriving DecidableEq, Repr

/-- All parts of a list of reads, or none. -/
def readAll (s : State) (ctx : Nat) : List (Nat × Nat) → Option (List (List Byte))
  | [] => some []
  | (va, n) :: rest => match readBytes s ctx va n with
    | none => none
    | some b => match readAll s ctx rest with
      | some l => some (b :: l)
      | none => none

/-- The group count of a launch: the field, or what stands at ICOUNT (R320). -/
def countOf (s : State) (ctx : Nat) (b : List Byte) : Option Nat :=
  if pkFlag b 11 then (readBytes s ctx (blkN b 32 8) 4).map fun l => blkN l 0 4 else some (blkN b 16 4)

/-- The checks of a launch in the order of R321: its status, or what dispatch has read. -/
def takeLaunch (s : State) (ctx level : Nat) (b : List Byte) : Except Nat Taken :=
  let image := blkN b 8 8
  let (gx, gy, gz) := (blkN b 16 4, blkN b 20 4, blkN b 24 4)
  let nt := blkN b 28 1
  if (pkFlag b 11 = false ∧ gx = 0) ∨ gy = 0 ∨ gz = 0 ∨ nt = 0 ∨ 4 < nt
      ∨ 65536 < (if pkFlag b 11 then 1 else gx) * gy * gz then .error 4
  else if 8 < level then .error 3
  else match readBytes s ctx image 64 with
    | none => .error 6
    | some h =>
      let flags := blkN h 3 1
      if imageBad h then .error 2
      else match readBytes s ctx (image + 64) (64 * blkN h 4 1) with
        | none => .error 6
        | some ds =>
          let descs := (List.range (blkN h 4 1)).map fun i => (ds.drop (64 * i)).take 64
          let nargs := blkN h 5 1
          if descs.any (descBad flags) then .error 2
          else match readAll s ctx (descs.map fun d => (image + blkN d 0 8, 16 * blkN d 8 1)), readBytes s ctx (blkN b 40 8) (8 * nargs),
              countOf s ctx b with
            | some tabs, some args, some n =>
              let grotto := decide (flags / 4 % 2 = 1)
              let gst := blkN b 29 1
              if (tabs.zip descs).any (fun p => segtabBad grotto p.1 (blkN p.2 8 1) 0 0)
                  || (grotto && (decide (nt ≠ 1) || pkFlag b 10 || decide (16 ≤ gst))) || (!grotto && decide (gst ≠ 0))
                  || (decide (nargs = 0) && blkNonzero b 40 8) then .error 2
              else if pkFlag b 11 = true ∧ 65536 < n * gy * gz then .error 4
              else .ok ⟨n, flags, blkN h 4 1, nargs, blkN h 6 2, descs, args⟩
            | _, _, _ => .error 6

/-! ## Grids -/

/-- The splice header of stage 0; empty where there is none or it cannot be read. -/
def spliceHeader (s : State) (ctx image : Nat) (t : Taken) : List Byte :=
  match t.descs with
  | d :: _ =>
    if blkN d 24 8 = 0 then [] else (readBytes s ctx (image + blkN d 24 8) 256).getD []
  | [] => []

/-- A grid of a launch. -/
def mkGrid (s : State) (q unit : Nat) (b : List Byte) (t : Taken) (parent : Option Parent) : Grid :=
  let ctx := qCtx s q
  let image := blkN b 8 8
  let groups := t.gx * blkN b 20 4 * blkN b 24 4
  { id := s.gridSeq + 1, seq := s.launchSeq + 1, queue := q, unit := unit, ctx := ctx, gx := t.gx, gy := blkN b 20 4, gz := blkN b 24 4,
    ntask := blkN b 28 1, nstage := t.nstage, flags := t.flags, nargs := t.nargs, arg8 := t.arg8, image := image, args := t.args,
    budget := blkN b 48 8, claim := pkFlag b 10, sig := blkN b 56 8, sigval := BitVec.ofNat 64 (blkN b 64 8), sigop := pkFlag b 12,
    intr := pkFlag b 13, rec_ := blkN b 72 8, level := levelOf s parent, parent := parent, left := groups * blkN b 28 1 * t.nstage,
    status := 0, exitCode := 0, nexit := 0, descs := t.descs, header := spliceHeader s ctx image t, fuseId := 0, consumer := false, plan := none,
    gstack := if t.flags / 4 % 2 = 1 ∧ blkN b 29 1 / 8 % 2 = 1 then some (blkN b 29 1 % 8) else none }

/-- The first page or word of a completion fails: CFAIL, and VEC is raised for it (R322). -/
def completionFailed (s : State) (q : Nat) : State :=
  raiseVec (s.setReg (qreg q 32) (s.reg (qreg q 32) ||| (1#64 <<< 17))) (qVec s q)

/-- Completion of a launch (R322): the record, then the signal, then VEC. -/
def completeLaunch (s : State) (g : Grid) : State :=
  let s :=
    if g.rec_ = 0 then s
    else if 2 ^ 48 ≤ g.rec_ then completionFailed s g.queue
    else match translate s g.ctx g.rec_ needWrite none with
      | .fail _ _ => completionFailed (walkLeft s g.ctx g.rec_) g.queue
      | .ok x => (storeQuiet (walkLeft s g.ctx g.rec_) x 16 (g.seq % 2 ^ 64 + g.status * 2 ^ 64 + g.exitCode * 2 ^ 80 + min g.nexit (2 ^ 32 - 1) * 2 ^ 96)).1
  let s := if g.sig = 0 then s else match signalUpdate s g.ctx g.sig g.sigop g.sigval with
    | some t => t
    | none => completionFailed (signalLeft s g.ctx g.sig) g.queue
  if g.intr then raiseVec s (qVec s g.queue) else s

/-- A completion whose record or signal cannot be written yet: its page is moving, or its home holds the write back (02 R76). -/
def completionWaits (s : State) (ctx rec_ sig : Nat) : Bool :=
  [rec_, sig].any fun a => decide (a ≠ 0) && decide (a < 2 ^ 48) && (xlatWaits s ctx a || match translate s ctx a needWrite none with
    | .ok x => placeWaits s x.pa true
    | .fail _ _ => false)

/-- Event 1: a LAUNCH is dispatchable (R335, R336). One that runs no task has no grid, and names grid 0. -/
def offerLaunch (s : State) (g : Grid) (id : Nat) : State :=
  postEvent s 1 0 id (BitVec.ofNat 64 (g.queue * 2 ^ 32 + g.unit % 2 ^ 32))

/-- The place where dispatch keeps its copy of a launch's argument block (19 R327; log 94). -/
def argsCopy (id : Nat) : Nat := (Config.argsPlace id).toNat * 128

/-- Start a launch: a grid in flight, offered with event 1, its arguments copied (R320, R327, R336); one with no groups completes at once
(R320). -/
def startGrid (s : State) (g : Grid) : State :=
  let s := offerLaunch { s with launchSeq := g.seq, gridSeq := g.id } g g.id
  if g.left = 0 then completeLaunch s g
  else storePhys { s with grids := s.grids ++ [g] } (argsCopy g.id) g.args.length (ofBytes g.args)

/-- A launch that runs no task completes at once with its status (R321). -/
def refuseLaunch (s : State) (q : Nat) (b : List Byte) (status : Nat) (parent : Option Parent) : State :=
  let g := mkGrid s q (qRd s q) b ⟨0, 0, 1, 0, 0, [], []⟩ parent
  completeLaunch (offerLaunch { s with launchSeq := g.seq } g 0) { g with status := status }

/-- One launch on its own. -/
def launchOne (s : State) (q : Nat) (b : List Byte) : State :=
  let i := qRd s q
  let parent := parentAt s q i
  let r := takeLaunch s (qCtx s q) (levelOf s parent) b
  let t := match r with
    | .error st => refuseLaunch s q b st parent
    | .ok x => startGrid s (mkGrid s q i b x parent)
  passUnits t q 2

/-! ## Splicing at dispatch (10 R269, R272; R326) -/

/-- Segment 0 of stage 0 of a program; none where it cannot be read. -/
def segZero (s : State) (ctx image : Nat) (d : List Byte) : Option (List (BitVec 512)) :=
  (readBytes s ctx (image + blkN d 0 8) 16).bind fun e => readBundles s ctx (image + blkN e 0 8) (blkN e 12 2)

/-- Where the bundle of stage 0 at a bundle address stands in the image, in whichever segment. -/
def bundlePlace (s : State) (ctx image : Nat) (d : List Byte) (pc : Nat) : Option Nat :=
  (List.range (blkN d 8 1)).findSome? fun i => match readBytes s ctx (image + blkN d 0 8 + 16 * i) 16 with
    | none => none
    | some e =>
      if blkN e 8 4 ≤ pc ∧ pc < blkN e 8 4 + blkN e 12 2 then some (image + blkN e 0 8 + 64 * (pc - blkN e 8 4)) else none

/-- That bundle. -/
def bundleAt (s : State) (ctx image : Nat) (d : List Byte) (pc : Nat) : Option (BitVec 512) :=
  (bundlePlace s ctx image d pc).bind fun a => (readBundles s ctx a 1).bind (·.head?)

/-- The entries of a program's tile-handle table that its hand-offs name. -/
def handTiles (s : State) (ctx image : Nat) (d h : List Byte) : List (Nat × List Byte) :=
  match hdrTab h with
  | none => []
  | some t => (handoffs h).filterMap fun x =>
      if x.ring then none
      else (readBytes s ctx (image + blkN d 16 8 + t + 32 * x.handle) 32).map fun b => (x.handle, b)

/-- A program as the splice unit sees it: code that cannot be read, the KLOOP bundle or another of segment 0, is a HEADER failure (log 55). -/
def progOf (s : State) (g : Grid) : Prog :=
  let d := g.descs.headD []
  let code := segZero s g.ctx g.image d
  ⟨g.ctx, g.gx, g.gy, g.gz, g.ntask, g.nstage, g.flags, g.nargs, g.arg8, g.args, blkN d 8 1, g.header,
    code.bind (fun _ => bundleAt s g.ctx g.image d (hdrKloop g.header)), code.getD [], handTiles s g.ctx g.image d g.header⟩

/-- The lowest fusion identifier that no fused grid in flight has, whose entry is free (20 R344): 1 to 1,024, entry 0 the last; 0 where all
are taken, and the pair is not considered (log 54). -/
def freeFuseId (s : State) : Nat :=
  ((List.range 1025).find? fun i => decide (1 ≤ i) && !(s.grids.any fun g => decide (g.fuseId = i))).getD 0

/-- The packet after P, if the two are a pair that the splice unit considers, as the two grids they would be: it had been exposed when P
became dispatchable (R269). -/
def pairAt (s : State) (q : Nat) (b : List Byte) : Option (Grid × Grid) :=
  if !(feature s 0) || !(pkFlag b 9) || decide (freeFuseId s = 0) || s.alone.contains (q, qRd s q) then none
  else
    let i := qRd s q
    match packetAt s q (i + 2) with
    | .ok c =>
      if pkType c = 1 ∧ pkFlag c 9 = true then
        let pp := parentAt s q i
        let pc := parentAt s q (i + 2)
        match takeLaunch s (qCtx s q) (levelOf s pp) b, takeLaunch s (qCtx s q) (levelOf s pc) c with
        | .ok x, .ok y =>
          let g := mkGrid s q i b x pp
          let h := mkGrid { s with launchSeq := s.launchSeq + 1, gridSeq := s.gridSeq + 1 } q (i + 2) c y pc
          some (g, h)
        | _, _ => none
      else none
    | _ => none

/-- A pair is refused: REFUSE, REFV and the counter (R326). -/
def refusePair (s : State) (q code : Nat) : State :=
  let st := (s.reg (qreg q 32)).toNat
  let st := st - bitsAt st 8 9 * 256 + code * 256 + 65536
  let s := s.setReg (qreg q 32) (BitVec.ofNat 64 st)
  s.setReg 0x0E0004005000 (s.reg 0x0E0004005000 + 1)

/-- Dispatch a pair as one fused grid, which claims the hearth if either launch does (R269, R279, R280; 20 R344). -/
def launchPair (s : State) (q : Nat) (g h : Grid) (x : Fusion) : State :=
  let id := freeFuseId s
  let f := fusedProg x (progOf s g) (progOf s h)
  let claim := g.claim || h.claim
  let s := writeEntry s id g.seq h.seq x f.code
  let s := startGrid s { g with fuseId := id, claim := claim, plan := some f }
  passUnits (startGrid s { h with fuseId := id, claim := claim, consumer := true }) q 4

/-- Take the LAUNCH at the read index. -/
def launchAt (s : State) (q : Nat) (b : List Byte) : State :=
  match pairAt s q b with
  | none => launchOne s q b
  | some (g, h) => match fusePlan (progOf s g) (progOf s h) with
    | .ok x => launchPair s q g h x
    | .error code => launchOne (refusePair s q code) q b

/-- What dispatch reads of a launch at unit `i` (R320): its units, the image header and descriptors, the segment tables, arguments and count. -/
def launchReads (s : State) (q i : Nat) (b : List Byte) : List (Nat × Nat) :=
  let ctx := qCtx s q
  let image := blkN b 8 8
  let h := (readBytes s ctx image 64).getD []
  let ds := (readBytes s ctx (image + 64) (64 * blkN h 4 1)).getD []
  unitReads s q i 2 ++ [(image, 64), (image + 64, 64 * blkN h 4 1), (blkN b 40 8, 8 * blkN h 5 1)]
    ++ ((List.range (blkN h 4 1)).map fun i => (image + blkN ds (64 * i) 8, 16 * blkN ds (64 * i + 8) 1))
    ++ (if pkFlag b 11 then [(blkN b 32 8, 4)] else [])

/-- What the splice unit reads of a program: its header, its segment 0, its KLOOP bundle, and the tile-handle entries of its hand-offs (10 R269
to R273). -/
def progReads (s : State) (g : Grid) : List (Nat × Nat) :=
  let d := g.descs.headD []
  let seg := match readBytes s g.ctx (g.image + blkN d 0 8) 16 with
    | some e => [(g.image + blkN e 0 8, 64 * blkN e 12 2)]
    | none => []
  let kloop := match segZero s g.ctx g.image d, bundlePlace s g.ctx g.image d (hdrKloop g.header) with
    | some _, some a => [(a, 64)]
    | _, _ => []
  (if blkN d 24 8 = 0 then [] else [(g.image + blkN d 24 8, 256)]) ++ seg ++ kloop
    ++ (match hdrTab g.header with
      | some t => (handoffs g.header).filterMap fun x => if x.ring then none else some (g.image + blkN d 16 8 + t + 32 * x.handle, 32)
      | none => [])

/-- All that dispatch reads as it takes the LAUNCH packet `b`: of a pair that it considers, both. -/
def takenReads (s : State) (q : Nat) (b : List Byte) : List (Nat × Nat) :=
  launchReads s q (qRd s q) b ++ (match pairAt s q b with
    | none => []
    | some (g, h) => progReads s g ++ progReads s h ++ (match packetAt s q (qRd s q + 2) with
      | .ok c => launchReads s q (qRd s q + 2) c
      | _ => []))

/-- Some launch of the packet completes at once. -/
def endsAtOnce (s : State) (q : Nat) (b : List Byte) : Bool := match takeLaunch s (qCtx s q) (levelOf s (parentAt s q (qRd s q))) b with
  | .error _ => true
  | .ok x => decide (x.gx = 0)

/-- A LAUNCH of the queue is dispatchable. -/
def launches (s : State) (q : Nat) : Bool := match dispatchable s q with
  | .ok b => decide (pkType b = 1)
  | _ => false

/-- The shipped firmware serves this queue next: in descending PRIO, and round-robin within one priority (R336). -/
def servedNext (s : State) (q : Nat) : Bool := decide ((serveOrder s).find? (launches s) = some q)

/-- The copy of a launch's argument block, of a pair both, cannot be written yet (02 R76; 23 R397). -/
def argsWait (s : State) (q : Nat) (b : List Byte) : Bool :=
  let n := fun (b : List Byte) => match takeLaunch s (qCtx s q) (levelOf s (parentAt s q (qRd s q))) b with
    | .ok x => if x.gx = 0 then 0 else x.args.length
    | .error _ => 0
  runWaits s (argsCopy (s.gridSeq + 1)) (n b) true || (match pairAt s q b with
    | some (g, h) => runWaits s (argsCopy (s.gridSeq + 2)) h.args.length true && (match fusePlan (progOf s g) (progOf s h) with
      | .ok _ => true
      | .error _ => false)
    | none => false)

/-- Dispatch takes a LAUNCH packet, or a packet of no known type puts its queue in error. -/
def evLaunch (q : Nat) (s : State) : Option State :=
  match dispatchable s q with
  | .ok b =>
    if pkType b = 1 ∧ servedNext s q = true ∧ (endsAtOnce s q b && completionWaits s (qCtx s q) (blkN b 72 8) (blkN b 56 8)) = false
        ∧ argsWait s q b = false ∧ ((takenReads s q b).any fun r => bytesWait s (qCtx s q) r.1 r.2) = false then
      some { touchAll (launchAt s q b) (qCtx s q) (takenReads s q b) with serveFrom := tset (fun _ => 0) s.serveFrom (qPrio s q) (q + 1) }
    else none
  | .err 1 cause => some (packetError s q 1 cause)
  | _ => none

/-- LAUNCH (log 99). -/
def execLaunch (q : Nat) (s : State) : Res State := happens s (evLaunch q s)

/-! ## Wait packets (R323) -/

/-- Dispatch a wait packet: its units are read, and its rounds begin. -/
def startWait (s : State) (q : Nat) (b : List Byte) : State :=
  let i := qRd s q
  let w : Flight := ⟨q, i, b, parentAt s q i⟩
  touchAll (passUnits { s with flights := s.flights ++ [w] } q 4) (qCtx s q) (unitReads s q i 4)

def evWaitall (q : Nat) (s : State) : Option State :=
  match dispatchable s q with
  | .ok b => if pkType b = 2 then some (startWait s q b) else none
  | .err 2 cause => some (packetError s q 2 cause)
  | _ => none

/-- WAITALL (log 99). -/
def execWaitall (q : Nat) (s : State) : Res State := happens s (evWaitall q s)

def evWaitany (q : Nat) (s : State) : Option State :=
  match dispatchable s q with
  | .ok b => if pkType b = 3 then some (startWait s q b) else none
  | .err 3 cause => some (packetError s q 3 cause)
  | _ => none

/-- WAITANY (log 99). -/
def execWaitany (q : Nat) (s : State) : Res State := happens s (evWaitany q s)

/-- The conditions of a wait packet. -/
def flightConds (b : List Byte) : List WaitCond :=
  (List.range (blkN b 8 1)).map fun i => ⟨blkN b (64 + 16 * i) 8, blkN b (72 + 16 * i) 8, blkN b (16 + i) 1⟩

/-- One round reads every address in order: none where one fails translation or its completion is an error, else whether the packet is
satisfied; a poisoned value satisfies nothing (log 93). -/
def roundHolds (s : State) (w : Flight) : Option Bool :=
  let vs := (flightConds w.packet).map fun c => match condRead s (qCtx s w.queue) c with
    | .holds v => some v
    | .failed .poison _ => some false
    | .failed _ _ => none
  if vs.any Option.isNone then none
  else
    let bs := vs.map fun v => v.getD false
    some (if pkType w.packet = 2 then bs.all id else bs.any id)

/-- What a round leaves at the homes of its addresses. -/
def roundTouch (s : State) (w : Flight) : State := condsTouch false s (qCtx s w.queue) (flightConds w.packet)

def dropFlight (s : State) (w : Flight) : State := { s with flights := s.flights.filter fun x => decide (x ≠ w) }

/-- A round of the wait packet of a queue. -/
def evWaitRound (q : Nat) (s : State) : Option State :=
  match s.flights.find? fun w => decide (w.queue = q) with
  | none => none
  | some w => match roundHolds s w with
    | none => some (queueError (dropFlight (roundTouch s w) w) q 5 w.unit)
    | some true => some (dropFlight (roundTouch s w) w)
    | some false => some (roundTouch s w)

/-- WAIT_ROUND (log 99). -/
def execWaitRound (q : Nat) (s : State) : Res State := happens s (evWaitRound q s)

/-! ## Signal packets (R324) -/

/-- A SIGNAL packet updates its address once everything before it in its queue has completed. -/
def evSignalPacket (q : Nat) (s : State) : Option State :=
  match dispatchable s q with
  | .ok b =>
    if pkType b = 4 ∧ completionWaits s (qCtx s q) 0 (blkN b 8 8) = false then
      let passed := fun t => touchAll (passUnits t q 1) (qCtx s q) (unitReads s q (qRd s q) 1)
      match signalUpdate s (qCtx s q) (blkN b 8 8) (pkFlag b 12) (BitVec.ofNat 64 (blkN b 16 8)) with
      | none => some (passed (queueError (signalLeft s (qCtx s q) (blkN b 8 8)) q 5 (qRd s q)))
      | some t =>
        let t := passed t
        some (if pkFlag b 13 then raiseVec t (qVec t q) else t)
    else none
  | .err 4 cause => some (packetError s q 4 cause)
  | _ => none

/-- SIGNAL_PACKET (log 99). -/
def execSignalPacket (q : Nat) (s : State) : Res State := happens s (evSignalPacket q s)

/-! ## Completion of a grid (01 R41; R322, R325; 10 R281) -/

/-- The two grids of a fused pair, the producer first; or the grid alone. -/
def fusedGrids (s : State) (g : Grid) : List Grid :=
  if g.fuseId = 0 then [g]
  else s.grids.filter (fun h => decide (h.fuseId = g.fuseId) && !h.consumer)
    ++ s.grids.filter (fun h => decide (h.fuseId = g.fuseId) && h.consumer)

/-- Every group of the grid has finished and every child is complete. -/
def gridDone (s : State) (g : Grid) : Bool := decide (g.left = 0) && !(childPending s fun p => decide (p.seq = g.seq))

/-- Grid `k` completes: for a fused pair both, the producer first. -/
def evGridComplete (k : Nat) (s : State) : Option State :=
  match s.grids[k]? with
  | none => none
  | some g =>
    let gs := fusedGrids s g
    if gs.all (fun g => gridDone s g && !(completionWaits s g.ctx g.rec_ g.sig)) then
      let s := { s with grids := s.grids.filter fun h => !(gs.contains h),
                        claims := s.claims.filter fun q => !(gs.any fun h => decide (h.id = q.id.grid)) }
      some (gs.foldl completeLaunch s)
    else none

/-- GRID_COMPLETE (log 99). -/
def execGridComplete (k : Nat) (s : State) : Res State := happens s (evGridComplete k s)

end Sys2Proof.Machine
end

