-- ==== Sys2Proof/Machine/Gang.lean ====
section
/-! DEFINITION. Gangs on their cores (spec/19 R327 to R335; spec/20 R342, R345 to R348; spec/01 R33, R36, R42; spec/04 R120, R122; spec/10
R274, R276, R281, R408; spec/18 R301, R307): bind records, preloads, the switch, budgets, capture, discard and the end of a task. -/

namespace Sys2Proof.Machine
open Sys2Proof

/-! ## Bind records (19 R327) -/

/-- A bind record. -/
structure Bind where
  gridId : Nat
  x : Nat
  y : Nat
  z : Nat
  stage : Nat
  task : Nat
  wide : Bool
  claim : Bool
  bank : Nat
  pre : Bool
  prs : Bool
  resume : Bool
  fuseId : Nat
  segtab : Nat
  ctx : Nat
  gang : Nat
  nseg : Nat
  save : Nat
  budget : Nat
  args : Nat
  deriving DecidableEq, Repr

/-- The record at an MMIO address. -/
def bindAt (s : State) (a : Nat) : Bind :=
  let w0 := (s.reg a).toNat
  let w1 := (s.reg (a + 8)).toNat
  let w3 := (s.reg (a + 24)).toNat
  ⟨bitsAt w0 0 32, bitsAt w0 32 16, bitsAt w0 48 16, bitsAt w1 0 16, bitsAt w1 16 4, bitsAt w1 20 2, decide (bitsAt w1 22 1 = 1),
    decide (bitsAt w1 23 1 = 1), bitsAt w1 24 1, decide (bitsAt w1 25 1 = 1), decide (bitsAt w1 26 1 = 1), decide (bitsAt w1 27 1 = 1),
    bitsAt w1 32 32, (s.reg (a + 16)).toNat, bitsAt w3 0 16, bitsAt w3 16 16, bitsAt w3 32 32, (s.reg (a + 32)).toNat,
    (s.reg (a + 40)).toNat, (s.reg (a + 48)).toNat⟩

/-- The next record of a core. -/
def nextBind (s : State) (c : Nat) : Bind := bindAt s (slotAddr c + 64)

/-- The grid of a record. -/
def gridOf (s : State) (b : Bind) : Option Grid := s.grids.find? fun g => decide (g.id = b.gridId)

/-- The producer and consumer of a fused record. -/
def pairOf (s : State) (b : Bind) : Option (Grid × Grid) :=
  if b.fuseId = 0 then none
  else match s.grids.find? (fun g => decide (g.fuseId = b.fuseId) && !g.consumer),
      s.grids.find? (fun g => decide (g.fuseId = b.fuseId) && g.consumer) with
    | some g, some h => some (g, h)
    | _, _ => none

/-- The task of a record claims its hearth: by its own bit, or as a fused one of which either launch does (10 R279). -/
def claims (s : State) (b : Bind) : Bool := b.claim || (match pairOf s b with
  | some (g, _) => g.claim
  | none => false)

/-- The group of a record. -/
def Bind.groupId (b : Bind) : GroupId := ⟨b.gridId, b.stage, b.x, b.y, b.z⟩

def setBits (s : State) (a : Nat) (clear set : Word) : State := s.setReg a ((s.reg a &&& ~~~clear) ||| set)

/-- The cores whose next records carry a gang. -/
def nextCores (s : State) (g : Nat) : List Nat := (List.range 128).filter fun d => nextValid s d && decide ((nextBind s d).gang = g)

/-! ## A next record (R328) -/

/-- The task on a core is leaving it, whatever its conditions become: it is to be captured or ended (R330). -/
def leaving (k : Core) : Bool := match k.why with
  | none | some .waity => false
  | some _ => true

/-- A claiming group that stands on a core leaves it before the gang `g` comes: it is leaving, or the gang takes a core of it. -/
def givesWay (s : State) (k : Core) (g c : Nat) : Bool :=
  leaving k || (gangCores s k.ident.gang).any fun d => decide (d = c) || (nextValid s d && decide ((nextBind s d).gang = g))

/-- The record of core `c` would bind a second claiming group to its hearth: beside one that stands there and does not give way, or beside one
whose next record is in force (R328). -/
def claimConflict (s : State) (c : Nat) (b : Bind) : Bool :=
  claims s b && (List.range 4).any fun j =>
    let d := hearthOf c * 4 + j
    let k := s.core d
    (k.bound && k.ident.claim && decide (k.ident.groupId ≠ b.groupId) && !(givesWay s k b.gang c))
    || (decide (d ≠ c) && nextValid s d && claims s (nextBind s d) && decide ((nextBind s d).groupId ≠ b.groupId))

/-- What a grotto slot's record must not have (R327). -/
def grottoBad (c : Nat) (b : Bind) : Bool := isGrotto c && (decide (b.bank ≠ 0) || b.wide || b.claim || b.prs)

/-- The record puts a group on a core of the other kind than its image's, or on another stack than its launch names (R319, R321). -/
def kindBad (s : State) (c : Nat) (b : Bind) : Bool := match gridOf s b with
  | none => false
  | some g => decide (isGrotto c ≠ decide (g.flags / 4 % 2 = 1)) || (match g.gstack with
    | some st => decide ((c - 64) / 8 ≠ st)
    | none => false)

/-- A record that is ignored. -/
def recordBad (s : State) (c : Nat) (b : Bind) : Bool := claimConflict s c b || grottoBad c b || kindBad s c b

/-! ## The choice of a hearth group (24 R403) -/

/-- The firmware binds no group to a hearth that a macro judged lasting waits for (23 R399). -/
def bindStopped (s : State) (h : Nat) : Bool := s.lasting.any fun m => decide (m.1 = h)

/-- A hearth group is free: no task stands on its cores, no next record of theirs is in force, and groups may be bound to it. -/
def hearthFree (s : State) (h : Nat) : Bool :=
  !(bindStopped s h) && (List.range 4).all fun j => !(s.core (4 * h + j)).bound && !(nextValid s (4 * h + j))

/-- The place of a hearth in the firmware's order: those whose stack term applies last, the coolest first, the lower number first. -/
def hearthRank (s : State) (h : Nat) : Nat :=
  (if s.reg (mcReg (h / 2) 40) = 0 then 0 else 4096) + bitsAt (s.reg (0x0E0007300000 + 8 * h)).toNat 0 8 * 16 + h

/-- The free hearth group that the shipped firmware takes for a claiming group, where there is one. -/
def chosenHearth (s : State) : Option Nat :=
  ((List.range 16).filter (hearthFree s)).foldl (fun b h => match b with
    | none => some h
    | some x => if hearthRank s h < hearthRank s x then some h else some x) none

/-- The firmware puts a claiming group where R403 says: the group's first record names the hearth, the others follow it; while no hearth is
free, it binds none (log 64). -/
def hearthChosen (s : State) (c : Nat) (b : Bind) : Bool :=
  !(claims s b) || isGrotto c || (match (nextCores s b.gang).find? fun d => decide ((nextBind s d).groupId = b.groupId) with
    | some d => decide (hearthOf c = hearthOf d)
    | none => !(bindStopped s (hearthOf c)) && (match chosenHearth s with
      | some h => decide (hearthOf c = h)
      | none => false))

/-- The firmware sets VALID of a next record: it is in force, or is ignored with event 4 (R328, R335); a record in force already stays as
it is. -/
def evNextRecordValid (c : Nat) (s : State) : Option State :=
  let b := nextBind s c
  if nextValid s c then some s
  else if recordBad s c b then some (postEvent s 4 c b.gridId (BitVec.ofNat 64 c))
  else if hearthChosen s c b then
    let s := setBits (s.setReg (slotAddr c + 120) 1) (slotCtl c) 24 0
    some (s.modCore c fun k => { k with filled := false, imem := { k.imem with pre := none } })
  else none

/-- NEXT_RECORD_VALID (log 99). -/
def execNextRecordValid (c : Nat) (s : State) : Res State := happens s (evNextRecordValid c s)

/-! ## Contents of a scratchpad at the start (18 R307; 10 R408) -/

/-- The task's local range as it will stand on core `c`: physical base and bytes. -/
def bindRange (c : Nat) (b : Bind) : Nat × Nat :=
  if isGrotto c then (Config.gspadBase + (c - 64) * 0x80000, 0x80000)
  else if b.wide then (Config.spadBase + c * 0x400000, 0x400000)
  else (Config.spadBase + c * 0x400000 + b.bank * 0x200000, 0x200000)

def dropCells (m : List Host.Cell) (lo n : Nat) : List Host.Cell := m.filter fun p => !(decide (lo ≤ p.1) && decide (p.1 < lo + n))
def takeCells (m : List Host.Cell) (lo n : Nat) : List Host.Cell := m.filter fun p => decide (lo ≤ p.1) && decide (p.1 < lo + n)

/-- Put cells into a memory, one by one. -/
def putCells (m : List Host.Cell) (l : List Host.Cell) : List Host.Cell := l.foldl (fun m p => memSet m p.1 p.2) m

/-- A range reads as zero: its bytes, poison and standing bit errors are gone. -/
def zeroRange (s : State) (lo n : Nat) : State :=
  let inside := fun a => decide (lo ≤ 32 * a) && decide (32 * a < lo + n)
  { s with mem := dropCells s.mem lo n, poison := s.poison.filter (fun a => !inside a), flips := s.flips.filter fun p => !inside p.1 }

/-- The bytes of a list, nonzero ones as cells from an address on. -/
def cellsFrom (a : Nat) (l : List Byte) : List Host.Cell :=
  (l.zipIdx.map fun p => (a + p.2, p.1)).filter fun p => decide (p.2 ≠ unlisted)

/-- The data section of a stage's program; a part that cannot be read is zero. -/
def dataOf (s : State) (g : Grid) (stage : Nat) : List Byte :=
  let d := (g.descs[stage]?).getD []
  (readBytes s g.ctx (g.image + blkN d 16 8) (blkN d 12 4)).getD []

/-- The offset lies in a tile-handle entry that the program marks, in a program that never writes THBASE. -/
def inEntry (h : List Byte) (o : Nat) : Bool := !hdrFlag h 5 && (match hdrTab h with
  | some t => (members (hdrMasks h).th 256).any fun i => decide (t + 32 * i ≤ o) && decide (o < t + 32 * i + 32)
  | none => false)

/-- The bytes of a consumer's data section that are copied, with their offsets: those in its local range, but for the entries that `.tile`
places (14 R292, 10 R408; log 95). -/
def consumerData (h : List Byte) (d : List Byte) : List (Nat × Byte) :=
  (d.zipIdx.map fun p => (p.2, p.1)).filter fun p => decide (blkN h 24 4 ≤ p.1) && decide (p.1 ≤ blkN h 28 4) && !inEntry h p.1

/-- Fill the local range for a task that starts: R307, or R408 for a fused pair, whose consumer's handle entries come from data offset 0 where its
header has no tile table (log 95). -/
def fillRange (s : State) (c : Nat) (b : Bind) : State :=
  let (base, n) := bindRange c b
  let s0 := zeroRange s base n
  match pairOf s b with
  | none => match gridOf s b with
    | none => s0
    | some g => { s0 with mem := putCells s0.mem (cellsFrom base (dataOf s g b.stage)) }
  | some (g, h) =>
    let d := dataOf s h 0
    let m1 := putCells s0.mem (cellsFrom base (dataOf s g 0))
    let m2 := putCells m1 ((consumerData h.header d).map fun p => (base + p.1, p.2))
    let places : List (Nat × Nat) := match g.plan with
      | none => []
      | some f => (entryPlaces g.header h.header f.fus.ren).filter fun e => decide (e.2 + 32 ≤ n)
    let t := (hdrTab h.header).getD 0
    { s0 with mem := places.foldl (fun m e =>
        memSetBytes m (base + e.2) ((List.range 32).map fun j => (d[t + 32 * e.1 + j]?).getD 0)) m2 }

/-! ## The save area (20 R346) -/

/-- The 16 entries of an age queue, newest first. -/
def ageList {α : Type} (t : Nat → α) (cnt : Nat) : List α := (List.range 16).map fun i => t (agePos cnt (i + 1))

/-- Pack a list of numbers of `w` bytes each. -/
def packList (w : Nat) (l : List Nat) : Nat := l.foldr (fun v r => v % 256 ^ w + 256 ^ w * r) 0

/-- Every item but queues and scratchpad: offset, bytes and value. Those of a resource that a grotto core lacks (01 R34; 05 R156) have no entry. -/
def saveItems (s : State) (c : Nat) : List (Nat × Nat × Nat) :=
  let g := isGrotto c
  let k := s.core c
  let num := fun (n : Nat) (g : Nat → Nat) => (List.range n).map g
  let held := decide ((s.hearth (hearthOf c)).holder = some c) && !g
  let rec_ : List Nat := num 16 fun i => (s.reg (recAddr c + 8 * i)).toNat
  [(0x0, 8, 0xA5C2 + (if k.ident.wide then 2 ^ 16 else 0) + (if g then 2 ^ 17 else 0) + (if k.handling then 2 ^ 18 else 0)
      + (if held then 2 ^ 19 else 0) + 2 ^ 24),
   (0x100, 640, packList 8 (num 64 (fun i => (tget (fun _ => (0 : Word)) k.t.s i).toNat)
      ++ ageList (fun i => (tget (fun _ => (0 : Word)) k.t.saq i).toNat) k.t.sapc)),
   (0x380, 40, packList 8 [(k.t.g ||| 1).toNat, k.lcount.toNat, k.vs.rrb.toNat, k.lstat.toNat, k.t.vflags.toNat]),
   (0x3B0, 32, packList 8 [k.probecfg.toNat, k.tcycle.toNat, k.segstall.toNat, (llUsed s k.ident.ctx).toNat]),
   (0x400, if g then 1024 else 2048, packList 128 (num (if g then 8 else 16) fun i => if i = 0 then allCells.toNat else (tget (fun _ => (0 : PReg)) k.vs.p i).toNat)),
   (0xE00, 512, packList 64 ((List.range 4).flatMap fun i => [(tget (fun _ => (0 : BitVec 512)) k.shp (4 + i)).toNat,
      (tget (fun _ => (0 : BitVec 512)) k.shd (4 + i)).toNat])),
   (0x1000, 2048, packList 8 (num 256 fun i =>
      let b := tget (fun _ => Barrier.reset) k.bars i
      (b.cnt - 1) + b.arr * 2 ^ 6 + (match b.pendCnt with
        | some n => (n - 1) * 2 ^ 12 + 2 ^ 18
        | none => 0) + b.gen.toNat * 2 ^ 32)),
   (0x1800, 2048, packList 8 (num 256 fun i => match tget (fun _ => none) k.arecs i with
      | some r => 1 + r.stage * 2 + r.task * 2 ^ 5 + r.gen.toNat * 2 ^ 32
      | none => 0)),
   (0x2180, 64, packList 8 (num 8 fun i => (tget (fun _ => (0 : Word)) k.wp i).toNat)),
   (0x21C0, 128, packList 32 (num 4 fun i => (tget (fun _ => (0 : BitVec 256)) k.vs.ct i).toNat)),
   (0x2400, 128, packList 8 rec_),
   (0x4000, 0x8000, packList 8 (num 4096 fun i =>
      let t := tget (fun _ => Tag.reset) k.tags i
      t.block % 2 ^ 40 + (if t.valid then 2 ^ 40 else 0) + (if t.locked then 2 ^ 41 else 0) + t.age % 4 * 2 ^ 42
        + (if t.fill.isSome then 2 ^ 44 else 0))),
   (0x20000, if g then 0x20000 else 0x60000, packList 4096 (num (if g then 32 else 96) fun i => (tget (fun _ => (0 : VReg)) k.vs.v i).toNat)),
   (0x90000, 0x10000, packList 4096 (ageList (fun i => (tget (fun _ => (0 : VReg)) k.vs.vaq i).toNat) k.vs.apc))]
  ++ if g then [] else
  [(0x3A8, 8, k.thbase.toNat),
   (0xC00, 512, packList 64 ((List.range 4).flatMap fun i => [(tget (fun _ => (0 : BitVec 512)) k.shp i).toNat,
      (tget (fun _ => (0 : BitVec 512)) k.shd i).toNat])),
   (0x2000, 256, packList 16 (num 16 fun i => match ringOf k i with
      | some r => r.wordA.toNat + r.wordB.toNat * 2 ^ 64
      | none => 0)),
   (0x2100, 128, packList 8 (num 16 fun i => let h := tget (fun _ => RingHome.reset) k.ringHome i; h.pp.toNat + h.cp.toNat * 2 ^ 32)),
   (0x2240, 8, k.vs.active),
   (0x2280, 64, packList 4 (num 16 fun i => match (tget (fun _ => RingHome.reset) k.ringHome i).pair with
      | some (p, q) => p + q * 2 ^ 8 + 2 ^ 16
      | none => 0)),
   (0xC000, 0x10000, packList 512 (num 128 fun i => (tget (fun _ => (0 : BitVec 4096)) k.vs.sh i).toNat)),
   (0x80000, 0x10000, packList 4096 (num 16 fun i => (tget (fun _ => (0 : VReg)) k.vs.vo i).toNat))]

/-- Merge two queues in the order of their numbers; a mark or fence stands in both and is listed once. -/
def queueOrder (x : SCtx) : List Acc :=
  (x.loadQ ++ (x.storeQ.filter fun a => match a.kind with
    | .mark | .fence _ => false
    | _ => true) ++ x.lineQ).foldl (fun l a => insAcc a l) []

/-- The accesses of an entry of a queue: each element that a gather or scatter has left is one (09 R244, R252). -/
def accParts (a : Acc) : List Acc := if a.elems then a.pieces.map fun p => { a with pieces := [p], addr := p.addr } else [a]

/-- Data bytes of an access by its HOP word: a store, an atomic, a SIGNAL or a DQADV keeps the bytes of its width. -/
def itemLen (hop : Nat) : Nat :=
  if hop / 32 % 2 = 0 then 0 else if hop / 256 % 256 = 255 then 4096 else hop / 256 % 256 + 1

/-- An item of the queue section: the descriptor of one access and its data. -/
def itemBytes (a : Acc) : List Byte :=
  toBytes 8 (hopWord a) ++ toBytes 8 a.addr ++ toBytes 16 0 ++ toBytes ((itemLen (hopWord a) + 31) / 32 * 32) a.dataNum

/-- The accesses, in queue order, whose items still fit into a section with room for `n` bytes: the section has 512 KiB and its count (log
104). -/
def fitting : List Acc → Nat → List Acc
  | [], _ => []
  | a :: rest, n =>
    let len := ((accParts a).map fun p => (itemBytes p).length).sum
    if len ≤ n then a :: fitting rest (n - len) else []

def queueFit (x : SCtx) : List Acc := fitting (queueOrder x) (0x80000 - 8)

/-- The queue section: the count, then each access's descriptor and data. -/
def queueBytes (x : SCtx) : List Byte :=
  let q := (queueFit x).flatMap accParts
  toBytes 8 q.length ++ q.flatMap itemBytes

/-- Bytes of a save area. -/
def saveSize (wide : Bool) : Nat := if wide then 0x600000 else 0x400000

/-- Where the pieces of a ring access stand for another binding: stage and task of the home, and the offset in its range. -/
def packPiece (s : State) (c : Nat) (a : Acc) (p : Piece) : Piece :=
  match a.space, p.pa with
  | .ring, some x => match (List.range 128).find? fun d =>
      (s.core d).bound && decide ((s.core d).ident.gang = (s.core c).ident.gang) && decide (localBase d (s.core d) ≤ x.pa)
        && decide (x.pa < localBase d (s.core d) + localSize d (s.core d)) with
    | some d => { p with pa := some (.plain (x.pa - localBase d (s.core d) + (s.core d).ident.task * 2 ^ 32 + (s.core d).ident.stage * 2 ^ 36)) }
    | none => p
  | _, _ => p

def packAcc (s : State) (c : Nat) (a : Acc) : Acc := { a with pieces := a.pieces.map (packPiece s c a) }

/-- What a context keeps beside the bytes of R346. -/
def sideRecord (s : State) (c : Nat) : Saved :=
  let k := s.core c
  ⟨k.toksts, k.exited, k.finished, k.pcode, k.t.loadQ.map (packAcc s c), k.t.storeQ.map (packAcc s c), k.t.lineQ, k.reports, k.t.sapc,
    k.vs.apc, k.t.seq, k.t.pc, k.t.last, k.resume, k.bawait, k.t.drn, k.handlerDeferred⟩

/-- A number with `n` of its bytes from byte `o` on replaced. -/
def overlay (v o n x : Nat) : Nat := v - bitsAt v (8 * o) (8 * n) * 2 ^ (8 * o) + x % 2 ^ (8 * n) * 2 ^ (8 * o)

/-- The first 2 MiB of a save area: the listed items and the queue section, over unpredictable bytes. -/
def saveHead (s : State) (c : Nat) : Nat :=
  let queue := queueBytes (s.core c).t
  overlay ((saveItems s c).foldl (fun v p => overlay v p.1 p.2.1 p.2.2) (Config.free (8 * 0x200000) (fkey s 0 0)).toNat)
    0xA0000 queue.length (ofBytes queue)

/-- Save the context of a core to its SAVE, at the homes of the area: the head, the scratchpad with its poison, and unpredictable bytes
behind it. -/
def saveContext (s : State) (c : Nat) : State :=
  let k := s.core c
  let a := k.ident.save
  let n := localSize c k
  let tail := saveSize k.ident.wide - 0x200000 - n
  let t := storePhys { s with fresh := s.fresh + 1 } a 0x200000 (saveHead s c)
  let t := copyPhys t (localBase c k) (a + 0x200000) n
  let t := storePhys t (a + 0x200000 + n) tail (Config.free (8 * tail) (fkey s 0 1)).toNat
  { t with saved := tput t.saved a (some (sideRecord s c)) }

/-! ## Restoring a context (20 R347) -/

/-- Table of the entries of a save-area item that differ from their default. -/
def tabFrom {α : Type} [DecidableEq α] (d : Nat → α) (n : Nat) (g : Nat → α) : Tab α :=
  (List.range n).foldl (fun t i => tset d t i (g i)) []

/-- A descriptor of a queue section with its data. -/
structure QItem where
  hop : Nat
  addr : Nat
  data : Nat
  deriving DecidableEq, Repr

/-- `n` bytes of a save area from offset `o` on. -/
def areaAt (v o n : Nat) : Nat := bitsAt v (8 * o) (8 * n)

/-- The `n` descriptors from offset `o` on. -/
def readItems (v : Nat) : Nat → Nat → List QItem
  | 0, _ => []
  | n + 1, o =>
    let hop := areaAt v o 8
    let len := itemLen hop
    ⟨hop, areaAt v (o + 8) 8, areaAt v (o + 32) len⟩ :: readItems v n (o + 32 + (len + 31) / 32 * 32)

/-- The queue section of a save area: at most as many entries as it has room for. -/
def savedItems (v : Nat) : List QItem := readItems v (min (areaAt v 0xA0000 8) 16384) 0xA0008

/-- A part of an entry whose address has become `b` where it was `a`, cut at 32-byte sectors; a ring's parts stand by their home. -/
def movePiece (sp : Space) (a b : Nat) (p : Piece) : List Piece :=
  let x := wrapNat 64 ((p.addr : Int) - a + b)
  if sp = .ring then [{ p with addr := x }] else (sectors x (p.len / 32 + 2) p.len).map fun e => ⟨e.1, e.2, p.off + (e.1 - x), p.pa⟩

/-- An entry as its descriptor gives it: the address and data of the bytes; its destination, its token and what else no descriptor holds are
kept beside them. -/
def accOfItem (a : Acc) (q : QItem) : Acc :=
  let kind := match a.kind with
    | .atom op _ cmp old tk fl sc => .atom op (BitVec.ofNat 64 q.data) cmp old tk fl sc
    | .dqadv n _ => .dqadv n (BitVec.ofNat 64 q.data)
    | k => k
  { a with kind := kind, opc := q.hop % 32, addr := q.addr,
           pieces := a.pieces.flatMap (movePiece a.space a.addr q.addr),
           data := if q.hop / 32 % 2 = 1 then BitVec.ofNat 32768 q.data else a.data }

/-- An element of a gather or scatter as its descriptor gives it. -/
def pieceOfItem (p : Piece) (q : QItem) : Piece := { p with addr := q.addr }

/-- The data of a scatter with the elements that its descriptors give. -/
def elemData (v : VReg) (l : List (Piece × QItem)) : VReg :=
  l.foldl (fun v e => BitVec.ofNat 32768 (v.toNat - bitsAt v.toNat (8 * e.1.off) (8 * e.1.len) * 2 ^ (8 * e.1.off)
    + e.2.data % 2 ^ (8 * e.1.len) * 2 ^ (8 * e.1.off))) v

/-- Bytes of an access by its HOP word: 0xFF is 4,096 (R339), for the fill of a PROBE its 256. -/
def itemWidth (hop : Nat) : Nat :=
  if hop / 256 % 256 = 255 then (if hop % 64 = 11 then 256 else 4096) else hop / 256 % 256 + 1

/-- An entry that only the bytes name: a store of its data, or a load that lands nowhere. -/
def accOfBytes (seq : Nat) (q : QItem) : Acc :=
  let n := itemWidth q.hop
  let sp : Space := match q.hop / 64 % 4 with
    | 0 => .glob | 1 => .loc | _ => .ring
  ⟨seq, if q.hop / 32 % 2 = 1 then .st else .ldS n false, .none, sp, q.hop % 32, 0, q.addr, false,
    (sectors q.addr (n / 32 + 2) n).map fun e => ⟨e.1, e.2, e.1 - q.addr, none⟩, BitVec.ofNat 32768 q.data, false, true, false⟩

/-- The entries of a queue as the bytes of its section give them, in their order; one whose descriptor is gone is gone. Each element of a
scatter is an entry of its own, as each is held (09 R252). -/
def entriesOf : List Acc → List QItem → Nat → List Acc
  | [], qs, seq => qs.zipIdx.map fun q => accOfBytes (seq + q.2) q.1
  | _ :: _, [], _ => []
  | a :: rest, q :: qs, seq =>
    if a.elems then
      let l := a.pieces.zip (q :: qs)
      (if a.kind = .st then l.map fun e =>
          { a with pieces := [pieceOfItem e.1 e.2], addr := e.2.addr, opc := e.2.hop % 32, data := elemData a.data l }
       else [{ a with pieces := l.map (fun e => pieceOfItem e.1 e.2), addr := q.addr, opc := q.hop % 32 }])
        ++ entriesOf rest ((q :: qs).drop a.pieces.length) seq
    else accOfItem a q :: entriesOf rest qs seq

/-- The load queue, the store queue and the held line operations among entries in program order. -/
def loadEntries (l : List Acc) : List Acc := l.filter fun a => match a.kind with
  | .ldS _ _ | .ldV | .fill | .mark | .fence _ => true
  | _ => false
def storeEntries (l : List Acc) : List Acc := l.filter fun a => match a.kind with
  | .st | .atom _ _ _ _ _ _ _ | .sig _ | .dqadv _ _ | .mark | .fence _ => true
  | _ => false
def lineEntries (l : List Acc) : List Acc := l.filter fun a => match a.kind with
  | .line _ => true
  | _ => false

/-- The queue entry re-enters its queue marked held; its local parts lie in the new core's range, its ring parts in the home's. -/
def unpackAcc (s : State) (c : Nat) (a : Acc) : Acc :=
  let hold := match a.kind with
    | .mark | .fence _ => false
    | _ => true
  { a with held := hold, freed := false, pieces := a.pieces.map fun p => match a.space, p.pa with
    | .loc, _ => { p with pa := some (.plain (localBase c (s.core c) + p.addr)) }
    | .ring, some x => match laneCore s c (x.pa / 2 ^ 36) (x.pa / 2 ^ 32 % 16) with
      | some d => { p with pa := some (.plain (localBase d (s.core d) + x.pa % 2 ^ 32)) }
      | none => p
    | .glob, _ => { p with pa := none }
    | _, none => p }

/-- The fields that a shape register has; the bits above them read zero (01 R25). -/
def shapeBits : BitVec 512 := BitVec.ofNat 512 (2 ^ 387 - 1)

/-- The fields of the two words of a ring descriptor; the reserved bits are zero (09 R262). -/
def ringBitsA : Word := 0xFF3FFFFF
def ringBitsB : Word := 0x00FFFFFF

/-- The fields of a fault record's word at +8 i; the reserved bits and words read zero (R339). -/
def recMask (i : Nat) : Word := if i = 6 then 0xFFFFFFFFFFFFF else if i = 7 ∨ 12 ≤ i then 0 else BitVec.allOnes 64

/-- The entries of a saved context's queues: those of the section as its bytes give them, then those it had no room for. -/
def savedEntries (sv : Saved) (v : Nat) : List Acc :=
  let side : SCtx := { SCtx.reset with loadQ := sv.loadQ, storeQ := sv.storeQ, lineQ := sv.lineQ }
  entriesOf (queueFit side) (savedItems v) sv.seq ++ (queueOrder side).drop (queueFit side).length

/-- A restored context, from the head `v` of its save area and what is kept beside it. A resource that a grotto core lacks stays as at reset. -/
def restoreCore (sv : Saved) (v : Nat) (g : Bool) (k : Core) : Core :=
  let rd := areaAt v
  let w := fun (o : Nat) => BitVec.ofNat 64 (rd o 8)
  let aged := fun (cnt i : Nat) => (cnt + 16 * 2 - 1 - i) % 16
  let recValid := decide (rd 0 8 / 2 ^ 18 % 2 = 1)
  let pend := if recValid then w (0x2400 + 64) else 0
  let es := savedEntries sv v
  let fillOf := fun (slot : Nat) => (es.reverse.findSome? fun e => match e.dest with
    | .fill _ n _ => if n = slot then some e.seq else none
    | _ => none)
  { k with
    run := if recValid then .handler else .run
    t := { k.t with
      s := tabFrom (fun _ => 0) 64 fun i => if i = 0 then 0 else w (0x100 + 8 * i)
      saq := tabFrom (fun _ => 0) 16 fun p => w (0x100 + 512 + 8 * aged sv.sapc p)
      sapc := sv.sapc
      g := BitVec.ofNat 16 (rd 0x380 2) &&& 0xFFFE
      vflags := BitVec.ofNat 5 (rd 0x3A0 1)
      pc := sv.pc
      last := sv.last
      drn := sv.drn
      loadQ := loadEntries es
      storeQ := storeEntries es
      lineQ := lineEntries es
      seq := sv.seq + es.length }
    vs := { k.vs with
      v := tabFrom (fun _ => 0) (if g then 32 else 96) fun i => BitVec.ofNat 32768 (rd (0x20000 + 4096 * i) 4096)
      vo := if g then [] else tabFrom (fun _ => 0) 16 fun i => BitVec.ofNat 32768 (rd (0x80000 + 4096 * i) 4096)
      vaq := tabFrom (fun _ => 0) 16 fun p => BitVec.ofNat 32768 (rd (0x90000 + 4096 * aged sv.apc p) 4096)
      apc := sv.apc
      p := tabFrom (fun _ => 0) (if g then 8 else 16) fun i => if i = 0 then 0 else BitVec.ofNat 1024 (rd (0x400 + 128 * i) 128)
      sh := if g then [] else tabFrom (fun _ => 0) 128 fun i => BitVec.ofNat 4096 (rd (0xC000 + 512 * i) 512)
      active := if g then 0 else rd 0x2240 1 % 2
      ct := tabFrom (fun _ => 0) 4 fun i => BitVec.ofNat 256 (rd (0x21C0 + 32 * i) 32)
      rrb := BitVec.ofNat 6 (rd 0x390 1) }
    shp := tabFrom (fun _ => 0) 8 fun i => if g && decide (i < 4) then 0 else BitVec.ofNat 512 (rd (0xC00 + 128 * i) 64) &&& shapeBits
    shd := tabFrom (fun _ => 0) 8 fun i => if g && decide (i < 4) then 0 else BitVec.ofNat 512 (rd (0xC40 + 128 * i) 64) &&& shapeBits
    tkPending := pend
    bars := tabFrom (fun _ => Barrier.reset) 256 fun i =>
      let b := rd (0x1000 + 8 * i) 8
      ⟨bitsAt b 0 6 + 1, bitsAt b 6 6, BitVec.ofNat 32 (b / 2 ^ 32), if bitsAt b 18 1 = 1 then some (bitsAt b 12 6 + 1) else none⟩
    arecs := tabFrom (fun _ => none) 256 fun i =>
      let r := rd (0x1800 + 8 * i) 8
      if r % 2 = 1 then some ⟨bitsAt r 1 4, bitsAt r 5 2, BitVec.ofNat 32 (r / 2 ^ 32), 0, true⟩ else none
    bawait := sv.bawait
    rings := if g then [] else tabFrom (fun _ => none) 16 fun i =>
      let r : Ring := ⟨w (0x2000 + 16 * i) &&& ringBitsA, w (0x2008 + 16 * i) &&& ringBitsB⟩
      if r = ⟨0, 0⟩ then none else some r
    ringHome := if g then [] else tabFrom (fun _ => RingHome.reset) 16 fun i =>
      let p := rd (0x2280 + 4 * i) 4
      ⟨BitVec.ofNat 32 (rd (0x2100 + 8 * i) 4), BitVec.ofNat 32 (rd (0x2104 + 8 * i) 4),
        if bitsAt p 16 1 = 1 then some (bitsAt p 0 8, bitsAt p 8 8) else none⟩
    wp := tabFrom (fun _ => 0) 8 fun i => w (0x2180 + 8 * i)
    lcount := w 0x388
    lstat := w 0x398 &&& 0xFFFFFFFF000007FF
    thbase := if g then 0 else w 0x3A8
    probecfg := w 0x3B0 &&& 0x80000000000F07FF
    tcycle := w 0x3B8
    segstall := w 0x3C0
    tags := tabFrom (fun _ => Tag.reset) 4096 fun i =>
      let t := rd (0x4000 + 8 * i) 8
      ⟨bitsAt t 0 40, decide (bitsAt t 40 1 = 1), decide (bitsAt t 41 1 = 1), bitsAt t 42 2,
        if bitsAt t 44 1 = 1 then fillOf i else none⟩
    toksts := sv.toksts.filter fun t => pend.getLsbD t.tk
    exited := sv.exited
    finished := sv.finished
    pcode := sv.pcode
    reports := sv.reports
    resume := sv.resume
    handlerDeferred := decide (rd (0x2400 + 54) 1 % 2 = 1) }

/-- The scratchpad of a saved task on core `c`. -/
def restoreRange (s : State) (c : Nat) (b : Bind) : State :=
  let (base, n) := bindRange c b
  copyPhys s (b.save + 0x200000) base n

/-! ## Preloads (19 R330, R331) -/

/-- The preload waits for the switch: the record names a bank that the current task holds (R328). -/
def preloadDeferred (k : Core) (b : Bind) : Bool :=
  k.bound && (k.ident.wide || b.wide || decide (k.ident.bank = b.bank))

/-- The segment table of a record, read through its context (R333); an entry that cannot be read is not there. -/
def segtabOf (s : State) (b : Bind) : List Seg :=
  (List.range (min 64 b.nseg)).filterMap fun i => (readBytes s b.ctx (b.segtab + 16 * i) 16).map fun e => ⟨blkN e 0 8, blkN e 8 4, blkN e 12 2⟩

/-- The bundles of segment 0 of a record. -/
def firstSegment (s : State) (b : Bind) : Option (List (BitVec 512)) := match segtabOf s b, gridOf s b with
  | e :: _, some g => readBundles s b.ctx (g.image + e.offset) e.count
  | _, _ => none

/-- The reads of a preload: the segment table and segment 0, and the data section (R330, R333). -/
def preloadReads (s : State) (b : Bind) (code data : Bool) : List (Nat × Nat) :=
  match gridOf s b with
  | none => []
  | some g =>
    let d := (g.descs[b.stage]?).getD []
    let seg := match segtabOf s b with
      | e :: _ => [(g.image + e.offset, 64 * e.count)]
      | [] => []
    (if code then (b.segtab, 16 * min 64 b.nseg) :: seg else []) ++ (if data then [(g.image + blkN d 16 8, blkN d 12 4)] else [])
      ++ (match pairOf s b with
        | some (_, h) => let e := h.descs.headD []
                         if data then [(h.image + blkN e 16 8, blkN e 12 4)] else []
        | none => [])

/-- What the reads of a preload leave. -/
def touchPreload (s : State) (b : Bind) (code data : Bool) : State := touchAll s b.ctx (preloadReads s b code data)

/-- A read of a preload waits at a place that it needs; with `saved`, one of the save area. -/
def preloadWaits (s : State) (b : Bind) (code data saved : Bool) : Bool :=
  ((preloadReads s b code data).any fun r => bytesWait s b.ctx r.1 r.2) || (saved && runWaits s b.save (saveSize b.wide) false)

/-- The half a preload takes. -/
def preloadHalf (k : Core) : Nat := if k.bound && decide (k.imem.fused = 0) then copyHalf k k.t.last else 0

/-- Copy segment 0 of the next record into the idle half. -/
def preloadCode (s : State) (c : Nat) (b : Bind) : State :=
  if !b.pre || decide (b.fuseId ≠ 0) then s
  else match firstSegment s b with
    | none => s
    | some bs => s.modCore c fun k =>
        let h := preloadHalf k
        { k with imem := { k.imem with pre := some h, code := putBundles c h k.imem.code 0 bs,
                                       res0 := if h = 0 then none else k.imem.res0, res1 := if h = 1 then none else k.imem.res1 } }

/-- Fill the bank of the next record. -/
def preloadBank (s : State) (c : Nat) (b : Bind) : State :=
  if b.resume then (restoreRange s c b).modCore c fun k => { k with filled := true }
  else if b.prs then (fillRange s c b).modCore c fun k => { k with filled := true }
  else s

/-- READY and DROPPED of a core read 0. -/
def preloadOpen (s : State) (c : Nat) : Bool := decide (bitsAt (s.reg (slotCtl c)).toNat 3 2 = 0)

/-- The preload of a next record completes (R330): not while a segment copy runs, nor once it was dropped. -/
def evPreloadComplete (c : Nat) (s : State) : Option State :=
  let b := nextBind s c
  let k := s.core c
  if nextValid s c ∧ preloadOpen s c ∧ preloadDeferred k b = false ∧ k.imem.copy = none ∧ (gridOf s b).isSome
      ∧ preloadWaits s b b.pre (b.prs && !b.resume) b.resume = false then
    some (setBits (touchPreload (preloadBank (preloadCode s c b) c b) b b.pre (b.prs && !b.resume)) (slotCtl c) 0 8)
  else none

/-- PRELOAD_COMPLETE (log 99). -/
def execPreloadComplete (c : Nat) (s : State) : Res State := happens s (evPreloadComplete c s)

/-! ## Binding a hearth (04 R120 to R122) -/

/-- An event clears KEPT of a group that has had it, and counts in LOSS. -/
def loseClaim (q : Claim) : Claim := if q.kept = 0 then q else { q with kept := 2, loss := min 15 (q.loss + 1) }

def loseOf (s : State) (g : GroupId) : State :=
  { s with claims := s.claims.map fun q => if q.id = g then loseClaim q else q }

/-- Another group is bound to hearth `h`: an event for the group that it kept, unless that has been bound to another hearth since. -/
def loseAt (s : State) (h : Nat) (g : GroupId) : State :=
  { s with claims := s.claims.map fun q => if q.id = g ∧ q.hearth = h then loseClaim q else q }

/-- Bind hearth `h` to the claiming group `g` under context `ctx`; `fresh` for a group that starts, again where it is known. A hearth keeps
what the group bound to it last has left, until another is bound (log 86). -/
def bindHearth (s : State) (h : Nat) (g : GroupId) (ctx : Nat) (fresh : Bool) : State :=
  let old := (s.hearth h).group
  let known := s.claims.any fun q => decide (q.id = g)
  let moved := s.claims.any fun q => decide (q.id = g) && decide (q.hearth ≠ h)
  let s := match old with
    | some o => if o = g then s else loseAt s h o
    | none => s
  let s := if known && (fresh || moved) then loseOf s g else s
  let cs : List Claim := if known then s.claims.map (fun (q : Claim) => if q.id = g then { q with hearth := h } else q)
    else s.claims ++ [⟨g, h, 0, 0⟩]
  let s := { s with claims := cs }
  s.modHearth h fun x =>
    let other := decide (old ≠ some g) && old.isSome
    { x with group := some g, ctx := ctx, holder := none, left := 0, lastHolder := none, wants := [],
             halves := if other then x.halves.filterMap (fun p =>
               let y := { p.2 with compute := false, wbad := false }
               if y = Half.reset then none else some (p.1, y)) else x.halves,
             zeroing := x.zeroing || (other && decide (x.ctx ≠ ctx)) }

/-! ## The switch (19 R328, R330, R333) -/

/-- The identity that a record and its grid give a task (01 R39). -/
def identOf (s : State) (b : Bind) (g : Grid) : Ident :=
  ⟨b.task, b.wide, g.ntask, b.x, b.y, b.z, g.gx, g.gy, g.gz, b.gridId, b.stage, g.nstage, g.seq, b.ctx, b.gang, claims s b, b.bank, b.save,
    b.budget, b.args, b.fuseId, g.image⟩

/-- The instruction memory at a switch: the fused program, or segment 0 in its half where it was or is to be preloaded. -/
def switchCode (s : State) (c : Nat) (b : Bind) (im : IMem) : IMem :=
  let base := { IMem.reset with segtab := segtabOf s b }
  match pairOf s b with
  | some (g, _) => match g.plan with
    | none => base
    | some f =>
      { base with splice := (f.code.zipIdx.foldl (fun t p => tset (fun _ => 0) t p.2 p.1.word) []), fused := f.code.length,
                  segtab := [⟨0, 0, f.code.length⟩], loop := some (f.loopAt, BitVec.ofNat 64 f.fus.trip), pexit := f.pexit }
  | none => match im.pre with
    | some h => { base with code := im.code, res0 := if h = 0 then some 0 else none, res1 := if h = 1 then some 0 else none }
    | none =>
      if b.pre then match firstSegment s b with
        | some bs => { base with code := putBundles c 0 [] 0 bs, res0 := some 0 }
        | none => base
      else base

/-- Launch arguments, from a copy of a grid's argument block, as they stand in s24 upward (18 R301), or in the registers a consumer's have
become; an unmarked one is written nowhere (10 R276). -/
def argRegs (g : Grid) (args : List Byte) (name : Nat → Option Nat) (t : Tab Word) : Tab Word :=
  (List.range g.nargs).foldl (fun t i => match name (24 + i) with
    | some n => tset (fun _ => 0) t n (BitVec.ofNat 64 (argValue g.arg8 args i))
    | none => t) t

/-- The copy of the argument block that a record names, read at its home (R327). -/
def argsRead (s : State) (b : Bind) (g : Grid) : State × List Byte :=
  let r := loadPhys s b.args (8 * g.nargs)
  (r.1, toBytes (8 * g.nargs) r.2)

/-- The scalar registers of a task that starts: of a fused one, the producer's arguments from ARGS and the consumer's from its own copy. -/
def startRegs (s : State) (b : Bind) (g : Grid) : State × Tab Word :=
  match pairOf s b with
  | none => let r := argsRead s b g; (r.1, argRegs g r.2 some [])
  | some (p, h) => match p.plan with
    | none => (s, [])
    | some f => let r := argsRead s b p; (r.1, argRegs h h.args (newMark f.fus.ren.s) (argRegs p r.2 some []))

/-- Bind the record of one core: its identity, its code and its registers; a resumed queue re-enters once every core of the gang is bound. -/
def switchCore (s : State) (c : Nat) (g : Grid) : State :=
  let b := nextBind s c
  let k := s.core c
  let s1 := if k.filled then s else if b.resume then restoreRange s c b else fillRange s c b
  let s1 := touchPreload s1 b true (!k.filled && !b.resume)
  let im := switchCode s c b k.imem
  let (s1, regs) := if b.resume then (s1, []) else startRegs s1 b g
  let k1 : Core := { Core.reset with run := .run, f := k.f, cyc := k.cyc, ident := identOf s b g, imem := im,
                                     t := { SCtx.reset with s := regs }, fTurn := k.fTurn, fWin := k.fWin, fUsed := k.fUsed }
  let (s1, k2) := if b.resume then
      (let r := loadPhys s1 b.save 0x200000
       (r.1, restoreCore (tget (fun _ => Saved.none) s.saved b.save) r.2 (isGrotto c) k1))
    else (s1, k1)
  let s2 := s1.setCore c k2
  -- the next record becomes current
  let s3 := (List.range 8).foldl (fun s i => s.setReg (slotAddr c + 8 * i) (s.reg (slotAddr c + 64 + 8 * i))) s2
  setBits (s3.setReg (slotAddr c + 120) 0) (slotCtl c) 24 4

/-- What follows once every core is bound: queues re-enter, a held lease is requested, a stopped task's record and event 5 come back
(20 R345, R347). -/
def settleCore (s : State) (c : Nat) (resumed : Bool) : State :=
  if !resumed then s
  else
    let k := s.core c
    let a := k.ident.save
    let s := s.modCore c fun k =>
      { k with t := { k.t with loadQ := k.t.loadQ.map (unpackAcc s c), storeQ := k.t.storeQ.map (unpackAcc s c), lineQ := k.t.lineQ.map (unpackAcc s c) } }
    let (s, v) := loadPhys s a 0x2480
    let s := if areaAt v 0 8 / 2 ^ 19 % 2 = 1 && !isGrotto c then s.modHearth (hearthOf c) fun x => { x with wants := setIns x.wants c } else s
    if k.handling then
      let s := (List.range 16).foldl (fun s i => s.setReg (recAddr c + 8 * i) (BitVec.ofNat 64 (areaAt v (0x2400 + 8 * i) 8) &&& recMask i)) s
      let s := s.modCore c fun k => { k with f := { k.f with pc := 0, jump := none } }
      postEvent s 5 c k.ident.gridId (BitVec.ofNat 64 (bitsAt (s.reg (recAddr c + 48)).toNat 0 8))
    -- with no handler to release them, the accesses perform as after a TRET 0 (R347)
    else if k.reports = [] then releaseHeld s c
    else s

/-- Another claiming group stands on a hearth that the gang claims. -/
def claimStands (s : State) (g : Nat) : Bool := (nextCores s g).any fun c =>
  claims s (nextBind s c) && (List.range 4).any fun j =>
    let k := s.core (hearthOf c * 4 + j)
    k.bound && k.ident.claim && decide (k.ident.groupId ≠ (nextBind s c).groupId)

/-- The gang claims a hearth to which the firmware binds no group (23 R399). -/
def claimStopped (s : State) (g : Nat) : Bool :=
  (nextCores s g).any fun c => claims s (nextBind s c) && !(isGrotto c) && bindStopped s (hearthOf c)

/-- The gang may start: every task of its group or lane has its record in force (01 R36), every core of the records is free of its task, its
stop or finish has been posted, and no suspension stands but one that only firmware can end (09 R268). -/
def gangReady (s : State) (b : Bind) (g : Grid) : Bool :=
  let cs := nextCores s b.gang
  decide (g.ntask * g.nstage ≤ cs.length)
  && cs.all (fun d => !(s.core d).bound && !(eventHeldFor s d)) && !(claimStands s b.gang) && !(claimStopped s b.gang)
  && (!(s.susps.any fun w => decide (w.gang = b.gang)) || s.susps.any fun w => decide (w.gang = b.gang) && decide (w.dead ≠ []))

/-- A read or write of the switch waits at a place that it needs. -/
def switchWaits (s : State) (g : Nat) (x : Grid) : Bool := (nextCores s g).any fun d =>
  let b := nextBind s d
  preloadWaits s b true (!(s.core d).filled && !b.resume) b.resume || (!b.resume && runWaits s b.args (8 * x.nargs) false)

/-- All next records of a gang become current together. -/
def switchGang (s : State) (b : Bind) (g : Grid) : State :=
  let cs := nextCores s b.gang
  let rs := cs.map fun d => (d, (nextBind s d).resume)
  let hs := cs.filterMap fun d => let r := nextBind s d
                                  if claims s r && !isGrotto d then some (hearthOf d, r.groupId, r.ctx, !r.resume) else none
  let s := { s with susps := s.susps.filter fun w => decide (w.gang ≠ b.gang) }
  let s := cs.foldl (fun s d => switchCore s d g) s
  let s := (hs.foldl (fun l x => if l.contains x then l else l ++ [x]) []).foldl (fun s x => bindHearth s x.1 x.2.1 x.2.2.1 x.2.2.2) s
  rs.foldl (fun s r => settleCore s r.1 r.2) s

/-- The gang of core `c`'s next record switches onto its cores. -/
def evGangSwitch (c : Nat) (s : State) : Option State :=
  let b := nextBind s c
  match gridOf s b with
  | none => none
  | some g => if nextValid s c && gangReady s b g && !switchWaits s b.gang g then some (switchGang s b g) else none

/-- GANG_SWITCH (log 99). -/
def execGangSwitch (c : Nat) (s : State) : Res State := happens s (evGangSwitch c s)

/-! ## Leaving the cores -/

/-- A core is free: no task, no current record; the preload of its next record stays. -/
def releaseCore (s : State) (c : Nat) : State :=
  let h := hearthOf c
  let s := if (s.hearth h).holder = some c ∧ isGrotto c = false then endLease s h else s
  let s := if isGrotto c then s else s.modHearth h fun x => { x with wants := setDel x.wants c }
  let s := { s with missQ := s.missQ.filter fun m => decide (m.1 ≠ c) }
  let s := s.modCore c fun k =>
    { Core.reset with f := { k.f with jump := none }, cyc := k.cyc, filled := k.filled, fTurn := k.fTurn, fWin := k.fWin, fUsed := k.fUsed,
                      imem := { IMem.reset with pre := k.imem.pre, code := if k.imem.pre.isSome then k.imem.code else [] } }
  setBits (setBits s (slotCtl c) 4 0) (slotAddr c + 56) 1 0

/-! ## Capture (15 R293, 20 R345) -/

/-- The head of a queue can go no further: held, or behind the other queue's held head. -/
def queueStill (s : State) (c : Nat) (x : SCtx) (q : Bool) : Bool :=
  let otherHeld := match queueOf x (!q) with
    | a :: _ => a.held
    | [] => false
  match queueOf x q with
  | [] => true
  | a :: _ => a.held || (otherHeld && (match a.kind with
    | .mark | .fence _ => true
    | .dqadv _ _ => releaseWaits s c x 2 a.seq
    | k => if q then (match releaseScope k with
        | some sc => releaseWaits s c x sc a.seq
        | none => false) else acquireWaits x a.seq))

/-- No command of the core is in an engine, and no update of a counter that one owes is due (02 R70; 20 R345). -/
def enginesEmpty (s : State) (c : Nat) : Bool :=
  decide ((s.core c).cpQ = []) && (isGrotto c || !((s.hearth (hearthOf c)).cmds.any fun m => decide (m.core = c)))
  && !(s.counters.any fun u => decide (u.core = c))

/-- A barrier that the core homes has its arrivals and has not completed: an arrival and the completion it makes are one (09 R256). -/
def barrierFull (k : Core) : Bool := k.bars.any fun b => decide (b.2.cnt ≤ b.2.arr)

/-- What a capture of the core waits for has happened, and no access to its save area waits at its place. -/
def captureReady (s : State) (c : Nat) : Bool :=
  let k := s.core c
  !(barrierFull k) && !(eventHeldFor s c) && !runWaits s k.ident.save (saveSize k.ident.wide) true && (k.finished || (k.t.pend.all (·.landed) && decide (k.t.arrivals = []) && decide (k.t.olds = []) && decide (k.barQ = [])
    && queueStill s c k.t false && queueStill s c k.t true && k.t.lineQ.all (·.held) && enginesEmpty s c))

/-- A task that is ended or rerun needs only its commands and values in flight done (R342). -/
def endReady (s : State) (c : Nat) : Bool :=
  let k := s.core c
  !(eventHeldFor s c) && (k.finished || (k.t.pend.all (·.landed) && decide (k.t.arrivals = []) && decide (k.t.olds = []) && queueStill s c k.t false
    && queueStill s c k.t true && k.t.lineQ.all (·.held) && enginesEmpty s c))

/-- The grids of a task: its own, or both of its pair. -/
def gridsOf (s : State) (i : Ident) : List Grid :=
  if i.fuseId = 0 then s.grids.filter fun g => decide (g.id = i.gridId) else s.grids.filter fun g => decide (g.fuseId = i.fuseId)

/-- A grid loses one task; an ended one takes STATUS 5, a nonzero exit STATUS 1 where nothing higher stands. -/
def taskDone (g : Grid) (code : Nat) (ended : Bool) : Grid :=
  { g with left := g.left - 1, status := if ended then 5 else if code ≠ 0 then max g.status 1 else g.status,
           exitCode := if ended || decide (code = 0) || decide (g.exitCode ≠ 0) then g.exitCode else code,
           nexit := if ended || decide (code = 0) then g.nexit else g.nexit + 1 }

/-- The exit code that a task of a core counts with in a grid of its own: of a fused task each launch takes its own (10 R281). -/
def codeIn (k : Core) (g : Grid) : Nat := if g.fuseId ≠ 0 && !g.consumer then k.pcode.getD 0 else k.exited.getD 0

/-- Count the end of the task of a core in its grids. -/
def countEnd (s : State) (k : Core) (ended : Bool) : State :=
  let own := gridsOf s k.ident
  { s with grids := s.grids.map fun g => if own.contains g then taskDone g (codeIn k g) ended else g }

/-- A finished task of a gang that is rerun is taken back from its grid, and with the last nonzero exit its status (R348; log 59). -/
def taskBack (g : Grid) (code : Nat) : Grid :=
  let last := decide (code ≠ 0) && decide (g.nexit ≤ 1)
  { g with left := g.left + 1, nexit := if code = 0 then g.nexit else g.nexit - 1, exitCode := if last then 0 else g.exitCode,
           status := if last && decide (g.status = 1) then 0 else g.status }

/-- Take back what a finished task of a core counted in its grids. -/
def countBack (s : State) (k : Core) : State :=
  let own := gridsOf s k.ident
  { s with grids := s.grids.map fun g => if own.contains g then taskBack g (codeIn k g) else g }

/-- Capture and release a gang whose cores are all ready. -/
def captureGang (s : State) (c : Nat) (w : Why) : State :=
  let g := (s.core c).ident.gang
  let cs := gangCores s g
  let grid := (s.core c).ident.gridId
  match w with
  | .ended => cs.foldl releaseCore (cs.foldl (fun s d => if (s.core d).finished then s else countEnd s (s.core d) true) s)
  | .rerun => cs.foldl releaseCore (cs.foldl (fun s d => if (s.core d).finished then countBack s (s.core d) else s) s)
  | .budget => cs.foldl releaseCore (cs.foldl saveContext s)
  | _ => postEvent (cs.foldl releaseCore (cs.foldl saveContext s)) 2 c grid (BitVec.ofNat 64 g)

/-- The contexts of a gang that leaves are saved, all together, and its cores are free. -/
def evContextCapture (c : Nat) (s : State) : Option State :=
  let k := s.core c
  match k.why with
  | none => none
  | some w =>
    let cs := gangCores s k.ident.gang
    if k.bound && cs.all (fun d => match w with
        | .ended | .rerun => endReady s d
        | _ => captureReady s d) then some (captureGang s c w)
    else none

/-- CONTEXT_CAPTURE (log 99). -/
def execContextCapture (c : Nat) (s : State) : Res State := happens s (evContextCapture c s)

/-! ## PREEMPT, DISCARD and the budget (19 R329, R332; 20 R342, R348) -/

/-- A write of PREEMPT: the current task's gang stops at its next bundle boundaries; nothing is bound, nothing happens. -/
def execSlotPreempt (c : Nat) (s : State) : Res State :=
  if (s.core c).bound then .next (preempt s (s.core c).ident.gang .preempt) else .next s

/-- The gang is rerun elsewhere: its image is restartable and a core of it took HWERR (R348). -/
def rerunsElsewhere (s : State) (g gridId : Nat) : Bool :=
  feature s 8 && (s.grids.any fun x => decide (x.id = gridId) && decide (x.flags % 2 = 1))
  && (gangCores s g).any fun d => (s.core d).handling && decide (bitsAt (s.reg (recAddr d + 48)).toNat 0 8 = 14)

/-- A write of DISCARD: held accesses and reports go, every task of the gang stops without saving, and the group ends, or is rerun. -/
def execSlotDiscard (c : Nat) (s : State) : Res State :=
  let k := s.core c
  if k.bound then
    let w := if rerunsElsewhere s k.ident.gang k.ident.gridId then Why.rerun else .ended
    .next ((gangCores s k.ident.gang).foldl (fun s d =>
      (discardHeld s d).modCore d fun m => { m with why := some w, reports := [], bawait := none, ctrw := none }) s)
  else .next s

/-- A gang reaches its budget. -/
def evBudgetExpiry (c : Nat) (s : State) : Option State :=
  if budgetDue (s.core c) then some (expireBudget s c) else none

/-- BUDGET_EXPIRY (log 99). -/
def execBudgetExpiry (c : Nat) (s : State) : Res State := happens s (evBudgetExpiry c s)

/-! ## The end of a task (06 R179; 14 R291) -/

/-- Everything of an exited task is done. -/
def finishReady (s : State) (c : Nat) : Bool :=
  let k := s.core c
  decide (k.run = .run) && k.exited.isSome && !k.finished && k.why.isNone && decide (k.reports = []) && k.t.pend.all (·.landed)
  && decide (k.t.arrivals = []) && decide (k.t.olds = []) && decide (k.t.loadQ = []) && decide (k.t.storeQ = []) && decide (k.t.lineQ = [])
  && decide (k.barQ = []) && decide (k.toksts = []) && enginesEmpty s c && !(eventHeldFor s c)

/-- The task finishes: its lease ends, its exit status counts, the firmware receives event 3; with the last task of the gang the cores are
free (log 22). -/
def finishTask (s : State) (c : Nat) : State :=
  let k := s.core c
  let h := hearthOf c
  let s := if (s.hearth h).holder = some c ∧ isGrotto c = false then endLease s h else s
  let s := if isGrotto c then s else s.modHearth h fun x => { x with wants := setDel x.wants c }
  let s := countEnd s k false
  let s := s.modCore c fun k => { k with finished := true }
  let s := postEvent s 3 c k.ident.gridId (BitVec.ofNat 64 (k.exited.getD 0))
  let cs := gangCores s k.ident.gang
  if cs.all fun d => (s.core d).finished then cs.foldl releaseCore s else s

def evTaskFinish (c : Nat) (s : State) : Option State :=
  if finishReady s c then some (finishTask s c) else none

/-- TASK_FINISH (log 99). -/
def execTaskFinish (c : Nat) (s : State) : Res State := happens s (evTaskFinish c s)

/-! ## WAITY (01 R42; 09 R268) -/

/-- A report of a suspended task joins those of its core, or of its saved context. -/
def suspReport (s : State) (w : Susp) (r : Report) : State :=
  if (s.core w.core).bound && decide ((s.core w.core).ident.gang = w.gang) && decide ((s.core w.core).ident.save = w.save) then
    report s w.core r
  else
    let v := tget (fun _ => Saved.none) s.saved w.save
    { s with saved := tput s.saved w.save (some { v with reports := v.reports ++ [r] }) }

/-- The condition of every WAITY of the gang holds. -/
def gangHolds (s : State) (g : Nat) : Bool :=
  (s.susps.filter fun x => decide (x.gang = g)).all fun x => blockHolds s x.ctx x.parent x.dead x.block

/-- The suspension of a gang ends: one still on its cores goes on, and one that has left them resumes by its next bind records. -/
def endSusp (s : State) (g : Nat) : State :=
  let s := { s with susps := s.susps.filter fun x => decide (x.gang ≠ g) }
  (gangCores s g).foldl (fun s d => s.modCore d fun m => { m with why := if m.why = some .waity then none else m.why }) s

/-- A round of a suspended gang's conditions (01 R42; 09 R268): all hold, and the suspension ends; or an address of WAITY `k` fails, which
makes its condition false and is reported; or the firmware asks for a host-owned page. -/
def evWaityResume (k : Nat) (s : State) : Option State :=
  match s.susps[k]? with
  | none => none
  | some w =>
    let t := (s.susps.filter fun x => decide (x.gang = w.gang)).foldl (fun t x => condsTouch false t x.ctx ((liveConds x.dead x.block).map (·.1))) s
    if gangHolds s w.gang then some (endSusp t w.gang)
    else match blockFails s w.ctx w.dead w.block with
      | f :: rest =>
        let v := { w with dead := w.dead ++ (f :: rest).map (·.1) }
        some (suspReport { t with susps := t.susps.set k v } v (waityReport w f.2.1 f.2.2))
      | [] => match askConds t w.ctx w.dead w.block with
        | some u => some u
        | none => none

/-- WAITY_RESUME (log 99). -/
def execWaityResume (k : Nat) (s : State) : Res State := happens s (evWaityResume k s)

end Sys2Proof.Machine
end

