-- ==== Sys2Proof/Machine/Registers.lean ====
section
/-! DEFINITION. Writes to MMIO registers (spec/00 R8): the queue blocks (spec/19 R312 to R314), features (22 R385), the event ring (R386),
hearth allowance (04 R118, R119), the context base (20 R349), and every register without an event of its own. -/

namespace Sys2Proof.Machine
open Sys2Proof

/-- A register value with the bits of a mask taken from `v`. -/
def withFields (old v mask : Word) : Word := (old &&& ~~~mask) ||| (v &&& mask)

/-- Bits `lo` to `lo + n - 1`, as a mask. -/
def bitMask (lo n : Nat) : Word := BitVec.ofNat 64 ((2 ^ n - 1) * 2 ^ lo)

/-- Write the bits of a mask. -/
def putFields (s : State) (a : Nat) (v mask : Word) : State := s.setReg a (withFields (s.reg a) v mask)

/-- Write a field of `n` bits at `lo` where its new value lies in a range; otherwise it keeps its value (R8, 22 R379). -/
def putRange (s : State) (a : Nat) (v : Word) (lo n least most : Nat) : State :=
  let x := bitsAt v.toNat lo n
  if least ≤ x ∧ x ≤ most then putFields s a v (bitMask lo n) else s

/-! ## Queues (R312 to R314) -/

/-- Fields of QCTL that any write sets: PRIO and VEC; and those that hold while EN = 1: LOGSZ, DEVQ, CTX. -/
def qctlFree : Word := bitMask 5 3 ||| bitMask 26 11
def qctlHeld : Word := bitMask 0 5 ||| bitMask 9 17

/-- Exposed ranges that still hold a unit the queue will read. -/
def liveExposes (s : State) (q : Nat) : List Expose :=
  s.exposes.filter fun e => decide (e.queue ≠ q) || (decide (qRd s q < e.hi) && decide (e.lo < qWr s q))

/-- A QCTL write with EN = 1 (R313). -/
def execQueueEnable (q : Nat) (v : BitVec 64) (s : State) : Res State :=
  let a := qreg q 8
  if qEn s q then .next (putFields s a v qctlFree)
  else
    let t := putFields s a v (qctlFree ||| qctlHeld)
    if qLogsz t q < 6 ∨ 20 < qLogsz t q ∨ (s.reg (qreg q 0)).toNat % 4096 ≠ 0 then .next t
    else
      let t := t.setReg a (t.reg a ||| 256#64)
      let t := (t.setReg (qreg q 32) (t.reg (qreg q 32) &&& ~~~(255#64))).setReg (qreg q 40) 0
      .next { t with exposes := liveExposes t q, alone := t.alone.filter fun e => decide (e.1 ≠ q) }

/-- A QCTL write with EN = 0 (R313). -/
def execQueueDisable (q : Nat) (v : BitVec 64) (s : State) : Res State :=
  let a := qreg q 8
  let t := putFields s a v (if qEn s q then qctlFree else qctlFree ||| qctlHeld)
  .next (t.setReg a (t.reg a &&& ~~~(256#64)))

/-- A doorbell write (R314); on a device-side queue it is ignored. -/
def execQwrWrite (q : Nat) (v : BitVec 64) (s : State) : Res State := .next (if qDev s q then s else queueAdvance s q v)

/-- REFV and CFAIL are cleared by writing 1 (R312, R8). -/
def execQstatClear (q : Nat) (v : BitVec 64) (s : State) : Res State :=
  .next (s.setReg (qreg q 32) (s.reg (qreg q 32) &&& ~~~(v &&& bitMask 16 2)))

/-- QBASE and QRD, both only while EN = 0 (R312, R313). -/
def queueWrite (s : State) (q off : Nat) (v : Word) : State :=
  if qEn s q then s
  else if off = 0 then putFields s (qreg q 0) v (bitMask 0 48)
  else if off = 24 then s.setReg (qreg q 24) v
  else s

/-! ## Registers with events of their own -/

/-- CTXBASE takes a value only while no task is bound (20 R349). -/
def execCtxbaseWrite (v : BitVec 64) (s : State) : Res State :=
  .next (if (List.range 128).any fun c => (s.core c).bound then s else s.setReg 0x0E000400B000 v)

/-- The driver or the firmware writes a hearth's allowance (04 R118, R119); ignored while the hearth is tripped (24 R401). -/
def execHallowWrite (h : Nat) (v : BitVec 64) (s : State) : Res State :=
  .next (if (s.reg 0x0E0007300098).getLsbD (16 + h) then s else putRange s (0x0E0007010000 + h * 16) v 0 9 0 256)

/-- The firmware advances EVRD (22 R386): held events find room at the end of the step. -/
def execEvrdWrite (v : BitVec 64) (s : State) : Res State := .next (s.setReg (evBase + 24) v)

/-- The implemented features (22 R385). -/
def implemented : Word := bitMask 0 9

/-- A write to a word of FEATREQ: taken once READY is 1 and no queue is enabled (22 R385). -/
def execFeatreqWrite (w : Nat) (v : BitVec 64) (s : State) : Res State :=
  let b := 0x0E0007030000
  if (s.reg (b + 32)).getLsbD 4 = false ∨ ((s.mmio.any fun p =>
      decide (0x0E0001000000 ≤ p.1) && decide (p.1 < 0x0E0001200000) && decide (p.1 % 64 = 8) && p.2.getLsbD 8) = true) then .next s
  else
    let t := s.setReg (b + 8 * (w % 2)) (if w % 2 = 0 then v &&& implemented else 0)
    .next ((t.setReg (b + 16) (t.reg b &&& implemented)).setReg (b + 24) 0)

/-- LATMAX is cleared by CLR = 1 (22 R379). -/
def execMclatClear (k : Nat) (v : BitVec 64) (s : State) : Res State :=
  .next (if v.getLsbD 63 then s.setReg (mcReg k 56) 0 else s)

/-- TRIPPED bits are cleared by writing 1, where the hearth is below THROT (24 R401). -/
def execTrippedClear (v : BitVec 64) (s : State) : Res State :=
  let a := 0x0E0007300098
  .next ((List.range 16).foldl (fun s h =>
    if v.getLsbD (16 + h) ∧ bitsAt (s.reg (0x0E0007300000 + 8 * h)).toNat 0 8 < bitsAt (s.reg a).toNat 0 8 then
      s.setReg a (s.reg a &&& ~~~(1#64 <<< (16 + h)))
    else s) s)

/-! ## Every other register (R8) -/

/-- The slot table (19 R327, R328): a next record that is not in force; VALID alone of one that is. -/
def slotWrite (s : State) (a : Nat) (v : Word) : State :=
  let c := (a - 0x0E0004000000) / 128
  let off := a % 128
  if off < 64 then s
  else if off = 120 then
    (if nextValid s c && !(v.getLsbD 0) then
      ((setBits (s.setReg a 0) (slotCtl c) 24 0).modCore c fun k => { k with filled := false, imem := { k.imem with pre := none } })
    else s)
  else if nextValid s c then s
  else s.setReg a v

/-- The mailbox (21 R361): the words of both messages; HDB; DDB with MBVEC. -/
def mailWrite (s : State) (off : Nat) (v : Word) : State :=
  if off < 128 then s.setReg (mailReg off) v
  else if off = 128 then (if v.getLsbD 0 then { postEvent s 6 0 0 0 with h2d := true } else s)
  else if off = 136 then
    let t := putFields s (mailReg 136) v (bitMask 4 12)
    if v.getLsbD 0 then raiseVec t (bitsAt v.toNat 4 12) else t
  else s

/-- A format region's registers (03 R96, R97): fixed while it is enabled. -/
def regionWrite (s : State) (r off : Nat) (v : Word) : State :=
  if (s.reg (frReg r 32)).getLsbD 63 then s
  else match off with
    | 0 | 8 | 16 => putFields s (frReg r off) v (bitMask 0 52)
    | 24 => putFields s (frReg r 24) v (bitMask 0 40)
    | 32 => putFields s (frReg r 32) v (bitMask 0 6 ||| bitMask 8 10)
    | _ => s

/-- A memory controller's registers (22 R379). -/
def controllerWrite (s : State) (a : Nat) (v : Word) : State := match a % 0x1000 with
  | 0 => putRange (putRange s a v 0 4 0 8) a v 8 8 70 85
  | 8 => putRange s a v 0 9 16 256
  | 16 => putRange (putRange (putRange s a v 0 4 1 8) a v 8 8 16 255) a v 16 6 2 63
  | 64 => putFields s a v (bitMask 0 32)
  | _ => s

/-- Thermal registers (24 R400): THROT is checked with the TRIP written beside it, or with the old one where that is out of range. -/
def thermalWrite (s : State) (off : Nat) (v : Word) : State :=
  let a := 0x0E0007300000 + off
  if off = 0x90 then putRange s a v 0 16 300 1500
  else if off = 0x98 then
    let t := putRange s a v 0 8 70 100
    putRange t a v 8 8 (bitsAt (t.reg a).toNat 0 8 + 5) 110
  else if 0xA0 ≤ off ∧ off < 0x120 then putRange s a v 0 9 0 256
  else s

/-- The invalidation and migration registers that are no commands (20 R353, 21 R365). -/
def commandWrite (s : State) (a : Nat) (v : Word) : State :=
  if a = 0x0E000400A000 ∨ a = 0x0E0006020000 then putFields s a v (bitMask 16 32)
  else if a = 0x0E000400A008 ∨ a = 0x0E0006020010 ∨ a = 0x0E0006020018 ∨ a = 0x0E0007040048 then putFields s a v (bitMask 0 52)
  else if a = 0x0E0006020008 then putFields s a v (bitMask 16 36)
  else if a = 0x0E000400A010 ∨ a = 0x0E0006020020 ∨ a = 0x0E0007040050 then s.setReg a v
  else if a = 0x0E000400A020 ∨ a = 0x0E0006020030 then s.setReg a (s.reg a &&& ~~~(v &&& 2#64))
  else if 0x0E0007040000 ≤ a ∧ a < 0x0E0007040040 then s.setReg a v
  else s

/-- Page heat (21 R368) and the domain register (R370). -/
def heatWrite (s : State) (a : Nat) (v : Word) : State :=
  if a = 0x0E0006030000 then putFields s a v 1
  else if a = 0x0E0006030008 then (if (s.reg 0x0E0006030000).getLsbD 0 then s else putFields s a v (bitMask 16 36))
  else if a = 0x0E0006030010 then putFields s a v (bitMask 0 32)
  else if a = 0x0E0006040000 then
    (if (s.reg a).getLsbD 7 then s else putRange (putFields s a v (bitMask 0 7)) a v 8 24 1200 1200000)
  else s

/-- The event ring (22 R386): base and size. -/
def ringWrite (s : State) (a : Nat) (v : Word) : State :=
  if a = evBase then putFields s a v (bitMask 12 40)
  else if a = evBase + 8 then putRange s a v 0 5 8 16
  else s

/-- What a write to a register does (R8): writable fields change, all else stays. -/
def writeRegister (s : State) (a : Nat) (v : Word) : State :=
  if regHidden s a then s
  else if 0x0E0001000000 ≤ a ∧ a < 0x0E0001200000 then queueWrite s ((a - 0x0E0001000000) / 64) (a % 64) v
  else if 0x0E0004000000 ≤ a ∧ a < 0x0E0004004000 then slotWrite s a v
  else if 0x0E0004008000 ≤ a ∧ a < 0x0E0004008400 then putRange s a v 0 7 0 64
  else if 0x0E0005000000 ≤ a ∧ a < 0x0E0005004000 then (if a % 128 = 0 then s.setReg a v else s)
  else if 0x0E0006000000 ≤ a ∧ a < 0x0E0006000100 then mailWrite s (a - 0x0E0006000000) v
  else if 0x0E0006000100 ≤ a ∧ a < 0x0E0006000200 then putFields s a v (1#64 ||| bitMask 26 38)
  else if 0x0E0006030000 ≤ a ∧ a < 0x0E0006040008 then heatWrite s a v
  else if 0x0E0007000000 ≤ a ∧ a < 0x0E0007000800 then regionWrite s ((a - 0x0E0007000000) / 64) (a % 64) v
  else if 0x0E0007010000 ≤ a ∧ a < 0x0E0007010100 then (if a % 16 = 8 then putRange s a v 0 7 1 64 else s)
  else if evBase ≤ a ∧ a < evBase + 32 then ringWrite s a v
  else if 0x0E0007100000 ≤ a ∧ a < 0x0E0007108000 then controllerWrite s a v
  else if a = 0x0E0007200008 then putRange (putRange s a v 0 4 2 15) a v 8 32 60 2592000
  else if 0x0E0007200100 ≤ a ∧ a < 0x0E0007200140 then (if (s.reg a).getLsbD 4 then s else putFields s a v (bitMask 0 4))
  else if 0x0E0007300000 ≤ a ∧ a < 0x0E0007300200 then thermalWrite s (a - 0x0E0007300000) v
  else commandWrite s a v

/-- A write to a register that has no event of its own (R8); in the upper half of BAR0 a write through the host aperture, which reaches host
memory where its window is in force (21 R356, R359). -/
def execRegisterWrite (addr : Nat) (v : BitVec 64) (s : State) : Res State :=
  match homeOf s addr with
  | some (.host n) => .next { s with hostMem := memSetN s.hostMem (hostAddr s n addr) 8 v.toNat }
  | _ => .next (writeRegister s addr v)

end Sys2Proof.Machine
end

