-- ==== Sys2Proof/Machine/Units.lean ====
section
/-! DEFINITION. The base-die units that act on translations, pages and keys: invalidation (spec/20 R353), migration (spec/21 R365 to R367)
and key commands (spec/22 R382, R383). -/

namespace Sys2Proof.Machine
open Sys2Proof

/-- A counter named by physical address becomes due (20 R353, 21 R366, 22 R382): none for address 0; bits [2:0] are ignored (log 38). -/
def dueBase (s : State) (ctr : Nat) (inc : Word) : State :=
  if ctr = 0 then s else { s with counters := s.counters ++ [⟨128, .plain (ctr / 8 * 8), inc, false, 0, 0⟩] }

/-- FULL of a status register, at sixteen commands not yet complete (log 39). -/
def setFull (s : State) (a n : Nat) : State := s.setReg a (withFields (s.reg a) (if 16 ≤ n then 1 else 0) 1)

/-! ## Invalidation (20 R353) -/

/-- A write to INVCTL captures the registers as one command; one written while FULL is lost. -/
def captureInv (s : State) (v : Word) (scope : Nat) : State :=
  if 16 ≤ s.invQ.length then s.setReg 0x0E000400A020 (s.reg 0x0E000400A020 ||| 2#64)
  else
    let m : InvCmd := ⟨(s.reg 0x0E000400A000).toNat, (s.reg 0x0E000400A008).toNat, s.reg 0x0E000400A010, bitsAt v.toNat 0 16, scope⟩
    setFull { s with invQ := s.invQ ++ [m] } 0x0E000400A020 (s.invQ.length + 1)

def execInvContext (v : BitVec 64) (s : State) : Res State := .next (captureInv s v 0)
def execInvPage (v : BitVec 64) (s : State) : Res State := .next (captureInv s v 1)
def execInvLargePage (v : BitVec 64) (s : State) : Res State := .next (captureInv s v 2)
def execInvAll (v : BitVec 64) (s : State) : Res State := .next (captureInv s v 3)

/-- The command covers a translation: SCOPE 1 also the 64 MiB one that covers VA. -/
def InvCmd.covers (m : InvCmd) (x : Xlat) : Bool :=
  match m.scope with
  | 0 => decide (x.ctx = m.ctx)
  | 1 => decide (x.ctx = m.ctx) && decide (x.page = if x.large then m.va / 2 ^ 26 * 2 ^ 26 else m.va / 2 ^ 16 * 2 ^ 16)
  | 2 => decide (x.ctx = m.ctx) && x.large && decide (x.page = m.va / 2 ^ 26 * 2 ^ 26)
  | _ => true

/-- An access of a context at `va` may have used a translation that the command covers, of either size. -/
def InvCmd.meets (m : InvCmd) (ctx va : Nat) : Bool :=
  m.covers ⟨ctx, va / 2 ^ 16 * 2 ^ 16, false, 0⟩ || m.covers ⟨ctx, va / 2 ^ 26 * 2 ^ 26, true, 0⟩

/-- An access in a queue that has its translation and has neither performed nor been held. -/
def accMeets (m : InvCmd) (ctx : Nat) (a : Acc) : Bool :=
  !a.held && decide (a.space = .glob) && a.pieces.any fun p => p.pa.isSome && m.meets ctx p.addr

/-- A bank command of a core has rows open under a translation that the command may cover. -/
def rowsMeet (s : State) (m : InvCmd) (c : Nat) : Bool :=
  (s.core c).cpQ.any fun e => e.place.isSome && (decide (m.scope = 3) || decide (e.ctx = m.ctx))

/-- Every bank command that used a covered translation has performed. -/
def rowsClear (s : State) (m : InvCmd) : Bool := !((List.range 128).any (rowsMeet s m))

/-- Accesses of a core that used such a translation: of its queues, the sectors that its copies have still to write, and bank commands whose
rows are open. -/
def coreMeets (s : State) (m : InvCmd) (c : Nat) : Bool :=
  let k := s.core c
  (k.t.loadQ ++ k.t.storeQ).any (accMeets m k.ident.ctx) || (k.cpQ.any fun e => e.dests.any fun d => m.meets e.ctx (32 * d.1)) || rowsMeet s m c

/-- Every access that used a covered translation has performed or been held, counters that are due among them. -/
def invClear (s : State) (m : InvCmd) : Bool :=
  !((List.range 128).any fun c => coreMeets s m c)
  && !(s.counters.any fun d => decide (d.core < 128) && (decide (m.scope = 3) || decide ((s.core d.core).ident.ctx = m.ctx)))

/-- Every cache drops the covered translations, the cores' own too (R352). -/
def dropXlats (s : State) (m : InvCmd) : State :=
  (List.range 128).foldl (fun s c => if (s.core c).xlat.any m.covers then s.modCore c fun k => { k with xlat := k.xlat.filter fun x => !m.covers x }
    else s) { s with tlb := s.tlb.filter fun x => !m.covers x }

/-- A context is destroyed once its translations have been invalidated whole and its descriptor is not VALID: its locks end (02 R51; log
97). -/
def dropContexts (s : State) (m : InvCmd) : State :=
  let gone := fun ctx => (decide (m.scope = 3) || (decide (m.scope = 0) && decide (ctx = m.ctx))) && ctxInvalid s ctx
  { s with locks := s.locks.filter fun l => !gone l.2 }

/-- The first command completes (R353). -/
def evInvalidationComplete (s : State) : Option State :=
  match s.invQ with
  | [] => none
  | m :: rest =>
    if invClear s m then
      some (setFull (dueBase (dropContexts (dropXlats { s with invQ := rest } m) m) m.ctr m.inc) 0x0E000400A020 rest.length)
    else none

/-- INVALIDATION_COMPLETE (log 99). -/
def execInvalidationComplete (s : State) : Res State := happens s (evInvalidationComplete s)

/-! ## Migration (21 R365 to R367) -/

/-- Address of the leaf entry that the walk of 20 R350 finds: the last that it reads. -/
def leafAddr (s : State) (ctx va : Nat) : Nat := (walkPath s ctx va).getLastD 0

def spansMeet (a n b m : Nat) : Bool := decide (0 < n) && decide (0 < m) && decide (a < b + m) && decide (b < a + n)

/-- Every page of a range is installed HBM4E or tier memory; an empty range has none. -/
def installed (s : State) (a n : Nat) : Bool :=
  decide (n = 0) || (List.range ((a + n + 65535) / 65536 - a / 65536)).all fun i => match homeOf s (65536 * (a / 65536 + i)) with
    | some .hbm => true
    | some (.tier _) => true
    | _ => false

/-- Packed and scale ranges of a region: base and bytes. -/
def packedRange (x : Region) : Nat × Nat := (x.pbase, (x.count * fmtWidth x.efmt + 7) / 8)
def scaleRange (x : Region) : Nat × Nat := (x.sbase, if x.blk = 0 then 0 else (x.count + x.blk - 1) / x.blk)

/-- A range meets the packed or scale range of an enabled region. -/
def meetsRegion (s : State) (a n : Nat) : Bool :=
  feature s 1 && (List.range 32).any fun r => (s.reg (frReg r 32)).getLsbD 63
    && (let x := regionRegs s r
        spansMeet a n (packedRange x).1 (packedRange x).2 || spansMeet a n (scaleRange x).1 (scaleRange x).2)

/-- Another running move overlaps a range. -/
def meetsMove (s : State) (a n : Nat) : Bool :=
  s.migQ.any fun m => match m.run with
    | some r => decide (r.code = 0) && (spansMeet a n r.src m.size || spansMeet a n m.dst m.size)
    | none => false

/-- What a command finds when it starts: the first code of R367 that applies, 0 for none. -/
def judgeMove (s : State) (m : MigCmd) : MigRun :=
  if ctxInvalid s m.ctx then ⟨1, 0, 0, 0⟩
  else match walk s m.ctx m.va with
    | .error _ => ⟨2, 0, 0, 0⟩
    | .ok (large, e) =>
      if large ≠ m.large then ⟨2, 0, 0, 0⟩
      else
        let src := entryPa e.toNat
        let bad := fun c => MigRun.mk c src 0 e
        if e.getLsbD 4 then bad 3
        else if e.getLsbD 6 && feature s 2 then bad 4
        else if m.dst % m.size ≠ 0 || !installed s m.dst m.size || spansMeet src m.size m.dst m.size then bad 5
        else if meetsRegion s src m.size || meetsRegion s m.dst m.size then bad 6
        else if meetsMove s src m.size || meetsMove s m.dst m.size then bad 7
        else ⟨0, src, leafAddr s m.ctx m.va, e⟩

/-- The reads by which a command finds its leaf wait at a place. -/
def leafWaits (s : State) (ctx va : Nat) : Bool := (walkPath s ctx va).any fun a => placeWaits s a false

/-- Start the first waiting command while fewer than four run; the locks of a moving page end (02 R51). -/
def startMove (s : State) : State :=
  match s.migQ.findIdx? (fun m => m.run.isNone) with
  | none => s
  | some i =>
    if 4 ≤ i then s
    else match s.migQ[i]? with
      | none => s
      | some m =>
        if leafWaits s m.ctx m.va then s
        else
        let r := judgeMove s m
        let s := walkReads { s with migQ := s.migQ.set i { m with run := some r } } m.ctx m.va
        if r.code = 0 then
          { s with locks := s.locks.filter fun l => !(decide (r.src ≤ 64 * l.1) && decide (64 * l.1 < r.src + m.size)) }
        else s

/-- A write to MIGCTL captures the registers as one command; one written while FULL is lost. -/
def captureMove (s : State) (v : Word) (large : Bool) : State :=
  if regHidden s 0x0E0006020028 then s
  else if 16 ≤ s.migQ.length then s.setReg 0x0E0006020030 (s.reg 0x0E0006020030 ||| 2#64)
  else
    let b := 0x0E0006020000
    let m : MigCmd := ⟨(s.reg b).toNat, (s.reg (b + 8)).toNat, (s.reg (b + 16)).toNat, (s.reg (b + 24)).toNat, s.reg (b + 32),
      bitsAt v.toNat 0 16, large, none⟩
    startMove (setFull { s with migQ := s.migQ ++ [m] } 0x0E0006020030 (s.migQ.length + 1))

def execMigrate64k (v : BitVec 64) (s : State) : Res State := .next (captureMove s v false)
def execMigrate64m (v : BitVec 64) (s : State) : Res State := .next (captureMove s v true)

/-- The page attributes of a leaf, for reading the source and writing the destination. -/
def leafKeys (s : State) (m : MigCmd) (e : Word) (pa : Nat) : Phys :=
  ⟨pa, if e.getLsbD 7 && feature s 4 then keyOf s m.ctx else none, if e.getLsbD 8 && feature s 5 then keyOf s m.ctx else none⟩

/-- Copy a page sector by sector in ascending order; poison is copied as poison. -/
def copyPage (s : State) (m : MigCmd) (r : MigRun) : State :=
  (List.range (m.size / 32)).foldl (fun s i =>
    copySector s (leafKeys s m r.leaf (r.src + 32 * i)) (leafKeys s m r.leaf (m.dst + 32 * i))) s

/-- A stalled write performs at the destination (02 R76); so does a read that has not performed yet, which finds the same bytes there. -/
def redirect (m : MigCmd) (r : MigRun) (x : Phys) : Phys :=
  if r.src ≤ x.pa ∧ x.pa < r.src + m.size then { x with pa := m.dst + (x.pa - r.src) } else x

def redirectAcc (m : MigCmd) (r : MigRun) (a : Acc) : Acc :=
  { a with pieces := a.pieces.map fun p => { p with pa := p.pa.map (redirect m r) } }

/-- The queues of a context that hold accesses to a moved page. -/
def redirectCtx (m : MigCmd) (r : MigRun) (x : SCtx) : SCtx :=
  { x with loadQ := x.loadQ.map (redirectAcc m r), storeQ := x.storeQ.map (redirectAcc m r) }

/-- Every access of a moved page that has not performed goes to the destination: none has then used the old translation. A plain physical
write of F stalls like any other and follows it. -/
def redirectAll (s : State) (m : MigCmd) (r : MigRun) : State :=
  let s := { s with counters := s.counters.map fun d => { d with at_ := redirect m r d.at_ } }
  (List.range 128).foldl (fun s c => s.modCore c fun k =>
    { k with t := redirectCtx m r k.t, f := redirectCtx m r k.f,
             cpQ := k.cpQ.map fun e => { e with dests := e.dests.map fun d => (d.1, redirect m r d.2) } }) s

/-- The leaf names the destination: one 8-byte store at the entry's home. -/
def putLeaf (s : State) (m : MigCmd) (r : MigRun) : State :=
  (storeQuiet s (.plain r.leafAt) 8 (withFields r.leaf (BitVec.ofNat 64 m.dst) (bitMask 12 40)).toNat).1

/-- The invalidation that a migration command runs, of its page. -/
def MigCmd.inv (m : MigCmd) : InvCmd := ⟨m.va, 0, 0, m.ctx, if m.large then 2 else 1⟩

/-- The status word of a command, at once, or once the place where it stands is no longer moved (02 R76). -/
def putSts (s : State) (sts code : Nat) : State :=
  let x := Phys.plain (sts / 8 * 8)
  if sts = 0 then s
  else if placeWaits s x.pa true then { s with counters := s.counters ++ [⟨128, x, BitVec.ofNat 64 code, true, 0, 0⟩] }
  else storePhys s x.pa 8 code

/-- The status word and the counter; the command leaves the queue and the next one starts. -/
def endMove (s : State) (m : MigCmd) (code : Nat) : State :=
  let s := putSts { s with migQ := s.migQ.drop 1 } m.sts code
  startMove (setFull (dueBase s m.ctr m.inc) 0x0E0006020030 s.migQ.length)

/-- A bank command has a row open in a range. -/
def rowsIn (s : State) (a n : Nat) : Bool :=
  (List.range 128).any fun c => (s.core c).cpQ.any fun m => match m.place with
    | some x => decide (a / 16384 ≤ x.pa / 16384) && decide (x.pa / 16384 * 16384 < a + n)
    | none => false

/-- The engine's own accesses to a page wait: at a port, an open row or a stack that is being mapped out. -/
def pageWaits (s : State) (a n : Nat) : Bool :=
  rowsIn s a n || (List.range (n / 65536)).any fun i => placeWaits s (a + 65536 * i) false

/-- The copy or the store of the leaf waits at a place (04 R122; 08 R231; 23 R397). -/
def moveWaits (s : State) (m : MigCmd) (r : MigRun) : Bool :=
  pageWaits s r.src m.size || pageWaits s m.dst m.size || placeWaits s r.leafAt false

/-- The first command completes (R366): it was refused; or its page is copied, the leaf changed, and every access that has not performed
leaves the old translation, the stalled writes counted as held. -/
def evMigrationComplete (s : State) : Option State :=
  match s.migQ with
  | [] => none
  | m :: _ => match m.run with
    | none => if leafWaits s m.ctx m.va then none else some (startMove s)
    | some r =>
      if r.code ≠ 0 then some (endMove s m r.code)
      else if rowsClear s m.inv && !moveWaits s m r then
        some (endMove (redirectAll (dropXlats (putLeaf (copyPage s m r) m r) m.inv) m r) m 0)
      else none

/-- MIGRATION_COMPLETE (log 99). -/
def execMigrationComplete (s : State) : Res State := happens s (evMigrationComplete s)

/-! ## Keys (22 R382, R383) -/

/-- A write to KEYCMD starts a command; one written while BUSY is ignored. -/
def startKey (s : State) (v : Word) (op : Nat) : State :=
  if regHidden s 0x0E0007040040 ∨ s.keyQ ≠ [] then s
  else
    let m : KeyCmd := ⟨bitsAt v.toNat 0 16, op, (s.reg 0x0E0007040048).toNat, s.reg 0x0E0007040050⟩
    { s with keyQ := [m] }.setReg 0x0E0007040058 1

def execKeyLoad (v : BitVec 64) (s : State) : Res State := .next (startKey s v 1)
def execKeyDestroy (v : BitVec 64) (s : State) : Res State := .next (startKey s v 2)

/-- The key that KEYDATA0 to KEYDATA7 hold, word 0 least significant. -/
def keyData (s : State) : BitVec 512 :=
  BitVec.ofNat 512 (packW 64 (fun i => (s.reg (0x0E0007040000 + 8 * i)).toNat) 8)

/-- A load: the context holds the key, and KEYDATA reads zero from now on. -/
def loadKey (s : State) (ctx : Nat) : State :=
  let k := keyData s
  let s := { s with keys := tset (fun _ => none) s.keys ctx (some k) }
  (List.range 8).foldl (fun s i => s.setReg (0x0E0007040000 + 8 * i) 0) s

/-- A line filled under the key is discarded: what was written under it leaves unpredictable data (R383); its locks end (02 R51). -/
def discardLine (s : State) (line : Nat) (written : Bool) : State :=
  let s := { s with locks := s.locks.filter fun l => decide (l.1 ≠ line) }
  if written then
    { s with mem := memSetN s.mem (line * 64) 64 (Config.free 512 (fkey s 0 0)).toNat, fresh := s.fresh + 1,
             tags := s.tags.filter fun p => decide (p.1 / 2 ≠ line) }
  else s

/-- Accesses that hold a translation under the key lose it: each then faults as one with no key (R383). -/
def forgetKey (k : BitVec 512) (a : Acc) : Acc :=
  { a with pieces := a.pieces.map fun p => match p.pa with
      | some x => if x.enc = some k ∨ x.itag = some k then { p with pa := none } else p
      | none => p }

/-- A destroy: the lines filled under the key are discarded without write-back, the locks of the context end (02 R51), then the key is
deleted. -/
def destroyKey (s : State) (ctx : Nat) : State :=
  match keyOf s ctx with
  | none => s
  | some k =>
    let mine := s.keyed.filter fun p => match p.2 with
      | some q => decide (q.1 = k)
      | none => false
    let s := mine.foldl (fun s p => discardLine s p.1 (match p.2 with
      | some q => q.2
      | none => false)) s
    let s := { s with keyed := s.keyed.filter (fun p => !mine.contains p), keys := tset (fun _ => none) s.keys ctx none,
                      locks := s.locks.filter fun l => decide (l.2 ≠ ctx) }
    (List.range 128).foldl (fun s c => if (s.core c).ident.ctx = ctx then s.modCore c fun q =>
      { q with t := { q.t with loadQ := q.t.loadQ.map (forgetKey k), storeQ := q.t.storeQ.map (forgetKey k) } } else s) s

/-- A counter of an engine command is due under the key of a context: it performs before the discard (R383). -/
def keyInUse (s : State) (ctx : Nat) : Bool := match keyOf s ctx with
  | none => false
  | some k => s.counters.any fun d => decide (d.at_.enc = some k) || decide (d.at_.itag = some k)

/-- The key command completes: its effect, then its counter (R383). -/
def evKeyCommandComplete (s : State) : Option State :=
  match s.keyQ with
  | [] => none
  | m :: _ =>
    if m.op ≠ 1 ∧ keyInUse s m.ctx = true then none
    else
    let t := if m.op = 1 then loadKey s m.ctx else destroyKey s m.ctx
    some ({ dueBase t m.ctr m.inc with keyQ := [] }.setReg 0x0E0007040058 0)

/-- KEY_COMMAND_COMPLETE (log 99). -/
def execKeyCommandComplete (s : State) : Res State := happens s (evKeyCommandComplete s)

end Sys2Proof.Machine
end

