-- ==== Sys2Proof/Machine/Regions.lean ====
section
/-! DEFINITION. Format regions (spec/03 R96 to R100): enable, disable, flush and the write-back of decoded sectors. -/

namespace Sys2Proof.Machine
open Sys2Proof

/-- Every field of a region is valid and aligned (R96, R97). -/
def regionFields (s : State) (r : Nat) : Bool :=
  let c := (s.reg (frReg r 32)).toNat
  let ef := bitsAt c 0 6
  let sf := bitsAt c 8 6
  let narrow := fmtAssigned ef && decide (fmtWidth ef ≤ 8) && decide (ef ≠ 0x0D)
  let wide := (decide (ef = 1) || decide (ef = 2)) && decide (bitsAt c 17 1 = 1)
  (narrow || wide) && fmtAssigned sf && decide (fmtWidth sf = 8) && decide (bitsAt c 14 3 ≤ 5)
    && decide ((s.reg (frReg r 0)).toNat % 64 = 0) && decide ((s.reg (frReg r 16)).toNat % 65536 = 0)
    && decide ((s.reg (frReg r 24)).toNat % 128 = 0)

/-- The window lies in the decoded range and meets no enabled region's window. -/
def windowFree (s : State) (r : Nat) : Bool :=
  let d := (s.reg (frReg r 16)).toNat
  let n := frWindow s r
  decide (0x0C0000000000 ≤ d) && decide (d < 0x0E0000000000) && decide (d + n ≤ 0x0E0000000000)
    && !((List.range 32).any fun q => decide (q ≠ r) && (s.reg (frReg q 32)).getLsbD 63
      && spansMeet d n (s.reg (frReg q 16)).toNat (frWindow s q))

/-- What R97 asks of a region before it is enabled. -/
def regionGood (s : State) (r : Nat) : Bool :=
  let x := regionRegs s r
  regionFields s r && installed s (packedRange x).1 (packedRange x).2
    && (decide (x.blk = 0) || installed s (scaleRange x).1 (scaleRange x).2) && windowFree s r

/-- A write of EN = 1 to a disabled region (R97): its fields are taken; EN where the region is good, else ERR. -/
def execFormatRegionEnable (r : Nat) (v : BitVec 64) (s : State) : Res State :=
  let a := frReg r 32
  if regHidden s a ∨ (s.reg a).getLsbD 63 = true then .next s
  else
    let t := regionWrite s r 32 v
    .next (t.setReg a (withFields (t.reg a) (if regionGood t r then 1#64 <<< 63 else 1#64 <<< 18) (bitMask 18 1 ||| bitMask 63 1)))

/-- A write of EN = 0 begins a flush; the region is disabled when it completes (R97). -/
def execFormatRegionDisable (r : Nat) (_v : BitVec 64) (s : State) : Res State :=
  let a := frReg r 32
  if regHidden s a ∨ (s.reg a).getLsbD 63 = false then .next s
  else .next { s.setReg a (s.reg a ||| (1#64 <<< 62)) with frOff := setIns s.frOff r }

/-- A write of FLUSH = 1 to an enabled region (R96). -/
def execFormatRegionFlush (r : Nat) (v : BitVec 64) (s : State) : Res State :=
  let a := frReg r 32
  if regHidden s a ∨ (s.reg a).getLsbD 63 = false ∨ v.getLsbD 62 = false then .next s
  else .next (s.setReg a (s.reg a ||| (1#64 <<< 62)))

/-- Write back one dirty decoded sector (R99); a poisoned one is written back poisoned (22 R381). -/
def evictSector (s : State) (r : Nat) (d : DecSec) : State :=
  if d.dirty = false then s
  else if isPoison s d.addr then
    let x := regionRegs s r
    let n := 32 / x.esize
    let i0 := (d.addr - x.dbase) / x.esize
    let w := fmtWidth x.efmt
    let t := setPoison (setPoison s (x.pbase + i0 * w / 8)) (x.pbase + ((i0 + n) * w - 1) / 8)
    { t with decoded := t.decoded.map fun e => if e.addr = d.addr then { e with dirty := false } else e }
  else writeBackDecoded s r d

/-- The write-back of a dirty sector waits at the packed sectors it writes or the scales it reads (02 R76; 23 R397). -/
def backWaits (s : State) (r : Nat) (d : DecSec) : Bool :=
  let x := regionRegs s r
  d.dirty && ((x.packedAt d.addr).any (fun a => sectorWaits s a true) || (x.scalesAt d.addr).any fun a => sectorWaits s a false)

/-- A home slice writes back a dirty decoded sector (R99). -/
def evDecodedWriteback (k : Nat) (s : State) : Option State :=
  match s.decoded[k]? with
  | some d =>
    if d.dirty then (match regionOf s d.addr with
      | some r => if backWaits s r d then none else some (evictSector s r d)
      | none => none)
    else none
  | none => none

/-- DECODED_WRITEBACK (log 99). -/
def execDecodedWriteback (k : Nat) (s : State) : Res State := happens s (evDecodedWriteback k s)

/-- A decoded sector lies in the region's window. -/
def regionHolds (s : State) (r : Nat) (d : DecSec) : Bool :=
  decide ((regionRegs s r).dbase ≤ d.addr) && decide (d.addr < (regionRegs s r).dbase + frWindow s r)

/-- Write back and invalidate every decoded sector of a region. -/
def flushRegion (s : State) (r : Nat) : State :=
  let x := regionRegs s r
  let t := (s.decoded.filter (regionHolds s r)).foldl (fun s d => evictSector s r d) s
  { t with decoded := t.decoded.filter (fun d => !regionHolds s r d),
           poison := t.poison.filter fun p => !(decide (x.dbase ≤ 32 * p) && decide (32 * p < x.dbase + frWindow s r)) }

/-- A flush completes: FLUSH reads 0, and a waiting disable takes effect (R97). -/
def evFlushComplete (r : Nat) (s : State) : Option State :=
  let a := frReg r 32
  if (s.reg a).getLsbD 62 = false ∨ (s.decoded.any fun d => regionHolds s r d && backWaits s r d) = true then none
  else
    let t := flushRegion s r
    let off := t.frOff.contains r
    let w := t.reg a &&& ~~~(if off then bitMask 62 2 else bitMask 62 1)
    some { t.setReg a w with frOff := setDel t.frOff r }

/-- FLUSH_COMPLETE (log 99). -/
def execFlushComplete (r : Nat) (s : State) : Res State := happens s (evFlushComplete r s)

end Sys2Proof.Machine
end

