-- ==== Sys2Proof/Machine/Retire.lean ====
section
/-! DEFINITION. Errors and what the firmware makes of them (spec/23): events and logs (R387 to R390), judgement (R391), the retirement
store and row retirement (R392 to R395), and spare macros (R398, R399). -/

namespace Sys2Proof.Machine
open Sys2Proof

/-! ## Events and logs (R387 to R390) -/

/-- An error is detected: log, CLASS, SUB and LOC of its record (R389). -/
def evErrorEvent (log cls sub loc : Nat) (s : State) : Option State :=
  if log < 36 ∧ 1 ≤ cls ∧ cls ≤ 7 then some (logError s log cls sub loc) else none

/-- ERROR_EVENT (log 99). -/
def execErrorEvent (log cls sub loc : Nat) (s : State) : Res State := happens s (evErrorEvent log cls sub loc s)

/-- CLR takes a sequence number and empties the log, what the firmware has not read of it included; COUNT stays (R390). -/
def clearLog (s : State) (k : Nat) : State :=
  let b := logBase k
  let t := { s with devSeq := s.devSeq + 1, logs := s.logs.filter fun r => decide (r.log ≠ k) }
  (List.range 128).foldl (fun s i => s.setReg (b + 0x400 + 8 * i) 0) ((t.setReg b 0).setReg (b + 16) 0)

def execLogClear (k : Nat) (v : BitVec 64) (s : State) : Res State := .next (if v.getLsbD 7 then clearLog s k else s)

/-! ## The retirement store (R392) -/

def errReg (off : Nat) : Nat := 0x0E0007200000 + off

/-- Bytes 0 to 31 of a record as a number: TYPE, LOC, SEQ, TIME. -/
def recordBody (ty loc seq time : Nat) : Nat := ty % 256 + loc % 2 ^ 64 * 2 ^ 64 + seq % 2 ^ 64 * 2 ^ 128 + time % 2 ^ 64 * 2 ^ 192

/-- A whole record with its digest. -/
def storeRecord (body : Nat) : Nat := body + (Config.sha3 (toBytes 32 body)).toNat * 2 ^ 256

/-- The digest of a record holds (R392). -/
def recordGood (r : Nat) : Bool := decide (storeRecord (r % 2 ^ 256) = r)

/-- RETSTAT's count and FULL after the store has changed. -/
def setRetstat (s : State) : State :=
  let n := s.retired.length
  s.setReg (errReg 16) (withFields (s.reg (errReg 16)) (BitVec.ofNat 64 (n + (if 4096 ≤ n then 2 ^ 13 else 0))) (bitMask 0 14))

/-- Append a record; when the store is FULL the retirement stands for this boot only, with an alarm (R392). The store filling up sends
in-band interrupt 2 (24 R404). -/
def appendRecord (s : State) (ty loc : Nat) : State :=
  if 4096 ≤ s.retired.length then { s with alarms := s.alarms ++ [(1, loc)] }
  else
    let time := (Config.free 64 (fkey s 0 0)).toNat
    let t := setRetstat { s with retired := s.retired ++ [storeRecord (recordBody ty loc s.devSeq time)], fresh := s.fresh + 1 }
    if t.retired.length = 4096 then { t with ibis := 2 :: t.ibis } else t

/-! ## Rows and their pages (R393, R395) -/

/-- The 64 KiB page that holds the row of a LOC word of logs 0 to 7: R374, or R397 where a die of the stack is mapped out. -/
def rowPage (s : State) (loc : Nat) : Nat :=
  let st := bitsAt loc 0 3
  let ch := bitsAt loc 3 5
  let pc := bitsAt loc 8 1
  let row := bitsAt loc 13 16
  if stackOut s st then
    let die := stkctl s st % 16
    let c := if ch < 2 * die then ch else ch - 2
    st * 2 ^ 16 + ((row / 4) * 60 + pc * 30 + c) * 2 ^ 19
  else st * 2 ^ 16 + ch * 2 ^ 19 + pc * 2 ^ 24 + row / 4 * 2 ^ 25

/-- The row stands on a die that is mapped out: no page holds it (R397). -/
def rowGone (s : State) (loc : Nat) : Bool :=
  stackOut s (bitsAt loc 0 3) && decide (bitsAt loc 3 5 / 2 = stkctl s (bitsAt loc 0 3) % 16)

/-- A row judged lasting: its record, then TYPE 5 to the host, which answers TYPE 6 (R393). -/
def retireRow (s : State) (loc : Nat) : State :=
  let t := appendRecord s 1 (loc % 2 ^ 29)
  let p := rowPage s loc
  if rowGone s loc then t
  else { askMail t [5, p] [6, p] with retiring := if t.retiring.contains p then t.retiring else t.retiring ++ [p] }

/-- The entry of the offline list that the next page takes. -/
def offlinePlace (s : State) : Nat := (s.reg (errReg 24)).toNat + 8 * (s.reg (errReg 32)).toNat

/-- Add a page to the offline list, once (R395). -/
def offlinePage (s : State) (p : Nat) : State :=
  let n := (s.reg (errReg 32)).toNat
  let base := (s.reg (errReg 24)).toNat
  if (List.range n).any fun i => decide (peek s (base + 8 * i) 8 / 65536 = p / 65536) then s
  else (storePhys s (offlinePlace s) 8 p).setReg (errReg 32) (BitVec.ofNat 64 (n + 1))

/-! ## Spare macros (R398) -/

/-- A claiming group is bound to the hearth (04 R120, R123). -/
def hearthTaken (s : State) (h : Nat) : Bool :=
  (List.range 4).any fun j => (s.core (4 * h + j)).bound && (s.core (4 * h + j)).ident.claim

/-- First storage byte of macro `m` of a hearth, and of its sidecar (04 R107). -/
def macroBase (h m : Nat) : Nat := Config.cimBase + (h * 4096 + m) * 16384
def macroSide (h m : Nat) : Nat := Config.cimsBase + (h * 4096 + m) * 1024

/-- The halves of a macro start in storage mode. -/
def macroStorage (s : State) (h m : Nat) : State :=
  s.modHearth h fun x => { x with halves := tset (fun _ => Half.reset) (tset (fun _ => Half.reset) x.halves (2 * m) .reset) (2 * m + 1) .reset }

/-- A spare takes effect: storage mode, zero (R398). -/
def zeroMacro (s : State) (h m : Nat) : State :=
  macroStorage (zeroRange (zeroRange s (macroBase h m) 16384) (macroSide h m) 1024) h m

/-- A macro comes back from behind a spare: what it holds is not stated (log 41). -/
def freeMacro (s : State) (h m : Nat) : State :=
  let t := zeroMacro s h m
  { t with mem := memSetN (memSetN t.mem (macroBase h m) 16384 (Config.free 131072 (fkey s 0 0)).toNat) (macroSide h m) 1024
             (Config.free 8192 (fkey s 0 1)).toNat, fresh := s.fresh + 1 }

/-- Another valid entry of the hearth-layer names the macro. -/
def remapTwice (s : State) (h l i m : Nat) : Bool :=
  (List.range 16).any fun j => decide (j ≠ i) && (s.reg (remapReg h l j)).getLsbD 15
    && decide (bitsAt (s.reg (remapReg h l j)).toNat 0 9 = m)

/-- Write remap entry `k`, numbered over the module; a refused write changes REFUSED alone (R398). -/
def writeRemap (s : State) (k : Nat) (v : Word) : State :=
  let (h, l, i) := (k / 128, k / 16 % 8, k % 16)
  let a := remapReg h l i
  let old := s.reg a
  let m := bitsAt v.toNat 0 9
  if hearthTaken s h || (v.getLsbD 15 && remapTwice s h l i m) || old.getLsbD 16 then s.setReg a (old ||| (1#64 <<< 17))
  else
    let t := s.setReg a (withFields old (v &&& ~~~(1#64 <<< 17)) (bitMask 0 9 ||| bitMask 15 1 ||| bitMask 17 1))
    let m0 := bitsAt old.toNat 0 9
    let t := if old.getLsbD 15 && !(v.getLsbD 15 && decide (m = m0)) then freeMacro t h (l * 512 + m0) else t
    if v.getLsbD 15 && !(old.getLsbD 15 && decide (m = m0)) then zeroMacro t h (l * 512 + m) else t

def evRemapEntryWrite (k : Nat) (v : BitVec 64) (s : State) : Option State :=
  if k < 2048 then some (writeRemap s k v) else none

/-- REMAP_ENTRY_WRITE (log 99). -/
def execRemapEntryWrite (k : Nat) (v : BitVec 64) (s : State) : Res State := happens s (evRemapEntryWrite k v s)

/-- The lowest free entry of a hearth-layer. -/
def freeEntry (s : State) (h l : Nat) : Option Nat :=
  (List.range 16).find? fun i => !(s.reg (remapReg h l i)).getLsbD 15 && !(s.reg (remapReg h l i)).getLsbD 16

/-- The spare of a lasting macro: its TYPE 3 record and the lowest free entry (R399); with no spare left, an alarm. -/
def remapMacro (s : State) (h l m : Nat) : State :=
  let t := appendRecord s 3 (h + l * 16 + m * 128)
  match freeEntry t h l with
  | some i => writeRemap t ((h * 8 + l) * 16 + i) (BitVec.ofNat 64 (m + 2 ^ 15))
  | none => { t with alarms := t.alarms ++ [(4, h * 8 + l)] }

/-- A macro is judged lasting: its spare is written at once, or waits, and no group is bound to the hearth any more, until none is. -/
def lastingMacro (s : State) (h l m : Nat) : State :=
  if hearthTaken s h then { s with lasting := s.lasting ++ [(h, l, m)] } else remapMacro s h l m

/-- The first lasting macro whose hearth no group is bound to any more takes its spare (R399). -/
def spareDue (s : State) : Option State := match s.lasting.find? fun m => !(hearthTaken s m.1) with
  | some m => some (remapMacro { s with lasting := s.lasting.erase m } m.1 m.2.1 m.2.2)
  | none => none

/-! ## Judgement (R391) -/

/-- Records the firmware judges. -/
def judged (r : ErrRec) : Bool :=
  (decide (r.log < 8) || (decide (16 ≤ r.log) && decide (r.log < 32)))
    && (decide (r.cls = 1) || decide (r.cls = 2) || decide (r.cls = 4) || decide (r.cls = 7))

def rowKey (r : ErrRec) : Nat := r.loc % 2 ^ 29
def bankKey (r : ErrRec) : Nat := r.loc % 2 ^ 13
def sectorOf (r : ErrRec) : Nat := bitsAt r.loc 29 5
def dieKey (r : ErrRec) : Nat := bitsAt r.loc 0 3 * 16 + bitsAt r.loc 3 5 / 2

/-- Distinct numbers of a list. -/
def distinct (l : List Nat) : List Nat := l.foldl setIns []

/-- A record brings the count of distinct rows of the records `l` to `n`. -/
def bringsTo (l : List ErrRec) (r : ErrRec) (n : Nat) : Bool :=
  let rows := distinct (l.map rowKey)
  !rows.contains (rowKey r) && decide (rows.length + 1 = n)

/-- A DRAM record that makes its column lasting, or with `whole` its bank: every row of the bank reported since boot is retired, an alarm names
the die, and a second lasting bank of the die recommends its map-out. -/
def bankLasting (s : State) (w : Nat) (r : ErrRec) (whole : Bool) : State :=
  let rows := distinct ((s.history.filter fun q => decide (q.log = r.log) && decide (bankKey q = bankKey r)).map rowKey)
  let t := rows.foldl retireRow s
  let t := { t with alarms := t.alarms ++ [(2, dieKey r)] }
  let other := t.lastBanks.any fun e => decide (e.1 ≠ bankKey r) && decide (bitsAt e.1 0 3 * 16 + bitsAt e.1 3 5 / 2 = dieKey r)
    && decide (r.time ≤ e.2 + w)
  if whole then { t with lastBanks := t.lastBanks ++ [(bankKey r, r.time)], alarms := if other then t.alarms ++ [(3, dieKey r)] else t.alarms }
  else t

/-- Judge a DRAM record against those of the window; `s` already holds it in its history. -/
def judgeDram (s : State) (k w : Nat) (near : List ErrRec) (r : ErrRec) : State :=
  let bank := near.filter fun q => decide (q.log = r.log) && decide (bankKey q = bankKey r)
  let t := if (bank.filter fun q => decide (rowKey q = rowKey r)).length + 1 = k then retireRow s r.loc else s
  let whole := bringsTo bank r (2 * k)
  if bringsTo (bank.filter fun q => decide (sectorOf q = sectorOf r)) r k || whole then bankLasting t w r whole else t

/-- Judge a macro record. -/
def judgeMacro (s : State) (k : Nat) (near : List ErrRec) (r : ErrRec) : State :=
  let h := r.log - 16
  let same := near.filter fun q => decide (q.log = r.log) && decide (q.loc % 2 ^ 13 = r.loc % 2 ^ 13)
  if same.length + 1 = k then lastingMacro s h (bitsAt r.loc 0 3) (logicalMacro s h (bitsAt r.loc 0 3) (bitsAt r.loc 3 10)) else s
where
  /-- The macro index that a physical macro stands for: a spare stands for the one its entry names. -/
  logicalMacro (s : State) (h l p : Nat) : Nat :=
    if p < 512 then p else bitsAt (s.reg (remapReg h l (p - 512))).toNat 0 9

/-- Judge one record that the firmware has read. -/
def judgeRecord (s : State) (r : ErrRec) : State :=
  let j := (s.reg (errReg 8)).toNat
  let k := bitsAt j 0 4
  let w := bitsAt j 8 32 * 1000000
  let near := s.history.filter fun q => decide (r.time ≤ q.time + w)
  let t := { s with history := s.history ++ [r] }
  if r.log < 8 then judgeDram t k w near r else judgeMacro t k near r

/-- A log whose last unread record has been read is drained: the firmware writes CLR (R390). -/
def drainLog (s : State) (k : Nat) : State := if s.logs.any fun r => decide (r.log = k) then s else clearLog s k

/-- The firmware reads record `k` of those in the logs (R390), and judges it (R391). -/
def evErrorJudgement (k : Nat) (s : State) : Option State :=
  match s.logs[k]? with
  | none => none
  | some r =>
    let t := drainLog { s with logs := s.logs.eraseIdx k } r.log
    some (if judged r then judgeRecord t r else t)

/-- ERROR_JUDGEMENT (log 99). -/
def execErrorJudgement (k : Nat) (s : State) : Res State := happens s (evErrorJudgement k s)

end Sys2Proof.Machine
end

