-- ==== Sys2Proof/Machine/Controllers.lean ====
section
/-! DEFINITION. The memory controllers (spec/22 R375 to R380): refresh, activation budgets, temperatures and scrub; CIM scrub (spec/23 R399);
and the map-out of a die (R396, R397). -/

namespace Sys2Proof.Machine
open Sys2Proof

/-! ## Refresh (22 R375 to R377)

Pseudo-channel `k` is (stack × 32 + channel) × 2 + pseudo-channel; its bank `b` has number 16 k + b. -/

/-- A bank command has rows open in the pseudo-channel, in a bank that `sel` picks. -/
def rowsOpenIn (s : State) (k : Nat) (sel : Nat → Bool) : Bool :=
  (List.range 128).any fun c => (s.core c).cpQ.any fun m => match m.place with
    | some x => decide (bankNum (hbmLoc s x.pa) / 16 = k) && (bankSel m).any sel
    | none => false

/-- A refresh takes 32 off a bank's activation count. -/
def refreshed (s : State) (n : Nat) : State :=
  { s with acnt := tset (fun _ => 0) s.acnt n (tget (fun _ => 0) s.acnt n - 32) }

def debtOf (s : State) (k : Nat) : Nat := tget (fun _ => 0) s.debt k
def headOf (s : State) (k : Nat) : Nat := tget (fun _ => 0) s.head k
def setDebt (s : State) (k n : Nat) : State := { s with debt := tset (fun _ => 0) s.debt k n }

/-- A tick: the debt rises, or at PALLOW an all-bank refresh is forced once the open rows have closed (R375, R378). -/
def evRefreshTick (k : Nat) (s : State) : Option State :=
  if 512 ≤ k then none
  else if debtOf s k < bitsAt (s.reg (mcReg (k / 64) 0)).toNat 0 4 then some (setDebt s k (debtOf s k + 1))
  else if rowsOpenIn s k (fun _ => true) then none
  else
    let t := (List.range 16).foldl (fun s b => refreshed s (16 * k + b)) (setDebt s k 0)
    some (satCount t (mcReg (k / 64) 48) 0)

/-- REFRESH_TICK (log 99). -/
def execRefreshTick (k : Nat) (s : State) : Res State := happens s (evRefreshTick k s)

/-- A per-bank refresh of HEAD, once nothing is in service in its bank group (R375). -/
def evRefpb (k bank : Nat) (s : State) : Option State :=
  if 512 ≤ k ∨ debtOf s k = 0 ∨ bank ≠ headOf s k ∨ rowsOpenIn s k (fun b => decide (b / 4 = bank / 4)) = true then
    none
  else
    let t := setDebt (refreshed s (16 * k + bank)) k (debtOf s k - 1)
    some { t with head := tset (fun _ => 0) t.head k ((bank + 1) % 16) }

/-- REFPB (log 99). -/
def execRefpb (k bank : Nat) (s : State) : Res State := happens s (evRefpb k bank s)

/-- A bank at ACTLIM takes a refresh-management command (R377). -/
def evRefreshManagement (k bank : Nat) (s : State) : Option State :=
  if k < 512 ∧ bank < 16 ∧ actFull s (16 * k + bank) = true then some (refreshManage s (16 * k + bank))
  else none

/-- REFRESH_MANAGEMENT (log 99). -/
def execRefreshManagement (k bank : Nat) (s : State) : Res State := happens s (evRefreshManagement k bank s)

/-! ## Temperatures (22 R376, 24 R400) -/

def thReg (off : Nat) : Nat := 0x0E0007300000 + off
def tempOf (s : State) (h : Nat) : Nat := bitsAt (s.reg (thReg (8 * h))).toNat 0 8
def throtOf (s : State) : Nat := bitsAt (s.reg (thReg 0x98)).toNat 0 8
def tripOf (s : State) : Nat := bitsAt (s.reg (thReg 0x98)).toNat 8 8
def trippedBit (s : State) (h : Nat) : Bool := (s.reg (thReg 0x98)).getLsbD (16 + h)
def hallowReg (h : Nat) : Nat := 0x0E0007010000 + h * 16

/-- A hearth trips (24 R401): HALLOW := 0, TRIPPED, event 8, and in-band interrupt 1 (R404). -/
def tripHearth (s : State) (h : Nat) : State :=
  let t := (s.setReg (hallowReg h) 0).setReg (thReg 0x98) (s.reg (thReg 0x98) ||| (1#64 <<< (16 + h)))
  postEvent { t with ibis := 1 :: t.ibis } 8 0 0 (BitVec.ofNat 64 h)

/-- A hearth's sample: at TRIP it trips at once (24 R401); at THROT − 5 °C or above, its time below begins anew (R402). -/
def hearthSample (s : State) (h b : Nat) : State :=
  let t := s.setReg (thReg (8 * h)) (BitVec.ofNat 64 b)
  let t := if throtOf t ≤ b + 5 then { t with coolMs := tset (fun _ => 0) t.coolMs h 0 } else t
  if tripOf t ≤ b ∧ trippedBit t h = false then tripHearth t h else t

/-- Sensor `k`: DRAM die k mod 16 of stack k div 16 below 128, then the hearths, the base die, and the module's power. -/
def evDieTempSample (k : Nat) (t : BitVec 64) (s : State) : Option State :=
  let b := t.toNat % 256
  if k < 128 then
    let st := k / 16
    let d := k % 16
    let a := mcReg st (24 + d / 8 * 8)
    let s := s.setReg a (withFields (s.reg a) (BitVec.ofNat 64 (b * 2 ^ (8 * (d % 8)))) (bitMask (8 * (d % 8)) 8))
    let th := bitsAt (s.reg (mcReg st 0)).toNat 8 8
    let hot := mcReg st 40
    some (if th < b then s.setReg hot (s.reg hot ||| (1#64 <<< d))
      else if b < th - 3 then s.setReg hot (s.reg hot &&& ~~~(1#64 <<< d)) else s)
  else if k < 144 then some (hearthSample s (k - 128) b)
  else if k = 144 then some (s.setReg 0x0E0007300080 (BitVec.ofNat 64 b))
  else if k = 145 then some (s.setReg 0x0E0007300088 (BitVec.ofNat 64 (t.toNat % 65536)))
  else none

/-- DIE_TEMP_SAMPLE (log 99). -/
def execDieTempSample (k : Nat) (t : BitVec 64) (s : State) : Res State := happens s (evDieTempSample k t s)

/-! ## Scrub (22 R380, 23 R388) -/

/-- Scrub one sector: a single error is corrected and written back, any other is logged as found by scrub. -/
def scrubSector (s : State) (p : Nat) : State :=
  let f := flipsAt s p
  if f = 0 then s
  else
    let l := hbmLoc s p
    if popCount 256 f.toNat = 1 then logError (setFlips s p 0) l.stack 1 2 (hbmLocWord l)
    else logError s l.stack 7 2 (hbmLocWord l)

/-- Scrub the row of 1 KiB number `k`, behind one activate (22 R377): a listed row is repaired, and listed rows of a stack come before
others. -/
def evScrubRow (k : Nat) (s : State) : Option State :=
  let a := 1024 * k
  let l := hbmLoc s a
  if homeOf s a ≠ some .hbm ∨ bitsAt (s.reg (mcReg l.stack 64)).toNat 0 32 = 0 then none
  else if rowStale s l then some (repairRow (activate s (bankNum l)) a)
  else if s.stale.any (fun e => decide (e.1 / 1024 = l.stack)) then none
  else some ((List.range 32).foldl (fun s i => scrubSector s (rowSector a i)) (activate s (bankNum l)))

/-- SCRUB_ROW (log 99). -/
def execScrubRow (k : Nat) (s : State) : Res State := happens s (evScrubRow k s)

/-- CIM scrub of a half of a hearth, (layer × 512 + macro) × 2 + half: row 0 to 255, or sidecar granule 256 to 271 (23 R399). -/
def evCimScrubRow (h half row : Nat) (s : State) : Option State :=
  if 16 ≤ h ∨ 8192 ≤ half ∨ 272 ≤ row ∨ bitsAt (s.reg (mcReg (h / 2) 64)).toNat 0 32 = 0 then none
  else
    let p := if row < 256 then macroBase h (half / 2) + half % 2 * 8192 + 32 * row
      else macroSide h (half / 2) + half % 2 * 512 + 32 * (row - 256)
    let f := flipsAt s p
    let (lg, loc) := errPlace s (if row < 256 then .cim h half else .side h half) p
    if f = 0 then some s
    else if popCount 256 f.toNat = 1 then some (logError (setFlips s p 0) lg 1 2 loc)
    else if (halfOf (s.hearth h) half).compute then
      some (logError (s.modHearth h fun x => setHalf x half { halfOf x half with wbad := true }) lg 7 2 loc)
    else some (logError (setPoison s p) lg 7 2 loc)

/-- CIM_SCRUB_ROW (log 99). -/
def execCimScrubRow (h half row : Nat) (s : State) : Res State := happens s (evCimScrubRow h half row s)

/-! ## Map-out of a die (23 R396, R397) -/

/-- GO: the firmware's TYPE 2 record, and the stack's accesses stall; ignored while a die is out, and with no more effect than its DIE while a
map-out runs (log 70). -/
def evDieMapOut (k : Nat) (v : BitVec 64) (s : State) : Option State :=
  if 8 ≤ k then none
  else
    let a := errReg (0x100 + 8 * k)
    if (s.reg a).getLsbD 4 then some s
    else if (s.reg a).getLsbD 6 || !v.getLsbD 5 then some (putFields s a v (bitMask 0 4))
    else
      let t := appendRecord (putFields s a v (bitMask 0 4)) 2 (k + bitsAt v.toNat 0 4 * 8)
      some (t.setReg a (t.reg a ||| 64#64))

/-- DIE_MAP_OUT (log 99). -/
def execDieMapOut (k : Nat) (v : BitVec 64) (s : State) : Res State := happens s (evDieMapOut k v s)

/-- An HBM4E address of a stack. -/
def inStack (st a : Nat) : Bool := decide (a < 0x8000000000) && decide (bitsAt a 16 3 = st)

/-- The remaining channels of a stack hold zero with valid check bits. -/
def zeroStack (s : State) (st : Nat) : State :=
  { s with mem := s.mem.filter (fun p => !inStack st p.1), poison := s.poison.filter (fun p => !inStack st (32 * p)),
           flips := s.flips.filter (fun p => !inStack st (32 * p.1)), tags := s.tags.filter (fun p => !inStack st (32 * p.1)),
           keyed := s.keyed.filter (fun p => !inStack st (64 * p.1)), stale := s.stale.filter fun e => decide (e.1 / 1024 ≠ st) }

/-- The controller adopts the reduced mapping (R397): the stack reads zero, its accesses go on, one inside the released range as one to a
place that is not installed, and TYPE 4 tells the host. -/
def evMapOutComplete (k : Nat) (s : State) : Option State :=
  let a := errReg (0x100 + 8 * k)
  if 8 ≤ k ∨ (s.reg a).getLsbD 6 = false ∨ ((List.range 64).any fun j => rowsOpenIn s (64 * k + j) (fun _ => true)) = true then
    none
  else
    let t := (zeroStack s k).setReg a (withFields (s.reg a) (BitVec.ofNat 64 (2 ^ 4 + 60 * 2 ^ 8)) (bitMask 4 11))
    some (sendMail t [4, k, 0x7800000000, 2 ^ 32])

/-- MAP_OUT_COMPLETE (log 99). -/
def execMapOutComplete (k : Nat) (s : State) : Res State := happens s (evMapOutComplete k s)

end Sys2Proof.Machine
end

