-- ==== Sys2Proof/Machine/HostPort.lean ====
section
/-! DEFINITION. What comes in at the module's edges (spec/21): host accesses (R358), the host mailbox (R361) with the page handshakes (20 R354,
R355; 23 R393) and the firmware's services (24 R405 to R407), ports that go down (R364; 23 R388), and page heat (R368, R369). -/

namespace Sys2Proof.Machine
open Sys2Proof

/-! ## Host accesses (R358) -/

/-- Every byte of a range is installed HBM4E. -/
def hbmRange (s : State) (a n : Nat) : Bool :=
  (List.range ((a + n + 65535) / 65536 - a / 65536)).all fun i => decide (homeOf s (65536 * (a / 65536 + i)) = some .hbm)

/-- A host CXL.mem access of `len` bytes performs at its home slices, or completes as unsupported. -/
def hostPerform (s : State) (wr : Bool) (addr len data : Nat) : State :=
  if hbmRange s addr len = false then { s with hostResp := some (1, 0) }
  else if wr then { (storeRun s (.plain addr) len data).1 with hostResp := some (0, 0) }
  else
    let l := loadRun s (.plain addr) len
    { l.s with hostResp := some (if l.poison then (2, 0) else (0, l.v)) }

/-- An access waits: a write into a moving page, any access to a stack whose die is being mapped out or to an open row (R366; 08 R231; 23
R397); or it meets the bytes of one before it that waits. -/
def hostWaits (s : State) (before : List (Bool × Nat × Nat × Nat)) (wr : Bool) (addr len : Nat) : Bool :=
  hbmRange s addr len && (runWaits s addr len wr || before.any fun e => spansMeet addr len e.2.1 e.2.2.1)

/-- HOST_MEM_ACCESS: the access performs, or waits at its home slices. -/
def execHostMemAccess (wr : Bool) (addr len data : Nat) (s : State) : Res State :=
  .next (if hostWaits s s.hostQ wr addr len then { s with hostQ := s.hostQ ++ [(wr, addr, len, data)] } else hostPerform s wr addr len data)

/-- The first host access that no longer waits performs. -/
def hostNext (s : State) : Option State :=
  match (List.range s.hostQ.length).find? fun i => match s.hostQ[i]? with
      | some e => !(hostWaits s (s.hostQ.take i) e.1 e.2.1 e.2.2.1)
      | none => false with
  | some i => (s.hostQ[i]?).map fun e => hostPerform { s with hostQ := s.hostQ.eraseIdx i } e.1 e.2.1 e.2.2.1 e.2.2.2
  | none => none

/-! ## The mailbox (R361) -/

/-- The words of H2D. -/
def mailWord (s : State) (i : Nat) : Nat := (s.reg (mailReg (8 * i))).toNat

/-- H2D types that have an event of their own beside TYPE 2. -/
def mailTypes : List Nat := [6, 9, 11, 13, 14]

/-- The next waiting message goes out once D2H is free. -/
def nextMail (s : State) : State := match s.mailQ with
  | [] => s
  | m :: rest => if s.mailBusy then s else putMail { s with mailQ := rest } m

/-- The firmware takes the message in H2D: it acts, or replies REJECT with the received TYPE where `act` has nothing to act on. -/
def takeMail (s : State) (act : State → Option State) : State :=
  let t := { s with h2d := false, mailBusy := false }
  nextMail (match act t with
    | some u => u
    | none => sendMail t [15, mailWord s 0])

/-- A message of a type waits. -/
def mailIs (s : State) (ty : Nat) : Bool := s.h2d && decide (mailWord s 0 = ty)

/-! ## Ownership of pages (20 R354, R355) -/

/-- The invalidation of SCOPE 1 or 2 that goes with a page. -/
def pageInv (ctx va : Nat) : InvCmd := ⟨va, 0, 0, ctx, 1⟩

/-- Write the HOST bit of the leaf that maps a page; none where no leaf does. -/
def setHost (s : State) (ctx va : Nat) (host : Bool) : Option State := match walk s ctx va with
  | .error _ => none
  | .ok (_, e) =>
    let e' := if host then e ||| 32#64 else e &&& ~~~(32#64)
    some (storePhys (walkReads s ctx va) (leafAddr s ctx va) 8 e'.toNat)

/-- The store of a leaf by the firmware waits, or a read that finds it (02 R76; 04 R122; 23 R397). -/
def setWaits (s : State) (ctx va : Nat) : Bool := leafWaits s ctx va || (match (walkPath s ctx va).getLast? with
  | some a => placeWaits s a true
  | none => false)

/-- The core's task is stopped by a MIGRATE fault at a page of its context. -/
def stoppedAt (s : State) (c ctx va n : Nat) : Bool :=
  (s.core c).handling && decide ((s.core c).ident.ctx = ctx) && decide ((s.reg (recAddr c + 48)).toNat % 256 = 8)
    && decide (va ≤ (s.reg (recAddr c + 16)).toNat) && decide ((s.reg (recAddr c + 16)).toNat < va + n)

/-- The host has released a page (R354): HOST := 0, the invalidation, and TRET 0 for the tasks that it stopped and whose handler runs (22
R386). -/
def released2 (s : State) (m : List Nat) : Option State :=
  if s.mailPend.contains m = false then none
  else match m with
    | [_, ctx, va, n] =>
      match setHost s ctx va false with
      | none => none
      | some t =>
        let t := dropXlats { t with mailPend := t.mailPend.erase m } (pageInv ctx va)
        some ((List.range 128).foldl (fun u c => if stoppedAt u c ctx va n && !stopHeld u c then tretMask u c else u) t)
    | _ => none

/-- H2D TYPE 2, which waits until the old translation's users have performed; and any TYPE the firmware does not know, which it rejects. -/
def evHostReleased (s : State) : Option State :=
  if s.h2d = false ∨ mailTypes.contains (mailWord s 0) = true then none
  else
    let m := [mailWord s 0, mailWord s 1, mailWord s 2, mailWord s 3]
    if mailWord s 0 = 2 ∧ s.mailPend.contains m = true
        ∧ (invClear s (pageInv (mailWord s 1) (mailWord s 2)) = false ∨ setWaits s (mailWord s 1) (mailWord s 2) = true) then
      none
    else some (takeMail s fun t => if mailWord s 0 = 2 then released2 t m else none)

/-- HOST_RELEASED (log 99). -/
def execHostReleased (s : State) : Res State := happens s (evHostReleased s)

/-- The firmware returns a shared page of a context to the host (R355). -/
def evPageReturnToHost (ctx va : Nat) (s : State) : Option State :=
  match walk s ctx va with
  | .error _ => none
  | .ok (_, e) =>
    if e.getLsbD 4 = false ∨ e.getLsbD 5 = true ∨ invClear s (pageInv ctx va) = false ∨ setWaits s ctx va = true then
      none
    else match setHost s ctx va true with
      | none => none
      | some t =>
        let (b, n) := pageOf s ctx va
        some (sendMail (dropXlats t (pageInv ctx va)) [3, ctx, b, n])

/-- PAGE_RETURN_TO_HOST (log 99). -/
def execPageReturnToHost (ctx va : Nat) (s : State) : Res State := happens s (evPageReturnToHost ctx va s)

/-- H2D TYPE 6: a retiring page has been vacated and joins the offline list (23 R393). -/
def evVacated (s : State) : Option State :=
  if mailIs s 6 && !placeWaits s (offlinePlace s) true then
    some (takeMail s fun t =>
      let p := mailWord s 1
      if t.mailPend.contains [6, p] then
        some (offlinePage { t with mailPend := t.mailPend.erase [6, p], retiring := t.retiring.filter (fun q => decide (q ≠ p)) } p)
      else none)
  else none

/-- VACATED (log 99). -/
def execVacated (s : State) : Res State := happens s (evVacated s)

/-! ## Firmware images (24 R405, R406) -/

/-- Fields of an image header: MARK, KIND, SVN, LENGTH, and whether the rest is zero; their places are presumed (log 42). -/
def imgLength (b : List Byte) : Nat := blkN b 8 8
def imgSvn (b : List Byte) : Nat := blkN b 4 4
def imgHeader (b : List Byte) : Bool := decide (blkN b 0 2 = 0xA5C3) && decide (blkN b 2 2 = 1) && !blkNonzero b 16 48

/-- Bytes of a whole image: header, body, key, signature. -/
def imgBytes (len : Nat) : Nat := 64 + len + 1952 + 3309

/-- What the boot ROM finds of an image: 0 accepted, else 1 key, 2 signature, 3 rollback. A header out of form cannot have been signed
(log 42). -/
def checkImage (svnMin : Nat) (b : List Byte) : Nat :=
  let n := 64 + imgLength b
  let key := (b.drop n).take 1952
  if Config.sha3 key ≠ Config.romKeyDigest then 1
  else if !imgHeader b || !Config.verify key (Config.sha3 (b.take n)) ((b.drop (n + 1952)).take 3309) then 2
  else if imgSvn b < svnMin then 3
  else 0

/-- The bytes of the image whose header stands at an address of HBM4E: none where it does not fit there. -/
def imageLen (s : State) (a : Nat) : Nat :=
  let n := imgBytes (imgLength (toBytes 64 (loadPhys s a 64).2))
  if n < 2 ^ 39 ∧ hbmRange s a n = true then n else 0

/-- The image that stands at an address of HBM4E, read at its homes; empty where it does not fit there. -/
def imageAt (s : State) (a : Nat) : State × List Byte :=
  let r := loadPhys s a (imageLen s a)
  (r.1, toBytes (imageLen s a) r.2)

def slotImage (s : State) (i : Nat) : List Byte := tget (fun _ => []) s.flash i

/-- H2D TYPE 9: the image is checked and written to the other slot; TYPE 10 tells the status (R406). -/
def evFirmwareUpdate (s : State) : Option State :=
  if mailIs s 9 && !runWaits s (mailWord s 1) 64 false && !runWaits s (mailWord s 1) (imageLen s (mailWord s 1)) false then
    some (takeMail s fun t =>
      let (t, b) := imageAt t (mailWord s 1)
      let code := checkImage t.svnMin b
      let u := if code = 0 then { t with flash := tset (fun _ => []) t.flash (1 - t.slotRun) b, flashLast := 1 - t.slotRun } else t
      some (sendMail u [10, code]))
  else none

/-- FIRMWARE_UPDATE (log 99). -/
def execFirmwareUpdate (s : State) : Res State := happens s (evFirmwareUpdate s)

/-- H2D TYPE 13: SVNMIN rises to the running SVN (R406). -/
def evSvnCommit (s : State) : Option State :=
  if mailIs s 13 then some (takeMail s fun t => some { t with svnMin := max t.svnMin t.svn })
  else none

/-- SVN_COMMIT (log 99). -/
def execSvnCommit (s : State) : Res State := happens s (evSvnCommit s)

/-! ## Attestation (24 R407) -/

/-- Bytes 0 to 111 of the report. -/
def reportBytes (s : State) : List Byte :=
  let img := slotImage s s.slotRun
  (List.range 4).flatMap (fun i => toBytes 8 (mailWord s (2 + i)))
  ++ toBytes 32 (Config.sha3 (img.take (64 + imgLength img))).toNat ++ toBytes 4 s.svn ++ toBytes 4 s.svnMin
  ++ toBytes 8 (s.reg 0x0E0007030010).toNat ++ toBytes 8 (s.reg 0x0E0007030018).toNat ++ toBytes 8 (s.reg (errReg 16)).toNat
  ++ toBytes 8 (s.reg (errReg 32)).toNat ++ toBytes 8 s.devSeq

/-- H2D TYPE 11: the signed report is written to the 4 KiB-aligned buffer, then TYPE 12; a misaligned buffer is rejected (log 43). -/
def evAttest (s : State) : Option State :=
  if mailIs s 11 && !(decide (mailWord s 1 % 4096 = 0) && runWaits s (mailWord s 1) 3421 true) then
    some (takeMail s fun t =>
      let a := mailWord s 1
      let r := reportBytes t
      if a % 4096 ≠ 0 then none
      else some (sendMail (storePhys (storePhys t a 112 (ofBytes r)) (a + 112) 3309 (Config.sign (Config.sha3 r)).toNat) [12]))
  else none

/-- ATTEST (log 99). -/
def execAttest (s : State) : Res State := happens s (evAttest s)

/-- H2D TYPE 14: the identity certificate is written to the buffer. -/
def evCertRead (s : State) : Option State :=
  if mailIs s 14 && !runWaits s (mailWord s 1) Config.certificate.length true then
    some (takeMail s fun t => some (storePhys t (mailWord s 1) Config.certificate.length (ofBytes Config.certificate)))
  else none

/-- CERT_READ (log 99). -/
def execCertRead (s : State) : Res State := happens s (evCertRead s)

/-! ## Ports (R364; 23 R388) -/

/-- An expansion port goes DOWN: STATE, ERRS, and a record of CLASS 5 in its log at the base of its range. -/
def evTierPortDown (p : Nat) (s : State) : Option State :=
  if p < 8 ∧ bitsAt (s.reg (tpReg p 0)).toNat 0 2 = 1 then
    some (logError (portErr (s.setReg (tpReg p 0) 2) p) (8 + p) 5 0 (s.reg (tpReg p 16)).toNat)
  else none

/-- TIER_PORT_DOWN (log 99). -/
def execTierPortDown (p : Nat) (s : State) : Res State := happens s (evTierPortDown p s)

/-- The host port's link goes down: a record of CLASS 5 in log 35 with LOC 15 (R388). -/
def execHostPortDown (s : State) : Res State := .next (logError s 35 5 0 15)

/-! ## Page heat (R368, R369) -/

def heatBase (s : State) : Nat := (s.reg 0x0E0006030008).toNat

/-- The counter of a 64 KiB page, by its number: HBM4E pages first, then the tier's. -/
def heatIndex (page : Nat) : Nat := if page < 8388608 then page else 8388608 + (page - 0x1000000)

/-- Change a counter at its home. -/
def heatUpdate (s : State) (a : Nat) (g : Nat → Nat) : State := (updateQuiet s (.plain a) 2 g).s

/-- Request `k` of those that have reached a slice is counted (R369). -/
def evHeatCount (k : Nat) (s : State) : Option State :=
  match s.heatQ[k]? with
  | none => none
  | some p =>
    let a := heatBase s + 2 * heatIndex p
    if placeWaits s a true then none else some (heatUpdate { s with heatQ := s.heatQ.eraseIdx k } a fun v => min (v + 1) 0xFFFF)

/-- HEAT_COUNT (log 99). -/
def execHeatCount (k : Nat) (s : State) : Res State := happens s (evHeatCount k s)

/-- The counters that are not zero, by address. -/
def heatCells (s : State) : List Nat :=
  let b := heatBase s
  distinct ((s.mem.filter fun p => decide (b ≤ p.1) && decide (p.1 < b + 2 * (8388608 + 134217728))).map fun p => p.1 / 2 * 2)

/-- A sweep halves every counter, while INT is not 0 (R368, R369). -/
def evHeatHalving (s : State) : Option State :=
  if feature s 6 = false ∨ s.reg 0x0E0006030010 = 0 ∨ ((heatCells s).any fun a => placeWaits s a true) = true then none
  else some ((heatCells s).foldl (fun s a => heatUpdate s a (· / 2)) s)

/-- HEAT_HALVING (log 99). -/
def execHeatHalving (s : State) : Res State := happens s (evHeatHalving s)

end Sys2Proof.Machine
end

