-- ==== Sys2Proof/Machine/Fleet.lean ====
section
/-! DEFINITION. Thermal limits and the allowance step (spec/24 R400 to R402), the sideband (R404), bring-up (spec/22 R384; spec/23 R392,
R394, R395; spec/24 R405, R406) and loss of supply (spec/23 R392). -/

namespace Sys2Proof.Machine
open Sys2Proof

/-! ## Thermal (R400 to R402) -/

/-- A hearth found at its trip threshold trips (R401): one whose sample reached it has tripped with the sample, one that a lower TRIP has met
trips here. -/
def evHearthTrip (h : Nat) (s : State) : Option State :=
  if 16 ≤ h ∨ tempOf s h < tripOf s ∨ trippedBit s h = true then none
  else some (tripHearth s h)

/-- HEARTH_TRIP (log 99). -/
def execHearthTrip (h : Nat) (s : State) : Res State := happens s (evHearthTrip h s)

/-- Terms of a hearth's step; each begins at 256 (log 36). -/
def termOf (t : Tab Nat) (h : Nat) : Nat := tget (fun _ => 256) t h

/-- The heat term after a step: temperature, throttle threshold, cool steps before this one. -/
def heatStep (term cool temp throt : Nat) : Nat :=
  if throt ≤ temp then max 32 (term / 2) else if temp + 5 < throt ∧ 10 ≤ cool + 1 then min 256 (2 * term) else term

/-- The power term after a step. -/
def powerStep (term watts cap : Nat) : Nat :=
  if cap < watts then max 32 (term - 16) else if watts + 50 < cap then min 256 (term + 16) else term

/-- The milliseconds, up to 10, for which the hearth has stayed below THROT − 5 °C, after one more (R402). -/
def coolAfter (s : State) (h : Nat) : Tab Nat :=
  tset (fun _ => 0) s.coolMs h (if tempOf s h + 5 < throtOf s then min 10 (tget (fun _ => 0) s.coolMs h + 1) else 0)

/-- The firmware's step for one hearth (R402): HALLOW becomes the least of the ceiling and the terms; a tripped hearth is left alone. -/
def evAllowanceStep (h : Nat) (s : State) : Option State :=
  if 16 ≤ h then none
  else if trippedBit s h then some { s with coolMs := coolAfter s h }
  else
    let cool := tget (fun _ => 0) s.coolMs h
    let heat := heatStep (termOf s.heatTerm h) cool (tempOf s h) (throtOf s)
    let power := powerStep (termOf s.powerTerm h) (bitsAt (s.reg (thReg 0x88)).toNat 0 16) (bitsAt (s.reg (thReg 0x90)).toNat 0 16)
    let stack := if s.reg (mcReg (h / 2) 40) = 0 then 256 else 32
    let t := { s with heatTerm := tset (fun _ => 256) s.heatTerm h heat, powerTerm := tset (fun _ => 256) s.powerTerm h power,
                      coolMs := coolAfter s h }
    let ceil := bitsAt (s.reg (thReg (0xA0 + 8 * h))).toNat 0 9
    some (t.setReg (hallowReg h) (BitVec.ofNat 64 (min (min ceil heat) (min power stack))))

/-- ALLOWANCE_STEP (log 99). -/
def execAllowanceStep (h : Nat) (s : State) : Res State := happens s (evAllowanceStep h s)

/-! ## The sideband (R404) -/

/-- Byte `i` of a register. -/
def regByte (s : State) (a i : Nat) : Byte := BitVec.ofNat 8 ((s.reg a).toNat / 2 ^ (8 * i))

/-- The telemetry byte at an offset; none where the table gives nothing. -/
def telemetry (s : State) (o : Nat) : Option Byte :=
  if o < 0x10 then some (regByte s (thReg (8 * o)) 0)
  else if o = 0x10 then some (regByte s (thReg 0x80) 0)
  else if 0x12 ≤ o ∧ o < 0x14 then some (regByte s (thReg 0x88) (o - 0x12))
  else if 0x14 ≤ o ∧ o < 0x16 then some (regByte s (thReg 0x90) (o - 0x14))
  else if 0x16 ≤ o ∧ o < 0x18 then some (regByte s (thReg 0x98) (o - 0x14))
  else if 0x20 ≤ o ∧ o < 0xA0 then
    let d := o - 0x20
    some (regByte s (mcReg (d / 16) (24 + d % 16 / 8 * 8)) (d % 8))
  else if 0xA0 ≤ o ∧ o < 0xB0 then some (regByte s (mcReg ((o - 0xA0) / 2) 40) (o % 2))
  else if 0x100 ≤ o ∧ o < 0x108 then some (regByte s (errReg 16) (o - 0x100))
  else if 0x108 ≤ o ∧ o < 0x110 then some (regByte s (errReg 32) (o - 0x108))
  else if 0x110 ≤ o ∧ o < 0x230 then
    let d := o - 0x110
    some (regByte s (logBase (d / 8) + 8 + d % 8 / 4 * 8) (d % 4))
  else if 0x240 ≤ o ∧ o < 0x242 then some (regByte s 0x0E0007030020 (o - 0x240))
  else if 0x242 ≤ o ∧ o < 0x244 then some (BitVec.ofNat 8 (s.svn / 2 ^ (8 * (o - 0x242))))
  else if 0x10000 ≤ o ∧ o < 0x50000 then
    match s.retired[(o - 0x10000) / 64]? with
    | some r => some (BitVec.ofNat 8 (r / 2 ^ (8 * (o % 64))))
    | none => some 0xFF
  else none

/-- A private write: its offset, little-endian, then data, taken at PCAP alone (R404). -/
def execI3cPrivateWrite (b : List (BitVec 8)) (s : State) : Res State :=
  if b.length < 4 then .next s
  else
    let o := ofBytes (b.take 4)
    let d := b.drop 4
    let t := { s with i3cOff := BitVec.ofNat 32 o }
    .next (if o = 0x14 ∧ d.length = 2 then thermalWrite t 0x90 (BitVec.ofNat 64 (ofBytes d)) else t)

/-- A read of `n` bytes from the offset, as one snapshot; bytes the table does not give are free values (log 44). -/
def execI3cRead (n : Nat) (s : State) : Res State :=
  .next { s with fresh := s.fresh + 1, i3cOut := (List.range n).map fun i => match telemetry s (s.i3cOff.toNat + i) with
    | some b => b
    | none => (Config.free 8 (2 ^ 40 * i + fkey s 0 0)) }

def execDynamicAddressAssignment (a : BitVec 7) (s : State) : Res State := .next { s with i3cAddr := a }

/-! ## Bring-up (22 R384) -/

/-- The slot the boot ROM runs, and else the failing code of the last one it tried: the higher SVN first, and of two of one SVN the slot that
the last accepted update wrote (24 R406, log 42). -/
def chooseSlot (s : State) : Except Nat Nat :=
  let (a, b) := (imgSvn (slotImage s 0), imgSvn (slotImage s 1))
  let first := if a < b ∨ (a = b ∧ s.flashLast = 1) then 1 else 0
  let c1 := checkImage s.svnMin (slotImage s first)
  let c2 := checkImage s.svnMin (slotImage s (1 - first))
  if c1 = 0 then .ok first else if c2 = 0 then .ok (1 - first) else .error c2

/-- What outlasts the supply: flash, fuses and the retirement store, and what stands outside the module. -/
def coldState (s : State) : State :=
  { State.reset with flash := s.flash, flashLast := s.flashLast, svnMin := s.svnMin, retired := s.retired, tierCap := s.tierCap, hostMem := s.hostMem,
                     hostBad := s.hostBad, fresh := s.fresh, fcode := s.fcode, msix := s.msix, ibis := s.ibis, linkOut := s.linkOut,
                     linkPeer := s.linkPeer, badSpare := s.badSpare }

/-- TYPE and LOC of a record of the store. -/
def recType (r : Nat) : Nat := r % 256
def recLoc (r : Nat) : Nat := bitsAt r 64 64

/-- Valid records of a type, in append order (23 R392, R394). -/
def recordsOf (s : State) (ty : Nat) : List Nat := (s.retired.filter fun r => recordGood r && decide (recType r = ty)).map recLoc

/-- TYPE 2 records, before the stacks are zero-filled: at most one die of a stack. -/
def applyDie (s : State) (loc : Nat) : State :=
  let a := errReg (0x100 + 8 * (loc % 8))
  if (s.reg a).getLsbD 4 then s else s.setReg a (BitVec.ofNat 64 (bitsAt loc 3 4 + 2 ^ 4 + 60 * 2 ^ 8))

/-- TYPE 1 records: post-package repair of the first four distinct rows of a bank; a further row's page is offlined (R394). -/
def applyRow (s : State) (loc : Nat) : State :=
  let row := loc % 2 ^ 29
  let same := s.repaired.filter fun e => decide (e.1 = row % 2 ^ 13)
  if same.contains (row % 2 ^ 13, row / 2 ^ 13) || rowGone s row then s
  else if same.length < 4 then { s with repaired := s.repaired ++ [(row % 2 ^ 13, row / 2 ^ 13)] }
  else offlinePage s (rowPage s row)

/-- TYPE 3 records: remaps, each in the lowest free entry of its hearth-layer, as a write to it would be taken (R394, R398). -/
def applyMacro (s : State) (loc : Nat) : State :=
  let h := bitsAt loc 0 4
  let l := bitsAt loc 4 3
  match freeEntry s h l with
  | some i => writeRemap s ((h * 8 + l) * 16 + i) (BitVec.ofNat 64 (bitsAt loc 7 9 + 2 ^ 15))
  | none => s

/-- The boot test marks the spares that it finds defective (R398). -/
def testSpares (s : State) : State :=
  s.badSpare.foldl (fun s k => if k < 2048 then s.setReg (0x0E0007280000 + 8 * k) (1#64 <<< 16) else s) s

/-- Phase 4: the draught links train; one with a module at its far end comes UP (21 R370). -/
def trainLink (s : State) (l : Nat) : State :=
  if (tget (fun _ => none) s.linkPeer l).isSome then s.setReg (lnkstat l) (BitVec.ofNat 64 (linkWord s l 2)) else s

/-- Phase 3: the retirement store, its summary, and the place of the offline list. -/
def applyStore (s : State) : State :=
  let s := (recordsOf s 2).foldl applyDie s
  let s := s.setReg (errReg 24) (BitVec.ofNat 64 (Config.offPage.toNat * 65536 % 2 ^ 36))
  let s := (recordsOf s 1).foldl applyRow s
  let s := (recordsOf s 3).foldl applyMacro s
  let bad := (s.retired.filter fun r => !recordGood r).length
  (setRetstat s).setReg (errReg 16) (withFields (setRetstat s |>.reg (errReg 16)) (BitVec.ofNat 64 (bad * 2 ^ 14)) (bitMask 14 12))

/-- Phase 4: each attached device's capacity, down to 64 MiB, maps after those before it, up to the end of the tier range (21 R363). -/
def mapPort (s : State) (p : Nat) : State :=
  let cap := tget (fun _ => 0) s.tierCap p / 2 ^ 26 * 2 ^ 26
  let base := (List.range p).foldl (fun b q => b + (s.reg (tpReg q 8)).toNat) 0x10000000000
  let fit := min cap (0x90000000000 - base)
  if tget (fun _ => 0) s.tierCap p = 0 then s.setReg (tpReg p 16) (BitVec.ofNat 64 base)
  else ((s.setReg (tpReg p 0) 1).setReg (tpReg p 8) (BitVec.ofNat 64 fit)).setReg (tpReg p 16) (BitVec.ofNat 64 base)

/-- Phase 5: the event ring; the other registers of the phase keep their reset values (log 40). -/
def setRing (s : State) : State :=
  (s.setReg evBase (BitVec.ofNat 64 (Config.ringPage.toNat * 4096))).setReg (evBase + 8) (BitVec.ofNat 64 (8 + Config.ringLog.val))

def bootstat : Nat := 0x0E0007030020

/-- Bring-up from a module with no supply or just reset (R384): phase 6 with READY; or FAIL with its code, where nothing further runs and
in-band interrupt 3 is sent (24 R404, R406). -/
def evPowerUp (s : State) : Option State :=
  if s.powered && !s.lost then none
  else
    let t := coldState s
    match chooseSlot t with
    | .error code => some { t.setReg bootstat (BitVec.ofNat 64 (1 + 2 ^ 5 + code * 2 ^ 8)) with powered := true, ibis := 3 :: t.ibis }
    | .ok i =>
      let t := { t with slotRun := i, svn := imgSvn (slotImage t i), powered := true }
      let t := (List.range 12).foldl trainLink ((List.range 8).foldl mapPort (applyStore (testSpares t)))
      let t := setRing t
      -- FULL sets as the store is read (24 R404)
      some { t.setReg bootstat (BitVec.ofNat 64 (6 + 2 ^ 4)) with ibis := if 4096 ≤ t.retired.length then 2 :: t.ibis else t.ibis }

/-- POWER_UP (log 99). -/
def execPowerUp (s : State) : Res State := happens s (evPowerUp s)

/-! ## Loss of supply (23 R392) -/

/-- A record whose append the loss cut short: bytes of no stated value, with a digest that fails (log 45). -/
def tornRecord (s : State) : Nat :=
  let body := (Config.free 256 (fkey s 0 0)).toNat
  let wrong := (Config.sha3 (toBytes 32 body)) ^^^ ((Config.free 256 (fkey s 0 1)) ||| 1#256)
  body + wrong.toNat * 2 ^ 256

/-- The supply is lost; `cut`: while a record was being appended to the store. -/
def execPowerLoss (cut : Bool) (s : State) : Res State :=
  let t := { s with lost := true, powered := false, agenda := [] }
  .next (if cut && decide (s.retired.length < 4096) then { t with retired := s.retired ++ [tornRecord s], fresh := s.fresh + 1 } else t)

end Sys2Proof.Machine
end

