-- ==== Sys2Proof/Machine/Scalar.lean ====
section
/-! DEFINITION. The S slot (spec/06 R157 to R170, R174 to R176), but for TRAP, TRET, EXIT and the pass boundary. -/

namespace Sys2Proof.Machine
open Sys2Proof

/-- The scalar source `r` of the instruction in issue, as its operand number `n`. -/
def sIn (s : State) (n : Nat) (r : BitVec 7) : Word := readS s s.cur (s.core s.cur).inF (fkey s 0 n) r
/-- A guard source. -/
def gIn (s : State) (n : Nat) (g : BitVec 4) : Bool := readG s s.cur (s.core s.cur).inF (fkey s 0 n) g
/-- Write s[d] within `lat` cycles and push it (R157). -/
def sOut (s : State) (d : BitVec 7) (lat : BitVec 4) (v : Word) (fl : Flags) : State :=
  issueS s s.cur (s.core s.cur).inF (.scal d.toNat v) true lat.toNat fl
/-- Write g[d] within `lat` cycles. -/
def gOut (s : State) (d lat : BitVec 4) (v : Bool) : State :=
  issueS s s.cur (s.core s.cur).inF (.guard d.toNat v) false lat.toNat 0

/-! ## Shared shapes of effect -/

/-- A register form of two sources. -/
def effSR (op : Word → Word → Word) (f : SR) (s : State) : State := sOut s f.d f.lat (op (sIn s 0 f.a) (sIn s 1 f.b)) 0
/-- An immediate form. -/
def effSI (op : Word → Word → Word) (f : SI) (s : State) : State := sOut s f.d f.lat (op (sIn s 0 f.a) (f.imm.signExtend 64)) 0

def opShl (a b : Word) : Word := a <<< (b.toNat % 64)
def opShr (a b : Word) : Word := a >>> (b.toNat % 64)
def opSar (a b : Word) : Word := a.sshiftRight (b.toNat % 64)
def opMin (a b : Word) : Word := if a.slt b then a else b
def opMax (a b : Word) : Word := if a.slt b then b else a
def opMinu (a b : Word) : Word := if a.ult b then a else b
def opMaxu (a b : Word) : Word := if a.ult b then b else a

/-! ## Integer arithmetic (R158, R159) -/

def execAdd (f : SR) (s : State) : Res State := runSlot (.add f) (effSR (· + ·) f) s
def execSub (f : SR) (s : State) : Res State := runSlot (.sub f) (effSR (· - ·) f) s
def execAnd (f : SR) (s : State) : Res State := runSlot (.and f) (effSR (· &&& ·) f) s
def execOr (f : SR) (s : State) : Res State := runSlot (.or f) (effSR (· ||| ·) f) s
def execXor (f : SR) (s : State) : Res State := runSlot (.xor f) (effSR (· ^^^ ·) f) s
def execShl (f : SR) (s : State) : Res State := runSlot (.shl f) (effSR opShl f) s
def execShr (f : SR) (s : State) : Res State := runSlot (.shr f) (effSR opShr f) s
def execSar (f : SR) (s : State) : Res State := runSlot (.sar f) (effSR opSar f) s
def execMin (f : SR) (s : State) : Res State := runSlot (.min f) (effSR opMin f) s
def execMinu (f : SR) (s : State) : Res State := runSlot (.minu f) (effSR opMinu f) s
def execMax (f : SR) (s : State) : Res State := runSlot (.max f) (effSR opMax f) s
def execMaxu (f : SR) (s : State) : Res State := runSlot (.maxu f) (effSR opMaxu f) s
def execAddi (f : SI) (s : State) : Res State := runSlot (.addi f) (effSI (· + ·) f) s
def execAndi (f : SI) (s : State) : Res State := runSlot (.andi f) (effSI (· &&& ·) f) s
def execOri (f : SI) (s : State) : Res State := runSlot (.ori f) (effSI (· ||| ·) f) s
def execXori (f : SI) (s : State) : Res State := runSlot (.xori f) (effSI (· ^^^ ·) f) s
def execShli (f : SI) (s : State) : Res State := runSlot (.shli f) (effSI opShl f) s
def execShri (f : SI) (s : State) : Res State := runSlot (.shri f) (effSI opShr f) s
def execSari (f : SI) (s : State) : Res State := runSlot (.sari f) (effSI opSar f) s

/-- The upper half of the signed product. -/
def opMulh (a b : Word) : Word := BitVec.ofInt 64 (a.toInt * b.toInt / ((2 ^ 64 : Nat) : Int))
/-- The upper half of the unsigned product. -/
def opMulhu (a b : Word) : Word := BitVec.ofNat 64 (a.toNat * b.toNat / 2 ^ 64)
/-- Quotient toward zero; −1 by zero; −2^63 by −1 gives −2^63. -/
def opDiv (a b : Word) : Word := if b = 0 then BitVec.allOnes 64 else BitVec.ofInt 64 (Int.tdiv a.toInt b.toInt)
/-- Remainder with the sign of a; a by zero. -/
def opRem (a b : Word) : Word := if b = 0 then a else BitVec.ofInt 64 (Int.tmod a.toInt b.toInt)
def opDivu (a b : Word) : Word := if b = 0 then BitVec.allOnes 64 else BitVec.ofNat 64 (a.toNat / b.toNat)
def opRemu (a b : Word) : Word := if b = 0 then a else BitVec.ofNat 64 (a.toNat % b.toNat)

def execMul (f : SR) (s : State) : Res State := runSlot (.mul f) (effSR (· * ·) f) s
def execMulh (f : SR) (s : State) : Res State := runSlot (.mulh f) (effSR opMulh f) s
def execMulhu (f : SR) (s : State) : Res State := runSlot (.mulhu f) (effSR opMulhu f) s
def execDiv (f : SR) (s : State) : Res State := runSlot (.div f) (effSR opDiv f) s
def execDivu (f : SR) (s : State) : Res State := runSlot (.divu f) (effSR opDivu f) s
def execRem (f : SR) (s : State) : Res State := runSlot (.rem f) (effSR opRem f) s
def execRemu (f : SR) (s : State) : Res State := runSlot (.remu f) (effSR opRemu f) s

/-! ## Moves and bit fields (R160, R161) -/

def effMovi (f : SL) (s : State) : State := sOut s f.d f.lat (f.imm.signExtend 64) 0
def effMovhi (f : SL) (s : State) : State := sOut s f.d f.lat ((sIn s 3 f.d) * BitVec.ofNat 64 (2 ^ 25) + f.imm.setWidth 64) 0
def execMovi (f : SL) (s : State) : Res State := runSlot (.movi f) (effMovi f) s
def execMovhi (f : SL) (s : State) : Res State := runSlot (.movhi f) (effMovhi f) s

/-- Position and width of a bit field, cut at bit 63 (R161). -/
def fieldPos (b : Word) : Nat := b.toNat % 64
def fieldWidth (b c : Word) : Nat := min (c.toNat % 128) (64 - fieldPos b)

def opExtu (a b c : Word) : Word := BitVec.ofNat 64 (bitsAt a.toNat (fieldPos b) (fieldWidth b c))
def opExt (a b c : Word) : Word :=
  if fieldWidth b c = 0 then 0 else BitVec.ofInt 64 (signedOf (fieldWidth b c) (bitsAt a.toNat (fieldPos b) (fieldWidth b c)))
/-- The low `w` bits set. -/
def ones (w : Nat) : Word := BitVec.ofNat 64 (2 ^ w - 1)
def opIns (d a b c : Word) : Word :=
  let m := ones (fieldWidth b c) <<< fieldPos b
  (d &&& ~~~m) ||| ((a <<< fieldPos b) &&& m)
/-- Zero bits above the highest set bit. -/
def opClz (a : Word) : Word := if a = 0 then 64 else BitVec.ofNat 64 (63 - Nat.log2 a.toNat)
def opPopc (a : Word) : Word := BitVec.ofNat 64 (popCount 64 a.toNat)

/-- A form of three sources. -/
def effSR3 (op : Word → Word → Word → Word) (f : SR) (s : State) : State :=
  sOut s f.d f.lat (op (sIn s 0 f.a) (sIn s 1 f.b) (sIn s 2 f.c)) 0
/-- A form of one source. -/
def effSR1 (op : Word → Word) (f : SR) (s : State) : State := sOut s f.d f.lat (op (sIn s 0 f.a)) 0
def effIns (f : SR) (s : State) : State :=
  sOut s f.d f.lat (opIns (sIn s 3 f.d) (sIn s 0 f.a) (sIn s 1 f.b) (sIn s 2 f.c)) 0

def execExt (f : SR) (s : State) : Res State := runSlot (.ext f) (effSR3 opExt f) s
def execExtu (f : SR) (s : State) : Res State := runSlot (.extu f) (effSR3 opExtu f) s
def execIns (f : SR) (s : State) : Res State := runSlot (.ins f) (effIns f) s
def execClz (f : SR) (s : State) : Res State := runSlot (.clz f) (effSR1 opClz f) s
def execPopc (f : SR) (s : State) : Res State := runSlot (.popc f) (effSR1 opPopc f) s

/-! ## Conditions (R162 to R164) -/

/-- Condition codes of R143 on integers. -/
def iCond (cc : Nat) (a b : Word) : Bool := match cc with
  | 0 => decide (a = b)
  | 1 => decide (a ≠ b)
  | 2 => a.slt b
  | 3 => !(a.slt b)
  | 4 => a.ult b
  | 5 => !(a.ult b)
  | 6 => !(b.slt a)
  | _ => b.slt a

def effCmp (f : SC) (s : State) : State := gOut s f.gd f.lat (iCond f.cc.toNat (sIn s 0 f.a) (sIn s 1 f.b))
def effCmpi (f : SCI) (s : State) : State := gOut s f.gd f.lat (iCond f.cc.toNat (sIn s 0 f.a) (f.imm.signExtend 64))
def effG (op : Bool → Bool → Bool) (f : SG) (s : State) : State :=
  gOut s f.gd f.lat (op (gIn s 4 f.ga ^^ decide (f.na = 1)) (gIn s 5 f.gb ^^ decide (f.nb = 1)))
def effSel (f : SR) (s : State) : State := sOut s f.d f.lat (if gIn s 4 f.gs then sIn s 0 f.a else sIn s 1 f.b) 0

def execCmp (f : SC) (s : State) : Res State := runSlot (.cmp f) (effCmp f) s
def execCmpi (f : SCI) (s : State) : Res State := runSlot (.cmpi f) (effCmpi f) s
def execGand (f : SG) (s : State) : Res State := runSlot (.gand f) (effG (· && ·) f) s
def execGor (f : SG) (s : State) : Res State := runSlot (.gor f) (effG (· || ·) f) s
def execGxor (f : SG) (s : State) : Res State := runSlot (.gxor f) (effG (· ^^ ·) f) s
def execSel (f : SR) (s : State) : Res State := runSlot (.sel f) (effSel f) s

/-! ## Floating point (R165 to R167) -/

/-- The fp32 value of a source's low half. -/
def fIn (w : Word) : Val := decodeFmt 0 (w.toNat % 2 ^ 32)
/-- Deliver an exact result into fp32 with its flags. -/
def fOut (s : State) (d : BitVec 7) (lat : BitVec 4) (r : VF) : State :=
  let (c, fl) := deliver r 0 .rne
  sOut s d lat (BitVec.ofNat 64 c) fl

def effF2 (op : Val → Val → VF) (f : SR) (s : State) : State := fOut s f.d f.lat (op (fIn (sIn s 0 f.a)) (fIn (sIn s 1 f.b)))
def effFma (f : SR) (s : State) : State :=
  fOut s f.d f.lat (vFma (fIn (sIn s 0 f.a)) (fIn (sIn s 1 f.b)) (fIn (sIn s 2 f.c)))
def effFsqrt (f : SR) (s : State) : State := fOut s f.d f.lat (vSqrt (fIn (sIn s 0 f.a)))
def effFcmp (f : SC) (s : State) : State := gOut s f.gd f.lat (fCond f.cc.toNat (fIn (sIn s 0 f.a)) (fIn (sIn s 1 f.b)))

def execFadd (f : SR) (s : State) : Res State := runSlot (.fadd f) (effF2 vAdd f) s
def execFsub (f : SR) (s : State) : Res State := runSlot (.fsub f) (effF2 vSub f) s
def execFmul (f : SR) (s : State) : Res State := runSlot (.fmul f) (effF2 vMul f) s
def execFma (f : SR) (s : State) : Res State := runSlot (.fma f) (effFma f) s
def execFdiv (f : SR) (s : State) : Res State := runSlot (.fdiv f) (effF2 vDiv f) s
def execFsqrt (f : SR) (s : State) : Res State := runSlot (.fsqrt f) (effFsqrt f) s
def execFmin (f : SR) (s : State) : Res State := runSlot (.fmin f) (effF2 vMin f) s
def execFmax (f : SR) (s : State) : Res State := runSlot (.fmax f) (effF2 vMax f) s
def execFcmp (f : SC) (s : State) : Res State := runSlot (.fcmp f) (effFcmp f) s

/-- A code in s[D]: int32, int8 and int4 sign-extended, every other format zero-extended (R167). -/
def codeWord (fmt code : Nat) : Word :=
  if fmt = 3 ∨ fmt = 4 ∨ fmt = 6 then BitVec.ofInt 64 (signedOf (fmtWidth fmt) code) else BitVec.ofNat 64 code

def effFcvt (f : SF) (s : State) : State :=
  let src := f.src.toNat
  let x := decodeFmt src ((sIn s 0 f.a).toNat % 2 ^ fmtWidth src)
  let (c, fl) := convTo x f.dst.toNat (if f.rtz = 1 then .rtz else .rne)
  sOut s f.d f.lat (codeWord f.dst.toNat c) fl
def execFcvt (f : SF) (s : State) : Res State := runSlot (.fcvt f) (effFcvt f) s

/-! ## Control transfer (R168) -/

/-- The running context's bundle address. -/
def pcOf (s : State) : Nat := ((s.core s.cur).ctx (s.core s.cur).inF).pc
def jumpTo (s : State) (t : Nat) : State := setJump s s.cur (s.core s.cur).inF t

def effBr (f : SJ) (s : State) : State := jumpTo s (relTarget (pcOf s) f.off)
def effCall (f : SJ) (s : State) : State :=
  jumpTo (sOut s f.d f.lat (BitVec.ofNat 64 (pcOf s + 1)) 0) (relTarget (pcOf s) f.off)
def effRet (f : SR) (s : State) : State := jumpTo s (sIn s 0 f.a).toNat

def execBr (f : SJ) (s : State) : Res State := runSlot (.br f) (effBr f) s
def execCall (f : SJ) (s : State) : Res State := runSlot (.call f) (effCall f) s
def execRet (f : SR) (s : State) : Res State := runSlot (.ret f) (effRet f) s

/-! ## The loop (R169, 10 R275) -/

/-- LSTAT from its fields (R173). -/
def lstatWord (len nst : Nat) (rot : Bool) (start : Nat) : Word :=
  BitVec.ofNat 64 (1 + len * 2 + nst * 2 ^ 7 + (if rot then 2 ^ 10 else 0) + start % 2 ^ 32 * 2 ^ 32)

/-- KLOOP; the inserted KLOOP of a fused program writes LCOUNT first. -/
def effKloop (f : SK) (s : State) : State :=
  s.modCore s.cur fun k =>
    let pc := k.t.pc
    let k := match k.imem.loop with
      | some (p, d) => if p = pc then { k with lcount := d } else k
      | none => k
    if k.lcount = 0 then { k with t := { k.t with jump := some (pc + f.len.toNat + 2) } }
    else { k with lstat := lstatWord f.len.toNat f.nst.toNat (decide (f.rot = 1)) (pc + 1),
                  t := { k.t with g := (k.t.g &&& 0x00FF#16) ||| 0x0100#16 } }
def execKloop (f : SK) (s : State) : Res State := runSlot (.kloop f) (effKloop f) s

/-! ## Shape shadows (R174) -/

/-- Place and width of an SHW field: CNT0 to CNT5, STR0 to STR5, NDIM (05 R143). -/
def shwField (sel : Nat) : Nat × Nat := if sel < 6 then (64 * sel, 24) else if sel < 12 then (64 * (sel - 6) + 24, 40) else (384, 3)

/-- Replace a bit field of a shape. -/
def shpPut (w : BitVec 512) (lo len v : Nat) : BitVec 512 :=
  (w &&& ~~~(BitVec.ofNat 512 ((2 ^ len - 1) * 2 ^ lo))) ||| BitVec.ofNat 512 (v % 2 ^ len * 2 ^ lo)

/-- Shape register number of SH: mz0 to mz3 then cz0 to cz3. -/
def effShw (f : SW) (s : State) : State :=
  let (lo, len) := shwField f.sel.toNat
  let v := sIn s 0 f.a + f.imm.signExtend 64
  s.modCore s.cur fun k =>
    { k with shd := tset (fun _ => 0) k.shd f.sh.toNat (shpPut (tget (fun _ => 0) k.shd f.sh.toNat) lo len v.toNat) }
def execShw (f : SW) (s : State) : Res State := runSlot (.shw f) (effShw f) s

/-! ## System registers (R175, R176; 04 R121) -/

/-- HSTAT as a task on core `c` reads it (04 R121). -/
def hstat (s : State) (c : Nat) : Nat :=
  let h := hearthOf c
  let x := s.hearth h
  let id := (s.core c).ident.groupId
  let mine := decide (x.group = some id) && (s.core c).ident.claim
  let q := claimOf s (some id)
  (if x.holder = some c then 1 else 0) + (if mine && decide (q.1 = 1) then 2 else 0)
    + x.left % 128 * 2 ^ 2 + ncomp x % 512 * 2 ^ 9 + allowOf s h * 2 ^ 18 + leaseMax s h * 2 ^ 27
    + (if mine then min 15 q.2 else 0) * 2 ^ 34

/-- GRIDID and LAUNCHSEQ of the running bundle's origin (10 R280). -/
def originIds (s : State) (k : Core) : Nat × Nat :=
  if k.ident.fuseId = 0 then (k.ident.gridId, k.ident.launchSeq)
  else
    let cons := (originOf s k k.t.pc).1
    let q := originSeq s k cons
    ((match s.grids.find? (fun g => decide (g.seq = q)) with
      | some g => g.id
      | none => k.ident.gridId), q)

/-- The value of a system register (R176). -/
def sysRead (s : State) (c : Nat) (f : Bool) (n : Nat) : Word :=
  let k := s.core c
  let i := k.ident
  match n with
  | 0x00 => k.lcount
  | 0x01 => k.vs.rrb.setWidth 64
  | 0x02 => k.lstat
  | 0x03 => (k.ctx f).vflags.setWidth 64
  | 0x04 => k.thbase
  | 0x05 => k.probecfg
  | 0x06 => llUsed s i.ctx
  | 0x07 => llQuota s i.ctx
  | 0x08 => BitVec.ofNat 64 (hstat s c)
  | 0x10 => BitVec.ofNat 64 (i.task + (if i.wide then 4 else 0))
  | 0x11 => BitVec.ofNat 64 i.ntask
  | 0x12 => BitVec.ofNat 64 (i.x + i.y * 2 ^ 16 + i.z * 2 ^ 32)
  | 0x13 => BitVec.ofNat 64 (i.gx + i.gy * 2 ^ 20 + i.gz * 2 ^ 40)
  | 0x14 => BitVec.ofNat 64 (originIds s k).1
  | 0x15 => BitVec.ofNat 64 i.stage
  | 0x16 => BitVec.ofNat 64 i.nstage
  | 0x17 => BitVec.ofNat 64 (originIds s k).2
  | 0x18 => BitVec.ofNat 64 c
  | 0x19 => BitVec.ofNat 64 (if isGrotto c then 16 else hearthOf c)
  | 0x20 => BitVec.ofNat 64 Config.cimBase
  | 0x21 => BitVec.ofNat 64 Config.cimsBase
  | 0x28 => k.tcycle
  | 0x29 => k.segstall
  | _ => 0

def effMfsr (f : SS) (s : State) : State := sOut s f.d f.lat (sysRead s s.cur (s.core s.cur).inF f.sreg.toNat) 0
def execMfsr (f : SS) (s : State) : Res State := runSlot (.mfsr f) (effMfsr f) s

/-- Write a system register (R175); PROBECFG clears every tag and lock bit (02 R52). -/
def sysWrite (f : Bool) (n : Nat) (v : Word) (k : Core) : Core :=
  match n with
  | 0x00 => { k with lcount := v }
  | 0x01 => { k with vs := { k.vs with rrb := v.setWidth 6 } }
  | 0x03 => k.setCtx f { k.ctx f with vflags := clearFlags (k.ctx f).vflags v }
  | 0x04 => { k with thbase := v }
  | 0x05 => { k with probecfg := v, tags := [] }
  | _ => k

def effMtsr (f : SS) (s : State) : State := s.modCore s.cur (sysWrite (s.core s.cur).inF f.sreg.toNat (sIn s 0 f.a))
def execMtsr (f : SS) (s : State) : Res State := runSlot (.mtsr f) (effMtsr f) s

/-- NOP: a bundle with no valid slot does nothing (05 R126). -/
def execNop (s : State) : Res State := .next s

end Sys2Proof.Machine
end

