-- ==== Sys2Proof/Machine/VectorMove.lean ====
section
/-! DEFINITION. Rotations, broadcasts, reductions, shuffles, pattern and code-table loads, transpose, moves and splats
(spec/07 R198 to R204, R206, R207). -/

namespace Sys2Proof.Machine
open Sys2Proof

/-- A form that builds each element of width `w`, whose code has `n` bits, from one source's elements: the bits above the code are written as
zero (R180; 03 R78). -/
def effPerm (w n : Nat) (src : Nat → Nat) (f : VI) (s : State) : State :=
  let a := vIn s f.u 0 f.a
  vOut s f.d f.lat (pIn s f.u 14 f.p) (ofElems w fun i => elemOf a w (src i) % 2 ^ n, 0)

/-- VROTR (R198). -/
def effVrotr (f : VI) (s : State) : State :=
  let e := elemsPerRow f.fmt.toNat
  effPerm (fmtRegWidth f.fmt.toNat) (fmtWidth f.fmt.toNat) (fun i => i / e * e + (i % e + f.imm.toNat) % e) f s
def effVbcr (f : VI) (s : State) : State :=
  let e := elemsPerRow f.fmt.toNat
  effPerm (fmtRegWidth f.fmt.toNat) (fmtWidth f.fmt.toNat) (fun i => i / e * e + f.imm.toNat) f s
def effVrotc (f : VI) (s : State) : State := effPerm 32 32 (fun i => (i / 64 + f.imm.toNat) % 16 * 64 + i % 64) f s
def effVbcc (f : VI) (s : State) : State := effPerm 32 32 (fun i => f.imm.toNat * 64 + i % 64) f s

def execVrotr (f : VI) (s : State) : Res State := runSlot (.vrotr f) (effVrotr f) s
def execVrotc (f : VI) (s : State) : Res State := runSlot (.vrotc f) (effVrotc f) s
def execVbcr (f : VI) (s : State) : Res State := runSlot (.vbcr f) (effVbcr f) s
def execVbcc (f : VI) (s : State) : Res State := runSlot (.vbcc f) (effVbcc f) s

/-! ## Reductions (R199) -/

/-- Combine of R199: SUM in fp32 for the floating classes, exact for the integer classes; MAX, MIN; AMAX. -/
def combine (op : Nat) (intClass : Bool) (x y : VF) : VF :=
  let fl := x.2 ||| y.2
  let r : VF := match op with
    | 0 => if intClass then vAdd x.1 y.1 else to32 (vAdd x.1 y.1)
    | 1 => vMax x.1 y.1
    | 2 => vMin x.1 y.1
    | _ => vMax (vAbs x.1) (vAbs y.1)
  (r.1, fl ||| r.2)

/-- One level of the pairwise tree. -/
def treeLevel (op : Nat) (ic : Bool) : List VF → List VF
  | x :: y :: rest => combine op ic x y :: treeLevel op ic rest
  | l => l

/-- The tree of R199, by levels. -/
def reduceTree (op : Nat) (ic : Bool) : Nat → List VF → VF
  | 0, l => l.headD (.fin false 0 0, 0)
  | n + 1, l => reduceTree op ic n (treeLevel op ic l)

/-- A reduction delivered into F. -/
def reduce (m op : Nat) (xs : List Val) : Nat × Flags :=
  deliver (reduceTree op (fmtInteger m) (Nat.log2 xs.length) (xs.map fun v => (v, 0))) m .rne

def effVredr (f : VI) (s : State) : State :=
  let m := f.fmt.toNat
  let w := fmtRegWidth m
  let e := elemsPerRow m
  let a := vIn s f.u 0 f.a
  let en := pIn s f.u 14 f.p
  let bc := decide (bitsAt f.imm.toNat 2 1 = 1)
  let r := fun n => reduce m (bitsAt f.imm.toNat 0 2) ((List.range e).map fun i => elemVal m a (n * e + i))
  let fl := orFlags (fun n =>
    if anyCell en (if bc then (List.range 64).map fun j => 64 * n + j else [64 * n]) then (r n).2 else 0) 16
  vOut s f.d f.lat en (ofElems w fun i => if bc || decide (i % e = 0) then (r (i / e)).1 else 0, fl)

def effVredc (f : VI) (s : State) : State :=
  let m := f.fmt.toNat
  let w := fmtRegWidth m
  let e := elemsPerRow m
  let a := vIn s f.u 0 f.a
  let en := pIn s f.u 14 f.p
  let bc := decide (bitsAt f.imm.toNat 2 1 = 1)
  let r := fun i => reduce m (bitsAt f.imm.toNat 0 2) ((List.range 16).map fun n => elemVal m a (n * e + i))
  let cell := fun i => cellOf w i
  let fl := orFlags (fun i =>
    if anyCell en (if bc then (List.range 16).map fun n => 64 * n + cell i else [cell i]) then (r i).2 else 0) e
  vOut s f.d f.lat en (ofElems w fun i => if bc || decide (i < e) then (r (i % e)).1 else 0, fl)

def execVredr (f : VI) (s : State) : Res State := runSlot (.vredr f) (effVredr f) s
def execVredc (f : VI) (s : State) : Res State := runSlot (.vredc f) (effVredc f) s

/-! ## Shuffles and permutes (R200, R201) -/

/-- Byte `j` of row `n` under a shuffle word (01 R30). -/
def shufByte (a b : VReg) (n word : Nat) : Nat :=
  if 2 ^ 15 ≤ word then 0
  else
    let i := word % 512
    if i < 256 then rowByte a n i else rowByte b n (i - 256)

def effVshuf (f : VI) (s : State) : State :=
  let k := s.core s.cur
  let e := tget (fun _ => 0) k.vs.sh (k.vs.active * 64 + f.imm.toNat % 64)
  let a := vIn s f.u 0 f.a
  let b := vIn s f.u 1 f.b
  vOut s f.d f.lat (pIn s f.u 14 f.p) (ofElems 8 fun i => shufByte a b (i / 256) (bitsAt e.toNat (16 * (i % 256)) 16), 0)
def execVshuf (f : VI) (s : State) : Res State := runSlot (.vshuf f) (effVshuf f) s

def effVperm (f : VI) (s : State) : State :=
  let a := vIn s f.u 0 f.a
  let b := vIn s f.u 1 f.b
  let fix := decide (16 ≤ f.imm.toNat)
  vOut s f.d f.lat (pIn s f.u 14 f.p)
    (ofElems 8 fun i => rowByte a (i / 256) (rowByte b (if fix then f.imm.toNat % 16 else i / 256) (i % 256)), 0)
def execVperm (f : VI) (s : State) : Res State := runSlot (.vperm f) (effVperm f) s

/-! ## Pattern and code-table loads (R202 to R204) -/

/-- VPATLD completes within 8 cycles, into the bank inactive when it lands. -/
def effVpatld (f : VI) (s : State) : State :=
  let a := vIn s f.u 0 f.a
  issueV s s.cur (.pat (f.imm.toNat % 64) (BitVec.ofNat 4096 (bitsAt a.toNat (4096 * (f.imm.toNat / 64)) 4096))) false 8 0
def execVpatld (f : VI) (s : State) : Res State := runSlot (.vpatld f) (effVpatld f) s

/-- The swap takes effect at the end of the issue cycle: the slots of the bundle read the old bank. -/
def effVpatsw (_f : V3) (s : State) : State :=
  s.modCore s.cur fun k => { k with vs := { k.vs with active := 1 - k.vs.active } }
def execVpatsw (f : V3) (s : State) : Res State := runSlot (.vpatsw f) (effVpatsw f) s

/-- VCTLD is seen by later bundles (01 R29). -/
def effVctld (f : VI) (s : State) : State :=
  let a := vIn s f.u 0 f.a
  issueV s s.cur (.ctab (bitsAt f.imm.toNat 0 2) (BitVec.ofNat 256 (bitsAt a.toNat (2048 * bitsAt f.imm.toNat 2 4) 256))) false 1 0
def execVctld (f : VI) (s : State) : Res State := runSlot (.vctld f) (effVctld f) s

/-! ## Transpose, moves and splats (R206, R207) -/

def effVtrn (f : V3) (s : State) : State :=
  let m := f.fmt.toNat
  let w := fmtRegWidth m
  let e := elemsPerRow m
  let a := vIn s f.u 0 f.a
  vOut s f.d f.lat (pIn s f.u 14 f.p) (ofElems w fun i => elemOf a w (i % e % 16 * e + i % e / 16 * 16 + i / e) % 2 ^ fmtWidth m, 0)
def execVtrn (f : V3) (s : State) : Res State := runSlot (.vtrn f) (effVtrn f) s

def effVmov (f : V3) (s : State) : State := vOut s f.d f.lat (pIn s f.u 14 f.p) (vIn s f.u 0 f.a, 0)
def execVmov (f : V3) (s : State) : Res State := runSlot (.vmov f) (effVmov f) s

def effVsplats (f : VI) (s : State) : State :=
  let m := f.fmt.toNat
  let v := (readS s s.cur false (fkey s (unitNum f.u) 3) (f.a.setWidth 7)).toNat
  vOut s f.d f.lat (pIn s f.u 14 f.p) (ofElems (fmtRegWidth m) fun _ => v % 2 ^ fmtWidth m, 0)
def execVsplats (f : VI) (s : State) : Res State := runSlot (.vsplats f) (effVsplats f) s

/-- The value VSPLATI builds from IMM18 (R207). -/
def splatiVal (m : Nat) (imm : BitVec 18) : Nat :=
  if m = 3 then (imm.signExtend 32).toNat
  else if m = 0 then imm.toNat % 2 ^ 16 * 2 ^ 16
  else imm.toNat % 2 ^ fmtWidth m

def effVsplati (f : VL) (s : State) : State :=
  vOut s f.d f.lat (pIn s f.u 14 f.p) (ofElems (fmtRegWidth f.fmt.toNat) fun _ => splatiVal f.fmt.toNat f.imm, 0)
def execVsplati (f : VL) (s : State) : Res State := runSlot (.vsplati f) (effVsplati f) s

end Sys2Proof.Machine
end

