-- ==== Sys2Proof/Machine/Dispatch.lean ====
section
/-! DEFINITION. One arm per constructor of `Instr`: the meaning of each. -/

namespace Sys2Proof.Machine
open Sys2Proof

def exec (i : Instr) (s : State) : Host.Outcome State Fault Refusal :=
  match i with
  | .add f => Sys2Proof.Machine.execAdd f s
  | .sub f => Sys2Proof.Machine.execSub f s
  | .mul f => Sys2Proof.Machine.execMul f s
  | .mulh f => Sys2Proof.Machine.execMulh f s
  | .mulhu f => Sys2Proof.Machine.execMulhu f s
  | .div f => Sys2Proof.Machine.execDiv f s
  | .divu f => Sys2Proof.Machine.execDivu f s
  | .rem f => Sys2Proof.Machine.execRem f s
  | .remu f => Sys2Proof.Machine.execRemu f s
  | .and f => Sys2Proof.Machine.execAnd f s
  | .or f => Sys2Proof.Machine.execOr f s
  | .xor f => Sys2Proof.Machine.execXor f s
  | .shl f => Sys2Proof.Machine.execShl f s
  | .shr f => Sys2Proof.Machine.execShr f s
  | .sar f => Sys2Proof.Machine.execSar f s
  | .min f => Sys2Proof.Machine.execMin f s
  | .minu f => Sys2Proof.Machine.execMinu f s
  | .max f => Sys2Proof.Machine.execMax f s
  | .maxu f => Sys2Proof.Machine.execMaxu f s
  | .addi f => Sys2Proof.Machine.execAddi f s
  | .andi f => Sys2Proof.Machine.execAndi f s
  | .ori f => Sys2Proof.Machine.execOri f s
  | .xori f => Sys2Proof.Machine.execXori f s
  | .shli f => Sys2Proof.Machine.execShli f s
  | .shri f => Sys2Proof.Machine.execShri f s
  | .sari f => Sys2Proof.Machine.execSari f s
  | .movi f => Sys2Proof.Machine.execMovi f s
  | .movhi f => Sys2Proof.Machine.execMovhi f s
  | .ext f => Sys2Proof.Machine.execExt f s
  | .extu f => Sys2Proof.Machine.execExtu f s
  | .ins f => Sys2Proof.Machine.execIns f s
  | .clz f => Sys2Proof.Machine.execClz f s
  | .popc f => Sys2Proof.Machine.execPopc f s
  | .cmp f => Sys2Proof.Machine.execCmp f s
  | .cmpi f => Sys2Proof.Machine.execCmpi f s
  | .gand f => Sys2Proof.Machine.execGand f s
  | .gor f => Sys2Proof.Machine.execGor f s
  | .gxor f => Sys2Proof.Machine.execGxor f s
  | .sel f => Sys2Proof.Machine.execSel f s
  | .fadd f => Sys2Proof.Machine.execFadd f s
  | .fsub f => Sys2Proof.Machine.execFsub f s
  | .fmul f => Sys2Proof.Machine.execFmul f s
  | .fma f => Sys2Proof.Machine.execFma f s
  | .fdiv f => Sys2Proof.Machine.execFdiv f s
  | .fsqrt f => Sys2Proof.Machine.execFsqrt f s
  | .fmin f => Sys2Proof.Machine.execFmin f s
  | .fmax f => Sys2Proof.Machine.execFmax f s
  | .fcmp f => Sys2Proof.Machine.execFcmp f s
  | .fcvt f => Sys2Proof.Machine.execFcvt f s
  | .br f => Sys2Proof.Machine.execBr f s
  | .call f => Sys2Proof.Machine.execCall f s
  | .ret f => Sys2Proof.Machine.execRet f s
  | .kloop f => Sys2Proof.Machine.execKloop f s
  | .shw f => Sys2Proof.Machine.execShw f s
  | .mfsr f => Sys2Proof.Machine.execMfsr f s
  | .mtsr f => Sys2Proof.Machine.execMtsr f s
  | .trap f => Sys2Proof.Machine.execTrap f s
  | .tret f => Sys2Proof.Machine.execTret f s
  | .exit f => Sys2Proof.Machine.execExit f s
  | .nop => Sys2Proof.Machine.execNop s
  | .vadd f => Sys2Proof.Machine.execVadd f s
  | .vsub f => Sys2Proof.Machine.execVsub f s
  | .vmul f => Sys2Proof.Machine.execVmul f s
  | .vfma f => Sys2Proof.Machine.execVfma f s
  | .vfms f => Sys2Proof.Machine.execVfms f s
  | .vdiv f => Sys2Proof.Machine.execVdiv f s
  | .vsqrt f => Sys2Proof.Machine.execVsqrt f s
  | .vmin f => Sys2Proof.Machine.execVmin f s
  | .vmax f => Sys2Proof.Machine.execVmax f s
  | .vabs f => Sys2Proof.Machine.execVabs f s
  | .vneg f => Sys2Proof.Machine.execVneg f s
  | .vand f => Sys2Proof.Machine.execVand f s
  | .vor f => Sys2Proof.Machine.execVor f s
  | .vxor f => Sys2Proof.Machine.execVxor f s
  | .vnot f => Sys2Proof.Machine.execVnot f s
  | .vshl f => Sys2Proof.Machine.execVshl f s
  | .vshr f => Sys2Proof.Machine.execVshr f s
  | .vsar f => Sys2Proof.Machine.execVsar f s
  | .vcvt f => Sys2Proof.Machine.execVcvt f s
  | .vqnt f => Sys2Proof.Machine.execVqnt f s
  | .vdqnt f => Sys2Proof.Machine.execVdqnt f s
  | .vunpk f => Sys2Proof.Machine.execVunpk f s
  | .vpack f => Sys2Proof.Machine.execVpack f s
  | .vbdot f => Sys2Proof.Machine.execVbdot f s
  | .vexp f => Sys2Proof.Machine.execVexp f s
  | .vlog f => Sys2Proof.Machine.execVlog f s
  | .vsin f => Sys2Proof.Machine.execVsin f s
  | .vcos f => Sys2Proof.Machine.execVcos f s
  | .vtanh f => Sys2Proof.Machine.execVtanh f s
  | .vrsqrt f => Sys2Proof.Machine.execVrsqrt f s
  | .vrcp f => Sys2Proof.Machine.execVrcp f s
  | .vsigm f => Sys2Proof.Machine.execVsigm f s
  | .vcmp f => Sys2Proof.Machine.execVcmp f s
  | .vsel f => Sys2Proof.Machine.execVsel f s
  | .vrotr f => Sys2Proof.Machine.execVrotr f s
  | .vrotc f => Sys2Proof.Machine.execVrotc f s
  | .vbcr f => Sys2Proof.Machine.execVbcr f s
  | .vbcc f => Sys2Proof.Machine.execVbcc f s
  | .vredr f => Sys2Proof.Machine.execVredr f s
  | .vredc f => Sys2Proof.Machine.execVredc f s
  | .vshuf f => Sys2Proof.Machine.execVshuf f s
  | .vperm f => Sys2Proof.Machine.execVperm f s
  | .vpatld f => Sys2Proof.Machine.execVpatld f s
  | .vpatsw f => Sys2Proof.Machine.execVpatsw f s
  | .vctd f => Sys2Proof.Machine.execVctd f s
  | .vctld f => Sys2Proof.Machine.execVctld f s
  | .vtrn f => Sys2Proof.Machine.execVtrn f s
  | .vmov f => Sys2Proof.Machine.execVmov f s
  | .vsplats f => Sys2Proof.Machine.execVsplats f s
  | .vsplati f => Sys2Proof.Machine.execVsplati f s
  | .vpand f => Sys2Proof.Machine.execVpand f s
  | .vpor f => Sys2Proof.Machine.execVpor f s
  | .vpxor f => Sys2Proof.Machine.execVpxor f s
  | .mlease f => Sys2Proof.Machine.execMlease f s
  | .mrel f => Sys2Proof.Machine.execMrel f s
  | .mmode f => Sys2Proof.Machine.execMmode f s
  | .mwld f => Sys2Proof.Machine.execMwld f s
  | .mmac f => Sys2Proof.Machine.execMmac f s
  | .mclr f => Sys2Proof.Machine.execMclr f s
  | .mdrn f => Sys2Proof.Machine.execMdrn f s
  | .mstat f => Sys2Proof.Machine.execMstat f s
  | .cpyl f => Sys2Proof.Machine.execCpyl f s
  | .cpys f => Sys2Proof.Machine.execCpys f s
  | .cpyc f => Sys2Proof.Machine.execCpyc f s
  | .cpfill f => Sys2Proof.Machine.execCpfill f s
  | .lxfr f => Sys2Proof.Machine.execLxfr f s
  | .bkmac f => Sys2Proof.Machine.execBkmac f s
  | .bkkey f => Sys2Proof.Machine.execBkkey f s
  | .bkcmp f => Sys2Proof.Machine.execBkcmp f s
  | .bkwr f => Sys2Proof.Machine.execBkwr f s
  | .bktt f => Sys2Proof.Machine.execBktt f s
  | .bkrd f => Sys2Proof.Machine.execBkrd f s
  | .ldb f => Sys2Proof.Machine.execLdb f s
  | .ldbu f => Sys2Proof.Machine.execLdbu f s
  | .ldh f => Sys2Proof.Machine.execLdh f s
  | .ldhu f => Sys2Proof.Machine.execLdhu f s
  | .ldw f => Sys2Proof.Machine.execLdw f s
  | .ldwu f => Sys2Proof.Machine.execLdwu f s
  | .ldd f => Sys2Proof.Machine.execLdd f s
  | .ldv f => Sys2Proof.Machine.execLdv f s
  | .ldvs f => Sys2Proof.Machine.execLdvs f s
  | .ldvg f => Sys2Proof.Machine.execLdvg f s
  | .probe f => Sys2Proof.Machine.execProbe f s
  | .pwait f => Sys2Proof.Machine.execPwait f s
  | .pref f => Sys2Proof.Machine.execPref f s
  | .llclk f => Sys2Proof.Machine.execLlclk f s
  | .llcul f => Sys2Proof.Machine.execLlcul f s
  | .stb f => Sys2Proof.Machine.execStb f s
  | .sth f => Sys2Proof.Machine.execSth f s
  | .stw f => Sys2Proof.Machine.execStw f s
  | .std f => Sys2Proof.Machine.execStd f s
  | .stv f => Sys2Proof.Machine.execStv f s
  | .stvs f => Sys2Proof.Machine.execStvs f s
  | .stvx f => Sys2Proof.Machine.execStvx f s
  | .aadd f => Sys2Proof.Machine.execAadd f s
  | .aand f => Sys2Proof.Machine.execAand f s
  | .aor f => Sys2Proof.Machine.execAor f s
  | .axor f => Sys2Proof.Machine.execAxor f s
  | .amin f => Sys2Proof.Machine.execAmin f s
  | .aminu f => Sys2Proof.Machine.execAminu f s
  | .amax f => Sys2Proof.Machine.execAmax f s
  | .amaxu f => Sys2Proof.Machine.execAmaxu f s
  | .axch f => Sys2Proof.Machine.execAxch f s
  | .acas f => Sys2Proof.Machine.execAcas f s
  | .afadd f => Sys2Proof.Machine.execAfadd f s
  | .bara f => Sys2Proof.Machine.execBara f s
  | .barw f => Sys2Proof.Machine.execBarw f s
  | .baraw f => Sys2Proof.Machine.execBaraw f s
  | .barcfg f => Sys2Proof.Machine.execBarcfg f s
  | .tokw f => Sys2Proof.Machine.execTokw f s
  | .tokst f => Sys2Proof.Machine.execTokst f s
  | .ctrw f => Sys2Proof.Machine.execCtrw f s
  | .wpw f => Sys2Proof.Machine.execWpw f s
  | .qmark f => Sys2Proof.Machine.execQmark f s
  | .fenceT f => Sys2Proof.Machine.execFenceT f s
  | .fenceG f => Sys2Proof.Machine.execFenceG f s
  | .fenceD f => Sys2Proof.Machine.execFenceD f s
  | .fenceS f => Sys2Proof.Machine.execFenceS f s
  | .ringcfg f => Sys2Proof.Machine.execRingcfg f s
  | .signalStore f => Sys2Proof.Machine.execSignalStore f s
  | .signalAdd f => Sys2Proof.Machine.execSignalAdd f s
  | .dqadv f => Sys2Proof.Machine.execDqadv f s
  | .yield f => Sys2Proof.Machine.execYield f s
  | .waity f => Sys2Proof.Machine.execWaity f s
  | .queueEnable q v => Sys2Proof.Machine.execQueueEnable q v s
  | .queueDisable q v => Sys2Proof.Machine.execQueueDisable q v s
  | .qwrWrite q v => Sys2Proof.Machine.execQwrWrite q v s
  | .qstatClear q v => Sys2Proof.Machine.execQstatClear q v s
  | .registerWrite addr v => Sys2Proof.Machine.execRegisterWrite addr v s
  | .nextRecordValid c => Sys2Proof.Machine.execNextRecordValid c s
  | .slotDiscard c => Sys2Proof.Machine.execSlotDiscard c s
  | .slotPreempt c => Sys2Proof.Machine.execSlotPreempt c s
  | .invContext v => Sys2Proof.Machine.execInvContext v s
  | .invPage v => Sys2Proof.Machine.execInvPage v s
  | .invLargePage v => Sys2Proof.Machine.execInvLargePage v s
  | .invAll v => Sys2Proof.Machine.execInvAll v s
  | .ctxbaseWrite v => Sys2Proof.Machine.execCtxbaseWrite v s
  | .migrate64m v => Sys2Proof.Machine.execMigrate64m v s
  | .migrate64k v => Sys2Proof.Machine.execMigrate64k v s
  | .keyLoad v => Sys2Proof.Machine.execKeyLoad v s
  | .keyDestroy v => Sys2Proof.Machine.execKeyDestroy v s
  | .formatRegionEnable r v => Sys2Proof.Machine.execFormatRegionEnable r v s
  | .formatRegionDisable r v => Sys2Proof.Machine.execFormatRegionDisable r v s
  | .formatRegionFlush r v => Sys2Proof.Machine.execFormatRegionFlush r v s
  | .hallowWrite h v => Sys2Proof.Machine.execHallowWrite h v s
  | .evrdWrite v => Sys2Proof.Machine.execEvrdWrite v s
  | .featreqWrite w v => Sys2Proof.Machine.execFeatreqWrite w v s
  | .mclatClear k v => Sys2Proof.Machine.execMclatClear k v s
  | .domainEnable v => Sys2Proof.Machine.execDomainEnable v s
  | .domainDisable v => Sys2Proof.Machine.execDomainDisable v s
  | .logClear k v => Sys2Proof.Machine.execLogClear k v s
  | .remapEntryWrite k v => Sys2Proof.Machine.execRemapEntryWrite k v s
  | .dieMapOut k v => Sys2Proof.Machine.execDieMapOut k v s
  | .trippedClear v => Sys2Proof.Machine.execTrippedClear v s
  | .segCopyStart c => Sys2Proof.Machine.execSegCopyStart c s
  | .segmentCopyComplete c => Sys2Proof.Machine.execSegmentCopyComplete c s
  | .loadLand c k => Sys2Proof.Machine.execLoadLand c k s
  | .loadPerform c f j => Sys2Proof.Machine.execLoadPerform c f j s
  | .storePerform c f j => Sys2Proof.Machine.execStorePerform c f j s
  | .atomicPerform c f => Sys2Proof.Machine.execAtomicPerform c f s
  | .atomicOldLand c f k => Sys2Proof.Machine.execAtomicOldLand c f k s
  | .probeFillLand c k => Sys2Proof.Machine.execProbeFillLand c k s
  | .translationMissAccept c => Sys2Proof.Machine.execTranslationMissAccept c s
  | .pageWalkComplete c f q k => Sys2Proof.Machine.execPageWalkComplete c f q k s
  | .barrierArrivalCount c k => Sys2Proof.Machine.execBarrierArrivalCount c k s
  | .barrierCompletion c bar => Sys2Proof.Machine.execBarrierCompletion c bar s
  | .tokstComplete c k => Sys2Proof.Machine.execTokstComplete c k s
  | .linkTransferStamp c k ok data => Sys2Proof.Machine.execLinkTransferStamp c k ok data s
  | .engineCommandComplete mx c k => Sys2Proof.Machine.execEngineCommandComplete mx c k s
  | .hearthCommandEffect h k => Sys2Proof.Machine.execHearthCommandEffect h k s
  | .mmacAccumulate h k => Sys2Proof.Machine.execMmacAccumulate h k s
  | .mmacPassComplete h k => Sys2Proof.Machine.execMmacPassComplete h k s
  | .mwldComplete h k => Sys2Proof.Machine.execMwldComplete h k s
  | .mdrnComplete h k => Sys2Proof.Machine.execMdrnComplete h k s
  | .leaseGrant h c => Sys2Proof.Machine.execLeaseGrant h c s
  | .leaseCountExpiry h => Sys2Proof.Machine.execLeaseCountExpiry h s
  | .leaseIdleExpiry h => Sys2Proof.Machine.execLeaseIdleExpiry h s
  | .copyBytesLand c k rd => Sys2Proof.Machine.execCopyBytesLand c k rd s
  | .counterUpdate k => Sys2Proof.Machine.execCounterUpdate k s
  | .bankRowOpen c k => Sys2Proof.Machine.execBankRowOpen c k s
  | .taskFinish c => Sys2Proof.Machine.execTaskFinish c s
  | .contextCapture c => Sys2Proof.Machine.execContextCapture c s
  | .gangSwitch c => Sys2Proof.Machine.execGangSwitch c s
  | .hearthZeroingComplete h => Sys2Proof.Machine.execHearthZeroingComplete h s
  | .resultLand c k => Sys2Proof.Machine.execResultLand c k s
  | .vectorUnitFree c u => Sys2Proof.Machine.execVectorUnitFree c u s
  | .deferredFaultTake c => Sys2Proof.Machine.execDeferredFaultTake c s
  | .hwerrDetect c sub => Sys2Proof.Machine.execHwerrDetect c sub s
  | .fFault c cause sub addr => Sys2Proof.Machine.execFFault c cause sub addr s
  | .kloopPassBoundary c => Sys2Proof.Machine.execKloopPassBoundary c s
  | .ctrwRelease c => Sys2Proof.Machine.execCtrwRelease c s
  | .vpatldComplete c k => Sys2Proof.Machine.execVpatldComplete c k s
  | .gridComplete k => Sys2Proof.Machine.execGridComplete k s
  | .waityResume k => Sys2Proof.Machine.execWaityResume k s
  | .launch q => Sys2Proof.Machine.execLaunch q s
  | .waitall q => Sys2Proof.Machine.execWaitall q s
  | .waitany q => Sys2Proof.Machine.execWaitany q s
  | .waitRound q => Sys2Proof.Machine.execWaitRound q s
  | .signalPacket q => Sys2Proof.Machine.execSignalPacket q s
  | .preloadComplete c => Sys2Proof.Machine.execPreloadComplete c s
  | .budgetExpiry c => Sys2Proof.Machine.execBudgetExpiry c s
  | .invalidationComplete => Sys2Proof.Machine.execInvalidationComplete s
  | .migrationComplete => Sys2Proof.Machine.execMigrationComplete s
  | .keyCommandComplete => Sys2Proof.Machine.execKeyCommandComplete s
  | .flushComplete r => Sys2Proof.Machine.execFlushComplete r s
  | .decodedWriteback k => Sys2Proof.Machine.execDecodedWriteback k s
  | .refreshTick k => Sys2Proof.Machine.execRefreshTick k s
  | .refpb k bank => Sys2Proof.Machine.execRefpb k bank s
  | .refreshManagement k bank => Sys2Proof.Machine.execRefreshManagement k bank s
  | .dieTempSample k t => Sys2Proof.Machine.execDieTempSample k t s
  | .scrubRow k => Sys2Proof.Machine.execScrubRow k s
  | .cimScrubRow h half row => Sys2Proof.Machine.execCimScrubRow h half row s
  | .frameBoundary stamp => Sys2Proof.Machine.execFrameBoundary stamp s
  | .frameLossTimeout => Sys2Proof.Machine.execFrameLossTimeout s
  | .linkStateChange l st => Sys2Proof.Machine.execLinkStateChange l st s
  | .tierPortDown p => Sys2Proof.Machine.execTierPortDown p s
  | .hostMemAccess wr addr len data => Sys2Proof.Machine.execHostMemAccess wr addr len data s
  | .hostReleased => Sys2Proof.Machine.execHostReleased s
  | .pageReturnToHost ctx va => Sys2Proof.Machine.execPageReturnToHost ctx va s
  | .vacated => Sys2Proof.Machine.execVacated s
  | .firmwareUpdate => Sys2Proof.Machine.execFirmwareUpdate s
  | .attest => Sys2Proof.Machine.execAttest s
  | .svnCommit => Sys2Proof.Machine.execSvnCommit s
  | .certRead => Sys2Proof.Machine.execCertRead s
  | .errorEvent log cls sub loc => Sys2Proof.Machine.execErrorEvent log cls sub loc s
  | .errorJudgement k => Sys2Proof.Machine.execErrorJudgement k s
  | .mapOutComplete k => Sys2Proof.Machine.execMapOutComplete k s
  | .powerUp => Sys2Proof.Machine.execPowerUp s
  | .hearthTrip h => Sys2Proof.Machine.execHearthTrip h s
  | .allowanceStep h => Sys2Proof.Machine.execAllowanceStep h s
  | .heatCount k => Sys2Proof.Machine.execHeatCount k s
  | .heatHalving => Sys2Proof.Machine.execHeatHalving s
  | .i3cPrivateWrite b => Sys2Proof.Machine.execI3cPrivateWrite b s
  | .i3cRead n => Sys2Proof.Machine.execI3cRead n s
  | .dynamicAddressAssignment a => Sys2Proof.Machine.execDynamicAddressAssignment a s
  | .linkHandshakeCrossed c k n fmt => Sys2Proof.Machine.execLinkHandshakeCrossed c k n fmt s
  | .hostPortDown => Sys2Proof.Machine.execHostPortDown s
  | .powerLoss cut => Sys2Proof.Machine.execPowerLoss cut s

end Sys2Proof.Machine
end

