-- ==== Sys2Proof/Machine/Schedule.lean ====
section
/-! DEFINITION. What may happen by itself while a core waits (log 1): the events offered, in the order in which the step tries them. -/

namespace Sys2Proof.Machine
open Sys2Proof

/-- Events of one context's queues. -/
def queueEvents (c : Nat) (f : Bool) (x : SCtx) : List (State → Option State) :=
  (List.range x.storeQ.length).map (fun k => evPageWalkComplete c f true k)
  ++ (List.range (x.loadQ.length + x.lineQ.length)).map (fun k => evPageWalkComplete c f false k)
  ++ [evStorePerform c f 0, evAtomicPerform c f, evLoadPerform c f 0, evAtomicOldLand c f 0]

/-- Events of the core itself. -/
def coreEvents (s : State) (c : Nat) : List (State → Option State) :=
  let k := s.core c
  [evLoadLand c 0, evProbeFillLand c 0] ++ (List.range (k.t.arrivals.length + k.f.arrivals.length)).flatMap
    (fun i => [evLoadLand c i, evProbeFillLand c i])
  ++ queueEvents c false k.t ++ queueEvents c true k.f
  ++ [evTranslationMissAccept c] ++ (List.range k.toksts.length).map (fun i => evTokstComplete c i)
  ++ (List.range k.barQ.length).map (fun i => evBarrierArrivalCount c i)
  ++ (k.bars.map fun p => evBarrierCompletion c p.1)
  ++ [evSegmentCopyComplete c, evSegCopyStart c, evTaskFinish c, evContextCapture c]

/-- Events of the core's copy and bank commands, of its hearth, and the counters. -/
def engineEvents (s : State) (c : Nat) : List (State → Option State) :=
  let k := s.core c
  let h := hearthOf c
  (List.range k.cpQ.length).flatMap (fun i => [evCopyBytesLand c i false, evBankRowOpen c i, evLinkTransferStamp c i false [], evEngineCommandComplete false c i])
  ++ (if isGrotto c then [] else
      (List.range (s.hearth h).cmds.length).flatMap (fun i =>
        [evHearthCommandEffect h i, evMmacAccumulate h i, evMmacPassComplete h i, evMwldComplete h i, evMdrnComplete h i,
          evEngineCommandComplete true h i])
      ++ [evLeaseCountExpiry h, evLeaseIdleExpiry h] ++ (s.hearth h).wants.map (fun d => evLeaseGrant h d) ++ [evHearthZeroingComplete h])
  ++ (List.range s.counters.length).map fun i => evCounterUpdate i

/-- Everything offered while core `cur` waits. -/
def candidates (s : State) : List (State → Option State) :=
  let c := s.cur
  if (s.core c).bound then coreEvents s c ++ engineEvents s c
  else queueEvents c true (s.core c).f ++ [evLoadLand c 0] ++ engineEvents s c ++ [evGangSwitch c]

/-! ## Events of the module's other units

Tried while no core event is offered: a unit that has work does it (log 1). -/

/-- A round of a queue's wait packet, offered once it would settle the packet. -/
def settleRound (q : Nat) (s : State) : Option State :=
  match s.flights.find? fun w => decide (w.queue = q) with
  | some w => if roundHolds s w = some false then none else evWaitRound q s
  | none => none

/-- What the units of the module may do by themselves. -/
def background (s : State) : List (State → Option State) :=
  (List.range 128).flatMap (fun c => if nextValid s c then [evPreloadComplete c, evGangSwitch c] else [])
  ++ [evInvalidationComplete, evMigrationComplete, evKeyCommandComplete]
  ++ (List.range 32).map (fun r => evFlushComplete r)
  ++ (List.range s.grids.length).map (fun k => evGridComplete k)
  ++ (serveOrder s).flatMap (fun q => [evLaunch q, evWaitall q, evWaitany q, evSignalPacket q, settleRound q])
  ++ (List.range s.susps.length).map (fun k => evWaityResume k)
  ++ (List.range s.heatQ.length).map (fun k => evHeatCount k)
  ++ (if s.powered then (List.range s.logs.length).map (fun k => evErrorJudgement k) ++ [spareDue] else []) ++ [hostNext]

/-- The first of the offered events that happens. -/
def firstOf : List (State → Option State) → State → Option State
  | [], _ => none
  | e :: rest, s => match e s with
    | some t => some t
    | none => firstOf rest s

/-! ## Events that the module does not take yet, or no longer -/

/-- Events of the outside that reach a module whose boot has failed: its supply and its sideband (22 R384, 24 R404). -/
def outside (e : Instr) : Bool := match e with
  | .powerLoss _ | .i3cPrivateWrite _ | .i3cRead _ | .dynamicAddressAssignment _ => true
  | _ => false

/-- BOOTSTAT.FAIL is set: nothing further runs (22 R384). -/
def bootFailed (s : State) : Bool := (s.reg bootstat).getLsbD 5

/-- Writes that come through BAR0, which phase 5 of bring-up enables (22 R384; 21 R356). -/
def throughBar (e : Instr) : Bool := match e with
  | .queueEnable _ _ | .queueDisable _ _ | .qwrWrite _ _ | .qstatClear _ _ | .registerWrite _ _ | .nextRecordValid _ | .slotDiscard _
  | .slotPreempt _ | .invContext _ | .invPage _ | .invLargePage _ | .invAll _ | .ctxbaseWrite _ | .migrate64m _ | .migrate64k _
  | .keyLoad _ | .keyDestroy _ | .formatRegionEnable _ _ | .formatRegionDisable _ _ | .formatRegionFlush _ _ | .hallowWrite _ _
  | .evrdWrite _ | .featreqWrite _ _ | .mclatClear _ _ | .domainEnable _ | .domainDisable _ | .logClear _ _ | .remapEntryWrite _ _
  | .dieMapOut _ _ | .trippedClear _ => true
  | _ => false

/-- Acts of the management firmware, which runs once the boot ROM has accepted it (22 R384). -/
def byFirmware (e : Instr) : Bool := match e with
  | .hostReleased | .pageReturnToHost _ _ | .vacated | .firmwareUpdate | .attest | .svnCommit | .certRead | .errorJudgement _
  | .allowanceStep _ => true
  | _ => false

/-- Events that come only after bring-up. -/
def needsBoot (e : Instr) : Bool := throughBar e || byFirmware e

/-- The event at the head of the agenda does not happen: it is an instruction of a core, which only a bundle issues, or a register write
or an act of the firmware before bring-up (log 106). -/
def notTaken (s : State) (e : Instr) : Bool := (slotOf e).isSome || (needsBoot e && !s.powered)

/-- What ends a step: the events that it has posted enter the ring, while the firmware runs (22 R386). -/
def endStep (t : State) : State := if t.lost || bootFailed t then t else postHeld t

/-- The end of a step whose work came out as `r`. -/
def stepEnd (r : Res State) : Res State := match r with
  | .next t => .next (endStep t)
  | .fault x => .fault x
  | .refused x => .refused x

end Sys2Proof.Machine
end

