-- ==== Sys2Proof/Machine/Step.lean ====
section
/-! DEFINITION. One step of the module: the next event of the agenda, or the turn of one core. -/

namespace Sys2Proof.Machine
open Sys2Proof

/-- The instructions of a bundle act, one after another, on the bundle's own reads. -/
def actAll : List Instr → State → Host.Outcome State Fault Refusal
  | [], s => .next s
  | i :: rest, s => match exec i s with
    | .next t => actAll rest t
    | .fault x => .fault x
    | .refused x => .refused x

/-- The turn of core `cur` once its cycle is F's or its task's: a bundle issues, or, while the core waits, something offered happens. -/
def turnOf (s : State) : Host.Outcome State Fault Refusal :=
  match plan s with
  | .done t => .next (nextTurn t)
  | .wait t => .next (nextTurn (match firstOf (candidates t) t with
      | some u => u
      | none => match firstOf (background t) t with
        | some u => u
        | none => t))
  | .report => execDeferredFaultTake s.cur s
  | .issue b => match actAll (actOrder b.instrs) (beginIssue s) with
    | .next t => .next (nextTurn (endIssue (s.core s.cur).inF b t))
    | .fault x => .fault x
    | .refused x => .refused x

/-- The turn of core `cur`. -/
def turn (s : State) : Host.Outcome State Fault Refusal := turnOf (beginTurn s)

/-- What a step does before its end: without supply only POWER_UP runs (23 R392), and after a failed boot only what comes from outside; else
the head of the agenda happens, or, with none, the turn of core `cur` (log 1). -/
def stepWork (s : State) : Host.Outcome State Fault Refusal :=
  if s.lost then (match s.agenda with
    | .powerUp :: rest => exec .powerUp { s with agenda := rest, fresh := s.fresh + 1 }
    | _ => .fault .powerLost)
  else if bootFailed s then (match s.agenda with
    | e :: rest => if outside e then exec e { s with agenda := rest, fresh := s.fresh + 1 } else .fault .bootFailed
    | [] => .fault .bootFailed)
  else match s.agenda with
    | e :: rest => if notTaken s e then .next { s with agenda := rest } else exec e { s with agenda := rest, fresh := s.fresh + 1 }
    | [] => turn s

/-- One step, with the events that it posts (22 R386). -/
def step (s : State) : Host.Outcome State Fault Refusal := stepEnd (stepWork s)

/-- The state in which core 0 issues the bundle `w` next (log 2): it stands at the start of segment 0 of a task's program. -/
def State.withFetchWord (s : State) (_nbits w : Nat) : State :=
  { s with agenda := [], cur := 0, issuing := none, lost := false, mmio := (s.setReg bootstat (s.reg bootstat &&& ~~~(32#64))).mmio }.modCore 0 fun k =>
    { k with run := .run, reports := [], why := none, exited := none, finished := false, hold := none, bawait := none, resume := none,
             fTurn := [], fNow := false,
             t := { k.t with pc := 0, jump := none, lastIssue := none, drn := false },
             imem := { k.imem with code := tset (fun _ => 0) k.imem.code 0 (BitVec.ofNat 512 w), res0 := some 0, res1 := none,
                                   copy := none, segtab := [⟨0, 0, 2048⟩], fused := 0, failed := [] } }

end Sys2Proof.Machine
end

