-- ==== Sys2Proof/Safety.lean ====
section
/-! DEFINITION. The terms the statements use: a state whose tables are in canonical form, an instruction that may act, and what it means
that an instruction changes one core and nothing else. -/

namespace Sys2Proof.Machine
open Sys2Proof

/-! ## States -/

/-- The canonical form that every step keeps: both memories, and the tables of cores, hearths and MMIO registers, list rising keys and
nothing that equals what an unlisted key reads as. -/
def State.Kept (s : State) : Prop :=
  Memory.wf s.mem = true ∧ Memory.wf s.hostMem = true ∧ twf (fun _ => Core.reset) s.cores = true
    ∧ twf (fun _ => Hearth.reset) s.hearths = true ∧ twf mmioReset s.mmio = true

/-- The core whose turn it is, whether F runs on it, and the scalar context that runs. -/
def State.me (s : State) : Core := s.core s.cur
def State.inF (s : State) : Bool := s.me.inF
def State.ctx (s : State) : SCtx := s.me.ctx s.inF

/-! ## Instructions that may act -/

/-- Nothing holds or refuses instruction `i`: it stands in a bundle that has passed its checks, or, standing alone, it is well formed,
has no cause to stall (01 R12) and fails no check at issue (05 R134). -/
def Passes (i : Instr) (s : State) : Prop :=
  s.issuing.isSome = true ∨ (s.issuing = none ∧ i.WellFormed (encCtx s s.cur) ∧ bundleStalls s s.cur s.inF [i] = false
    ∧ bundleTrouble s s.cur s.inF [i] = none)

/-- The instruction may act: it passes, and its guard is true. -/
def Ready (i : Instr) (s : State) : Prop := Passes i s ∧ guardHolds s s.cur s.inF i = true

/-- The instruction passes, and its guard is false. -/
def Idle (i : Instr) (s : State) : Prop := Passes i s ∧ guardHolds s s.cur s.inF i = false

/-! ## What an instruction changes -/

/-- From `s` the instruction answers a next state in which the core whose turn it is has become `k`, and nothing else has changed: no other
core, no byte of memory, no other part of the module. The model's own counter of free values alone may differ. -/
def Becomes (i : Instr) (s : State) (k : Core) : Prop :=
  ∃ t, exec i s = .next t ∧ t.core s.cur = k ∧ (∀ d, d ≠ s.cur → t.core d = s.core d)
    ∧ (∀ a, memGet t.mem a = memGet s.mem a) ∧ t = { s with cores := t.cores, fresh := t.fresh }

/-- The next state is `s`, but for the model's own counter of free values. -/
def Nothing (i : Instr) (s : State) : Prop := ∃ t, exec i s = .next t ∧ t = { s with fresh := t.fresh }

/-- A result enters flight in the running scalar context: to land within `lat` cycles with flags `fl`. With `push` it takes the next
entry of the scalar age queue. No register and no flag changes before it lands. -/
def withScalar (s : State) (r : Result) (push : Bool) (lat : Nat) (fl : Flags) : Core :=
  let x := s.ctx
  s.me.setCtx s.inF { x with pend := x.pend ++ [⟨r, if push then some x.sapc else none, s.me.cyc, lat, fl, false⟩],
                             sapc := if push then x.sapc + 1 else x.sapc }

/-- The instruction's scalar result is `v`, bound for s[d] and the scalar age queue. -/
def ScalarResult (i : Instr) (s : State) (d : BitVec 7) (lat : BitVec 4) (v : Word) (fl : Flags) : Prop :=
  Becomes i s (withScalar s (.scal d.toNat v) true lat.toNat fl)

/-- The instruction's result is the truth value `v`, bound for g[d]; nothing is pushed. -/
def GuardResult (i : Instr) (s : State) (d lat : BitVec 4) (v : Bool) : Prop :=
  Becomes i s (withScalar s (.guard d.toNat v) false lat.toNat 0)

/-- A core whose running bundle transfers control to `a` (05 R148). -/
def jumping (f : Bool) (a : Nat) (k : Core) : Core := k.setCtx f { k.ctx f with jump := some a }

/-- The vector unit `u` of a core is taken for `n` cycles (01 R13). -/
def takeUnit (u : VUnit) (n : Nat) (k : Core) : Core := match u with
  | .a => { k with vs := { k.vs with freeA := k.cyc + n } }
  | .b => { k with vs := { k.vs with freeB := k.cyc + n } }

/-- A vector, predicate, pattern or code-table result enters flight; with `push` it takes the next entry of the vector age queue. -/
def withVector (s : State) (u : VUnit) (n : Nat) (r : Result) (push : Bool) (lat : Nat) (fl : Flags) : Core :=
  let k := takeUnit u n s.me
  { k with t := { k.t with pend := k.t.pend ++ [⟨r, if push then some k.vs.apc else none, k.cyc, lat, fl, false⟩] },
           vs := { k.vs with apc := if push then k.vs.apc + 1 else k.vs.apc } }

/-- The instruction's vector result is `v` under the cells `en`, bound for the destination `d` and the vector age queue; its unit is
taken for four cycles. -/
def VectorResult (i : Instr) (s : State) (u : VUnit) (d : BitVec 9) (lat : BitVec 4) (en : PReg) (v : VReg) (fl : Flags) : Prop :=
  Becomes i s (withVector s u 4 (.vec (vdestOf s.me d) v en) true lat.toNat fl)

/-- Sticky flag `b` is raised exactly where an enabled cell holds an element whose own flags raise it (03 R88). -/
def FlagsOf (fl : Flags) (w : Nat) (en : PReg) (g : Nat → Flags) : Prop :=
  ∀ b, fl.getLsbD b = true ↔ ∃ j, j < 32768 / w ∧ en.getLsbD (cellOf w j) = true ∧ (g j).getLsbD b = true

/-- An element-wise vector result: element `j` of width `w` holds the code of `r j`, and the flags are those of the enabled elements. -/
def Elementwise (i : Instr) (s : State) (u : VUnit) (d : BitVec 9) (lat : BitVec 4) (en : PReg) (w : Nat) (r : Nat → Nat × Flags) : Prop :=
  ∃ v fl, VectorResult i s u d lat en v fl ∧ (∀ j, j < 32768 / w → elemOf v w j = (r j).1 % 2 ^ w) ∧ FlagsOf fl w en fun j => (r j).2

/-! ## Memory forms -/

/-- Scalar source `r`, read as operand `n` of slot `q`. -/
def State.operand (s : State) (q n : Nat) (r : BitVec 7) : Word := readS s s.cur s.inF (fkey s q n) r

/-- A form's address `A` in space `sp`, and the place each address has at issue (05 R146, 09 R236, 10 R284): base + (index << shift) +
offset, or an offset into a ring's slot. A local or ring place is known at issue, a global one is not. -/
def Addressed (s : State) (q : Nat) (m : MemOp) (sp : Space) (A : Word) (place : Nat → Option Phys) : Prop := match m.f with
  | .glob x sc => sp = .glob ∧ A = s.operand q 0 m.a + s.operand q 1 x <<< sc.toNat + m.off.signExtend 64 ∧ ∀ a, place a = none
  | .loc x sc => sp = .loc ∧ A = s.operand q 0 m.a + s.operand q 1 x <<< sc.toNat + m.off.signExtend 64
      ∧ ∀ a, place a = some (.plain (localBase s.cur s.me + a))
  | .ring k j => sp = .ring ∧ A = s.operand q 0 m.a + m.off.signExtend 64 ∧ ∀ a, place a = match ringResolve s s.cur k j a with
      | some (home, o) => some (.plain (localBase home (s.core home) + o))
      | none => none

/-- A strided form's first address and its stride (09 R243): index and shift give the stride; a ring form is not legal. -/
def Strided (s : State) (q : Nat) (m : MemOp) (sp : Space) (A stride : Word) (place : Nat → Option Phys) : Prop := match m.f with
  | .glob x sc => sp = .glob ∧ A = s.operand q 0 m.a + m.off.signExtend 64 ∧ stride = s.operand q 1 x <<< sc.toNat ∧ ∀ a, place a = none
  | .loc x sc => sp = .loc ∧ A = s.operand q 0 m.a + m.off.signExtend 64 ∧ stride = s.operand q 1 x <<< sc.toNat
      ∧ ∀ a, place a = some (.plain (localBase s.cur s.me + a))
  | .ring _ _ => False

/-- The space and places of a form with an AS field (05 R146). -/
def Spaced (s : State) (as : BitVec 2) (sp : Space) (place : Nat → Option Phys) : Prop :=
  (as = 0 ∧ sp = .glob ∧ ∀ a, place a = none) ∨ (as = 1 ∧ sp = .loc ∧ ∀ a, place a = some (.plain (localBase s.cur s.me + a)))

/-- The parts of 4,096 contiguous bytes, by 32-byte sectors. -/
def vectorPieces (A : Word) (place : Nat → Option Phys) : List Piece :=
  (List.range 128).map fun i => ⟨(A + BitVec.ofNat 64 (32 * i)).toNat, 32, 32 * i, place (A + BitVec.ofNat 64 (32 * i)).toNat⟩

/-- The parts of 16 rows of 256 bytes at a stride. -/
def stridedPieces (A stride : Word) (place : Nat → Option Phys) : List Piece :=
  (List.range 128).map fun i => (fun a => ⟨a, 32, 32 * i, place a⟩) (A + BitVec.ofNat 64 (i / 8) * stride + BitVec.ofNat 64 (32 * (i % 8))).toNat

/-- The elements of a gather or scatter, in element order: base, index and offset give each address (09 R244). -/
def gatherPieces (base : Word) (off : BitVec 26) (vx : VReg) (esz : Nat) (place : Nat → Option Phys) : List Piece :=
  (List.range (4096 / 2 ^ esz)).map fun i =>
    (fun a => ⟨a, 2 ^ esz, i * 2 ^ esz, place a⟩) (base + indexElem vx esz i + off.signExtend 64).toNat

/-- A queue entry of the instruction in issue. -/
def entry (s : State) (kind : AccKind) (dest : LDest) (sp : Space) (opc addr : Nat) (elems : Bool) (pieces : List Piece) (data : VReg) : Acc :=
  ⟨s.ctx.seq, kind, dest, sp, opc, s.ctx.pc, addr, elems, pieces, data, false, false, false⟩

/-- The instruction adds the entry `a` to the load queue, or with `store` to the store queue, of core `k`, its own core but for that; a
global access that misses the cached translations may join the queued misses. No register and no byte of memory changes. -/
def Enters (i : Instr) (s : State) (k : Core) (a : Acc) (store : Bool) : Prop :=
  ∃ t, exec i s = .next t
    ∧ t.core s.cur = k.setCtx s.inF
        { k.ctx s.inF with loadQ := if store then (k.ctx s.inF).loadQ else (k.ctx s.inF).loadQ ++ [a],
                           storeQ := if store then (k.ctx s.inF).storeQ ++ [a] else (k.ctx s.inF).storeQ,
                           seq := (k.ctx s.inF).seq + 1 }
    ∧ (∀ d, d ≠ s.cur → t.core d = s.core d) ∧ (∀ x, memGet t.mem x = memGet s.mem x)
    ∧ (t.missQ = s.missQ ∨ t.missQ = s.missQ ++ [(s.cur, a.seq)]) ∧ t = { s with cores := t.cores, missQ := t.missQ, fresh := t.fresh }

/-! ## Commands -/

/-- Token `t`, if any, made pending. -/
def pending (t : Option Nat) (k : Core) : Core := match t with
  | some n => { k with tkPending := k.tkPending ||| (1#64 <<< n) }
  | none => k

/-- The shape register of an engine command exchanged with its shadow where SW is set (01 R26). -/
def swapped (e : EC) (base : Nat) (k : Core) : Core :=
  if e.sw = 1 then
    { k with shp := tset (fun _ => 0) k.shp (base + e.z.toNat) (tget (fun _ => 0) k.shd (base + e.z.toNat)),
             shd := tset (fun _ => 0) k.shd (base + e.z.toNat) (tget (fun _ => 0) k.shp (base + e.z.toNat)) }
  else k

/-- Hearth `h` whose lease has the commands it has left: with none left it is granted again where no other core asks for it, and ends
elsewhere (04 R120). -/
def afterCommand (s : State) (h : Nat) (x : Hearth) : Hearth := match x.holder with
  | some c =>
    if x.left ≠ 0 then x
    else if setDel x.wants c = [] then { x with left := leaseMax s h, wants := [], lastMx := (s.core c).cyc }
    else { x with holder := none, left := 0, lastHolder := some (s.core c).ident.task }
  | none => x

/-- The instruction sends the command `m` to its core's hearth, out of the commands its lease has left: its token is pending, and beside the
core `k` and the hearth nothing changes. -/
def SendsMx (i : Instr) (s : State) (k : Core) (m : Cmd) : Prop :=
  ∃ t, exec i s = .next t ∧ t.core s.cur = pending m.tp k ∧ (∀ d, d ≠ s.cur → t.core d = s.core d)
    ∧ t.hearth (hearthOf s.cur) = afterCommand s (hearthOf s.cur) { s.hearth (hearthOf s.cur) with
        cmds := (s.hearth (hearthOf s.cur)).cmds ++ [m], left := (s.hearth (hearthOf s.cur)).left - 1, lastMx := s.me.cyc }
    ∧ (∀ h, h ≠ hearthOf s.cur → t.hearth h = s.hearth h) ∧ t = { s with cores := t.cores, hearths := t.hearths, fresh := t.fresh }

/-- What a command captures at issue (08 R208): its operands, its shape, the tokens it waits for, and, where it waits for none, the block or
handle entry it reads (01 R32); it has not begun. -/
def Captured (s : State) (i : Instr) (e : EC) (a b c : Word) (shape : BitVec 512) (v : VReg) (vd : Option VDest) (m : Cmd) : Prop :=
  m.core = s.cur ∧ m.instr = i ∧ m.baddr = s.me.t.pc ∧ m.ctx = s.me.ident.ctx ∧ m.a = a ∧ m.b = b ∧ m.c = c ∧ m.shape = shape ∧ m.vec = v
    ∧ m.vdest = vd ∧ m.tp = tkName e.tp ∧ m.needs = (tokConsumed i).filter (fun t => s.me.tkPending.getLsbD t) ∧ m.started = false
    ∧ m.stopped = false ∧ m.prog = 0 ∧ (m.needs ≠ [] → m.blk = none)
    ∧ (m.needs = [] → ∀ off len, blockPlace s.me m = some (off, len) → inLocal s.cur s.me off len = true →
        m.blk = some (memBytes s.mem (localBase s.cur s.me + off) len))

/-- The instruction puts the command `m` behind the commands of its core's CP queue, its token pending. -/
def SendsCp (i : Instr) (s : State) (k : Core) (m : Cmd) : Prop :=
  Becomes i s { pending m.tp k with cpQ := s.me.cpQ ++ [m] }

/-! ## Order of values -/

/-- The value ±m × 2^e, in units of 2^k. -/
def intAt (k : Int) (neg : Bool) (m : Nat) (e : Int) : Int := (if neg then -1 else 1) * ((m * 2 ^ (e - k).toNat : Nat) : Int)

/-- The integers `a` and `b` stand in the order of the values `x` and `y`, neither of them NaN. -/
def SameOrder (x y : Val) (a b : Int) : Prop := match x, y with
  | .fin n m e, .fin n' m' e' => ∃ k, k ≤ e ∧ k ≤ e' ∧ a = intAt k n m e ∧ b = intAt k n' m' e'
  | .inf n, .fin _ _ _ => a = (if n then -1 else 1) ∧ b = 0
  | .fin _ _ _, .inf n => a = 0 ∧ b = (if n then -1 else 1)
  | .inf n, .inf n' => a = (if n then -1 else 1) ∧ b = (if n' then -1 else 1)
  | _, _ => False

/-- The condition codes of FCMP on ordered values (06 R166): EQ, NE, LT, GE, UN, ORD, LE, GT. -/
def orderCond (cc : BitVec 3) (a b : Int) : Bool := match cc.toNat with
  | 0 => decide (a = b)
  | 1 => decide (a ≠ b)
  | 2 => decide (a < b)
  | 3 => decide (b ≤ a)
  | 4 => false
  | 5 => true
  | 6 => decide (a ≤ b)
  | _ => decide (b < a)

/-- A vector result that sets no flag: element `j` of width `w` holds `r j`. -/
def Moves (i : Instr) (s : State) (u : VUnit) (d : BitVec 9) (lat : BitVec 4) (en : PReg) (w : Nat) (r : Nat → Nat) : Prop :=
  ∃ v, VectorResult i s u d lat en v 0 ∧ ∀ j, j < 32768 / w → elemOf v w j = r j

/-- A predicate result for p[pd]: bound to land within `lat` cycles, nothing pushed; the unit is taken for `n` cycles. -/
def PredicateResult (i : Instr) (s : State) (u : VUnit) (n : Nat) (pd : Nat) (lat : BitVec 4) (en v : PReg) : Prop :=
  Becomes i s (withVector s u n (.pred pd v en) false lat.toNat 0)

/-! ## Events -/

/-- Sticky flags raised in context `f` of a core (03 R88). -/
def flagged (f : Bool) (fl : Flags) (k : Core) : Core := k.setCtx f { k.ctx f with vflags := (k.ctx f).vflags ||| fl }

/-- Result `j` of context `f` of a core, the task's before F's, is `p`, and has reached no register; its issue cycle has passed (01 R14). -/
def InFlight (k : Core) (n : Nat) (f : Bool) (j : Nat) (p : Pend) : Prop :=
  n = (if f then k.t.pend.length + j else j) ∧ (k.ctx f).pend[j]? = some p ∧ p.landed = false ∧ p.issued < k.cyc

/-- A core in which result `j` of context `f` has landed: no reader sees the old value any more. -/
def noted (f : Bool) (j : Nat) (p : Pend) (k : Core) : Core :=
  k.setCtx f { k.ctx f with pend := (k.ctx f).pend.set j { p with landed := true } }

/-- The fault record of core `c` (20 R339): BADDR, NEXT, ADDR, and the fields of the word at +48. -/
def Recorded (t : State) (c baddr next : Nat) (addr : Word) (cause sub mask slot code : Nat) : Prop :=
  t.reg (recAddr c) = BitVec.ofNat 64 baddr ∧ t.reg (recAddr c + 8) = BitVec.ofNat 64 next ∧ t.reg (recAddr c + 16) = addr
    ∧ (sub < 256 → mask < 256 → slot < 256 → code < 65536 →
        (t.reg (recAddr c + 48)).toNat % 2 ^ 48 = cause + sub * 2 ^ 8 + mask * 2 ^ 16 + slot * 2 ^ 24 + code * 2 ^ 32)

/-- A core stopped at its handler: F runs from its entry point (20 R340). -/
def stopped (k : Core) (deferred : Bool) : Core :=
  { k with run := .handler, handlerDeferred := deferred, ctrw := none, f := { k.f with pc := 0, jump := none } }

/-- The bytes `a` to `a + n - 1` of one sector of a scratchpad: no bit error and no poison stands in it, and no access there waits. -/
def Pad (s : State) (a n : Nat) : Prop :=
  (∃ d, homeOf s a = some (.spad d)) ∧ flipsAt s a = 0 ∧ isPoison s a = false ∧ placeWaits s a true = false ∧ a % 32 + n ≤ 32

/-- Memory in which the `n` bytes from `a` on are those of the number `v`, and every other byte is as in `s`. -/
def Stored (s t : State) (a n v : Nat) : Prop :=
  (∀ i, i < n → (memGet t.mem (a + i)).toNat = v / 2 ^ (8 * i) % 256) ∧ ∀ x, x < a ∨ a + n ≤ x → memGet t.mem x = memGet s.mem x

/-- No byte of memory differs. -/
def SameMem (s t : State) : Prop := ∀ a, memGet t.mem a = memGet s.mem a

/-- No mark and no fence stands at the head of a queue (02 R60, R63). -/
def Unmarked (l : List Acc) : Prop := ∀ a, l.head? = some a → a.kind ≠ .mark ∧ ∀ sc, a.kind ≠ .fence sc

/-- The entry at the head of a queue: nothing holds it, no part of it met poison, and its parts, every one translated to a place in
force that serves its kind, are of the kind `sel`. Part `j`, whose turn it may be, lies at the plain physical address `at_`, at which no such
access waits. -/
def Heads (s : State) (l rest : List Acc) (sel : AccKind → Bool) (wr : Bool) (a : Acc) (j : Nat) (p : Piece) (at_ : Nat) : Prop :=
  l = a :: rest ∧ sel a.kind = true ∧ a.held = false ∧ a.poisoned = false
    ∧ (∀ q, q ∈ a.pieces → ∃ y, q.pa = some y ∧ (homeOf s y.pa).isSome = true ∧ badHome s a y.pa = false) ∧ (a.elems = true → j = 0)
    ∧ a.pieces[j]? = some p ∧ p.pa = some (.plain at_) ∧ placeWaits s at_ wr = false

/-- The `n` bytes of one sector at the plain address `a` as a read at their home yields them, with `bad` poisoned: stored bytes without a bit
error, the host's behind an aperture window, or those of a decoded sector in its slice (02 R47, R73, R74; 03 R98; 21 R360). -/
def Reads (s : State) (a n v : Nat) (bad : Bool) : Prop := ∃ h, homeOf s a = some h ∧ match h with
  | .hbm => rowStale s (hbmLoc s a) = false ∧ flipsAt s a = 0 ∧ bad = isPoison s a ∧ v = memGetN s.mem a n
  | .spad _ | .cim _ _ | .side _ _ => flipsAt s a = 0 ∧ bad = isPoison s a ∧ v = memGetN s.mem a n
  | .tier p => portDown s p = false ∧ flipsAt s a = 0 ∧ bad = false ∧ isPoison s a = false ∧ v = memGetN s.mem a n
  | .host w => tget (fun _ => 0) s.hostBad (hostAddr s w a / 32) = (if bad then 1 else 0) ∧ v = memGetN s.hostMem (hostAddr s w a) n
  | .dec _ => bad = isPoison s a ∧ ∃ d, decodedAt s a = some d ∧ v = bitsAt d.data.toNat (8 * (a % 32)) (8 * n)
  | .reg => False

/-- A write of `n` bytes of one sector at the plain address `a` takes effect at its home: no poison and no bit error stands there, and a half
whose row or granule it is stores (02 R47, R73; 04 R109). -/
def Writable (s : State) (a n : Nat) : Prop := a % 32 + n ≤ 32 ∧ isPoison s a = false ∧ flipsAt s a = 0 ∧ ∃ h, homeOf s a = some h ∧ match h with
  | .hbm => rowStale s (hbmLoc s a) = false
  | .cim hr hf | .side hr hf => (halfOf (s.hearth hr) hf).compute = false
  | .tier p => portDown s p = false
  | .host w => tget (fun _ => 0) s.hostBad (hostAddr s w a / 32) ≠ 1
  | .dec _ => (decodedAt s a).isSome = true
  | .reg => False
  | _ => True

/-- The `n` bytes from `a` on have become those of the number `v` at their home, and no other byte of any memory differs: in memory, in the
host's behind an aperture window, or in the decoded sector in its slice, which is then dirty (02 R47; 03 R99; 21 R360). -/
def Written (s t : State) (a n v : Nat) : Prop := ∃ h, homeOf s a = some h ∧ match h with
  | .host w => SameMem s t ∧ t.decoded = s.decoded ∧ ∀ x, memGet t.hostMem x =
      if hostAddr s w a ≤ x ∧ x < hostAddr s w a + n then BitVec.ofNat 8 (v / 2 ^ (8 * (x - hostAddr s w a))) else memGet s.hostMem x
  | .dec _ => SameMem s t ∧ t.hostMem = s.hostMem ∧ ∃ d e, decodedAt s a = some d ∧ decodedAt t a = some e ∧ e.dirty = true
      ∧ ∀ i, i < 32 → bitsAt e.data.toNat (8 * i) 8 =
        if a % 32 ≤ i ∧ i < a % 32 + n then v / 2 ^ (8 * (i - a % 32)) % 256 else bitsAt d.data.toNat (8 * i) 8
  | _ => Stored s t a n v ∧ t.hostMem = s.hostMem ∧ t.decoded = s.decoded

/-- From `s` to `t` only cores, memory, and the poison, bit errors and tags of what is overwritten have changed, and of the cores only `c`. -/
def OnlyStores (s t : State) (c : Nat) : Prop :=
  t = { s with cores := t.cores, mem := t.mem, poison := t.poison, flips := t.flips, tags := t.tags } ∧ ∀ d, d ≠ c → t.core d = s.core d

/-- Token `tp` of core `c`, if any, is set in `t`, and the other tokens are as in `s`. -/
def TokenSet (s t : State) (c : Nat) (tp : Option Nat) : Prop :=
  (t.core c).tkPending = match tp with
    | some n => (s.core c).tkPending &&& ~~~(1#64 <<< n)
    | none => (s.core c).tkPending

/-- `n` bytes of one sector of HBM4E, at its plain address: no bit error, no stale row, no poison. -/
def Dram (s : State) (a n : Nat) : Prop :=
  homeOf s a = some .hbm ∧ rowStale s (hbmLoc s a) = false ∧ flipsAt s a = 0 ∧ isPoison s a = false ∧ a % 32 + n ≤ 32

/-- The entries that a walk of `va` reads stand in plain sectors of HBM4E. -/
def WalkClean (s : State) (ctx va : Nat) : Prop := ∀ a, a ∈ walkPath s ctx va → Dram s a 8

/-- The entries that a walk of `va` reads stand in plain sectors of HBM4E, but for the last, at which it may end: that one may be poisoned,
lie where nothing is assigned, or lie in the host's memory. -/
def WalkEnds (s : State) (ctx va : Nat) : Prop :=
  (∀ a, a ∈ (walkPath s ctx va).dropLast → Dram s a 8) ∧ ∀ a, (walkPath s ctx va).getLast? = some a →
    homeOf s a = none ∨ (∃ w, homeOf s a = some (.host w)) ∨ (homeOf s a = some .hbm ∧ rowStale s (hbmLoc s a) = false ∧ flipsAt s a = 0)

/-- In `t` the entry `a`, number `n` of a queue, stands held with its report at core `c`, which is `k` but for that. -/
def Turned (t : State) (q : Bool) (n : Nat) (a : Acc) (r : Report) (c : Nat) (k : Core) : Prop :=
  t.core c = { k with
    t := { k.t with loadQ := if q then k.t.loadQ else k.t.loadQ.set n { a with held := true },
                    storeQ := if q then k.t.storeQ.set n { a with held := true } else k.t.storeQ },
    reports := k.reports ++ [r] }

/-- From `u` to `t` a lock, or an unlock, of the line at `x` for a core's context ends with status `st`: 0 adds or takes away that one lock,
and another changes none (02 R50, R51). -/
def LineActs (u t : State) (lock : Bool) (x : Phys) (ctx st : Nat) : Prop :=
  (st ≠ 0 → t.locks = u.locks) ∧ (st = 0 → lock = true → t.locks = u.locks ++ [(x.pa / 64, ctx)])
    ∧ (st = 0 → lock = false → ∀ l, l ∈ t.locks ↔ l ∈ u.locks ∧ l ≠ (x.pa / 64, ctx))
    ∧ (st ≠ 0 ∨ lock = false ∨ x.key = none → t.keyed = u.keyed)
    ∧ t = { u with cores := t.cores, locks := t.locks, keyed := t.keyed, fresh := t.fresh }

/-- Address `va` of a context stands at `x` for the base die, whichever reads of HBM4E have gone before; the walk that this may take waits at
no place and meets plain sectors. -/
def Translates (s : State) (ctx va : Nat) (need : Need) (x : Phys) : Prop := va < 2 ^ 48 ∧ WalkClean s ctx va ∧ ∀ n l,
  translate { s with fresh := n, acnt := l } ctx va need none = .ok x ∧ xlatWaits { s with fresh := n, acnt := l } ctx va = false

/-- Address `g` of the global end of a command, as a read or with `w` a write, stands at the plain physical address `x`. -/
def GlobAt (s : State) (m : Cmd) (w : Bool) (g x : Nat) : Prop := Translates s m.ctx g (if w then needWrite else needRead) (.plain x)

/-- From `s` to `t`, core `c` apart, only memory, the poison, bit errors and tags of what is overwritten, and what walks over plain sectors
leave have changed. -/
def OnlyStreams (s t : State) (c : Nat) : Prop :=
  t = { s with cores := t.cores, mem := t.mem, poison := t.poison, flips := t.flips, tags := t.tags, acnt := t.acnt, fresh := t.fresh }
    ∧ ∀ d, d ≠ c → t.core d = s.core d

/-- What one source sector of a copy brings from byte `t` on: `n` bytes of its pattern, or those that stand in a scratchpad: a store's own,
or the one at its global address. -/
def Brings (s : State) (m : Cmd) (t n v : Nat) : Prop :=
  n = srcLen m t ∧ ((srcAt m t = none ∧ v = joinBytes ((List.range n).map fun i => (padAt m (t + i), false)))
    ∨ ∃ g src, srcAt m t = some g ∧ Pad s src n ∧ v = memGetN s.mem src n
      ∧ (if isStoreCopy m then src = localBase m.core (s.core m.core) + g else GlobAt s m false g src))

/-- Destination `g` of a store-direction copy stands at `x`: by the translation that its sector took before its source was read, or by one
that it takes now (08 R225). -/
def DestAt (s : State) (m : Cmd) (g x : Nat) : Prop := match destKept m g with
  | some y => ({ y with pa := y.pa + g % 32 } : Phys) = .plain x
  | none => GlobAt s m true g x

/-- The walks of the destinations of a store-direction copy meet plain sectors. -/
def DestsClean (s : State) (m : Cmd) : Prop := isStoreCopy m = true → ∀ t, t < copyTotal m → WalkClean s m.ctx (dstAt m t)

/-- The counter at global address `va` becomes due with its increment, or, at 0, none does (02 R70). -/
def Dues (s : State) (m : Cmd) (va inc : Nat) (l : List CtrDue) : Prop :=
  (va = 0 ∧ l = []) ∨ (va ≠ 0 ∧ ∃ y, Translates s m.ctx va needBoth y ∧ l = [⟨m.core, y, BitVec.ofNat 64 inc, false, va, m.baddr⟩])

/-- The row of 1 KiB at `a` reads as the number `v` for a bank unit: a row on its stale-row list as it was written, any other with its single
errors corrected (08 R235; 22 R380). -/
def RowReads (s : State) (a v : Nat) : Prop := v < 2 ^ 8192 ∧ ∀ i p, i < 32 → p = a + 32 * i → isPoison s p = false
  ∧ (rowStale s (hbmLoc s a) = false → popCount 256 (flipsAt s p).toNat ≤ 1)
  ∧ bitsAt v (256 * i) 256 = if rowStale s (hbmLoc s a) then memGetN s.mem p 32 ^^^ (flipsAt s p).toNat else memGetN s.mem p 32

/-- The read of the row at `a` meets an uncorrectable error: a poisoned sector, or, off the stale-row list, two bit errors in one. -/
def RowFails (s : State) (a : Nat) : Prop := ∃ i, i < 32 ∧ (isPoison s (a + 32 * i) = true
  ∨ (rowStale s (hbmLoc s a) = false ∧ 1 < popCount 256 (flipsAt s (a + 32 * i)).toNat))

/-- The `n` bytes of a scratchpad from `a` on, every sector of which is open to a read or write and free of poison. -/
def PadRun (s : State) (a n : Nat) : Prop := ∀ q, q ∈ sectors a (n / 32 + 2) n → Pad s q.1 q.2

/-- The tags of a core after a PROBE that takes slot `n` of set `t`: the slot's tag is `x` as the most recently used one, its lock bit as LK
says; each fresher valid way of the set is one older, and every other tag stands (02 R52 to R54). -/
def Probed (k k' : Core) (t n : Nat) (lk : BitVec 2) (x : Tag) : Prop :=
  tagAt k' n = { x with age := 0, locked := if lk = 1 then true else if lk = 2 then false else x.locked }
    ∧ ∀ w, w ≠ n → tagAt k' w =
      if w ∈ waysOf t ∧ (tagAt k w).valid = true ∧ ((tagAt k n).valid = false ∨ (tagAt k w).age < (tagAt k n).age) then
        { tagAt k w with age := min 3 ((tagAt k w).age + 1) } else tagAt k w

/-- The event of two words is posted (22 R386): it waits behind the others for its place in the ring. -/
def Posted (s t : State) (w0 w1 : Word) : Prop := t.heldEvents = s.heldEvents ++ [(w0, w1)]

/-- First word of an event: its type, core and grid (19 R335). -/
def eventWord (ty core grid : Nat) : Word := BitVec.ofNat 64 (ty % 65536 + core % 256 * 65536 + grid % 2 ^ 32 * 2 ^ 32)

/-- Every task of gang `g` is to stop at its next bundle boundary; the first reason stands, and no core differs otherwise. -/
def GangStops (s t : State) (g : Nat) (w : Why) : Prop :=
  ∀ d y, y = (if d < 128 ∧ (s.core d).bound = true ∧ (s.core d).ident.gang = g then some ((s.core d).why.getD w) else (s.core d).why) →
    t.core d = { s.core d with why := y }

/-- An error of CLASS `cls` is logged in log `i` (23 R387, R389): COUNT rises; a record takes the next free place and NUM rises, or, where
the log is full, the loss is noted. -/
def Logged (s t : State) (i cls sub loc : Nat) : Prop :=
  ∀ b n cnt, b = logBase i → n = (s.reg b).toNat % 64 → cnt = ((s.reg (b + 8)).toNat % 2 ^ 32 + 1) % 2 ^ 32 →
    t.devSeq = s.devSeq + 1 ∧ t.reg (b + 8) = BitVec.ofNat 64 cnt
    ∧ (n < 32 → t.reg b = s.reg b + 1 ∧ t.reg (b + 0x400 + n * 32) = BitVec.ofNat 64 (s.devSeq + 1)
        ∧ t.reg (b + 0x400 + n * 32 + 8) = BitVec.ofNat 64 (cnt + cls * 2 ^ 32 + sub * 2 ^ 40)
        ∧ t.reg (b + 0x400 + n * 32 + 16) = BitVec.ofNat 64 loc)
    ∧ (32 ≤ n → t.reg b = s.reg b ||| 64#64 ∧ t.reg (b + 16) = BitVec.ofNat 64 (min (2 ^ 32 - 1) ((s.reg (b + 16)).toNat + 1)))

/-- Every sector of a run of bytes is plain HBM4E, no page is offline, and the table of bit errors is in canonical form. -/
def DramRun (s : State) (a n : Nat) : Prop :=
  (∀ q, q ∈ sectors a (n / 32 + 2) n → Dram s q.1 q.2) ∧ s.reg 0x0E0007200020 = 0 ∧ twf (fun _ => 0) s.flips = true

/-- No bit error, no stale row and no memory key stands anywhere: a read of a unit of the base die changes no byte of memory (22 R380, R382). -/
def Calm (s : State) : Prop := s.flips = [] ∧ s.stale = [] ∧ s.keys = []

/-- A message stands in D2H for the host (21 R361). -/
def Mailed (t : State) (m : List Nat) : Prop :=
  t.mailBusy = true ∧ ∀ i, i < 8 → t.reg (mailReg (64 + 8 * i)) = BitVec.ofNat 64 ((m[i]?).getD 0)

/-- Every sector of a run of bytes is a plain sector of HBM4E. -/
def DramArea (s : State) (a n : Nat) : Prop := ∀ q, q ∈ sectors a (n / 32 + 2) n → Dram s q.1 q.2

/-- The context of core `k`, a grotto core where `g`, stands in a save area of which `rd o n` is the number in the `n` bytes at offset `o` (20
R346): what a capture writes, and what a restore reads. -/
def InArea (rd : Nat → Nat → Nat) (g : Bool) (k : Core) : Prop :=
  (∀ i, 0 < i → i < 64 → tget (fun _ => 0) k.t.s i = BitVec.ofNat 64 (rd (0x100 + 8 * i) 8))
  ∧ (∀ i, i < 16 → tget (fun _ => 0) k.t.saq (agePos k.t.sapc (i + 1)) = BitVec.ofNat 64 (rd (0x300 + 8 * i) 8))
  ∧ (∀ i, 0 < i → i < 16 → k.t.g.getLsbD i = (rd 0x380 2).testBit i)
  ∧ k.lcount = BitVec.ofNat 64 (rd 0x388 8) ∧ k.t.vflags = BitVec.ofNat 5 (rd 0x3A0 1) ∧ k.tcycle = BitVec.ofNat 64 (rd 0x3B8 8)
  ∧ k.vs.rrb = BitVec.ofNat 6 (rd 0x390 1) ∧ k.segstall = BitVec.ofNat 64 (rd 0x3C0 8) ∧ k.lstat &&& 0xFFFFFFFF000007FF = BitVec.ofNat 64 (rd 0x398 8) &&& 0xFFFFFFFF000007FF
  ∧ k.probecfg &&& 0x80000000000F07FF = BitVec.ofNat 64 (rd 0x3B0 8) &&& 0x80000000000F07FF
  ∧ (∀ i, 0 < i → i < (if g then 8 else 16) → tget (fun _ => 0) k.vs.p i = BitVec.ofNat 1024 (rd (0x400 + 128 * i) 128))
  ∧ (∀ i, i < (if g then 32 else 96) → tget (fun _ => 0) k.vs.v i = BitVec.ofNat 32768 (rd (0x20000 + 4096 * i) 4096))
  ∧ (∀ i, i < 16 → tget (fun _ => 0) k.vs.vaq (agePos k.vs.apc (i + 1)) = BitVec.ofNat 32768 (rd (0x90000 + 4096 * i) 4096))
  ∧ (∀ i, i < 4 → tget (fun _ => 0) k.vs.ct i = BitVec.ofNat 256 (rd (0x21C0 + 32 * i) 32))
  ∧ (∀ i, i < 8 → tget (fun _ => 0) k.wp i = BitVec.ofNat 64 (rd (0x2180 + 8 * i) 8))
  ∧ (∀ i, (if g then 4 else 0) ≤ i → i < 8 →
      tget (fun _ => 0) k.shp i &&& shapeBits = BitVec.ofNat 512 (rd (0xC00 + 128 * i) 64) &&& shapeBits
      ∧ tget (fun _ => 0) k.shd i &&& shapeBits = BitVec.ofNat 512 (rd (0xC40 + 128 * i) 64) &&& shapeBits)
  ∧ (∀ i b w, i < 256 → b = tget (fun _ => Barrier.reset) k.bars i → w = rd (0x1000 + 8 * i) 8 → 1 ≤ b.cnt → b.cnt ≤ 64 → b.arr < 64 →
      (∀ n, b.pendCnt = some n → 1 ≤ n ∧ n ≤ 64) → bitsAt w 0 6 + 1 = b.cnt ∧ bitsAt w 6 6 = b.arr ∧ w / 2 ^ 32 = b.gen.toNat
        ∧ b.pendCnt = if bitsAt w 18 1 = 1 then some (bitsAt w 12 6 + 1) else none)
  ∧ (∀ i w, i < 256 → w = rd (0x1800 + 8 * i) 8 → match tget (fun _ => none) k.arecs i with
      | some r => w % 2 = 1 ∧ (r.stage < 16 → r.task < 4 → bitsAt w 1 4 = r.stage ∧ bitsAt w 5 2 = r.task ∧ w / 2 ^ 32 = r.gen.toNat)
      | none => w % 2 = 0)
  ∧ (∀ i x w, i < 4096 → x = tget (fun _ => Tag.reset) k.tags i → w = rd (0x4000 + 8 * i) 8 → x.block < 2 ^ 40 → x.age < 4 →
      bitsAt w 0 40 = x.block ∧ x.valid = decide (bitsAt w 40 1 = 1) ∧ x.locked = decide (bitsAt w 41 1 = 1) ∧ bitsAt w 42 2 = x.age)
  ∧ (g = false → k.thbase = BitVec.ofNat 64 (rd 0x3A8 8)
      ∧ (∀ i r, i < 16 → r = (tget (fun _ => none) k.rings i).getD ⟨0, 0⟩ →
          r.wordA &&& ringBitsA = BitVec.ofNat 64 (rd (0x2000 + 16 * i) 8) &&& ringBitsA
          ∧ r.wordB &&& ringBitsB = BitVec.ofNat 64 (rd (0x2008 + 16 * i) 8) &&& ringBitsB)
      ∧ (∀ i, i < 16 → tget (fun _ => 0) k.vs.vo i = BitVec.ofNat 32768 (rd (0x80000 + 4096 * i) 4096))
      ∧ (∀ i, i < 128 → tget (fun _ => 0) k.vs.sh i = BitVec.ofNat 4096 (rd (0xC000 + 512 * i) 512))
      ∧ (∀ i h, i < 16 → h = tget (fun _ => RingHome.reset) k.ringHome i →
          h.pp = BitVec.ofNat 32 (rd (0x2100 + 8 * i) 4) ∧ h.cp = BitVec.ofNat 32 (rd (0x2104 + 8 * i) 4)))

/-! ## A turn -/

/-- Nothing keeps the core whose turn it is from the word of bundle `b` at its address: a task core holds a resident bundle of its program,
no report, capture, exit, resume or barrier wait of its own stands before it; F has the cycle, or it runs a handler whose event is posted
and before which no capture stands. -/
def Runs (s : State) (b : Bundle) : Prop := budgetDue s.me = false ∧
  ((s.me.fNow = false ∧ s.me.run = .run ∧ s.me.finished = false ∧ s.me.reports = [] ∧ s.me.why = none ∧ s.me.exited = none
      ∧ holdWaits s.me = false ∧ s.me.resume = none ∧ bawaitHolds s s.cur = false ∧ s.me.t.pc < imageEnd s.me
      ∧ segResident s.me s.me.t.pc = true ∧ (b.seg = true → b.nseg < s.me.imem.segtab.length ∨ s.me.imem.fused ≠ 0))
    ∨ s.me.fNow = true
    ∨ (s.me.fNow = false ∧ s.me.run = .handler ∧ (s.me.why = none ∨ s.me.barQ ≠ []) ∧ stopHeld s s.cur = false))

/-- The word at the core's bundle address is bundle `b`, and nothing holds or refuses it (05 R131, R132, R134; 01 R12). -/
def Issues (s : State) (b : Bundle) : Prop := Runs s b ∧ decodeBundle (fetch s s.cur s.inF).toNat = .ok b
  ∧ b.instrs.all (encOk (encCtx s s.cur)) = true ∧ pairOk b.instrs = true ∧ gapWaits s.me s.ctx b.gap = false ∧ drnWaits s.ctx = false
  ∧ bundleStalls s s.cur s.inF b.instrs = false ∧ bundleTrouble s s.cur s.inF b.instrs = none

/-- The task of core `c` stops at its handler for a fault of its bundle at issue: that bundle has had no effect, so that the record's mask is
zero and NEXT is its own address (20 R339, R340). No other core changes, and of this one only what F needs. -/
def Faults (i : Instr) (s : State) (cause sub slot : Nat) (addr : Word) : Prop :=
  ∃ t, exec i s = .next t ∧ t.core s.cur = stopped s.me false ∧ (∀ d, d ≠ s.cur → t.core d = s.core d)
    ∧ Recorded t s.cur s.me.t.pc s.me.t.pc addr cause sub 0 slot 0

end Sys2Proof.Machine
end

