-- ==== Sys2Proof/Certificates/Slice0/Obligations.lean ====
section
/-! DEFINITION. The statements for the provers. Operands are read as the meanings read them: `sIn s n r` is scalar source `r` as operand
`n` of the instruction in issue, `vIn` and `pIn` a vector source and a vector predicate. -/

open Sys2Proof Sys2Proof.Machine

/-! ## The machine as a whole -/

/-- A step (05 R131, R132, R134, R148; 19 R334; 22 R384, R386): the event at the head of the agenda happens, unless it is an instruction of
a core, or a register write or an act of the firmware before bring-up; else the core whose turn it is issues the bundle that its word decodes to, F's
where F takes the cycle it asks for: each instruction acts on the bundle's own reads, a bundle of one instruction being `exec` of it, one of
none being NOP; then the address moves on, by one or to the jump, and the turn passes. At its end the events that it has posted enter the
ring, and with none it changes nothing more. The agenda and the turn, the order in which the slots of a bundle act, and F's fetch are the
model's choice (log 1, 6, 11, 91, 106). -/
def Obligations.StepRunsDecoded : Prop := ∀ (s u : State), s.lost = false → bootFailed s = false → u = beginTurn s →
  (∀ e rest, s.agenda = e :: rest →
    (slotOf e = none → (needsBoot e = true → s.powered = true) →
      step s = stepEnd (exec e { s with agenda := rest, fresh := s.fresh + 1 }))
    ∧ (slotOf e ≠ none ∨ (needsBoot e = true ∧ s.powered = false) → step s = .next (endStep { s with agenda := rest })))
  ∧ (fAsks s = false → u = s) ∧ (∀ b, fAsks s = true → Issues (s.modCore s.cur giveF) b → u = s.modCore s.cur giveF)
  ∧ (∀ b t, s.agenda = [] → Issues u b → actAll (actOrder b.instrs) (beginIssue u) = .next t →
      step s = .next (endStep (nextTurn (endIssue u.inF b t))))
  ∧ (∀ b i t, s.agenda = [] → Issues u b → b.instrs = [i] → slotOf i ≠ none → exec i (beginIssue u) = .next t →
      step s = .next (endStep (nextTurn (endIssue u.inF b t))))
  ∧ (∀ b, s.agenda = [] → Issues u b → b.instrs = [] → step s = .next (endStep (nextTurn (endIssue u.inF b (beginIssue u)))))
  ∧ (∀ t, t.heldEvents = [] → stepEnd (.next t) = .next t)
  ∧ (∀ b f a, s.Kept → s.ctx.jump = none → f = s.inF → lstatActive s.me.lstat = false → a = s.ctx.pc →
      (((endIssue f b s).core s.cur).ctx f).pc = a + 1 ∧ (((endIssue f b s).core s.cur).ctx f).last = a)
  ∧ (∀ b f a, s.Kept → s.ctx.jump = some a → f = s.inF → (((endIssue f b s).core s.cur).ctx f).pc = a)

/-- Words written out bit by bit (05 R131, R133 to R135, R143 to R147, R151 and the chapter's worked example): ADDI s5, s5, 1 beside VADD
v40, va1, vo3; the field of a slot that is not valid is ignored; a VMUL to v40 beside them, va0 as a source, main index 96, a set reserved
header bit, MX opcode 9 and, on a grotto core, the VADD are refused; and one word of each other slot. -/
def Obligations.DecodingWords : Prop :=
  (∀ w, w ∈ [0xC0000014010A140001004510141800018000000000000000000000000000000000000000000000000000000000000000000000000000000000000000000000,
      0xC0000014010A1400010045101418000180FFFFFFFFFFFFFFFF0000000000000000000000000000000000000000000000000000000000000000000000000000] →
    (decodeBundle w).toOption = some ⟨false, false, 0, 0, [.addi ⟨0, 1, 5, 5, 1⟩, .vadd ⟨.a, 0, 0, 6, 0, 40, 257, 131, 0⟩]⟩)
  ∧ (decodeBundle
      0xE0000014010A140001004510141800018000C50000000001800000000000000000000000000000000000000000000000000000000000000000000000000000).toOption =
    some ⟨false, false, 0, 0, [.addi ⟨0, 1, 5, 5, 1⟩, .vadd ⟨.a, 0, 0, 6, 0, 40, 257, 131, 0⟩, .vmul ⟨.b, 0, 0, 6, 0, 40, 0, 0, 0⟩]⟩
  ∧ pairOk [.addi ⟨0, 1, 5, 5, 1⟩, .vadd ⟨.a, 0, 0, 6, 0, 40, 257, 131, 0⟩] = true
  ∧ pairOk [.addi ⟨0, 1, 5, 5, 1⟩, .vadd ⟨.a, 0, 0, 6, 0, 40, 257, 131, 0⟩, .vmul ⟨.b, 0, 0, 6, 0, 40, 0, 0, 0⟩] = false
  ∧ (Instr.vadd ⟨.a, 0, 0, 6, 0, 40, 257, 131, 0⟩).wellFormedB plainCtx = true
  ∧ (Instr.vadd ⟨.a, 0, 0, 6, 0, 40, 257, 131, 0⟩).wellFormedB ⟨true, false, [1]⟩ = false
  ∧ (decodeBundle
      0xC0000114010A140001004510141800018000000000000000000000000000000000000000000000000000000000000000000000000000000000000000000000).toOption = none
  ∧ (decodeBundle
      0xD0000014010A140001004510141800018000000000000000004800000000000000000000000000000000000000000000000000000000000000000000000000).toOption = none
  ∧ decodeOne plainCtx
      0x400000000000000000004510041800018000000000000000000000000000000000000000000000000000000000000000000000000000000000000000000000 = none
  ∧ decodeOne plainCtx
      0x400000000000000000004C10141800018000000000000000000000000000000000000000000000000000000000000000000000000000000000000000000000 = none
  ∧ decodeOne plainCtx
      0x8000001B0102050020000000000000000000000000000000000000000000000000000000000000000000000000000000000000000000000000000000000000 =
    some (.movi ⟨0, 1, 1, 0x50020⟩)
  ∧ decodeOne plainCtx
      0x10000000000000000000000000000000000000000000000000298FF020C241C130000000000000000000000000000000000000000000000000000000000000 =
    some (.mmac ⟨⟨3, 0, 0, 127, 64, 65, 66⟩, 131, 65, 0, 1, 1⟩)
  ∧ decodeOne plainCtx
      0x8000000000000000000000000000000000000000000000000000000000000000019C3F832C000002000000000000000000000000000000000000000000000 =
    some (.ldh ⟨3, 63, 65, .ring 9 6, 0x20⟩)
  ∧ decodeOne plainCtx
      0x40000000000000000000000000000000000000000000000000000000000000000000000000000000011A50830A80000040000000000000000000000000000 =
    some (.sth ⟨3, 80, 65, .loc 66 5, 4⟩)
  ∧ decodeOne plainCtx
      0x200000000000000000000000000000000000000000000000000000000000000000000000000000000000000000000000011EFF020C2830A1D000000000000 =
    some (.cpys ⟨⟨3, 1, 2, 127, 64, 65, 66⟩, 65, 66, 67, 5⟩)
  ∧ decodeOne plainCtx
      0x1000000000000000000000000000000000000000000000000000000000000000000000000000000000000000000000000000000000000000014FF80810400 =
    some (.tokw ⟨3, 127, 0, 64, 65⟩)
  ∧ decodeOne plainCtx 0 = some .nop

/-- Decode and encode agree (05 R131, R137 to R155): the bundle word that holds one well-formed slot instruction decodes to it, with every
operand at every value its encoding admits, on every kind of core. -/
def Obligations.EncodingRoundTrip : Prop := ∀ (x : EncCtx) (i : Instr) (sl : Slot), slotOf i = some sl → i.WellFormed x →
  encode i < 2 ^ slotWidth sl ∧ decodeSlot sl (encode i) = some i ∧ decodeOne x (encodeBundle1 i) = some i

/-- The sources that read as constants, and the names that rotate or count back (01 R17, R18, R21 to R24): s0, g0, p0, vz and vix in every
state; with nothing in flight, s1 to s63, sa1 to sa16, va1 to va16, v0 to v95 and vo0 to vo15 read the register or the entry of their name.
-/
def Obligations.SourcesRead : Prop := ∀ (s : State) (c key : Nat) (f : Bool) (k : Core), k = s.core c →
  readS s c f key 0 = 0 ∧ readG s c f key 0 = true ∧ readP s c key 0 = BitVec.allOnes 1024 ∧ readV s c key 384 = 0
  ∧ (∀ i, i < 1024 → elemOf (readV s c key 385) 32 i = i)
  ∧ ((k.ctx f).pend = [] →
      (∀ r : BitVec 7, r.toNat < 64 → r ≠ 0 → readS s c f key r = tget (fun _ => 0) (k.ctx f).s r.toNat)
      ∧ (∀ (r : BitVec 7) (n : Nat), r.toNat = 64 + n → 1 ≤ n → n ≤ 16 → s.issuing = none → n ≤ (k.ctx f).sapc →
          readS s c f key r = tget (fun _ => 0) (k.ctx f).saq (((k.ctx f).sapc - n) % 16))
      ∧ (∀ r : BitVec 4, r ≠ 0 → readG s c f key r = (k.ctx f).g.getLsbD r.toNat))
  ∧ (k.t.pend = [] → (∀ r : BitVec 4, r ≠ 0 → readP s c key r = tget (fun _ => 0) k.vs.p r.toNat)
      ∧ (∀ (r : BitVec 9) (n : Nat), r.toNat = 256 + n → 1 ≤ n → n ≤ 16 → s.issuing = none → n ≤ k.vs.apc →
          readV s c key r = tget (fun _ => 0) k.vs.vaq ((k.vs.apc - n) % 16))
      ∧ ((∀ d, drainPending s c d = false) →
          (∀ r : BitVec 9, r.toNat < 32 → readV s c key r = tget (fun _ => 0) k.vs.v r.toNat)
          ∧ (∀ r : BitVec 9, 32 ≤ r.toNat → r.toNat < 96 →
              readV s c key r = tget (fun _ => 0) k.vs.v (32 + (r.toNat - 32 + (64 - k.vs.rrb.toNat)) % 64))
          ∧ ∀ (r : BitVec 9) (n : Nat), r.toNat = 128 + n → n < 16 → readV s c key r = tget (fun _ => 0) k.vs.vo n))

/-- A false guard (05 R136; 01 R13, R20, R22): a form that pushes pushes an entry of zero bound for no register, a vector form still takes
its unit, and nothing else changes. When that entry lands is the model's choice (log 17). -/
def Obligations.FalseGuard : Prop := ∀ (i : Instr) (sl : Slot) (s : State), s.Kept → slotOf i = some sl → Idle i s →
  (∀ l, pushS i = some l → Becomes i s (withScalar s (.scal 0 0) true l 0))
  ∧ (∀ l u n, pushV i = some l → unitOf i = some (u, n) → Becomes i s (withVector s u n (.vec none 0 0) true l 0))
  ∧ (∀ u n, pushV i = none → unitOf i = some (u, n) → Becomes i s (takeUnit u n s.me))
  ∧ (pushS i = none → unitOf i = none → Nothing i s)

/-- What a bundle of one instruction meets at issue (05 R134; 20 R339, R340, R343; 06 R178; 09 R237): bits that fail a check, and TRET in a
task, take ILLEGAL_OP; a scalar load or store at an address that its width does not divide takes ALIGN, one past 2^48 PAGE with subcause 7,
one past the local range PAGE with subcause 6. At F a refused instruction starts F again with the cause in its s1. Choices of the model's in
it: log 6. -/
def Obligations.FaultsAtIssue : Prop := ∀ (s : State), s.Kept → s.issuing = none → s.cur < 128 →
  (s.inF = false →
    (∀ i sl, slotOf i = some sl → ¬ i.WellFormed (encCtx s s.cur) → Faults i s 1 0 (slotNum sl) 0)
    ∧ (∀ f, Faults (.tret f) s 1 0 0 0)
    ∧ ∀ (i : Instr) (m : MemOp) (n q : Nat) (A : Word) (sp : Space) (place : Nat → Option Phys),
      ((q = 4 ∧ ((i = .ldh m ∧ n = 2) ∨ (i = .ldhu m ∧ n = 2) ∨ (i = .ldw m ∧ n = 4) ∨ (i = .ldwu m ∧ n = 4) ∨ (i = .ldd m ∧ n = 8)))
        ∨ (q = 5 ∧ ((i = .sth m ∧ n = 2) ∨ (i = .stw m ∧ n = 4) ∨ (i = .std m ∧ n = 8)))) →
      i.WellFormed (encCtx s s.cur) → bundleStalls s s.cur false [i] = false → guardHolds s s.cur false i = true →
      Addressed s q m sp A place → sp ≠ .ring →
      (A.toNat % n ≠ 0 → Faults i s 4 0 q A)
      ∧ (A.toNat % n = 0 → sp = .glob → 2 ^ 48 < A.toNat + n → Faults i s 7 7 q A)
      ∧ (A.toNat % n = 0 → sp = .loc → localSize s.cur s.me < A.toNat + n → Faults i s 7 6 q A))
  ∧ (s.inF = true → twf (fun _ => 0) s.me.f.s = true → ∀ i sl, slotOf i = some sl →
      (sl = .va ∨ sl = .vb ∨ sl = .mx ∨ sl = .cp → ¬ i.WellFormed (encCtx s s.cur))
      ∧ (¬ i.WellFormed (encCtx s s.cur) → ∃ t, exec i s = .next t ∧ t.me.f.pc = 0 ∧ tget (fun _ => 0) t.me.f.s 1 = 1
          ∧ tget (fun _ => 0) t.me.f.s 2 = 0 ∧ t.me.t = s.me.t ∧ t.me.vs = s.me.vs ∧ ∀ d, d ≠ s.cur → t.core d = s.core d))

/-- What reset leaves (01 R27, R33; 04 R119, R121; 19 R312, R334; 20 R339; 21 R370; 22 R379, R384; 23 R388, R391, R396; 24 R400, R404): no
task is bound, every token is set, the sideband answers at 0x3A, and the registers have the values of their maps. That every register of a
core with no task is zero and every barrier of it one short of its one participant, and that HBM4E reads zero before bring-up, are the
model's choice (log 4, 5). -/
def Obligations.ResetValues : Prop := ∀ (s : State), s = State.reset →
  (∀ c k, k = s.core c → k.bound = false ∧ k.tkPending = 0 ∧ k.lcount = 0 ∧ k.lstat = 0 ∧ k.vs.rrb = 0 ∧ k.vs.apc = 0 ∧ k.t.vflags = 0
    ∧ k.thbase = 0 ∧ k.probecfg = 0 ∧ k.t.pc = 0 ∧ ∀ n, tget (fun _ => 0) k.t.s n = 0 ∧ tget (fun _ => 0) k.vs.v n = 0
      ∧ tget (fun _ => 0) k.vs.vo n = 0 ∧ tget (fun _ => 0) k.vs.p n = 0 ∧ tget (fun _ => 0) k.shp n = 0 ∧ tget (fun _ => 0) k.shd n = 0
      ∧ tget (fun _ => 0) k.wp n = 0 ∧ tget (fun _ => Barrier.reset) k.bars n = ⟨1, 0, 0, none⟩)
  ∧ (∀ a, homeOf s a = some .hbm → memGet s.mem a = 0)
  ∧ (∀ h, h < 16 → (s.hearth h).holder = none ∧ (s.hearth h).left = 0 ∧ s.reg (0x0E0007010000 + h * 16) = 256
      ∧ s.reg (0x0E0007010000 + h * 16 + 8) = 16 ∧ s.reg (thReg (0xA0 + 8 * h)) = 256)
  ∧ (∀ c, c < 128 → s.reg (0x0E0004008000 + 8 * c) = 8 ∧ s.reg (recAddr c) = 0 ∧ s.reg (recAddr c + 48) = 0)
  ∧ (∀ q i, q < 32768 → i < 6 → s.reg (qreg q (8 * i)) = 0)
  ∧ (∀ k, k < 8 → s.reg (mcReg k 0) = 8 + 85 * 256 ∧ s.reg (mcReg k 8) = 64 ∧ s.reg (mcReg k 16) = 4 + 40 * 256 + 6 * 65536
      ∧ s.reg (mcReg k 64) = 1000 ∧ s.reg (errReg (0x100 + 8 * k)) = 64 * 256)
  ∧ (∀ i, i < 36 → s.reg (logBase i) = 0 ∧ s.reg (logBase i + 8) = 0) ∧ frameLen s = 1200 ∧ domEn s = false
  ∧ s.reg (errReg 8) = 3 + 86400 * 256 ∧ s.reg (thReg 0x90) = 1500 ∧ s.reg (thReg 0x98) = 95 + 105 * 256
  ∧ (∀ i, i < 4 → s.reg (evBase + 8 * i) = 0) ∧ s.i3cAddr = 0x3A ∧ s.powered = false

/-- The canonical form holds at reset. Choices of the model's in it: log 5. -/
def Obligations.ResetKept : Prop := State.reset.Kept

/-- Every step keeps the canonical form of both memories and of the tables of cores, hearths and MMIO registers, from every state that has
it: whatever instruction or event the step runs. The form is the model's (log 5). -/
def Obligations.StepKeepsForm : Prop := ∀ (s t : State), s.Kept → step s = .next t → t.Kept

/-! ## The S slot: integers -/

/-- The two-source ALU forms (06 R158): the result, bound for s[D] and pushed; no flag; nothing else changes. The immediate ALU forms (06
R158): b is the sign-extended IMM18, for the shifts IMM18[5:0], where a set bit above is no well-formed instruction. -/
def Obligations.AluForms : Prop :=
  (∀ (f : SR) (s : State) (a b : Word), s.Kept → a = sIn s 0 f.a → b = sIn s 1 f.b →
    (Ready (.add f) s → ScalarResult (.add f) s f.d f.lat (a + b) 0)
    ∧ (Ready (.sub f) s → ScalarResult (.sub f) s f.d f.lat (a - b) 0)
    ∧ (Ready (.and f) s → ScalarResult (.and f) s f.d f.lat (a &&& b) 0)
    ∧ (Ready (.or f) s → ScalarResult (.or f) s f.d f.lat (a ||| b) 0)
    ∧ (Ready (.xor f) s → ScalarResult (.xor f) s f.d f.lat (a ^^^ b) 0)
    ∧ (Ready (.shl f) s → ScalarResult (.shl f) s f.d f.lat (a <<< (b.toNat % 64)) 0)
    ∧ (Ready (.shr f) s → ScalarResult (.shr f) s f.d f.lat (a >>> (b.toNat % 64)) 0)
    ∧ (Ready (.sar f) s → ScalarResult (.sar f) s f.d f.lat (a.sshiftRight (b.toNat % 64)) 0)
    ∧ (Ready (.min f) s → ScalarResult (.min f) s f.d f.lat (if a.toInt ≤ b.toInt then a else b) 0)
    ∧ (Ready (.max f) s → ScalarResult (.max f) s f.d f.lat (if a.toInt ≤ b.toInt then b else a) 0)
    ∧ (Ready (.minu f) s → ScalarResult (.minu f) s f.d f.lat (if a.toNat ≤ b.toNat then a else b) 0)
    ∧ (Ready (.maxu f) s → ScalarResult (.maxu f) s f.d f.lat (if a.toNat ≤ b.toNat then b else a) 0))
  ∧ (∀ (f : SI) (s : State) (a b : Word), s.Kept → a = sIn s 0 f.a → b = f.imm.signExtend 64 →
    (Ready (.addi f) s → ScalarResult (.addi f) s f.d f.lat (a + b) 0)
    ∧ (Ready (.andi f) s → ScalarResult (.andi f) s f.d f.lat (a &&& b) 0)
    ∧ (Ready (.ori f) s → ScalarResult (.ori f) s f.d f.lat (a ||| b) 0)
    ∧ (Ready (.xori f) s → ScalarResult (.xori f) s f.d f.lat (a ^^^ b) 0)
    ∧ (Ready (.shli f) s → ScalarResult (.shli f) s f.d f.lat (a <<< (f.imm.toNat % 64)) 0)
    ∧ (Ready (.shri f) s → ScalarResult (.shri f) s f.d f.lat (a >>> (f.imm.toNat % 64)) 0)
    ∧ (Ready (.sari f) s → ScalarResult (.sari f) s f.d f.lat (a.sshiftRight (f.imm.toNat % 64)) 0)
    ∧ (64 ≤ f.imm.toNat → ∀ x, ¬ (Instr.shli f).WellFormed x ∧ ¬ (Instr.shri f).WellFormed x ∧ ¬ (Instr.sari f).WellFormed x))

/-- The multiply and divide forms (06 R159), each line as the rule writes it; none traps. -/
def Obligations.MultiplyDivideForms : Prop := ∀ (f : SR) (s : State) (a b : Word), s.Kept → a = sIn s 0 f.a → b = sIn s 1 f.b →
  (Ready (.mul f) s → ScalarResult (.mul f) s f.d f.lat (BitVec.ofNat 64 (a.toNat * b.toNat)) 0)
  ∧ (Ready (.mulh f) s → ScalarResult (.mulh f) s f.d f.lat (BitVec.ofInt 64 (Int.fdiv (a.toInt * b.toInt) 18446744073709551616)) 0)
  ∧ (Ready (.mulhu f) s → ScalarResult (.mulhu f) s f.d f.lat (BitVec.ofNat 64 (a.toNat * b.toNat / 18446744073709551616)) 0)
  ∧ (Ready (.div f) s → ScalarResult (.div f) s f.d f.lat
      (if b = 0 then BitVec.ofInt 64 (-1)
       else if a = BitVec.intMin 64 ∧ b = BitVec.ofInt 64 (-1) then BitVec.intMin 64
       else BitVec.ofInt 64 (Int.tdiv a.toInt b.toInt)) 0)
  ∧ (Ready (.rem f) s → ScalarResult (.rem f) s f.d f.lat
      (if b = 0 then a
       else if a = BitVec.intMin 64 ∧ b = BitVec.ofInt 64 (-1) then 0
       else BitVec.ofInt 64 (a.toInt - b.toInt * Int.tdiv a.toInt b.toInt)) 0)
  ∧ (Ready (.divu f) s → ScalarResult (.divu f) s f.d f.lat
      (if b = 0 then BitVec.ofNat 64 (18446744073709551616 - 1) else BitVec.ofNat 64 (a.toNat / b.toNat)) 0)
  ∧ (Ready (.remu f) s → ScalarResult (.remu f) s f.d f.lat (if b = 0 then a else BitVec.ofNat 64 (a.toNat % b.toNat)) 0)

/-- The constants (06 R160): MOVI writes the sign-extended immediate, MOVHI shifts 25 bits into s[D], which it reads at issue. The
bit-field forms (06 R161): the field of `w` bits from `pos` on, cut at bit 63; the count of zero bits above the highest set bit; the count
of set bits. -/
def Obligations.ConstantsAndBitFields : Prop :=
  (∀ (f : SL) (s : State), s.Kept →
    (Ready (.movi f) s → ScalarResult (.movi f) s f.d f.lat (f.imm.signExtend 64) 0)
    ∧ (Ready (.movhi f) s → ScalarResult (.movhi f) s f.d f.lat
        (BitVec.ofNat 64 ((sIn s 3 f.d).toNat * 2 ^ 25 + f.imm.toNat)) 0))
  ∧ (∀ (f : SR) (s : State) (a d : Word) (pos w : Nat), s.Kept → a = sIn s 0 f.a → d = sIn s 3 f.d →
    pos = (sIn s 1 f.b).toNat % 64 → w = min ((sIn s 2 f.c).toNat % 128) (64 - pos) →
    (Ready (.extu f) s → ScalarResult (.extu f) s f.d f.lat (BitVec.ofNat 64 (a.toNat / 2 ^ pos % 2 ^ w)) 0)
    ∧ (Ready (.ext f) s → ∃ v, ScalarResult (.ext f) s f.d f.lat v 0
        ∧ ∀ j, j < 64 → v.getLsbD j = (if w = 0 then false else if j < w then a.getLsbD (pos + j) else a.getLsbD (pos + w - 1)))
    ∧ (Ready (.ins f) s → ∃ v, ScalarResult (.ins f) s f.d f.lat v 0
        ∧ ∀ j, j < 64 → v.getLsbD j = (if pos ≤ j ∧ j < pos + w then a.getLsbD (j - pos) else d.getLsbD j))
    ∧ (Ready (.clz f) s → ∃ v, ScalarResult (.clz f) s f.d f.lat v 0 ∧ (a = 0 → v = 64)
        ∧ ∀ n, a.getLsbD n = true → (∀ m, n < m → a.getLsbD m = false) → v = BitVec.ofNat 64 (63 - n))
    ∧ (Ready (.popc f) s → ScalarResult (.popc f) s f.d f.lat (BitVec.ofNat 64 ((List.range 64).countP fun j => a.getLsbD j)) 0))

/-! ## The S slot: conditions -/

/-- CMP and CMPI (06 R162): each condition code, signed or unsigned as the rule says. The result is bound for g[GD] and nothing is pushed.
The guard-logic forms (06 R163): (g[GA] XOR NA) Op (g[GB] XOR NB). SEL (06 R164): s[A] where g[GS] reads true, else s[B]; under a false
guard (01 R20, R22) it leaves s[D] and pushes a zero, which lands within its latency (the model's choice, log 17). -/
def Obligations.ComparesGuardsAndSelect : Prop :=
  (∀ (s : State) (a b : Word) (cc : BitVec 3) (v : Bool), s.Kept →
    (cc = 0 → v = decide (a = b)) → (cc = 1 → v = decide (a ≠ b)) →
    (cc = 2 → v = decide (a.toInt < b.toInt)) → (cc = 3 → v = decide (b.toInt ≤ a.toInt)) →
    (cc = 4 → v = decide (a.toNat < b.toNat)) → (cc = 5 → v = decide (b.toNat ≤ a.toNat)) →
    (cc = 6 → v = decide (a.toInt ≤ b.toInt)) → (cc = 7 → v = decide (b.toInt < a.toInt)) →
    (∀ f : SC, f.cc = cc → a = sIn s 0 f.a → b = sIn s 1 f.b → Ready (.cmp f) s → GuardResult (.cmp f) s f.gd f.lat v)
    ∧ (∀ f : SCI, f.cc = cc → a = sIn s 0 f.a → b = f.imm.signExtend 64 → Ready (.cmpi f) s → GuardResult (.cmpi f) s f.gd f.lat v))
  ∧ (∀ (f : SG) (s : State) (x y : Bool), s.Kept →
    x = (gIn s 4 f.ga != decide (f.na = 1)) → y = (gIn s 5 f.gb != decide (f.nb = 1)) →
    (Ready (.gand f) s → GuardResult (.gand f) s f.gd f.lat (x && y))
    ∧ (Ready (.gor f) s → GuardResult (.gor f) s f.gd f.lat (x || y))
    ∧ (Ready (.gxor f) s → GuardResult (.gxor f) s f.gd f.lat (x != y)))
  ∧ (∀ (f : SR) (s : State), s.Kept →
    (Ready (.sel f) s → gIn s 4 f.gs = true → ScalarResult (.sel f) s f.d f.lat (sIn s 0 f.a) 0)
    ∧ (Ready (.sel f) s → gIn s 4 f.gs = false → ScalarResult (.sel f) s f.d f.lat (sIn s 1 f.b) 0)
    ∧ (Idle (.sel f) s → Becomes (.sel f) s (withScalar s (.scal 0 0) true f.lat.toNat 0)))

/-! ## The S slot: floating point -/

/-- The scalar floating forms (06 R165): the exact result of the fp32 values in the low halves, delivered once into fp32 with its flags;
bits [63:32] are zero. Choices of the model's in it: log 8, 96. -/
def Obligations.ScalarFloatForms : Prop := ∀ (f : SR) (s : State) (x y z : Val) (r : VF → Nat × Flags), s.Kept →
  x = decodeFmt 0 ((sIn s 0 f.a).toNat % 2 ^ 32) → y = decodeFmt 0 ((sIn s 1 f.b).toNat % 2 ^ 32) →
  z = decodeFmt 0 ((sIn s 2 f.c).toNat % 2 ^ 32) → (∀ q, r q = deliver q 0 .rne) →
  (Ready (.fadd f) s → ScalarResult (.fadd f) s f.d f.lat (BitVec.ofNat 64 (r (vAdd x y)).1) (r (vAdd x y)).2)
  ∧ (Ready (.fsub f) s → ScalarResult (.fsub f) s f.d f.lat (BitVec.ofNat 64 (r (vSub x y)).1) (r (vSub x y)).2)
  ∧ (Ready (.fmul f) s → ScalarResult (.fmul f) s f.d f.lat (BitVec.ofNat 64 (r (vMul x y)).1) (r (vMul x y)).2)
  ∧ (Ready (.fma f) s → ScalarResult (.fma f) s f.d f.lat (BitVec.ofNat 64 (r (vFma x y z)).1) (r (vFma x y z)).2)
  ∧ (Ready (.fdiv f) s → ScalarResult (.fdiv f) s f.d f.lat (BitVec.ofNat 64 (r (vDiv x y)).1) (r (vDiv x y)).2)
  ∧ (Ready (.fsqrt f) s → ScalarResult (.fsqrt f) s f.d f.lat (BitVec.ofNat 64 (r (vSqrt x)).1) (r (vSqrt x)).2)
  ∧ (Ready (.fmin f) s → ScalarResult (.fmin f) s f.d f.lat (BitVec.ofNat 64 (r (vMin x y)).1) (r (vMin x y)).2)
  ∧ (Ready (.fmax f) s → ScalarResult (.fmax f) s f.d f.lat (BitVec.ofNat 64 (r (vMax x y)).1) (r (vMax x y)).2)

/-- FCMP (06 R166): with a NaN source NE and UN are true and every other code is false; without one, each code is its relation on the
exact values, signed zeros equal. FCMP sets no flag. -/
def Obligations.FloatCompare : Prop := ∀ (f : SC) (s : State) (x y : Val), s.Kept →
  x = decodeFmt 0 ((sIn s 0 f.a).toNat % 2 ^ 32) → y = decodeFmt 0 ((sIn s 1 f.b).toNat % 2 ^ 32) → Ready (.fcmp f) s →
  ((x = .nan ∨ y = .nan) → GuardResult (.fcmp f) s f.gd f.lat (decide (f.cc = 1) || decide (f.cc = 4)))
  ∧ ∀ a b, SameOrder x y a b → GuardResult (.fcmp f) s f.gd f.lat (orderCond f.cc a b)

/-- FCVT (06 R167): the low bits of the source decoded in FROM, converted to TO with RTZ or RNE; the code of int32, int8 and int4
sign-extended, any other zero-extended. Choices of the model's in it: log 8, 9. -/
def Obligations.FormatConvert : Prop := ∀ (f : SF) (s : State) (r : Nat × Flags), s.Kept →
  r = convTo (decodeFmt f.src.toNat ((sIn s 0 f.a).toNat % 2 ^ fmtWidth f.src.toNat)) f.dst.toNat (if f.rtz = 1 then .rtz else .rne) →
  Ready (.fcvt f) s →
  (f.dst = 3 → ScalarResult (.fcvt f) s f.d f.lat (BitVec.ofInt 64 (signedOf 32 r.1)) r.2)
  ∧ (f.dst = 4 → ScalarResult (.fcvt f) s f.d f.lat (BitVec.ofInt 64 (signedOf 8 r.1)) r.2)
  ∧ (f.dst = 6 → ScalarResult (.fcvt f) s f.d f.lat (BitVec.ofInt 64 (signedOf 4 r.1)) r.2)
  ∧ (f.dst ≠ 3 → f.dst ≠ 4 → f.dst ≠ 6 → ScalarResult (.fcvt f) s f.d f.lat (BitVec.ofNat 64 r.1) r.2)


/-! ## The S slot: control, the loop, system registers -/

/-- BR, CALL and RET (06 R168): the target modulo 2^64; CALL also pushes the following bundle's address, bound for s[D]. -/
def Obligations.ControlTransfers : Prop := ∀ (s : State), s.Kept →
  (∀ f, Ready (.br f) s → Becomes (.br f) s (jumping s.inF (BitVec.ofNat 64 s.ctx.pc + f.off.signExtend 64).toNat s.me))
  ∧ (∀ f, Ready (.call f) s → Becomes (.call f) s (jumping s.inF (BitVec.ofNat 64 s.ctx.pc + f.off.signExtend 64).toNat
      (withScalar s (.scal f.d.toNat (BitVec.ofNat 64 (s.ctx.pc + 1))) true f.lat.toNat 0)))
  ∧ (∀ f, Ready (.ret f) s → Becomes (.ret f) s (jumping s.inF (sIn s 0 f.a).toNat s.me))

/-- KLOOP (06 R169): a count of zero skips the body; any other starts the loop, with stage 0 alone live; the KLOOP of a fused program takes
the fused trip count first, whatever stands in LCOUNT (10 R275). The pass boundary (06 R170): the count, the stage predicates, the rotation,
and whether the loop goes on. -/
def Obligations.LoopForms : Prop :=
  (∀ (f : SK) (s : State) (d : Word), s.Kept → Ready (.kloop f) s →
    (s.me.imem.loop = none ∨ (∃ p e, s.me.imem.loop = some (p, e) ∧ p ≠ s.me.t.pc) → d = s.me.lcount) →
    (∀ e, s.me.imem.loop = some (s.me.t.pc, e) → d = e) →
    (d = 0 → Becomes (.kloop f) s { s.me with lcount := d, t := { s.me.t with jump := some (s.me.t.pc + f.len.toNat + 2) } })
    ∧ (d ≠ 0 → ∃ g l, Becomes (.kloop f) s { s.me with lcount := d, lstat := l, t := { s.me.t with g := g } }
        ∧ (∀ j, j < 16 → g.getLsbD j = if j < 8 then s.me.t.g.getLsbD j else decide (j = 8))
        ∧ (f.nst.toNat ≤ 7 → lstatActive l = true ∧ lstatLen l = f.len.toNat ∧ lstatNst l = f.nst.toNat ∧ lstatRot l = decide (f.rot = 1)
            ∧ lstatStart l = (s.me.t.pc + 1) % 2 ^ 32 ∧ bitsAt l.toNat 11 21 = 0)))
  ∧ (∀ (c : Nat) (s : State), s.Kept → atBoundary (s.core c) = true →
    ∃ t, exec (.kloopPassBoundary c) s = .next t ∧ t = { s with cores := t.cores } ∧ (∀ d, d ≠ c → t.core d = s.core d)
      ∧ (t.core c).lcount = (if 1 < (s.core c).lcount.toNat then (s.core c).lcount - 1 else 0)
      ∧ (∀ j, j < 16 → (t.core c).t.g.getLsbD j = if j < 8 then (s.core c).t.g.getLsbD j
          else if j = 8 then decide (1 < (s.core c).lcount.toNat) else (s.core c).t.g.getLsbD (j - 1))
      ∧ (t.core c).vs = { (s.core c).vs with rrb := (if lstatRot (s.core c).lstat then (s.core c).vs.rrb + 1 else (s.core c).vs.rrb) }
      ∧ ((∃ j, j ≤ lstatNst (s.core c).lstat ∧ (t.core c).t.g.getLsbD (8 + j) = true) →
          (t.core c).t.pc = lstatStart (s.core c).lstat ∧ (t.core c).lstat = (s.core c).lstat)
      ∧ ((∀ j, j ≤ lstatNst (s.core c).lstat → (t.core c).t.g.getLsbD (8 + j) = false) →
          (t.core c).t.pc = (s.core c).t.pc ∧ (t.core c).lstat = (s.core c).lstat &&& ~~~1#64)
      ∧ t.core c = { s.core c with lcount := (t.core c).lcount, lstat := (t.core c).lstat, vs := (t.core c).vs,
                                   t := { (s.core c).t with g := (t.core c).t.g, pc := (t.core c).t.pc } })

/-- SHW (06 R174): the field's low bits of the shape's shadow take the value; every other bit of it stays, and every other shadow. -/
def Obligations.ShapeShadow : Prop := ∀ (f : SW) (s : State) (lo len : Nat) (v : Word), s.Kept → f.sel.toNat ≤ 12 →
  v = sIn s 0 f.a + f.imm.signExtend 64 →
  (f.sel.toNat < 6 → lo = 64 * f.sel.toNat ∧ len = 24) → (6 ≤ f.sel.toNat → f.sel.toNat < 12 → lo = 64 * (f.sel.toNat - 6) + 24 ∧ len = 40) →
  (f.sel.toNat = 12 → lo = 384 ∧ len = 3) → Ready (.shw f) s →
  ∃ w : BitVec 512, Becomes (.shw f) s { s.me with shd := tset (fun _ => 0) s.me.shd f.sh.toNat w }
    ∧ ∀ j, j < 512 → w.getLsbD j = if lo ≤ j ∧ j < lo + len then v.getLsbD (j - lo) else (tget (fun _ => 0) s.me.shd f.sh.toNat).getLsbD j

/-- MFSR (06 R175, R176): the value of each register of the table; HSTAT by its fields (04 R121); the lock quota of the context's descriptor
(02 R50, 20 R349); in a fused program GRIDID and LAUNCHSEQ of the launch that the fusion entry gives as the origin of the bundle (10 R280,
20 R344). MTSR (06 R175, R176): each writable register takes the value at issue; VFLAGS loses the flags whose bit is 1; PROBECFG clears
every tag (02 R52). -/
def Obligations.SystemRegisters : Prop :=
  (∀ (f : SS) (s : State) (v : Word) (i : Ident) (fe fw : Nat), s.Kept → i = s.me.ident →
    sregKnown f.sreg.toNat = true → fe = 0x0E0004100000 + i.fuseId % 1024 * 4096 + 1024 + 4 * s.me.t.pc →
    fw = (s.reg (fe / 8 * 8)).toNat / 2 ^ (fe % 8 * 8) % 2 ^ 32 →
    (f.sreg = 0x000 → v = s.me.lcount) → (f.sreg = 0x001 → v = s.me.vs.rrb.setWidth 64) → (f.sreg = 0x002 → v = s.me.lstat) →
    (f.sreg = 0x003 → v = s.ctx.vflags.setWidth 64) → (f.sreg = 0x004 → v = s.me.thbase) → (f.sreg = 0x005 → v = s.me.probecfg) →
    (f.sreg = 0x006 → v = BitVec.ofNat 64 (s.locks.countP fun l => l.2 = i.ctx)) → (f.sreg = 0x007 → v = llQuota s i.ctx) → f.sreg ≠ 0x008 →
    (f.sreg = 0x010 → v = BitVec.ofNat 64 (i.task + (if i.wide then 4 else 0))) → (f.sreg = 0x011 → v = BitVec.ofNat 64 i.ntask) →
    (f.sreg = 0x012 → v = BitVec.ofNat 64 (i.x + i.y * 2 ^ 16 + i.z * 2 ^ 32)) →
    (f.sreg = 0x013 → v = BitVec.ofNat 64 (i.gx + i.gy * 2 ^ 20 + i.gz * 2 ^ 40)) → (f.sreg = 0x014 → i.fuseId = 0 → v = BitVec.ofNat 64 i.gridId) →
    (f.sreg = 0x014 → i.fuseId ≠ 0 → ∃ g, v = BitVec.ofNat 64 g.id ∧ s.grids.find? (fun g => decide (g.seq =
      (s.reg (0x0E0004100000 + i.fuseId % 1024 * 4096 + if 2 ^ 31 ≤ fw then 8 else 0)).toNat)) = some g) →
    (f.sreg = 0x015 → v = BitVec.ofNat 64 i.stage) → (f.sreg = 0x016 → v = BitVec.ofNat 64 i.nstage) →
    (f.sreg = 0x017 → v = if i.fuseId = 0 then BitVec.ofNat 64 i.launchSeq
      else s.reg (0x0E0004100000 + i.fuseId % 1024 * 4096 + if 2 ^ 31 ≤ fw then 8 else 0)) → (f.sreg = 0x018 → v = BitVec.ofNat 64 s.cur) →
    (f.sreg = 0x019 → v = BitVec.ofNat 64 (if 64 ≤ s.cur then 16 else s.cur / 4)) → (f.sreg = 0x020 → v = 0x0A0000000000) →
    (f.sreg = 0x021 → v = 0x0A0040000000) → (f.sreg = 0x028 → v = s.me.tcycle) → (f.sreg = 0x029 → v = s.me.segstall) →
    Ready (.mfsr f) s → ScalarResult (.mfsr f) s f.d f.lat v 0)
  ∧ (∀ (f : SS) (s : State) (x : Hearth) (h : Nat), s.Kept → f.sreg = 0x008 → h = hearthOf s.cur → x = s.hearth h → Ready (.mfsr f) s →
    ∃ v, ScalarResult (.mfsr f) s f.d f.lat v 0 ∧ v.getLsbD 0 = decide (x.holder = some s.cur) ∧ bitsAt v.toNat 2 7 = x.left % 128
      ∧ bitsAt v.toNat 9 9 = ncomp x % 512 ∧ bitsAt v.toNat 18 9 = min 256 ((s.reg (0x0E0007010000 + h * 16)).toNat % 512)
      ∧ bitsAt v.toNat 27 7 = (s.reg (0x0E0007010000 + h * 16 + 8)).toNat % 128 ∧ v.toNat / 2 ^ 38 = 0
      ∧ (x.group ≠ some s.me.ident.groupId ∨ s.me.ident.claim = false → v.getLsbD 1 = false ∧ bitsAt v.toNat 34 4 = 0)
      ∧ ∀ q, x.group = some s.me.ident.groupId → s.me.ident.claim = true → s.claims.find? (fun q => decide (q.id = s.me.ident.groupId)) = some q →
          v.getLsbD 1 = decide (q.kept = 1) ∧ bitsAt v.toNat 34 4 = min 15 q.loss)
  ∧ (∀ (s : State) (d : Nat), d = (s.reg 0x0E000400B000).toNat + s.me.ident.ctx * 64 + 16 → Dram s d 8 →
      llQuota s s.me.ident.ctx = BitVec.ofNat 64 (memGetN s.mem d 8))
  ∧ (∀ (f : SS) (s : State) (v : Word), s.Kept → v = sIn s 0 f.a → Ready (.mtsr f) s →
    (f.sreg = 0x000 → Becomes (.mtsr f) s { s.me with lcount := v })
    ∧ (f.sreg = 0x001 → Becomes (.mtsr f) s { s.me with vs := { s.me.vs with rrb := v.setWidth 6 } })
    ∧ (f.sreg = 0x003 → ∃ x, Becomes (.mtsr f) s (s.me.setCtx s.inF { s.ctx with vflags := x })
        ∧ ∀ j, j < 5 → x.getLsbD j = (s.ctx.vflags.getLsbD j && !v.getLsbD j))
    ∧ (f.sreg = 0x004 → Becomes (.mtsr f) s { s.me with thbase := v })
    ∧ (f.sreg = 0x005 → Becomes (.mtsr f) s { s.me with probecfg := v, tags := [] }))

/-- TRAP, EXIT and NOP of a task (06 R172, R177, R179; 05 R126): TRAP adds a report of the software-trap cause with its code, its bundle
address and a mask of every slot; EXIT keeps its code; both end a running loop; NOP does nothing. TRET (06 R178, 20 R341): the task runs
again, at the place its code and the fault record name, with the slots the mask shows incomplete and, before the same bundle, with the wait
of its BARAW (09 R256); F restarts at its entry point; no register of either context and no byte of memory changes but through held line
operations that it tries again; a task that took HWERR stays stopped (20 R338). Choices of the model's in it: log 6, 24, 91. -/
def Obligations.TrapsAndReturns : Prop :=
  (∀ (s : State), s.Kept → s.inF = false →
    (∀ f, Ready (.trap f) s → Becomes (.trap f) s
        { s.me with lstat := s.me.lstat &&& ~~~1#64,
                    reports := s.me.reports ++ [⟨13, 0, 0, s.me.t.pc, 255, 255, false, false, false, f.code.toNat⟩] })
    ∧ (∀ f, Ready (.exit f) s → Becomes (.exit f) s { s.me with lstat := s.me.lstat &&& ~~~1#64, exited := some f.code.toNat })
    ∧ exec .nop s = .next s)
  ∧ (∀ (f : SX) (s : State), s.Kept → s.me.run ≠ .handler ∨ (s.reg (recAddr s.cur + 48)).toNat % 256 = 14 → Ready (.tret f) s →
    Becomes (.tret f) s { s.me with f := { s.me.f with jump := some 0 } })
  ∧ (∀ (f : SX) (s : State) (baddr next : Nat) (mask : Nat), s.Kept → s.me.run = .handler → (s.reg (recAddr s.cur + 48)).toNat % 256 ≠ 14 →
    f.code.toNat ≤ 2 → baddr = (s.reg (recAddr s.cur)).toNat → next = (s.reg (recAddr s.cur + 8)).toNat →
    mask = bitsAt (s.reg (recAddr s.cur + 48)).toNat 16 8 → Ready (.tret f) s →
    ∃ t, exec (.tret f) s = .next t ∧ t.cur = s.cur ∧ t.me.run = .run ∧ t.me.f = { s.me.f with jump := some 0 } ∧ t.me.t.jump = none
      ∧ (f.code = 1 → t.me.t.pc = baddr) ∧ (f.code = 2 → t.me.t.pc = baddr + 1)
      ∧ (f.code = 0 → s.me.handlerDeferred = true → t.me.t.pc = next)
      ∧ (f.code = 0 → s.me.handlerDeferred = false → mask = 255 → t.me.t.pc = next)
      ∧ (f.code = 0 → s.me.handlerDeferred = false → mask ≠ 255 → t.me.t.pc = baddr ∧ t.me.resume = if mask = 0 then none else some mask)
      ∧ t.me.t.s = s.me.t.s ∧ t.me.t.g = s.me.t.g ∧ t.me.t.vflags = s.me.t.vflags ∧ t.me.vs = s.me.vs ∧ t.me.lcount = s.me.lcount
      ∧ t.me.bawait = (if t.me.t.pc = s.me.t.pc then s.me.bawait else none) ∧ (∀ d, d ≠ s.cur → t.core d = s.core d)
      ∧ (f.code ≠ 0 ∨ s.me.handlerDeferred = false ∨ s.me.t.lineQ = [] → t.mem = s.mem ∧ t.mmio = s.mmio))

/-! ## The vector slots

`w` is the register width of an element, and `x j`, `y j`, `z j` are the decoded elements of the sources. -/

/-- The element-wise arithmetic forms (07 R185 to R187): each element is the exact result of the decoded sources, delivered once to FMT with
RNE; VFMS is x × y + (−z) (03 R86). Where the predicate is false the destination keeps its cells when the result lands. Choices of the
model's in it: log 8, 96. -/
def Obligations.VectorArithmetic : Prop := ∀ (f : V3) (s : State) (w : Nat) (en : PReg) (x y z : Nat → Val) (r : VF → Nat × Flags), s.Kept →
  w = fmtRegWidth f.fmt.toNat → en = pIn s f.u 14 f.p → (∀ j, x j = decodeFmt f.fmt.toNat (elemOf (vIn s f.u 0 f.a) w j)) →
  (∀ j, y j = decodeFmt f.fmt.toNat (elemOf (vIn s f.u 1 f.b) w j)) → (∀ j, z j = decodeFmt f.fmt.toNat (elemOf (vIn s f.u 2 f.c) w j)) →
  (∀ q, r q = deliver q f.fmt.toNat .rne) →
  (Ready (.vadd f) s → Elementwise (.vadd f) s f.u f.d f.lat en w fun j => r (vAdd (x j) (y j)))
  ∧ (Ready (.vsub f) s → Elementwise (.vsub f) s f.u f.d f.lat en w fun j => r (vAdd (x j) (vNeg (y j))))
  ∧ (Ready (.vmul f) s → Elementwise (.vmul f) s f.u f.d f.lat en w fun j => r (vMul (x j) (y j)))
  ∧ (Ready (.vfma f) s → Elementwise (.vfma f) s f.u f.d f.lat en w fun j => r (vFma (x j) (y j) (z j)))
  ∧ (Ready (.vfms f) s → Elementwise (.vfms f) s f.u f.d f.lat en w fun j => r (vFma (x j) (y j) (vNeg (z j))))
  ∧ (Ready (.vdiv f) s → Elementwise (.vdiv f) s f.u f.d f.lat en w fun j => r (vDiv (x j) (y j)))
  ∧ (Ready (.vsqrt f) s → Elementwise (.vsqrt f) s f.u f.d f.lat en w fun j => r (vSqrt (x j)))
  ∧ (Ready (.vmin f) s → Elementwise (.vmin f) s f.u f.d f.lat en w fun j => r (vMin (x j) (y j)))
  ∧ (Ready (.vmax f) s → Elementwise (.vmax f) s f.u f.d f.lat en w fun j => r (vMax (x j) (y j)))
  ∧ (Ready (.vabs f) s → Elementwise (.vabs f) s f.u f.d f.lat en w fun j => r (vAbs (x j), 0))
  ∧ (Ready (.vneg f) s → Elementwise (.vneg f) s f.u f.d f.lat en w fun j => r (vNeg (x j), 0))

/-- Vector logic acts on all 32,768 bits; the shifts act on codes of FMT, by an unsigned code, a shift of the code width or more giving
zeros, or for VSAR copies of the sign (07 R188). No flag. -/
def Obligations.VectorLogicAndShifts : Prop := ∀ (f : V3) (s : State) (w cw : Nat) (en : PReg) (a b : VReg) (x k : Nat → Nat), s.Kept →
  w = fmtRegWidth f.fmt.toNat → cw = fmtWidth f.fmt.toNat → en = pIn s f.u 14 f.p → a = vIn s f.u 0 f.a → b = vIn s f.u 1 f.b →
  (∀ j, x j = elemOf a w j % 2 ^ cw) → (∀ j, k j = elemOf b w j % 2 ^ cw) →
  (Ready (.vand f) s → VectorResult (.vand f) s f.u f.d f.lat en (a &&& b) 0)
  ∧ (Ready (.vor f) s → VectorResult (.vor f) s f.u f.d f.lat en (a ||| b) 0)
  ∧ (Ready (.vxor f) s → VectorResult (.vxor f) s f.u f.d f.lat en (a ^^^ b) 0)
  ∧ (Ready (.vnot f) s → VectorResult (.vnot f) s f.u f.d f.lat en (~~~a) 0)
  ∧ (Ready (.vshl f) s → Moves (.vshl f) s f.u f.d f.lat en w fun j => x j * 2 ^ k j % 2 ^ cw)
  ∧ (Ready (.vshr f) s → Moves (.vshr f) s f.u f.d f.lat en w fun j => x j / 2 ^ k j)
  ∧ (Ready (.vsar f) s → Moves (.vsar f) s f.u f.d f.lat en w fun j => wrapNat cw (Int.fdiv (signedOf cw (x j)) ((2 ^ k j : Nat) : Int)))

/-- VCVT, VQNT, VDQNT and VCTD (07 R189 to R191, R205): the sub-element each destination sub-element `j` of cell `q` takes, by PART, and the
value it becomes. VUNPK and VPACK (07 R191): code number `256 × PART + j` of each packed row against element `j` of the row; VPACK leaves
every other bit of B's row. Choices of the model's in it: log 8, 9. -/
def Obligations.ConversionsAndPacking : Prop :=
  ((∀ (f : VI) (s : State) (m n ks kd part : Nat) (a b : VReg), s.Kept → m = f.fmt.toNat → n = f.imm.toNat % 64 → ks = 32 / fmtRegWidth m →
      kd = 32 / fmtRegWidth n → part = f.imm.toNat / 128 → a = vIn s f.u 0 f.a → b = vIn s f.u 1 f.b → Ready (.vcvt f) s →
      Elementwise (.vcvt f) s f.u f.d f.lat (pIn s f.u 14 f.p) (fmtRegWidth n) fun i =>
        let cv := fun c => convTo (decodeFmt m c) n (if f.imm.getLsbD 6 then .rtz else .rne)
        if kd ≤ ks then cv (elemOf a (fmtRegWidth m) (i / kd * ks + (part * kd + i % kd)))
        else if part * ks ≤ i % kd ∧ i % kd < part * ks + ks then cv (elemOf a (fmtRegWidth m) (i / kd * ks + (i % kd - part * ks)))
        else (elemOf b (fmtRegWidth n) i, 0))
    ∧ (∀ (f : V3) (s : State) (m kd part blk : Nat) (a b : VReg) (scale : Nat → Val), s.Kept → m = f.fmt.toNat → kd = 32 / fmtRegWidth m →
      part = f.c.toNat / 8 % 4 → blk = (if f.c.toNat % 8 = 0 then 1 else if f.c.toNat % 8 = 1 then 8 else if f.c.toNat % 8 = 2 then 16
        else if f.c.toNat % 8 = 3 then 32 else 64) → a = vIn s f.u 0 f.a → b = vIn s f.u 1 f.b →
      (∀ q, scale q = decodeFmt 0 (elemOf b 32 (q / 64 * 64 + q % 64 / blk))) →
      (Ready (.vqnt f) s → Elementwise (.vqnt f) s f.u f.d f.lat (pIn s f.u 14 f.p) (fmtRegWidth m) fun i =>
        if i % kd = part then deliver (vDiv (decodeFmt 0 (elemOf a 32 (i / kd))) (scale (i / kd))) m .rne else (0, 0))
      ∧ (Ready (.vdqnt f) s → Elementwise (.vdqnt f) s f.u f.d f.lat (pIn s f.u 14 f.p) 32 fun q =>
        deliver (vMul (decodeFmt m (elemOf a (fmtRegWidth m) (q * kd + part))) (scale q)) 0 .rne))
    ∧ (∀ (f : VI) (s : State) (m kd part : Nat) (a : VReg) (table : BitVec 256), s.Kept → m = f.fmt.toNat → kd = 32 / fmtRegWidth m →
      part = f.imm.toNat / 4 % 4 → a = vIn s f.u 0 f.a → table = tget (fun _ => 0) s.me.vs.ct (f.imm.toNat % 4) → Ready (.vctd f) s →
      Elementwise (.vctd f) s f.u f.d f.lat (pIn s f.u 14 f.p) (fmtRegWidth m) fun i =>
        convTo (decodeFmt 1 (bitsAt table.toNat (16 * (elemOf a 8 (i / kd * 4 + (part * kd + i % kd)) % 16)) 16)) m .rne))
  ∧ (∀ (f : VI) (s : State) (cw part : Nat) (a b : VReg), s.Kept → fmtPacked f.fmt = true →
    cw = fmtWidth f.fmt.toNat → part = f.imm.toNat → part ≤ 1 → (part = 1 → cw = 4) → a = vIn s f.u 0 f.a → b = vIn s f.u 1 f.b →
    (Ready (.vunpk f) s → Moves (.vunpk f) s f.u f.d f.lat (pIn s f.u 14 f.p) 8 fun i =>
      bitsAt a.toNat (2048 * (i / 256) + cw * (256 * part + i % 256)) cw)
    ∧ (Ready (.vpack f) s → ∃ v, VectorResult (.vpack f) s f.u f.d f.lat (pIn s f.u 14 f.p) v 0
        ∧ (∀ n j, n < 16 → j < 256 → bitsAt v.toNat (2048 * n + cw * (256 * part + j)) cw = elemOf a 8 (256 * n + j) % 2 ^ cw)
        ∧ ∀ n j, n < 16 → j < 2048 → (j < cw * 256 * part ∨ cw * 256 * part + cw * 256 ≤ j) →
            v.getLsbD (2048 * n + j) = b.getLsbD (2048 * n + j)))

/-- VBDOT (07 R192, R193; 03 R93): cell 0 of each row receives the row's scaled dot product, every other cell zero: block by block the sum
of the products, exact for the exact class and delivered into fp32 at each step elsewhere, times the product of the block's scales, added up
in fp32, times the product of the tensor scales; a row whose parameters are invalid gives the NaN with INVALID. Choices of the model's in
it: log 8. -/
def Obligations.BlockDotProduct : Prop := ∀ (f : V3) (s : State) (a b c : VReg) (en : PReg) (row : Nat → Nat × Flags), s.Kept →
  a = vIn s f.u 0 f.a → b = vIn s f.u 1 f.b → c = vIn s f.u 2 f.c → en = pIn s f.u 14 f.p → (∀ n, row n = bdotRow f.fmt.toNat a b c n) →
  Ready (.vbdot f) s →
  ∃ v fl, VectorResult (.vbdot f) s f.u f.d f.lat en v fl
    ∧ (∀ i, i < 1024 → elemOf v 32 i = if i % 64 = 0 then (row (i / 64)).1 % 2 ^ 32 else 0)
    ∧ (∀ (n m e k nb : Nat) (byte : Nat → Nat) (A B : Nat → Nat → Val) (sa sb : Nat → Val) (ta tb : Val) (rnd : VF → VF) (sum : Nat → Nat → VF)
        (acc : Nat → VF), m = f.fmt.toNat → e = 2048 / fmtRegWidth m → (∀ j, byte j = bitsAt c.toNat (2048 * n + 8 * j) 8) →
      k = 8 * 2 ^ byte 137 → nb = byte 138 →
      (64 ≤ byte 136 ∨ fmtAssigned (byte 136) = false ∨ fmtWidth (byte 136) ≠ 8 ∨ 2 < byte 137 ∨ nb = 0 ∨ e < nb * k →
        row n = (0x7FC00000, 1#5))
      ∧ (byte 136 < 64 → fmtAssigned (byte 136) = true → fmtWidth (byte 136) = 8 → byte 137 ≤ 2 → nb ≠ 0 → nb * k ≤ e →
        (∀ j i, A j i = decodeFmt m (elemOf a (fmtRegWidth m) (n * e + j * k + i))) →
        (∀ j i, B j i = decodeFmt m (elemOf b (fmtRegWidth m) (n * e + j * k + i))) → (∀ j, sa j = decodeFmt (byte 136) (byte j)) →
        (∀ j, sb j = decodeFmt (byte 136) (byte (64 + j))) → ta = decodeFmt 0 (bitsAt c.toNat (2048 * n + 1024) 32) →
        tb = decodeFmt 0 (bitsAt c.toNat (2048 * n + 1056) 32) →
        (∀ q, rnd q = (decodeFmt 0 (deliver q 0 .rne).1, (deliver q 0 .rne).2)) → (∀ j, sum j 0 = (.fin false 0 0, 0)) →
        (∀ j i p t q, p = vMul (A j i) (B j i) → t = vAdd (sum j i).1 p.1 → q = (if fmtExactClass m then t else rnd t) →
          sum j (i + 1) = (q.1, (sum j i).2 ||| p.2 ||| q.2)) → acc 0 = (.fin false 0 0, 0) →
        (∀ j x p t, x = vMul (sa j) (sb j) → p = rnd (vMul (sum j k).1 x.1) → t = rnd (vAdd (acc j).1 p.1) →
          acc (j + 1) = (t.1, (acc j).2 ||| (sum j k).2 ||| x.2 ||| p.2 ||| t.2)) →
        ∀ r, r = rnd (vMul (acc nb).1 (vMul ta tb).1) → row n = deliver (r.1, (acc nb).2 ||| (vMul ta tb).2 ||| r.2) 0 .rne))
    ∧ ∀ j, fl.getLsbD j = true ↔ ∃ n, n < 16 ∧ en.getLsbD (64 * n) = true ∧ (row n).2.getLsbD j = true

/-- The transcendental forms (07 R194, 03 R102 to R104): each element is the unit's fp32 result for the decoded source, delivered to FMT: at
a NaN, an infinity, a pole, outside the domain and at an exact point the result and flags that the rules name, elsewhere INEXACT and an fp32
value within 2 ulp of the true value, or the infinity where that is too large. The true value as `trueVal` evaluates it, and which code
within the bound, are the model's. Choices of the model's in it: log 7. -/
def Obligations.Transcendentals : Prop := (∀ (f : V3) (s : State) (w : Nat) (en : PReg) (r : TFn → Nat → Nat × Flags), s.Kept →
  w = fmtRegWidth f.fmt.toNat → en = pIn s f.u 14 f.p →
  (∀ fn j, r fn j = transElem fn f.fmt.toNat (decodeFmt f.fmt.toNat (elemOf (vIn s f.u 0 f.a) w j))) →
  (Ready (.vexp f) s → Elementwise (.vexp f) s f.u f.d f.lat en w (r .exp))
  ∧ (Ready (.vlog f) s → Elementwise (.vlog f) s f.u f.d f.lat en w (r .log))
  ∧ (Ready (.vsin f) s → Elementwise (.vsin f) s f.u f.d f.lat en w (r .sin))
  ∧ (Ready (.vcos f) s → Elementwise (.vcos f) s f.u f.d f.lat en w (r .cos))
  ∧ (Ready (.vtanh f) s → Elementwise (.vtanh f) s f.u f.d f.lat en w (r .tanh))
  ∧ (Ready (.vrsqrt f) s → Elementwise (.vrsqrt f) s f.u f.d f.lat en w (r .rsqrt))
  ∧ (Ready (.vrcp f) s → Elementwise (.vrcp f) s f.u f.d f.lat en w (r .rcp))
  ∧ (Ready (.vsigm f) s → Elementwise (.vsigm f) s f.u f.d f.lat en w (r .sigm)))
  ∧ ∀ (m : Nat) (is : TFn → Val → Val → Flags → Prop), (∀ fn x v fl, is fn x v fl ↔ transElem fn m x = deliver (v, fl) m .rne) →
    (∀ fn, is fn .nan .nan 0)
    ∧ (∀ n k z one, z = Val.fin false 0 0 → one = Val.fin false 1 0 → is .exp (.fin n 0 k) one 0 ∧ is .log (.fin n 0 k) (.inf true) 0
      ∧ is .log one z 0 ∧ is .sin (.fin n 0 k) (.fin n 0 0) 0 ∧ is .cos (.fin n 0 k) one 0 ∧ is .rsqrt (.fin n 0 k) (.inf n) 0
      ∧ is .rcp (.fin n 0 k) (.inf n) 0 ∧ is .exp (.inf true) z 0 ∧ is .exp (.inf false) (.inf false) 0 ∧ is .log (.inf false) (.inf false) 0
      ∧ is .log (.inf true) .nan Flags.invalid ∧ is .sin (.inf n) .nan Flags.range ∧ is .cos (.inf n) .nan Flags.range
      ∧ is .tanh (.inf n) (.fin n 1 0) 0 ∧ is .rsqrt (.inf false) z 0 ∧ is .rsqrt (.inf true) .nan Flags.invalid
      ∧ is .rcp (.inf n) (.fin n 0 0) 0 ∧ is .sigm (.inf false) one 0 ∧ is .sigm (.inf true) z 0)
    ∧ (∀ j k, j ≠ 0 → is .log (.fin true j k) .nan Flags.invalid ∧ is .rsqrt (.fin true j k) .nan Flags.invalid)
    ∧ (∀ n j k, magLt 1 20 j k = true → is .sin (.fin n j k) .nan Flags.range ∧ is .cos (.fin n j k) .nan Flags.range)
    ∧ ∀ fn x n j k, trueVal fn x = .approx (.fin n j k) →
      (magLt (2 ^ 24 - 1) 104 j k = true → is fn x (.inf n) (Flags.overflow ||| Flags.inexact))
      ∧ (magLt (2 ^ 24 - 1) 104 j k = false → ∃ c, within2ulp c (.fin n j k) = true ∧ is fn x (decodeFmt 0 c) Flags.inexact)

/-- VCMP, VSEL and the predicate logic (07 R195 to R197): VCMP holds in a cell where the condition holds of any or all of its
sub-elements; VSEL takes A's cells where PS is true, else B's; predicate logic takes its unit for one cycle. -/
def Obligations.VectorPredicates : Prop :=
  (∀ (f : VI) (s : State) (k : Nat) (x y : Nat → Val), s.Kept → k = 32 / fmtRegWidth f.fmt.toNat →
    (∀ j, x j = decodeFmt f.fmt.toNat (elemOf (vIn s f.u 0 f.a) (fmtRegWidth f.fmt.toNat) j)) →
    (∀ j, y j = decodeFmt f.fmt.toNat (elemOf (vIn s f.u 1 f.b) (fmtRegWidth f.fmt.toNat) j)) → Ready (.vcmp f) s →
    ∃ v, PredicateResult (.vcmp f) s f.u 4 (f.d.toNat % 16) f.lat (pIn s f.u 14 f.p) v
      ∧ ∀ q, q < 1024 → (v.getLsbD q = true ↔
          if f.imm.getLsbD 3 then ∃ j, j < k ∧ fCond (f.imm.toNat % 8) (x (q * k + j)) (y (q * k + j)) = true
          else ∀ j, j < k → fCond (f.imm.toNat % 8) (x (q * k + j)) (y (q * k + j)) = true))
  ∧ (∀ (f : VI) (s : State), s.Kept → Ready (.vsel f) s →
    ∃ v, VectorResult (.vsel f) s f.u f.d f.lat (pIn s f.u 14 f.p) v 0
      ∧ ∀ j, j < 32768 → v.getLsbD j = if (pIn s f.u 13 (f.imm.setWidth 4)).getLsbD (j / 32) then (vIn s f.u 0 f.a).getLsbD j
          else (vIn s f.u 1 f.b).getLsbD j)
  ∧ ∀ (f : VP) (s : State) (en p q : PReg), s.Kept → en = pIn s f.u 14 f.p → p = pIn s f.u 0 f.pa → q = pIn s f.u 1 f.pb →
    (Ready (.vpand f) s → PredicateResult (.vpand f) s f.u 1 f.pd.toNat f.lat en (p &&& q))
    ∧ (Ready (.vpor f) s → PredicateResult (.vpor f) s f.u 1 f.pd.toNat f.lat en (p ||| q))
    ∧ (Ready (.vpxor f) s → PredicateResult (.vpxor f) s f.u 1 f.pd.toNat f.lat en (p ^^^ q))

/-- Rotations, broadcasts, shuffles, permutes, transpose, moves and splats (07 R198, R200, R201, R206, R207): the source element of each
result element. `e` is the number of elements of a row. The high bits of a 4-bit or 6-bit code are zero (07 R180). -/
def Obligations.VectorMoves : Prop := ∀ (s : State) (e : Nat → Nat), s.Kept → (∀ m, e m = 2048 / fmtRegWidth m) →
  (∀ (f : VI) (m : Nat) (a b : VReg) (en : PReg) (pat : BitVec 4096), m = f.fmt.toNat → a = vIn s f.u 0 f.a → b = vIn s f.u 1 f.b →
    en = pIn s f.u 14 f.p → pat = tget (fun _ => 0) s.me.vs.sh (s.me.vs.active * 64 + f.imm.toNat % 64) →
    (Ready (.vrotr f) s → Moves (.vrotr f) s f.u f.d f.lat en (fmtRegWidth m) fun i =>
      elemOf a (fmtRegWidth m) (i / e m * e m + (i % e m + f.imm.toNat) % e m) % 2 ^ fmtWidth m)
    ∧ (Ready (.vbcr f) s → Moves (.vbcr f) s f.u f.d f.lat en (fmtRegWidth m) fun i =>
      elemOf a (fmtRegWidth m) (i / e m * e m + f.imm.toNat) % 2 ^ fmtWidth m)
    ∧ (Ready (.vrotc f) s → Moves (.vrotc f) s f.u f.d f.lat en 32 fun i => elemOf a 32 ((i / 64 + f.imm.toNat) % 16 * 64 + i % 64))
    ∧ (Ready (.vbcc f) s → Moves (.vbcc f) s f.u f.d f.lat en 32 fun i => elemOf a 32 (f.imm.toNat * 64 + i % 64))
    ∧ (Ready (.vperm f) s → Moves (.vperm f) s f.u f.d f.lat en 8 fun i =>
      elemOf a 8 (i / 256 * 256 + elemOf b 8 ((if 16 ≤ f.imm.toNat then f.imm.toNat % 16 else i / 256) * 256 + i % 256)))
    ∧ (Ready (.vshuf f) s → Moves (.vshuf f) s f.u f.d f.lat en 8 fun i =>
      let n := bitsAt pat.toNat (16 * (i % 256)) 16
      if 2 ^ 15 ≤ n then 0 else if n % 512 < 256 then elemOf a 8 (i / 256 * 256 + n % 512) else elemOf b 8 (i / 256 * 256 + (n % 512 - 256)))
    ∧ (Ready (.vsplats f) s → Moves (.vsplats f) s f.u f.d f.lat en (fmtRegWidth m) fun _ =>
      (readS s s.cur false (fkey s (unitNum f.u) 3) (f.a.setWidth 7)).toNat % 2 ^ fmtWidth m))
  ∧ (∀ (f : V3) (w : Nat) (a : VReg) (en : PReg), w = fmtRegWidth f.fmt.toNat → a = vIn s f.u 0 f.a → en = pIn s f.u 14 f.p →
    (Ready (.vtrn f) s → Moves (.vtrn f) s f.u f.d f.lat en w fun i =>
      elemOf a w (i % e f.fmt.toNat % 16 * e f.fmt.toNat + i % e f.fmt.toNat / 16 * 16 + i / e f.fmt.toNat) % 2 ^ fmtWidth f.fmt.toNat)
    ∧ (Ready (.vmov f) s → VectorResult (.vmov f) s f.u f.d f.lat en a 0))
  ∧ ∀ (f : VL), Ready (.vsplati f) s → Moves (.vsplati f) s f.u f.d f.lat (pIn s f.u 14 f.p) (fmtRegWidth f.fmt.toNat) fun _ =>
      if f.fmt = 3 then (f.imm.signExtend 32).toNat else if f.fmt = 0 then f.imm.toNat % 2 ^ 16 * 2 ^ 16
      else f.imm.toNat % 2 ^ fmtWidth f.fmt.toNat

/-- VREDR and VREDC (07 R199): one reduction for each row, or for each element place down the column; its flags are raised where an enabled
cell receives it. A reduction runs the pairwise tree over its inputs in index order (`node k j` is value `j` after `k` rounds): SUM rounds to
fp32 at every pair, exact for an integer format, MAX, MIN and AMAX are those of R186; the last value is rounded once into F, and every flag
that a pair or that rounding raises counts. Choices of the model's in it: log 8. -/
def Obligations.Reductions : Prop := ∀ (f : VI) (s : State) (m w e : Nat) (a : VReg) (en : PReg) (all : Bool) (red : List Nat → Nat × Flags),
  s.Kept → m = f.fmt.toNat → w = fmtRegWidth m → e = 2048 / w → a = vIn s f.u 0 f.a → en = pIn s f.u 14 f.p → all = f.imm.getLsbD 2 →
  (∀ l, red l = reduce m (f.imm.toNat % 4) (l.map fun i => decodeFmt m (elemOf a w i))) →
  (∀ row : Nat → Nat × Flags, (∀ n, row n = red ((List.range e).map fun i => n * e + i)) → Ready (.vredr f) s →
    ∃ v fl, VectorResult (.vredr f) s f.u f.d f.lat en v fl
      ∧ (∀ i, i < 16 * e → elemOf v w i = if all = true ∨ i % e = 0 then (row (i / e)).1 % 2 ^ w else 0)
      ∧ ∀ j, fl.getLsbD j = true ↔ ∃ n q, n < 16 ∧ q < 64 ∧ (all = true ∨ q = 0) ∧ en.getLsbD (64 * n + q) = true ∧ (row n).2.getLsbD j = true)
  ∧ (∀ col : Nat → Nat × Flags, (∀ i, col i = red ((List.range 16).map fun n => n * e + i)) → Ready (.vredc f) s →
    ∃ v fl, VectorResult (.vredc f) s f.u f.d f.lat en v fl
      ∧ (∀ i, i < 16 * e → elemOf v w i = if all = true ∨ i < e then (col (i % e)).1 % 2 ^ w else 0)
      ∧ ∀ j, fl.getLsbD j = true ↔ ∃ i n, i < e ∧ n < 16 ∧ (all = true ∨ n = 0) ∧ en.getLsbD (64 * n + cellOf w i) = true
          ∧ (col i).2.getLsbD j = true)
  ∧ (∀ (n : Nat) (l : List Nat) (node : Nat → Nat → VF) (rnd : VF → VF), l.length = 2 ^ n →
    (∀ q, rnd q = (decodeFmt 0 (deliver q 0 .rne).1, (deliver q 0 .rne).2)) →
    (∀ j i, l[j]? = some i → node 0 j = (decodeFmt m (elemOf a w i), 0)) →
    (∀ k j x y r, x = node k (2 * j) → y = node k (2 * j + 1) →
      r = (if f.imm.toNat % 4 = 0 then (if fmtInteger m = true then vAdd x.1 y.1 else rnd (vAdd x.1 y.1))
        else if f.imm.toNat % 4 = 1 then vMax x.1 y.1 else if f.imm.toNat % 4 = 2 then vMin x.1 y.1 else vMax (vAbs x.1) (vAbs y.1)) →
      node (k + 1) j = (r.1, x.2 ||| y.2 ||| r.2)) →
    red l = deliver (node n 0) m .rne)

/-- VPATLD, VPATSW and VCTLD (07 R202 to R204, 01 R29 to R31): a pattern on its way to the bank that is inactive when it lands, the swap of
the banks, and a code table seen by later bundles. -/
def Obligations.PatternsAndTables : Prop := ∀ (s : State), s.Kept →
  (∀ f, Ready (.vpatld f) s → Becomes (.vpatld f) s (withVector s f.u 4
    (.pat (f.imm.toNat % 64) (BitVec.ofNat 4096 (bitsAt (vIn s f.u 0 f.a).toNat (4096 * (f.imm.toNat / 64)) 4096))) false 8 0))
  ∧ (∀ f, Ready (.vpatsw f) s → Becomes (.vpatsw f) s
      { takeUnit f.u 1 s.me with vs := { (takeUnit f.u 1 s.me).vs with active := 1 - s.me.vs.active } })
  ∧ (∀ f, Ready (.vctld f) s → Becomes (.vctld f) s (withVector s f.u 4
    (.ctab (f.imm.toNat % 4) (BitVec.ofNat 256 (bitsAt (vIn s f.u 0 f.a).toNat (2048 * (f.imm.toNat / 4 % 16)) 256))) false 1 0))

/-! ## The LD and ST slots -/

/-- The scalar loads (09 R236, R241, R242): one entry of the load queue, of the form's size and extension, bound for s[D]. -/
def Obligations.ScalarLoads : Prop := ∀ (m : MemOp) (s : State) (A : Word) (sp : Space) (place : Nat → Option Phys)
    (one : Nat → Nat → Bool → Acc), s.Kept → Addressed s 4 m sp A place →
  (∀ opc n sg, one opc n sg = entry s (.ldS n sg) (.s m.d.toNat) sp opc A.toNat false [⟨A.toNat, n, 0, place A.toNat⟩] 0) →
  (Ready (.ldb m) s → Enters (.ldb m) s s.me (one 1 1 true) false)
  ∧ (Ready (.ldbu m) s → Enters (.ldbu m) s s.me (one 2 1 false) false)
  ∧ (Ready (.ldh m) s → Enters (.ldh m) s s.me (one 3 2 true) false)
  ∧ (Ready (.ldhu m) s → Enters (.ldhu m) s s.me (one 4 2 false) false)
  ∧ (Ready (.ldw m) s → Enters (.ldw m) s s.me (one 5 4 true) false)
  ∧ (Ready (.ldwu m) s → Enters (.ldwu m) s s.me (one 6 4 false) false)
  ∧ (Ready (.ldd m) s → Enters (.ldd m) s s.me (one 7 8 false) false)

/-- LDV, LDVS and LDVG (09 R243, R244): the parts of the 4,096 bytes, bound for the destination as RRB names it now. -/
def Obligations.VectorLoads : Prop := ∀ (s : State) (dest : BitVec 9 → LDest) (sp : Space) (place : Nat → Option Phys), s.Kept →
  (∀ d, dest d = match vdestOf s.me d with
    | some v => .v v
    | none => .none) →
  (∀ (m : MemOp) (A : Word), Addressed s 4 m sp A place → Ready (.ldv m) s →
    Enters (.ldv m) s s.me (entry s .ldV (dest m.d) sp 8 A.toNat false (vectorPieces A place) 0) false)
  ∧ (∀ (m : MemOp) (A stride : Word), Strided s 4 m sp A stride place → Ready (.ldvs m) s →
    Enters (.ldvs m) s s.me (entry s .ldV (dest m.d) sp 9 A.toNat false (stridedPieces A stride place) 0) false)
  ∧ (∀ (m : GatOp) (vx : VReg) (l : List Piece), Spaced s m.as sp place → vx = readV s s.cur (fkey s 4 2) m.vx →
    l = gatherPieces (s.operand 4 0 m.a) m.off vx m.esz.toNat place → Ready (.ldvg m) s →
    Enters (.ldvg m) s s.me (entry s .ldV (dest m.d) sp 10 ((l.map (·.addr)).headD 0) true l 0) false)

/-- The stores (09 R250 to R252): one entry of the store queue with the bytes taken at issue. -/
def Obligations.StoresEnter : Prop := ∀ (s : State) (sp : Space) (place : Nat → Option Phys), s.Kept →
  (∀ (m : MemOp) (A : Word) (v : Word) (one : Nat → Nat → Acc), Addressed s 5 m sp A place → v = s.operand 5 4 (m.d.setWidth 7) →
    (∀ opc n, one opc n = entry s .st .none sp opc A.toNat false [⟨A.toNat, n, 0, place A.toNat⟩] (BitVec.ofNat 32768 (v.toNat % 2 ^ (8 * n)))) →
    (Ready (.stb m) s → Enters (.stb m) s s.me (one 1 1) true) ∧ (Ready (.sth m) s → Enters (.sth m) s s.me (one 2 2) true)
    ∧ (Ready (.stw m) s → Enters (.stw m) s s.me (one 3 4) true) ∧ (Ready (.std m) s → Enters (.std m) s s.me (one 4 8) true)
    ∧ (Ready (.stv m) s → Enters (.stv m) s s.me
        (entry s .st .none sp 5 A.toNat false (vectorPieces A place) (readV s s.cur (fkey s 5 4) m.d)) true))
  ∧ (∀ (m : MemOp) (A stride : Word), Strided s 5 m sp A stride place → Ready (.stvs m) s → Enters (.stvs m) s s.me
      (entry s .st .none sp 6 A.toNat false (stridedPieces A stride place) (readV s s.cur (fkey s 5 4) m.d)) true)
  ∧ (∀ (m : GatOp) (vx : VReg) (l : List Piece), Spaced s m.as sp place → vx = readV s s.cur (fkey s 5 2) m.vx →
    l = gatherPieces (s.operand 5 0 m.a) m.off vx m.esz.toNat place → Ready (.stvx m) s → Enters (.stvx m) s s.me
      (entry s .st .none sp 7 ((l.map (·.addr)).headD 0) true l (readV s s.cur (fkey s 5 4) m.d)) true)

/-- The atomics (09 R253): one entry of the store queue with operand, compare value and OLD address taken at issue; the token is pending. -/
def Obligations.AtomicsEnter : Prop := ∀ (m : AtmOp) (s : State) (sp : Space) (place : Nat → Option Phys) (A : Word) (w : Nat)
    (one : Nat → AtomKind → Nat → Acc) (k : Core), s.Kept → Spaced s m.as sp place → A = s.operand 5 0 m.a + m.off.signExtend 64 →
  w = (if m.w = 0 then 4 else 8) → k = pending (some m.tk.toNat) s.me →
  (∀ opc op n, one opc op n = entry s (.atom op (BitVec.ofNat 64 ((s.operand 5 4 (m.d.setWidth 7)).toNat % 2 ^ (8 * n)))
      (BitVec.ofNat 64 ((s.operand 5 5 m.x).toNat % 2 ^ (8 * n))) (if m.old = 0 then none else some (s.operand 5 3 m.old).toNat)
      m.tk.toNat m.fl.toNat m.scope.toNat) .none sp opc A.toNat false [⟨A.toNat, n, 0, place A.toNat⟩]
      (BitVec.ofNat 32768 ((s.operand 5 4 (m.d.setWidth 7)).toNat % 2 ^ (8 * n)))) →
  (Ready (.aadd m) s → Enters (.aadd m) s k (one 8 .add w) true) ∧ (Ready (.aand m) s → Enters (.aand m) s k (one 9 .and w) true)
  ∧ (Ready (.aor m) s → Enters (.aor m) s k (one 10 .or w) true) ∧ (Ready (.axor m) s → Enters (.axor m) s k (one 11 .xor w) true)
  ∧ (Ready (.amin m) s → Enters (.amin m) s k (one 12 .min w) true) ∧ (Ready (.aminu m) s → Enters (.aminu m) s k (one 13 .minu w) true)
  ∧ (Ready (.amax m) s → Enters (.amax m) s k (one 14 .max w) true) ∧ (Ready (.amaxu m) s → Enters (.amaxu m) s k (one 15 .maxu w) true)
  ∧ (Ready (.axch m) s → Enters (.axch m) s k (one 16 .xchg w) true) ∧ (Ready (.acas m) s → Enters (.acas m) s k (one 17 .cas w) true)
  ∧ (Ready (.afadd m) s → Enters (.afadd m) s k (one 18 (if m.w = 1 then .faddBf else .fadd) 4) true)

/-- PROBE, PWAIT and PREF of a task (09 R246 to R248, 02 R53, R54): a hit gives its slot's offset; a miss takes the victim's slot, begins
the fill of the block and branches; either makes its slot the most recently used of its set, with the lock bit that LK says; with every slot
of the set locked the result is all ones, the branch is taken and no tag changes. PWAIT past its wait changes nothing, and PREF nothing but
cached translations. LLCLK and LLCUL of a task (02 R50, R51; 09 R249), after the walk `u` that a miss of the core's cache makes: where the
address translates, the status is on its way to s[D], and a success adds or takes away the one lock; where it does not, the access is held
with its report; no probe tag, no integrity tag and no other lock changes. While the walk waits at the home of a table entry, the access is
kept with the core's misses and nothing else happens yet. Choices of the model's in it: log 19, 46, 87, 92, 120. -/
def Obligations.ProbeAndLineLocks : Prop :=
  (∀ (s : State), s.Kept → s.inF = false →
    (∀ (m : PrbOp) (block n : Nat) (arrive : Word → Core → Core), block = (s.operand 4 0 m.a).toNat / 256 →
      (∀ v k, arrive v k = { k with t := { k.t with arrivals := k.t.arrivals ++ [⟨k.t.seq, .s m.d.toNat, v.setWidth 32768, 0, false⟩] } }) →
      Ready (.probe m) s →
      ((waysOf (block % probeSets s.me)).find? (fun w => (tagAt s.me w).valid && decide ((tagAt s.me w).block = block)) = some n →
        ∃ k, Becomes (.probe m) s (arrive (BitVec.ofNat 64 (probeBase s.me + n * 256)) k) ∧ k = { s.me with tags := k.tags }
          ∧ (twf (fun _ => Tag.reset) s.me.tags = true → Probed s.me k (block % probeSets s.me) n m.lk (tagAt s.me n)))
      ∧ ((∀ w, w ∈ waysOf (block % probeSets s.me) → ¬ ((tagAt s.me w).valid = true ∧ (tagAt s.me w).block = block)) →
        (victimOf s s.me (block % probeSets s.me) = none →
          Becomes (.probe m) s (jumping false (relTarget s.me.t.pc m.off) (arrive (BitVec.allOnes 64) s.me)))
        ∧ (victimOf s s.me (block % probeSets s.me) = some n → ∃ k, Enters (.probe m) s k
            (entry s .fill (.fill (probeBase s.me + n * 256) n block) .glob 11 (block * 256) false
              ((List.range 8).map fun i => ⟨block * 256 + 32 * i, 32, 32 * i, none⟩) 0) false
          ∧ k.t = { s.me.t with arrivals := s.me.t.arrivals ++ [⟨s.me.t.seq, .s m.d.toNat,
                      (BitVec.ofNat 64 (probeBase s.me + n * 256)).setWidth 32768, 0, false⟩],
                                jump := some (relTarget s.me.t.pc m.off) }
          ∧ k = { s.me with t := k.t, tags := k.tags } ∧ (twf (fun _ => Tag.reset) s.me.tags = true →
              Probed s.me k (block % probeSets s.me) n m.lk { tagAt s.me n with block := block, valid := true, fill := some s.me.t.seq }))))
    ∧ (∀ m, Ready (.pwait m) s → Nothing (.pwait m) s)
    ∧ (∀ (m : LnOp) (va : Nat), va = (s.operand 4 0 m.a + m.off.signExtend 64).toNat / 64 * 64 → Ready (.pref m) s → ∃ t,
        exec (.pref m) s = .next t ∧ t.core s.cur = { s.me with xlat := (t.core s.cur).xlat } ∧ (∀ d, d ≠ s.cur → t.core d = s.core d)
        ∧ (2 ^ 48 ≤ va ∨ (coreCached s s.cur va).isSome = true → t = { s with missQ := t.missQ, fresh := t.fresh })
        ∧ (WalkClean s s.me.ident.ctx va → t = { s with cores := t.cores, tlb := t.tlb, missQ := t.missQ, acnt := t.acnt, fresh := t.fresh })))
  ∧ (∀ (m : LnOp) (s u : State) (va : Nat) (lock : Bool) (i : Instr), s.Kept → s.inF = false →
    va = (s.operand 4 0 m.a + m.off.signExtend 64).toNat → i = (if lock then .llclk m else .llcul m) → Ready i s →
    u = missServed (fillX s s.cur va) s.cur s.me.t.seq →
    (∀ y, xlatWaitsAt s s.cur false va = true →
      y = { s.me.t with lineQ := s.me.t.lineQ ++ [⟨s.me.t.seq, .line lock, .s m.d.toNat, .glob, if lock then 14 else 15, s.me.t.pc, va,
              false, [⟨va, 1, 0, none⟩], 0, false, false, false⟩], seq := s.me.t.seq + 1 } →
      ∃ t, exec i s = .next t ∧ t.core s.cur = { s.me with t := y } ∧ (∀ d, d ≠ s.cur → t.core d = s.core d)
        ∧ t = { s with
            cores := t.cores, fresh := t.fresh,
            missQ := if (s.cur, s.me.t.seq) ∈ s.missQ ∨ (coreCached s s.cur va).isSome = true then s.missQ
              else s.missQ ++ [(s.cur, s.me.t.seq)] })
    ∧ (u.core s.cur = { s.me with xlat := (u.core s.cur).xlat } ∧ ∀ d, d ≠ s.cur → u.core d = s.core d)
    ∧ ((coreCached s s.cur va).isSome = true → u = { s with missQ := u.missQ })
    ∧ (WalkClean s s.me.ident.ctx va → u = { s with cores := u.cores, tlb := u.tlb, missQ := u.missQ, acnt := u.acnt, fresh := u.fresh })
    ∧ (∀ x st y, xlatWaitsAt s s.cur false va = false → translateFor s s.cur false va needRead = .ok x → st = lineStatus u s.cur lock x.pa →
      y = { s.me.t with arrivals := s.me.t.arrivals ++ [⟨s.me.t.seq, .s m.d.toNat, (BitVec.ofNat 64 st).setWidth 32768, 0, false⟩] } →
      ∃ t, exec i s = .next t ∧ t.core s.cur = { (u.core s.cur) with t := y } ∧ (∀ d, d ≠ s.cur → t.core d = s.core d)
        ∧ (t.core s.cur).tags = s.me.tags ∧ LineActs u t lock x s.me.ident.ctx st)
    ∧ (∀ cause sub y, xlatWaitsAt s s.cur false va = false → translateFor s s.cur false va needRead = .fail cause sub →
      y = { s.me.t with lineQ := s.me.t.lineQ ++ [⟨s.me.t.seq, .line lock, .s m.d.toNat, .glob, if lock then 14 else 15, s.me.t.pc, va,
              false, [⟨va, 1, 0, none⟩], 0, false, true, false⟩], seq := s.me.t.seq + 1 } →
      ∃ t, exec i s = .next t ∧ (∀ d, d ≠ s.cur → t.core d = s.core d) ∧ t = { u with cores := t.cores, fresh := t.fresh }
        ∧ t.core s.cur = { (u.core s.cur) with
            t := y, reports := s.me.reports ++ [⟨cause.code, sub, BitVec.ofNat 64 va, s.me.t.pc, 4, maskBut 4, true, false, true, 0⟩] }))

/-! ## The MX and CP slots -/

/-- MLEASE past its wait changes nothing, and MREL ends its core's lease alone (04 R120, 08 R210, R211). The hearth commands (08 R208, R212
to R217): each is sent with what it captures; MWLD, and MDRN to memory, capture the shape after their swap. Choices of the model's in it:
log 12, 98. -/
def Obligations.LeaseAndHearthCommands : Prop :=
  (∀ (e : EC) (s : State), s.Kept →
    (Ready (.mlease e) s → Nothing (.mlease e) s)
    ∧ (Ready (.mrel e) s → holdsLease s s.cur = false → Nothing (.mrel e) s)
    ∧ (Ready (.mrel e) s → holdsLease s s.cur = true → ∃ t, exec (.mrel e) s = .next t
        ∧ t.hearth (hearthOf s.cur) = { s.hearth (hearthOf s.cur) with holder := none, left := 0, lastHolder := some s.me.ident.task }
        ∧ (∀ h, h ≠ hearthOf s.cur → t.hearth h = s.hearth h) ∧ t = { s with hearths := t.hearths, fresh := t.fresh }))
  ∧ (∀ (s : State), s.Kept →
    (∀ f, Ready (.mmode f) s → ∃ m, SendsMx (.mmode f) s s.me m ∧ Captured s (.mmode f) f.e (mxIn s 0 f.s) 0 0 0 0 none m)
    ∧ (∀ f, Ready (.mclr f) s → ∃ m, SendsMx (.mclr f) s s.me m ∧ Captured s (.mclr f) f.e (mxIn s 0 f.s) 0 0 0 0 none m)
    ∧ (∀ f, Ready (.mstat f) s → ∃ m, SendsMx (.mstat f) s s.me m
        ∧ Captured s (.mstat f) f.e (mxIn s 0 f.s) (mxIn s 1 f.a) 0 0 0 none m)
    ∧ (∀ f, Ready (.mmac f) s → ∃ m, SendsMx (.mmac f) s s.me m
        ∧ Captured s (.mmac f) f.e (mxIn s 0 f.s) 0 0 0 (readV s s.cur (fkey s 3 4) f.v) none m)
    ∧ (∀ f, Ready (.mwld f) s → ∃ m, SendsMx (.mwld f) s (swapped f.e 0 s.me) m
        ∧ Captured s (.mwld f) f.e (mxIn s 0 f.s) 0 0 (shapeAt s.me f.e 0) 0 none m)
    ∧ (∀ f : MDrnOp, f.dst = 0 → Ready (.mdrn f) s → ∃ m, SendsMx (.mdrn f) s s.me m
        ∧ Captured s (.mdrn f) f.e (mxIn s 0 f.s) 0 0 0 0 (vdestOf s.me f.v) m)
    ∧ (∀ f : MDrnOp, f.dst = 1 → Ready (.mdrn f) s → ∃ m, SendsMx (.mdrn f) s (swapped f.e 0 s.me) m
        ∧ Captured s (.mdrn f) f.e (mxIn s 0 f.s) (mxIn s 1 (f.v.setWidth 7)) 0 (shapeAt s.me f.e 0) 0 none m))

/-- The copy and link commands (08 R208, R218 to R226) enter the CP queue of their core; CPYL, CPYS and CPFILL capture a shape of cz0 to cz3
after their swap. The bank commands (08 R208, R229, R230) enter the CP queue of their core. Choices of the model's in it: log 12, 48, 98. -/
def Obligations.CopyLinkAndBankCommands : Prop :=
  (∀ (f : CpOp) (s : State) (a b c : Word), s.Kept → a = cpIn s 0 f.a → b = cpIn s 1 f.b →
    c = cpIn s 2 f.c →
    (Ready (.cpyl f) s → ∃ m, SendsCp (.cpyl f) s (swapped f.e 4 s.me) m ∧ Captured s (.cpyl f) f.e a b c (shapeAt s.me f.e 4) 0 none m)
    ∧ (Ready (.cpys f) s → ∃ m, SendsCp (.cpys f) s (swapped f.e 4 s.me) m ∧ Captured s (.cpys f) f.e a b c (shapeAt s.me f.e 4) 0 none m)
    ∧ (Ready (.cpfill f) s → ∃ m, SendsCp (.cpfill f) s (swapped f.e 4 s.me) m ∧ Captured s (.cpfill f) f.e a b c (shapeAt s.me f.e 4) 0 none m)
    ∧ (Ready (.cpyc f) s → ∃ m, SendsCp (.cpyc f) s s.me m ∧ Captured s (.cpyc f) f.e a b c 0 0 none m)
    ∧ (Ready (.lxfr f) s → ∃ m, SendsCp (.lxfr f) s s.me m ∧ Captured s (.lxfr f) f.e a b c 0 0 none m))
  ∧ (∀ (f : BkOp) (s : State) (a b c : Word), s.Kept → a = cpIn s 0 f.a → b = cpIn s 1 f.b →
    c = cpIn s 2 f.c →
    (Ready (.bkmac f) s → ∃ m, SendsCp (.bkmac f) s s.me m ∧ Captured s (.bkmac f) f.e a b c 0 0 none m)
    ∧ (Ready (.bkkey f) s → ∃ m, SendsCp (.bkkey f) s s.me m ∧ Captured s (.bkkey f) f.e a b c 0 0 none m)
    ∧ (Ready (.bkcmp f) s → ∃ m, SendsCp (.bkcmp f) s s.me m ∧ Captured s (.bkcmp f) f.e a b c 0 0 none m)
    ∧ (Ready (.bkwr f) s → ∃ m, SendsCp (.bkwr f) s s.me m ∧ Captured s (.bkwr f) f.e a b c 0 0 none m)
    ∧ (Ready (.bktt f) s → ∃ m, SendsCp (.bktt f) s s.me m ∧ Captured s (.bktt f) f.e a b c 0 0 none m)
    ∧ (Ready (.bkrd f) s → ∃ m, SendsCp (.bkrd f) s s.me m ∧ Captured s (.bkrd f) f.e a b c 0 0 none m))

/-! ## The SY slot -/

/-- BARA, BARW, BARAW and BARCFG (09 R256, R257): an arrival is queued and becomes the record of its index; BARAW also makes the next bundle
wait; a BARCFG with no earlier operation of the task on its barrier sets the participant count at the home, at once where no arrival of the
generation has counted, else from the next generation on. Choices of the model's in it: log 88. -/
def Obligations.BarrierInstructions : Prop := ∀ (s : State) (arrived : BarOp → Core), s.Kept → s.inF = false →
  (∀ m, arrived m = { s.me with
    barQ := s.me.barQ ++ [⟨m.bar.toNat, m.hstg.toNat, m.htsk.toNat, none, s.me.t.seq⟩],
    arecs := tset (fun _ => none) s.me.arecs m.bar.toNat (some ⟨m.hstg.toNat, m.htsk.toNat, 0, s.me.t.seq, false⟩),
    t := { s.me.t with seq := s.me.t.seq + 1 } }) →
  (∀ m, Ready (.bara m) s → Becomes (.bara m) s (arrived m))
  ∧ (∀ m, Ready (.barw m) s → Nothing (.barw m) s)
  ∧ (∀ m, Ready (.baraw m) s → Becomes (.baraw m) s { arrived m with bawait := some m.bar.toNat })
  ∧ (∀ (m : BarCfgOp) (behind : Prop),
      (behind ↔ ∃ r, r ∈ s.me.barQ ∧ r.bar = m.bar.toNat ∧ r.stage = m.hstg.toNat ∧ r.task = m.htsk.toNat) → Ready (.barcfg m) s →
      (behind → Becomes (.barcfg m) s { s.me with
        barQ := s.me.barQ ++ [⟨m.bar.toNat, m.hstg.toNat, m.htsk.toNat, some (m.cnt.toNat + 1), s.me.t.seq⟩],
        t := { s.me.t with seq := s.me.t.seq + 1 } })
      ∧ (¬ behind → ∀ home b b', laneCore s s.cur m.hstg.toNat m.htsk.toNat = some home → b = barAt s home m.bar.toNat →
          b' = (if b.arr = 0 then { b with cnt := m.cnt.toNat + 1 } else { b with pendCnt := some (m.cnt.toNat + 1) }) →
          ∃ t, exec (.barcfg m) s = .next t ∧ t = { s with cores := t.cores, fresh := t.fresh } ∧ (∀ d, d ≠ home → t.core d = s.core d)
            ∧ t.core home = { s.core home with bars := tset (fun _ => Barrier.reset) (s.core home).bars m.bar.toNat b' }))

/-- TOKW, TOKST, CTRW and WPW past their waits (09 R258 to R260): TOKST makes its token pending until the accesses ahead of it perform; the
others leave no register, byte or token changed, and CTRW forgets its stall: nothing else changes where a read of a stalled cycle has
released it, and where this read does, only what a miss and the read of a plain sector leave (log 60). QMARK and the fences (09 R261, 02
R60, R63): one entry under one number in both queues; one that nothing ahead holds leaves at once. -/
def Obligations.TokensMarksAndFences : Prop :=
  (∀ (s : State), s.Kept →
    (∀ m, Ready (.tokw m) s → Nothing (.tokw m) s) ∧ (∀ m, Ready (.wpw m) s → Nothing (.wpw m) s)
    ∧ (∀ m, Ready (.tokst m) s → Becomes (.tokst m) s
        { s.me with tkPending := s.me.tkPending ||| (1#64 <<< m.tk.toNat), toksts := s.me.toksts ++ [⟨m.tk.toNat, s.me.t.seq⟩] })
    ∧ (∀ (m : CtrwOp) (a thr : Word), (a, thr) = ctrwArgs s s.cur m → Ready (.ctrw m) s →
        (∃ t, exec (.ctrw m) s = .next t ∧ t.core s.cur = { s.me with ctrw := none, xlat := (t.core s.cur).xlat }
          ∧ (∀ d, d ≠ s.cur → t.core d = s.core d)
          ∧ (∀ x, WalkClean s s.me.ident.ctx a.toNat → translateAt s s.cur a.toNat needRead = .ok (.plain x) → Pad s x 8 ∨ Dram s x 8 →
              SameMem s t ∧ t = { s with cores := t.cores, tlb := t.tlb, missQ := t.missQ, acnt := t.acnt, heatQ := t.heatQ, fresh := t.fresh }))
        ∧ (s.me.ctrw = some (a, thr, true) → Becomes (.ctrw m) s { s.me with ctrw := none })))
  ∧ (∀ (m : SyOp) (s : State) (mark : AccKind → Nat → Acc), s.Kept →
    (∀ kind opc, mark kind opc = entry s kind .none .loc opc 0 false [] 0) →
    ∀ (i : Instr) (kind : AccKind) (opc : Nat), (i = .qmark m ∧ kind = .mark ∧ opc = 9) ∨ (i = .fenceT m ∧ kind = .fence 0 ∧ opc = 10)
        ∨ (i = .fenceG m ∧ kind = .fence 1 ∧ opc = 10) ∨ (i = .fenceD m ∧ kind = .fence 2 ∧ opc = 10)
        ∨ (i = .fenceS m ∧ kind = .fence 3 ∧ opc = 10) → Ready i s →
      (∃ l q, Becomes i s (s.me.setCtx s.inF { s.ctx with loadQ := l, storeQ := q, seq := s.ctx.seq + 1 })
        ∧ l <:+ s.ctx.loadQ ++ [mark kind opc] ∧ q <:+ s.ctx.storeQ ++ [mark kind opc])
      ∧ (s.ctx.loadQ = [] → s.ctx.storeQ = [] → Becomes i s (s.me.setCtx s.inF { s.ctx with seq := s.ctx.seq + 1 })))

/-- RINGCFG, SIGNAL and DQADV (09 R262 to R265): the descriptor at the task and the barrier pair at the home, the pointers zero with INIT;
an entry of the store queue for each signal and queue advance. YIELD and WAITY (09 R266 to R268, 01 R42): a yield with no next record in
force on a core of its gang, and a WAITY whose condition holds, change nothing; else every task of the gang is to stop at its next bundle
boundary, the first reason standing, and a WAITY is kept with its block and with the conditions whose address has failed, which are false
from then on, the first of them reported. Choices of the model's in it: log 63, 93. -/
def Obligations.RingsSignalsAndYields : Prop :=
  (∀ (s : State), s.Kept →
    (∀ (m : RingCfgOp) (r : Ring) (home : Nat) (h : RingHome), r = ⟨syIn s 0 m.a, syIn s 1 m.b⟩ →
      laneCore s s.cur r.hstg r.htsk = some home → h = tget (fun _ => RingHome.reset) (s.core home).ringHome m.ring.toNat →
      Ready (.ringcfg m) s → ∃ t, exec (.ringcfg m) s = .next t ∧ t = { s with cores := t.cores, fresh := t.fresh }
        ∧ (∀ d, d ≠ s.cur → d ≠ home → t.core d = s.core d)
        ∧ t.me.rings = tset (fun _ => none) s.me.rings m.ring.toNat (some r)
        ∧ (t.core home).ringHome = tset (fun _ => RingHome.reset) (s.core home).ringHome m.ring.toNat
            (if r.init then { h with pair := some (r.pbar, r.cbar), pp := 0, cp := 0 } else { h with pair := some (r.pbar, r.cbar) })
        ∧ t.me.t = s.me.t ∧ t.me.vs = s.me.vs)
    ∧ (∀ (m : SabOp) (a : Nat), a = (syIn s 0 m.a).toNat →
      (Ready (.signalStore m) s → Enters (.signalStore m) s s.me
        (entry s (.sig false) .none .glob 12 a false [⟨a, 8, 0, none⟩] ((syIn s 1 m.b).setWidth 32768)) true)
      ∧ (Ready (.signalAdd m) s → Enters (.signalAdd m) s s.me
        (entry s (.sig true) .none .glob 12 a false [⟨a, 8, 0, none⟩] ((syIn s 1 m.b).setWidth 32768)) true)
      ∧ (Ready (.dqadv m) s → Enters (.dqadv m) s s.me
        (entry s (.dqadv a (syIn s 1 m.b)) .none .loc 13 0 false [] ((syIn s 1 m.b).setWidth 32768)) true)))
  ∧ (∀ (s : State) (stops : Why → State → Prop), s.Kept → s.inF = false →
    (∀ w t, stops w t ↔ ∀ d, (t.core d).why = if d < 128 ∧ (s.core d).bound = true ∧ (s.core d).ident.gang = s.me.ident.gang then
        some ((s.core d).why.getD w) else (s.core d).why) →
    (∀ m, Ready (.yield m) s →
      ((∀ d, d ∈ gangCores s s.me.ident.gang → nextValid s d = false) → Nothing (.yield m) s)
      ∧ ((∃ d, d ∈ gangCores s s.me.ident.gang ∧ nextValid s d = true) → ∃ t, exec (.yield m) s = .next t ∧ stops .yield t
          ∧ (∀ d, t.core d = { s.core d with why := (t.core d).why }) ∧ t = { s with cores := t.cores, fresh := t.fresh }))
    ∧ (∀ (m : WaityOp) (a : Nat) (b : List Byte) (own : Parent) (bad : List (Nat × Cause × Nat)) (w : Susp), a = (syIn s 0 m.a).toNat →
      b = localBytes s s.cur a 128 → own = parentOf s s.me s.me.t.pc → bad = blockFails s s.me.ident.ctx [] b →
      w = ⟨s.me.ident.gang, s.cur, s.me.t.pc, s.me.ident.save, a, b, s.me.ident.ctx, own, bad.map (·.1)⟩ → Ready (.waity m) s →
      (blockHolds s s.me.ident.ctx own [] b = true → ∃ t, exec (.waity m) s = .next t ∧ t.susps = s.susps
        ∧ t.core s.cur = { s.me with xlat := (t.core s.cur).xlat } ∧ (∀ d, d ≠ s.cur → t.core d = s.core d)
        ∧ (waitConds b = [] → t = { s with missQ := t.missQ, fresh := t.fresh }))
      ∧ (blockHolds s s.me.ident.ctx own [] b = false → ∃ t, exec (.waity m) s = .next t ∧ stops .waity t ∧ t.susps = s.susps ++ [w]
          ∧ (∀ d, t.core d = { s.core d with why := (t.core d).why, reports := (t.core d).reports, xlat := (t.core d).xlat })
          ∧ (∀ d, d ≠ s.cur → (t.core d).xlat = (s.core d).xlat ∧ (t.core d).reports = (s.core d).reports)
          ∧ (bad = [] → t.me.reports = s.me.reports
              ∧ (waitConds b = [] → t = { s with cores := t.cores, susps := t.susps, missQ := t.missQ, fresh := t.fresh }))
          ∧ ∀ f rest, bad = f :: rest → t.me.reports = s.me.reports ++ [waityReport w f.2.1 f.2.2])))

/-! ## Events of a core -/

/-- RESULT_LAND, VPATLD_COMPLETE, VECTOR_UNIT_FREE and LOAD_LAND (01 R13 to R15, R18, R20; 03 R88): a result that lands writes its
destination and, while its push owns one, its queue entry, and raises its flags; a load's value that lands writes its register alone.
Choices of the model's in it: log 90. -/
def Obligations.ResultsLand : Prop := ∀ (c n j : Nat) (f : Bool) (s : State) (k : Core) (x : SCtx) (i lat : Nat) (fl : Flags) (own : Option Nat),
  s.Kept → k = s.core c → x = k.ctx f →
  (∀ d v p, p = ⟨.scal d v, own, i, lat, fl, false⟩ → InFlight k n f j p → exec (.resultLand c n) s = .next (s.setCore c
    (noted f j p (k.setCtx f { x with
      vflags := x.vflags ||| fl, s := if d = 0 then x.s else tset (fun _ => 0) x.s d v,
      saq := match own with
        | some q => if x.sapc ≤ q + 16 then tset (fun _ => 0) x.saq (q % 16) v else x.saq
        | none => x.saq }))))
  ∧ (∀ d v p, p = ⟨.guard d v, own, i, lat, fl, false⟩ → InFlight k n f j p → exec (.resultLand c n) s = .next (s.setCore c
      (noted f j p (k.setCtx f { x with
        vflags := x.vflags ||| fl, g := if d = 0 then x.g else if v then x.g ||| (1#16 <<< d) else x.g &&& ~~~(1#16 <<< d) }))))
  ∧ (∀ d v en p, p = ⟨.vec d v en, own, i, lat, fl, false⟩ → InFlight k n f j p → exec (.resultLand c n) s = .next (s.setCore c
      (noted f j p { flagged f fl k with vs := { k.vs with
        v := match d with
          | some (.main r) => tset (fun _ => 0) k.vs.v r (mergeCells en (tget (fun _ => 0) k.vs.v r) v)
          | _ => k.vs.v,
        vo := match d with
          | some (.op r) => tset (fun _ => 0) k.vs.vo r (mergeCells en (tget (fun _ => 0) k.vs.vo r) v)
          | _ => k.vs.vo,
        vaq := match own with
          | some q => if k.vs.apc ≤ q + 16 then tset (fun _ => 0) k.vs.vaq (q % 16) (v &&& expandMask en) else k.vs.vaq
          | none => k.vs.vaq } })))
  ∧ (∀ d v en p, p = ⟨.pred d v en, own, i, lat, fl, false⟩ → InFlight k n f j p → exec (.resultLand c n) s = .next (s.setCore c
      (noted f j p { flagged f fl k with vs := { k.vs with
        p := if d = 0 then k.vs.p else tset (fun _ => 0) k.vs.p d ((v &&& en) ||| (tget (fun _ => 0) k.vs.p d &&& ~~~en)) } })))
  ∧ (∀ d v p, p = ⟨.ctab d v, own, i, lat, fl, false⟩ → InFlight k n f j p → exec (.resultLand c n) s = .next (s.setCore c
      (noted f j p { flagged f fl k with vs := { k.vs with ct := tset (fun _ => 0) k.vs.ct d v } })))
  ∧ (∀ d v p, p = ⟨.pat d v, own, i, lat, fl, false⟩ → InFlight k n f j p →
      (∀ q w, q ∈ x.pend.take j → q.landed = false → q.res ≠ .pat d w) → exec (.vpatldComplete c n) s = .next (s.setCore c
      (noted f j p { flagged f fl k with vs := { k.vs with sh := tset (fun _ => 0) k.vs.sh ((1 - k.vs.active) * 64 + d) v } })))
  ∧ (k.vs.freeA ≠ 0 → k.vs.freeA ≤ k.cyc → exec (.vectorUnitFree c .a) s = .next (s.setCore c { k with vs := { k.vs with freeA := 0 } }))
  ∧ (k.vs.freeB ≠ 0 → k.vs.freeB ≤ k.cyc → exec (.vectorUnitFree c .b) s = .next (s.setCore c { k with vs := { k.vs with freeB := 0 } }))
  ∧ (∀ (r : Arrival) (y : SCtx), n = (if f then k.t.arrivals.length + j else j) → x.arrivals[j]? = some r →
      y = { x with arrivals := x.arrivals.eraseIdx j } →
      (∀ d, r.dest = .s d → exec (.loadLand c n) s = .next (s.setCore c (k.setCtx f { y with
        s := if d = 0 then x.s else tset (fun _ => 0) x.s d (r.value.setWidth 64) })))
      ∧ (∀ d, r.dest = .v (.main d) → exec (.loadLand c n) s = .next (s.setCore c
          { k.setCtx f y with vs := { k.vs with v := tset (fun _ => 0) k.vs.v d r.value } }))
      ∧ (∀ d, r.dest = .v (.op d) → exec (.loadLand c n) s = .next (s.setCore c
          { k.setCtx f y with vs := { k.vs with vo := tset (fun _ => 0) k.vs.vo d r.value } }))
      ∧ (r.dest = .none → exec (.loadLand c n) s = .next (s.setCore c (k.setCtx f y))))

/-- DEFERRED_FAULT_TAKE, HWERR_DETECT and F_FAULT (20 R338 to R340, R343, R348): a core at a boundary takes its first report: it stops in F,
its record filled; HWERR is taken ahead of every report; a fault of F starts F again with the cause and the address in its s1 and s2.
Choices of the model's in it: log 6, 20. -/
def Obligations.FaultsTaken : Prop := ∀ (c : Nat) (s : State) (k : Core), s.Kept → c < 128 → k = s.core c →
  (∀ r rest, k.reports = r :: rest → 1 ≤ r.cause → r.cause ≤ 14 → k.run = .run → k.why = none → eventHeldFor s c = false →
    ∃ t, exec (.deferredFaultTake c) s = .next t ∧ t.core c = stopped { k with reports := rest } r.deferred
      ∧ (∀ d, d ≠ c → t.core d = s.core d)
      ∧ Recorded t c r.baddr (if r.again then r.baddr else k.t.pc) r.addr r.cause r.sub r.mask r.slot r.code)
  ∧ (∀ sub, k.bound = true → 1 ≤ sub → sub ≤ 3 → ∃ t, exec (.hwerrDetect c sub) s = .next t
      ∧ t.core c = stopped k false ∧ (∀ d, d ≠ c → t.core d = s.core d) ∧ Recorded t c k.t.pc k.t.pc 0 14 sub 0 255 0)
  ∧ (∀ cause sub addr, k.run = .handler → twf (fun _ => 0) k.f.s = true → ∃ t, exec (.fFault c cause sub addr) s = .next t
      ∧ (t.core c).f.pc = 0 ∧ tget (fun _ => 0) (t.core c).f.s 1 = BitVec.ofNat 64 cause ∧ tget (fun _ => 0) (t.core c).f.s 2 = addr
      ∧ (t.core c).t = k.t ∧ (t.core c).vs = k.vs ∧ (t.core c).run = .handler ∧ (∀ d, d ≠ c → t.core d = s.core d))

/-- LOAD_PERFORM, STORE_PERFORM and ATOMIC_PERFORM (02 R56, R57, R61, R65, R73, R74; 09 R239, R242, R251, R253; 03 R98, R99; 04 R109, R112;
21 R360): one part of the entry at the head of its queue is read or written at its home, a scratchpad, HBM4E, the tier, a CIM row or
granule, the host's memory or a decoded sector, and the last one ends the access; over poison a load's destination keeps its contents and an
atomic changes nothing, with the report POISON, and a FetchAdd at the host is logged; a store that a computing half refuses is reported as
MACRO_BUSY. ATOMIC_OLD_LAND and PROBE_FILL_LAND (02 R53) write their scratchpad. Choices of the model's in it: log 33, 37, 56, 60. -/
def Obligations.AccessesPerform : Prop := ∀ (c : Nat) (f : Bool) (s : State) (k : Core) (x : SCtx) (a : Acc) (rest : List Acc) (j : Nat)
    (p : Piece) (at_ : Nat), s.Kept → k = s.core c → x = k.ctx f →
  (Heads s x.loadQ rest isLoadKind false a j p at_ → Unmarked x.storeQ → acquireWaits x a.seq = false →
    (∀ r v, Reads s at_ p.len v false →
      r = { a with data := a.data ||| BitVec.ofNat 32768 (v * 2 ^ (8 * p.off)), pieces := a.pieces.eraseIdx j,
                   freed := a.freed && !a.elems } →
      ∃ u, u = { s with acnt := u.acnt, heatQ := u.heatQ, fresh := u.fresh } ∧ (∀ d, homeOf s at_ = some (.spad d) → u = s)
        ∧ (a.pieces ≠ [p] → exec (.loadPerform c f j) s = .next (u.setCore c (k.setCtx f { x with loadQ := r :: rest })))
        ∧ (a.pieces = [p] → ∃ l, l <:+ rest ∧ exec (.loadPerform c f j) s = .next (u.setCore c (k.setCtx f
            { x with loadQ := l, arrivals := x.arrivals ++ [⟨a.seq, a.dest, loadValue r, a.weight, false⟩] }))))
    ∧ (∀ v, Reads s at_ p.len v true → f = false → a.kind ≠ .fill → a.pieces = [p] → ∃ t l, exec (.loadPerform c f j) s = .next t
        ∧ l <:+ rest ∧ SameMem s t ∧ (∀ d, d ≠ c → t.core d = s.core d) ∧ t.core c = { k with
            t := { k.t with loadQ := l },
            reports := k.reports ++ [⟨10, 0, BitVec.ofNat 64 (if a.elems then p.addr else a.addr), a.baddr, 4, 255, true, false, false, 0⟩] }))
  ∧ (Heads s x.storeQ rest (fun q => decide (q = .st) || decide (q = .sig false)) true a j p at_ → Unmarked x.loadQ →
      (a.kind = .sig false → releaseWaits s c x 3 a.seq = false) → (a.opc = 6 → j = 0) →
      (Writable s at_ p.len → ∃ t q, exec (.storePerform c f j) s = .next t ∧ Written s t at_ p.len (a.data.toNat / 2 ^ (8 * p.off))
        ∧ t.core c = k.setCtx f { x with storeQ := q } ∧ (∀ d, d ≠ c → t.core d = s.core d)
        ∧ (∀ d, homeOf s at_ = some (.spad d) → OnlyStores s t c)
        ∧ t = { s with cores := t.cores, mem := t.mem, hostMem := t.hostMem, decoded := t.decoded, poison := t.poison, flips := t.flips,
                       tags := t.tags, acnt := t.acnt, heatQ := t.heatQ, fresh := t.fresh }
        ∧ (a.pieces ≠ [p] → q = { a with pieces := a.pieces.eraseIdx j, freed := a.freed && !a.elems } :: rest) ∧ (a.pieces = [p] → q <:+ rest))
      ∧ (∀ hr hf, homeOf s at_ = some (.cim hr hf) ∨ homeOf s at_ = some (.side hr hf) → (halfOf (s.hearth hr) hf).compute = true →
          f = false → a.pieces = [p] → ∃ t q, exec (.storePerform c f j) s = .next t ∧ q <:+ rest ∧ SameMem s t
            ∧ (∀ d, d ≠ c → t.core d = s.core d) ∧ t.core c = { k with
                t := { k.t with storeQ := q },
                reports := k.reports ++ [⟨9, 1, BitVec.ofNat 64 (if a.elems then p.addr else a.addr), a.baddr, accSlot a, 255, true, false, false, 0⟩] }))
  ∧ (∀ dq v, x.storeQ = a :: rest → a.kind = .dqadv dq v → a.held = false → a.pieces = [] → Unmarked x.loadQ →
      releaseWaits s c x 2 a.seq = false → qWr s dq < v.toNat → v.toNat ≤ qRd s dq + 2 ^ qLogsz s dq →
      ∃ t, exec (.storePerform c f j) s = .next t ∧ t.reg (qreg dq 16) = v ∧ ((t.core c).ctx f).storeQ <:+ rest
        ∧ (∀ b, memGet t.mem b = memGet s.mem b))
  ∧ (Heads s x.storeQ rest isAtomKind true a j p at_ → Unmarked x.loadQ → a.pieces = [p] →
      (∀ sc, releaseScope a.kind = some sc → releaseWaits s c x sc a.seq = false) →
      (∀ m, Reads s at_ p.len m false → Writable s at_ p.len → (a.kind = .sig true → p.len = 8) → ∃ t, exec (.atomicPerform c f) s = .next t
        ∧ (∀ d, d ≠ c → t.core d = s.core d) ∧ ((t.core c).ctx f).s = x.s ∧ ((t.core c).ctx f).storeQ <:+ rest
        ∧ (∀ op v cmp old tk fl sc, a.kind = .atom op v cmp old tk fl sc → Written s t at_ p.len (atomNew op p.len m v cmp)
            ∧ (old = none → (t.core c).tkPending = k.tkPending &&& ~~~(1#64 <<< tk) ∧ ((t.core c).ctx f).olds = x.olds)
            ∧ (∀ o, old = some o → (t.core c).tkPending = k.tkPending ∧ ((t.core c).ctx f).olds = x.olds ++ [⟨a.seq, o, p.len, m, tk⟩]))
        ∧ (a.kind = .sig true → Written s t at_ 8 ((m + a.data.toNat) % 2 ^ 64) ∧ (t.core c).tkPending = k.tkPending))
      ∧ (∀ m, Reads s at_ p.len m true → f = false → (a.kind = .sig true → p.len = 8) → (∀ w, homeOf s at_ ≠ some (.host w)) →
          ∃ t, exec (.atomicPerform c f) s = .next t ∧ SameMem s t ∧ (∀ d, d ≠ c → t.core d = s.core d) ∧ TokenSet s t c (accToken a)
            ∧ (t.core c).t.storeQ <:+ rest ∧ (t.core c).reports = k.reports ++
                [⟨10, 0, BitVec.ofNat 64 a.addr, a.baddr, accSlot a, 255, true, false, false, 0⟩])
      ∧ (∀ m w, Reads s at_ 8 m true → homeOf s at_ = some (.host w) → a.kind = .sig true → ∃ t, exec (.atomicPerform c f) s = .next t
          ∧ Logged s t 35 2 0 15 ∧ SameMem s t ∧ t.hostMem = s.hostMem ∧ (t.core c).reports = k.reports))
  ∧ (∀ o n, x.olds[n]? = some o → Pad s (localBase c k + o.addr) o.width → ∃ t, exec (.atomicOldLand c f n) s = .next t
      ∧ Stored s t (localBase c k + o.addr) o.width o.value ∧ (t.core c).tkPending = k.tkPending &&& ~~~(1#64 <<< o.tk)
      ∧ ((t.core c).ctx f) = { x with olds := x.olds.eraseIdx n } ∧ (∀ d, d ≠ c → t.core d = s.core d))
  ∧ (∀ n r off slot block g, k.t.arrivals[n]? = some r → r.dest = .fill off slot block → fillBehind k.t off r.seq = false →
      twf (fun _ => 0) s.flips = true →
      (∀ i, i < 8 → Pad s (localBase c k + off + 32 * i) 32 ∧ r.value.getLsbD (2048 + i) = false) →
      g = tget (fun _ => Tag.reset) k.tags slot → ∃ t, exec (.probeFillLand c n) s = .next t ∧ OnlyStores s t c
        ∧ Stored s t (localBase c k + off) 256 r.value.toNat
        ∧ t.core c = { k with t := { k.t with arrivals := k.t.arrivals.eraseIdx n },
                              tags := if g.fill = some r.seq then tset (fun _ => Tag.reset) k.tags slot { g with fill := none } else k.tags })

/-- PAGE_WALK_COMPLETE and TRANSLATION_MISS_ACCEPT (20 R350 to R352; 09 R238): a miss of the core's cache walks, or finds the leaf at the
base die: both caches then hold it and the access has its physical address; where a check refuses the leaf, or the walk fails, the access is
held with its report: PAGE with its subcause, MIGRATE, or POISON where the entry read is poisoned (21 R360). A line lock whose walk waited
(02 R50; 09 R249) then acts, its status on its way, or is held with its report. The base die takes a miss into its queue while there is
room. Choices of the model's in it: log 16, 77, 92, 120. -/
def Obligations.TranslationEvents : Prop := ∀ (c n : Nat) (q : Bool) (s : State) (k : Core) (a : Acc) (p : Piece), s.Kept → k = s.core c →
  ((queueOf k.t q)[n]? = some a → Unmarked [a] → a.held = false → a.pieces = [p] → p.pa = none → coreCached s c p.addr = none →
      xlatWaitsAt s c false p.addr = false →
    (∀ large e, walk s k.ident.ctx p.addr = .ok (large, e) → cached s k.ident.ctx p.addr = none ∨ cached s k.ident.ctx p.addr = some (large, e) →
      WalkClean s k.ident.ctx p.addr →
      (∀ x, checkLeaf s k.ident.ctx p.addr (accNeed a) none large e = .ok x → badHome s a x.pa = false →
        ∃ t, exec (.pageWalkComplete c false q n) s = .next t ∧ { a with pieces := [{ p with pa := some x }] } ∈ queueOf (t.core c).t q
          ∧ t.tlb = putX tlbSize s.tlb k.ident.ctx p.addr large e ∧ (t.core c).xlat = putX coreTlbSize k.xlat k.ident.ctx p.addr large e
          ∧ t.missQ = s.missQ.filter (fun m => decide (m ≠ (c, a.seq))) ∧ (t.core c).t.s = k.t.s ∧ (t.core c).vs = k.vs
          ∧ t = { s with cores := t.cores, tlb := t.tlb, missQ := t.missQ, acnt := t.acnt, fresh := t.fresh })
      ∧ (∀ cause sub, checkLeaf s k.ident.ctx p.addr (accNeed a) none large e = .fail cause sub → k.run = .run →
        ∃ t, exec (.pageWalkComplete c false q n) s = .next t ∧ Turned t q n a ⟨cause.code, sub, BitVec.ofNat 64 p.addr, a.baddr, accSlot a,
            maskBut (accSlot a), true, false, true, 0⟩ c { k with xlat := putX coreTlbSize k.xlat k.ident.ctx p.addr large e }
          ∧ t.tlb = putX tlbSize s.tlb k.ident.ctx p.addr large e ∧ t.missQ = s.missQ.filter (fun m => decide (m ≠ (c, a.seq)))
          ∧ (∀ d, d ≠ c → t.core d = s.core d) ∧ t = { s with cores := t.cores, tlb := t.tlb, missQ := t.missQ, acnt := t.acnt, fresh := t.fresh }))
    ∧ (∀ sub, walk s k.ident.ctx p.addr = .error sub → cached s k.ident.ctx p.addr = none → WalkEnds s k.ident.ctx p.addr → k.run = .run →
        ∃ t, exec (.pageWalkComplete c false q n) s = .next t ∧ Turned t q n a ⟨if sub = 0 then 10 else 7, sub, BitVec.ofNat 64 p.addr, a.baddr,
            accSlot a, maskBut (accSlot a), true, false, true, 0⟩ c k
          ∧ t.missQ = s.missQ.filter (fun m => decide (m ≠ (c, a.seq)))
          ∧ (∀ d, d ≠ c → t.core d = s.core d) ∧ t = { s with cores := t.cores, missQ := t.missQ, acnt := t.acnt, fresh := t.fresh }))
  ∧ (∀ i l va lock u, k.t.lineQ[i]? = some l → l.kind = .line lock → l.pieces = [⟨va, 1, 0, none⟩] → l.held = false →
      n = k.t.loadQ.length + i → q = false → xlatWaitsAt s c false va = false → u = missServed (fillX s c va) c l.seq →
    (WalkEnds s k.ident.ctx va → u = { s with cores := u.cores, tlb := u.tlb, missQ := u.missQ, acnt := u.acnt, fresh := u.fresh })
    ∧ (∀ x st, translateAt s c va needRead = .ok x → st = lineStatus u c lock x.pa → ∃ t, exec (.pageWalkComplete c false q n) s = .next t
        ∧ t.core c = { (u.core c) with t := { k.t with lineQ := k.t.lineQ.eraseIdx i,
                                                       arrivals := k.t.arrivals ++ [⟨l.seq, l.dest, BitVec.ofNat 32768 st, 0, false⟩] } }
        ∧ (∀ d, d ≠ c → t.core d = s.core d) ∧ LineActs u t lock x k.ident.ctx st)
    ∧ (∀ cause sub, translateAt s c va needRead = .fail cause sub → k.run = .run → ∃ t, exec (.pageWalkComplete c false q n) s = .next t
        ∧ t.core c = { (u.core c) with
            t := { k.t with lineQ := k.t.lineQ.eraseIdx i ++ [{ l with held := true, freed := false }] },
            reports := k.reports ++ [⟨cause.code, sub, BitVec.ofNat 64 va, l.baddr, 4, maskBut 4, true, false, true, 0⟩] }
        ∧ (∀ d, d ≠ c → t.core d = s.core d) ∧ t = { u with cores := t.cores, fresh := t.fresh }))
  ∧ (k.missWait = true → s.missQ.length < 4096 → (c, k.t.seq) ∉ s.missQ → exec (.translationMissAccept c) s =
      .next ({ s with missQ := s.missQ ++ [(c, k.t.seq)] }.setCore c { k with missWait := false }))

/-- BARRIER_ARRIVAL_COUNT, BARRIER_COMPLETION, TOKST_COMPLETE and CTRW_RELEASE (01 R28, 02 R66, R69, R71; 09 R256 to R259; 10 R282): an
arrival counts at its barrier's home, and its record takes the generation; a full barrier begins its next generation, and the ring pointers
it moves advance; a TOKST sets its token; a CTRW that reads its threshold waits no more. Choices of the model's in it: log 28. -/
def Obligations.SynchronisationEvents : Prop := ∀ (c n : Nat) (s : State) (k : Core), s.Kept → k = s.core c →
  (∀ r home b, k.barQ[n]? = some r → laneCore s c r.stage r.task = some home → barBehind k r = false → b = barAt s home r.bar →
    (∀ cnt, r.cfg = some cnt → ∃ t, exec (.barrierArrivalCount c n) s = .next t ∧ t = { s with cores := t.cores }
      ∧ (t.core c).barQ = k.barQ.eraseIdx n ∧ (t.core home).bars = tset (fun _ => Barrier.reset) (s.core home).bars r.bar
          (if b.arr = 0 then { b with cnt := cnt } else { b with pendCnt := some cnt }))
    ∧ (r.cfg = none → arrivalWaits s c r.seq = false → b.arr ≠ b.cnt → ∃ t, exec (.barrierArrivalCount c n) s = .next t
      ∧ t = { s with cores := t.cores } ∧ (∀ d, d ≠ c → d ≠ home → t.core d = s.core d) ∧ (t.core c).barQ = k.barQ.eraseIdx n
      ∧ (t.core home).bars = tset (fun _ => Barrier.reset) (s.core home).bars r.bar { b with arr := b.arr + 1 }
      ∧ (∀ e, tget (fun _ => none) k.arecs r.bar = some e → e.seq = r.seq →
          (t.core c).arecs = tset (fun _ => none) k.arecs r.bar (some { e with gen := b.gen, counted := true }))))
  ∧ (∀ b, b = barAt s c n → k.bound = true → b.cnt ≤ b.arr → ∃ t, exec (.barrierCompletion c n) s = .next t
      ∧ t = { s with cores := t.cores } ∧ (∀ d, d ≠ c → t.core d = s.core d) ∧ t.core c = { k with bars := (t.core c).bars, ringHome := (t.core c).ringHome }
      ∧ (t.core c).bars = tset (fun _ => Barrier.reset) k.bars n ⟨b.pendCnt.getD b.cnt, 0, b.gen + 1, none⟩
      ∧ (twf (fun _ => RingHome.reset) k.ringHome = true → ∀ i h, h = tget (fun _ => RingHome.reset) k.ringHome i →
          tget (fun _ => RingHome.reset) (t.core c).ringHome i = match h.pair with
            | some (p, q) => if i < 16 then ⟨if p = n then h.pp + 1 else h.pp, if q = n then h.cp + 1 else h.cp, h.pair⟩ else h
            | none => h))
  ∧ (∀ w, k.toksts[n]? = some w → tokstWaits k.t w.seq = false → ∃ t, exec (.tokstComplete c n) s = .next t ∧ TokenSet s t c (some w.tk)
      ∧ (t.core c).toksts = k.toksts.eraseIdx n ∧ (t.core c).t = k.t ∧ (t.core c).vs = k.vs ∧ (∀ d, d ≠ c → t.core d = s.core d) ∧ SameMem s t)
  ∧ (∀ (a thr : Word) (x : Nat), k.ctrw = some (a, thr, false) → translateAt s c a.toNat needRead = .ok (.plain x) →
      xlatWaitsAt s c false a.toNat = false → Pad s x 8 ∨ (Dram s x 8 ∧ placeWaits s x false = false) → thr.toNat ≤ memGetN s.mem x 8 → ∃ t, exec (.ctrwRelease c) s = .next t
        ∧ t.core c = { k with ctrw := some (a, thr, true), xlat := (t.core c).xlat } ∧ (∀ d, d ≠ c → t.core d = s.core d)
        ∧ (WalkClean s k.ident.ctx a.toNat → SameMem s t
            ∧ t = { s with cores := t.cores, tlb := t.tlb, missQ := t.missQ, acnt := t.acnt, heatQ := t.heatQ, fresh := t.fresh }))

/-- COPY_BYTES_LAND, COUNTER_UPDATE and ENGINE_COMMAND_COMPLETE (02 R48, R67, R68, R70, R72; 08 R208, R217, R219 to R225): the bytes of one
destination sector of a copy land as one write, those not yet read being read by whole source sectors, and the channel's write pointer
rises; or a source sector is read ahead of its turn, the destinations of its bytes translated first, and a store's release counter becomes
due with its last read; a destination that fails ends the copy before anything from it on is read; a counter rises at its home, and a unit's status word is written; a command that ends
writes what it has still to write, its counters become due, and its token is set; a copy of nothing ends behind any other. Choices of the model's in it: log 38, 101. -/
def Obligations.EngineEvents : Prop := ∀ (c n : Nat) (s : State) (k : Core) (m : Cmd) (v at_ : Nat), s.Kept → k = s.core c →
  (∀ (len : Nat) (byte : Nat → Nat), copyAt s c n false = some m → m.core = c → m.started = true → m.prog < copyTotal m → len = dstLen m m.prog →
    (isStoreCopy m = true → blkN (blkOf m) 0 8 = 0 ∧ ∀ t, m.prog ≤ t → t < m.prog + len → dstOpen s m t = true) →
    (∀ i, i < m.buf.length → byte (m.prog + i) < 256 ∧ m.buf[i]? = some (byte (m.prog + i), false)) →
    (∀ t, readPos m ≤ t → t < m.prog + len → ∃ w, Brings s m t (srcLen m t) w ∧ ∀ j, j < srcLen m t → byte (t + j) = w / 2 ^ (8 * j) % 256) →
    (if isStoreCopy m then DestAt s m (dstAt m m.prog) at_ else at_ = localBase c k + dstAt m m.prog) → Pad s at_ len → DestsClean s m →
    ∃ t q, exec (.copyBytesLand c n false) s = .next t ∧ OnlyStreams s t c
      ∧ (∀ i, i < len → (memGet t.mem (at_ + i)).toNat = byte (m.prog + i)) ∧ (∀ x, x < at_ ∨ at_ + len ≤ x → memGet t.mem x = memGet s.mem x)
      ∧ q = { m with prog := m.prog + len, rprog := q.rprog, buf := q.buf, dests := q.dests, flags := q.flags,
                     status := m.status ||| (if padded m len then 8#64 else 0) }
      ∧ t.core c = { k with
          cpQ := k.cpQ.set n q, wp := tset (fun _ => 0) k.wp ((chanOf m).getD 0)
            (tget (fun _ => 0) k.wp ((chanOf m).getD 0) + BitVec.ofNat 64 (wpRise m m.prog len)) })
  ∧ (∀ len r, copyAt s c n true = some m → m.started = true → readPos m < copyTotal m → Brings s m (readPos m) len v →
      (∀ i, i < len → dstOpen s m (readPos m + i) = true) → DestsClean s m →
      r = { m with rprog := readPos m + len, buf := m.buf ++ splitBytes v len false, dests := m.dests ++ newDests s m (readPos m) len } →
      (isStoreCopy m = false ∨ r.rprog ≠ copyTotal m ∨ m.flags ≠ 0 → ∃ t, exec (.copyBytesLand c n true) s = .next t ∧ OnlyStreams s t c
        ∧ t.mem = s.mem ∧ t.core c = { k with cpQ := k.cpQ.set n r }
        ∧ (isStoreCopy m = true → t = { s with cores := t.cores, acnt := t.acnt, fresh := t.fresh }))
      ∧ (∀ due, isStoreCopy m = true → r.rprog = copyTotal m → m.flags = 0 → Dues s m (blkN (blkOf m) 0 8) (blkN (blkOf m) 8 8) due →
        ∃ t, exec (.copyBytesLand c n true) s = .next t ∧ t.counters = s.counters ++ due ∧ t.core c = { k with cpQ := k.cpQ.set n { r with flags := 1 } }
          ∧ t = { s with cores := t.cores, counters := t.counters, acnt := t.acnt, fresh := t.fresh } ∧ ∀ d, d ≠ c → t.core d = s.core d))
  ∧ (∀ cause sub g, copyAt s c n false = some m → m.core = c → m.started = true → m.prog < copyTotal m → isStoreCopy m = true → k.run = .run →
      g = dstAt m m.prog → destRes s m g = .fail cause sub → destWaits s m g = false → cause ≠ .migrate →
      (dstOpen s m (readPos m) = false → exec (.copyBytesLand c n true) s = .next s)
      ∧ ∃ t, exec (.copyBytesLand c n false) s = .next t ∧ t.counters = s.counters ∧ (∀ d, d ≠ c → t.core d = s.core d)
        ∧ t.core c = { k with
            cpQ := k.cpQ.set n { m with stopped := true, buf := [], dests := [], status := m.status ||| 64#64 },
            reports := k.reports ++ [⟨cause.code, sub, BitVec.ofNat 64 g, m.baddr, 6, 255, true, false, false, 0⟩] })
  ∧ (∀ d, s.counters[n]? = some d → d.at_ = .plain at_ → Pad s at_ 8 → (d.core = 128 → ∀ e, e ∈ s.counters.take n → e.put = false) →
      ∃ t, exec (.counterUpdate n) s = .next t ∧ t.counters = s.counters.eraseIdx n ∧ (∀ e, t.core e = s.core e)
        ∧ Stored s t at_ 8 (if d.put then d.inc.toNat else (memGetN s.mem at_ 8 + d.inc.toNat) % 2 ^ 64))
  ∧ ((s.hearth c).cmds[n]? = some m → m.started = true →
      ((∃ f, m.instr = .mmode f) ∨ (∃ f, m.instr = .mclr f) → ∃ t, exec (.engineCommandComplete true c n) s = .next t
        ∧ TokenSet s t m.core m.tp ∧ (t.hearth c).cmds.length + 1 = (s.hearth c).cmds.length ∧ SameMem s t
        ∧ (t.core m.core).t = (s.core m.core).t ∧ (t.core m.core).vs = (s.core m.core).vs)
      ∧ ((∃ f, m.instr = .mstat f) → at_ = localBase m.core (s.core m.core) + m.b.toNat → Pad s at_ 8 →
          ∃ t, exec (.engineCommandComplete true c n) s = .next t ∧ TokenSet s t m.core m.tp ∧ Stored s t at_ 8 m.status.toNat
            ∧ (t.hearth c).cmds.length + 1 = (s.hearth c).cmds.length))
  ∧ (∀ b, copyAt s c n false = some m ∨ (copyAt s c n true = some m ∧ copyTotal m = 0) → m.core = c → m.started = true →
      m.prog = copyTotal m → m.blk = some b →
      (b = [] → ∃ t, exec (.engineCommandComplete false c n) s = .next t ∧ TokenSet s t c m.tp ∧ SameMem s t
        ∧ (t.core c).cpQ.length + 1 = k.cpQ.length)
      ∧ (∀ d1 d2, b ≠ [] → (if isStoreCopy m = true ∧ m.flags ≠ 0 then d1 = [] else Dues s m (blkN b 0 8) (blkN b 8 8) d1) →
          (if isStoreCopy m then Dues s m (blkN b 16 8) (blkN b 24 8) d2 else d2 = []) →
          at_ = localBase c k + (m.c.toNat + 56) → Pad s at_ 8 → ∃ t, exec (.engineCommandComplete false c n) s = .next t
            ∧ TokenSet s t c m.tp ∧ t.counters = s.counters ++ (d1 ++ d2) ∧ Stored s t at_ 8 (copyStatus m false)
            ∧ (t.core c).cpQ.length + 1 = k.cpQ.length))

/-- BANK_ROW_OPEN and ENGINE_COMMAND_COMPLETE of the bank commands (08 R228 to R235): a command opens its rows where nothing blocks it, with
the vector or table it uses; one that its page refuses is reported and ends with its status alone; at the end each selected bank has its
effect, a failing row costs its own bank alone, and the counter and status follow. LINK_HANDSHAKE_CROSSED and LINK_TRANSFER_STAMP (08 R226
to R228): a crossed handshake makes a transfer ready; at its stamp it sends, receives or reduces, byte for byte or element by element, and
takes its direction; one whose far end is not ready is late. Choices of the model's in it: log 13, 48, 103. -/
def Obligations.BankAndLinkEvents : Prop := ∀ (c n : Nat) (s : State) (k : Core) (m : Cmd) (x : LinkBlk), s.Kept → k = s.core c →
  (bankAt s c n = some m → lateBlock s m = none → opensRow m = true →
    (∀ y src len, bankPlace s m = .ok y → bankBlocked s c n m y = false → stackBusy s y.pa = false → xlatWaits s m.ctx m.a.toNat = false →
      WalkClean s m.ctx m.a.toNat → listFull s m y = false →
      (src, len) = (match m.instr with
        | .bkmac _ => (blkN (blkOf m) 8 8, 1024)
        | .bktt _ => (blkN (blkOf m) 32 8, 16 * blkN (blkOf m) 26 1)
        | _ => (0, 0)) → PadRun s (localBase m.core (s.core m.core) + src) len → ∃ t, exec (.bankRowOpen c n) s = .next t ∧ SameMem s t
        ∧ t.core c = { k with cpQ := k.cpQ.set n { m with
            started := true, place := some y, vec := BitVec.ofNat 32768 (memGetN s.mem (localBase m.core (s.core m.core) + src) len) } }
        ∧ ∀ d, d ≠ c → t.core d = s.core d)
    ∧ (∀ cause sub, xlatWaits s m.ctx m.a.toNat = false → bankPlace s m = .fail cause sub → cause ≠ .migrate → k.run = .run →
        WalkEnds s m.ctx m.a.toNat → ∃ t, exec (.bankRowOpen c n) s = .next t
        ∧ t = { s with cores := t.cores, acnt := t.acnt, fresh := t.fresh } ∧ (∀ d, d ≠ c → t.core d = s.core d) ∧ t.core c = { k with
            cpQ := k.cpQ.set n { m with
              started := true, stopped := true,
              status := m.status ||| BitVec.ofNat 64 (if cause = .nbProt then m.b.toNat % 2 ^ 16 * 2 ^ 24 else 4) },
            reports := k.reports ++ [⟨cause.code, sub, m.a, m.baddr, 6, 255, true, false, false, 0⟩] }))
  ∧ (∀ (b : List Byte) (y : Phys) (stat : Nat), k.cpQ[n]? = some m → isBank m = true → m.core = c → cmdReady m = true → m.blk = some b → b ≠ [] →
      stat = localBase c k + (m.c.toNat + 56) → Pad s stat 8 →
      (m.stopped = true → ∃ t, exec (.engineCommandComplete false c n) s = .next t ∧ TokenSet s t c m.tp ∧ t.counters = s.counters
        ∧ Stored s t stat 8 ((m.status.toNat ||| 1) % 2 ^ 40) ∧ (t.core c).cpQ.length + 1 = k.cpQ.length)
      ∧ (∀ (due : List CtrDue) (sel : Nat → Bool) (row slot num val : Nat → Nat) (unit : Nat → BankUnit) (bad : Nat → Bool) (ended : (State → Prop) → Prop),
          m.stopped = false → Dues s m (blkN b 40 8) (blkN b 48 8) due → y.pa % 16384 = 0 →
          twf (fun _ => BankUnit.reset) s.banks = true → twf (fun _ => 0) s.flips = true →
          (∀ i, sel i = (decide (i < 16) && m.b.getLsbD i)) → (∀ i, row i = y.pa + 1024 * i) → (∀ i, num i = bankNum (hbmLoc s (row i))) →
          (∀ i, slot i = localBase c k + (blkN b 16 8 + 32 * i)) → (∀ i, unit i = unitFor s (num i) m.ctx) →
          (∀ i, sel i = true → homeOf s (row i) = some .hbm) →
          (∀ i, sel i = true → if bad i then RowFails s (row i) else RowReads s (row i) (val i)) →
          (m.started = true → opensRow m = true ∧ m.place = some y) → (m.started = false → opensRow m = false ∧ lateBlock s m = none
            ∧ WalkClean s m.ctx m.a.toNat ∧ xlatWaits s m.ctx m.a.toNat = false ∧ bankBlocked s c n m y = false ∧ bankPlace s m = .ok y) →
          (∀ p, ended p ↔ ∃ t, exec (.engineCommandComplete false c n) s = .next t ∧ TokenSet s t c m.tp ∧ t.counters = s.counters ++ due
            ∧ (t.core c).cpQ.length + 1 = k.cpQ.length ∧ (t.core c).reports = k.reports ∧ p t) →
          (∀ f, m.instr = .bkkey f → ended fun t => Stored s t stat 8 ((m.status.toNat ||| 1) % 2 ^ 40)
            ∧ (∀ i, sel i = true → tget (fun _ => BankUnit.reset) t.banks (num i)
                = { unit i with key := BitVec.ofNat 32 (blkN b 0 4), mask := BitVec.ofNat 32 (blkN b 4 4) })
            ∧ ∀ j, (∀ i, sel i = true → j ≠ num i) → tget (fun _ => BankUnit.reset) t.banks j = tget (fun _ => BankUnit.reset) s.banks j)
          ∧ (∀ f, m.instr = .bkcmp f → ended fun t =>
              Stored s t stat 8 ((m.status.toNat ||| 1 ||| packW 1 (fun i => if sel i && bad i then 1 else 0) 16 * 2 ^ 8) % 2 ^ 40)
            ∧ ((∃ i, sel i = true ∧ bad i = true) → s.devSeq < t.devSeq)
            ∧ (∀ j, (∀ i, sel i = true → j ≠ num i) → tget (fun _ => BankUnit.reset) t.banks j = tget (fun _ => BankUnit.reset) s.banks j)
            ∧ ∀ i, sel i = true → ∃ tag, tget (fun _ => BankUnit.reset) t.banks (num i) = { unit i with tag := tag } ∧ (bad i = true → tag = 0)
              ∧ (bad i = false → ∀ w hit, w < 256 → hit = decide ((bankWord (val i) w ^^^ (unit i).key) &&& (unit i).mask = 0) →
                  tag.getLsbD w = match blkN b 25 1 with
                    | 0 => hit
                    | 1 => (unit i).tag.getLsbD w && hit
                    | 2 => (unit i).tag.getLsbD w || hit
                    | _ => (unit i).tag.getLsbD w && !hit))
          ∧ (∀ (new : Nat → BitVec 32 → BitVec 32) (wrote : Nat → Bool), m.status.getLsbD 1 = false →
              (∃ f, m.instr = .bkwr f ∧ ∀ i w, new i w = (w &&& ~~~(unit i).mask) ||| ((unit i).key &&& (unit i).mask))
                ∨ (∃ f, m.instr = .bktt f ∧ ∀ i w, new i w = ttWord m.vec.toNat (blkN b 26 1) w) →
              (∀ i, wrote i = (sel i && decide ((unit i).tag ≠ 0) && !bad i)) → ended fun t =>
                memGetN t.mem stat 8 = (m.status.toNat ||| 1
                  ||| packW 1 (fun i => if sel i && decide ((unit i).tag ≠ 0) && bad i then 1 else 0) 16 * 2 ^ 8) % 2 ^ 40
              ∧ (∀ j, tget (fun _ => BankUnit.reset) t.banks j = tget (fun _ => BankUnit.reset) s.banks j)
              ∧ ((∃ i, sel i = true ∧ (unit i).tag ≠ 0 ∧ bad i = true) → s.devSeq < t.devSeq)
              ∧ (∀ i w, wrote i = true → w < 256 → memGetN t.mem (row i + 4 * w) 4
                  = (if (unit i).tag.getLsbD w then new i (bankWord (val i) w) else bankWord (val i) w).toNat)
              ∧ ∀ a, (a < stat ∨ stat + 8 ≤ a) → (∀ i, wrote i = true → a < row i ∨ row i + 1024 ≤ a) → memGet t.mem a = memGet s.mem a)
          ∧ (∀ (v : Nat → Nat) (lost : Nat → Bool), (∀ i, i < 16 → sel i = true → Pad s (slot i) 32 ∧ (slot i + 32 ≤ stat ∨ stat + 8 ≤ slot i)) →
              (∃ f, m.instr = .bkrd f ∧ (∀ i, lost i = false) ∧ ∀ i, v i = match blkN b 25 1 with
                  | 0 => (unit i).tag.toNat
                  | 1 => popCount 256 (unit i).tag.toNat
                  | _ => (unit i).key.toNat + (unit i).mask.toNat * 2 ^ 32)
                ∨ (∃ f, m.instr = .bkmac f ∧ (∀ i, lost i = (bad i || m.status.getLsbD 1))
                  ∧ ((blkN b 24 1 = 4 ∧ ∀ i, (v i : Int) = ((List.range 1024).map fun j =>
                        signedOf 8 (bitsAt (val i) (8 * j) 8) * signedOf 8 (bitsAt m.vec.toNat (8 * j) 8)).sum % 2 ^ 32)
                    ∨ (∃ w, (blkN b 24 1 = 1 ∧ w = 16 ∨ blkN b 24 1 = 0 ∧ w = 32) ∧ ∀ i, v i = (List.range (8192 / w)).foldl (fun acc j =>
                        (convert (vAdd (decodeFmt 0 acc) (vMul (decodeFmt (blkN b 24 1) (bitsAt (val i) (w * j) w))
                          (decodeFmt (blkN b 24 1) (bitsAt m.vec.toNat (w * j) w))).1).1 0 .rne).1) 0))) → ended fun t =>
                memGetN t.mem stat 8 = (m.status.toNat ||| 1 ||| (if (List.range 16).any (fun i => sel i && lost i) then 2 else 0)
                  ||| packW 1 (fun i => if sel i && opensRow m && bad i then 1 else 0) 16 * 2 ^ 8) % 2 ^ 40
              ∧ (∀ i, sel i = true → if lost i then isPoison t (slot i) = true else memGetN t.mem (slot i) 32 = v i ∧ isPoison t (slot i) = false)
              ∧ (∀ j, tget (fun _ => BankUnit.reset) t.banks j = tget (fun _ => BankUnit.reset) s.banks j)
              ∧ ((∃ i, sel i = true ∧ opensRow m = true ∧ bad i = true) → s.devSeq < t.devSeq)
              ∧ ∀ a, (a < stat ∨ stat + 8 ≤ a) → (∀ i, sel i = true → a < slot i ∨ slot i + 32 ≤ a) → memGet t.mem a = memGet s.mem a)))
  ∧ (∀ far fmt, linkAt s c n = some m → m.started = false → lateBlock s m = none → linkDue s m = false →
      linkTwin s c n m.rprog (linkOf (blkOf m)) = false → exec (.linkHandshakeCrossed c n far fmt) s = .next (s.setCore c
        { k with cpQ := k.cpQ.set n { m with started := true, peer := some (far, fmt) } }))
  ∧ (linkAt s c n = some m → m.core = c → m.started = true → x = linkOf (blkOf m) → x.stamp = frameNow s →
      (∀ a len dir data st, a = localBase c k + m.a.toNat → len = wireBytes x → dir = x.link * 2 + (if x.role = 0 then 0 else 1) → domEn s = true →
        s.frameLost = false → linkUp s x.link = true → peerMatches m x = true → tget (fun _ => 0) s.linkFree dir ≤ x.stamp →
        (∀ q, q ∈ sectors a (len / 32 + 2) len → Pad s q.1 q.2 ∨ (x.role = 0 ∧ (∃ d, homeOf s q.1 = some (.spad d)) ∧ flipsAt s q.1 = 0)) →
        (x.role = 0 ∨ data.length = len) → (x.role = 2 → PadRun s (localBase c k + m.b.toNat) (bufBytes x.n x.rfmt x.rmx)) →
        st = (match x.role with
          | 0 => if ∃ i, i < len ∧ isPoison s (a + i) = true then 2 else 0
          | 1 => 0
          | _ => if (linkResult x (memGetN s.mem a len) (ofBytes data)).2 then 16 else 0) →
        ∃ t, exec (.linkTransferStamp c n true data) s = .next t ∧ t.linkFree = tset (fun _ => 0) s.linkFree dir (x.stamp + linkFrames s x)
          ∧ t.core c = { k with cpQ := k.cpQ.set n { m with prog := 1, status := m.status ||| BitVec.ofNat 64 st } }
          ∧ (x.role = 0 → SameMem s t ∧ ∃ l, t.linkOut = s.linkOut ++ [(x.link, x.stamp, l)] ∧ l.length = len
              ∧ ∀ i, i < len → ∃ v, l[i]? = some (v, isPoison s (a + i)) ∧ (isPoison s (a + i) = false → v = memGet s.mem (a + i)))
          ∧ (x.role = 1 → Stored s t a len (ofBytes data) ∧ t.linkOut = s.linkOut)
          ∧ (x.role = 2 → t.linkOut = s.linkOut ∧ ∃ r, Stored s t (localBase c k + m.b.toNat) (bufBytes x.n x.rfmt x.rmx) r
              ∧ ∀ (sum : Nat → Val) (w : Nat), w = fmtWidth x.rfmt →
                  (∀ i, sum i = linkSum (linkElem (memGetN s.mem a len) x.n x.efmt x.mx i) (linkElem (ofBytes data) x.n x.efmt x.mx i)) →
                (x.rq = false → ∀ i, i < x.n → bitsAt r (32 * i) 32 = (convert (sum i) 0 .rne).1)
                ∧ (x.rq = true → x.rmx = false → ∀ i, i < x.n → bitsAt r (w * i) w = (convTo (sum i) x.rfmt .rne).1 % 2 ^ w)
                ∧ (x.rq = true → x.rmx = true → ∀ b p, b < x.n / 32 →
                    p = alignBlock (decide (x.rfmt = 0x0C)) ((List.range 32).map fun i => sum (32 * b + i)) →
                    bitsAt r (8 * ((x.n * w + 7) / 8) + 8 * b) 8 = p.1 % 256
                    ∧ ∀ i, i < 32 → bitsAt r (w * (32 * b + i)) w = p.2.1.getD i 0 % 2 ^ w)))
      ∧ (∀ data, k.run = .run → ∃ t, exec (.linkTransferStamp c n false data) s = .next t ∧ SameMem s t
          ∧ t.core c = { k with
              cpQ := k.cpQ.set n { m with stopped := true, status := m.status ||| 32#64 },
              reports := k.reports ++ [⟨12, 0, 0, m.baddr, 6, 255, true, false, false, 0⟩] }))

/-! ## Events of a hearth -/

/-- HEARTH_COMMAND_EFFECT (04 R110, R111; 08 R212 to R217; 23 R399): the halves that an MMODE names change mode at one instant; one that
names a WBAD half is refused with subcode 5, one past the cap with subcode 4, every half as it was; an MCLR clears its columns; a pass or a
load starts where its halves are in the right mode, and is refused with subcode 2 or 3 elsewhere, a pass over a computing WBAD half with
subcode 5; an MSTAT takes its word, and a drain to memory its images. A refused command has no effect but its report and its token, and
leaves. Choices of the model's in it: log 12, 32, 96. -/
def Obligations.HearthCommandsTakeEffect : Prop := ∀ (h n : Nat) (s : State) (x : Hearth) (m m' : Cmd) (e : Instr) (only : State → Prop)
    (refused : Nat → Prop), s.Kept → x = s.hearth h → x.cmds[n]? = some m → m.started = false → m.needs = [] → hearthBlocked x n = false → lateBad s m = none →
  twf (fun _ => Half.reset) x.halves = true → twf (fun _ => 0) x.acc = true → m' = { m with started := true } → e = .hearthCommandEffect h n →
  (∀ t, only t ↔ t = { s with hearths := t.hearths } ∧ (∀ g, g ≠ h → t.hearth g = s.hearth g)) →
  (∀ sub, refused sub ↔ ((s.core m.core).run = .run → ∃ t, exec e s = .next t ∧ t.hearth h = { x with cmds := x.cmds.eraseIdx n }
    ∧ (t.core m.core).reports = (s.core m.core).reports ++ [⟨9, sub, 0, m.baddr, 3, 255, true, false, false, 0⟩] ∧ TokenSet s t m.core m.tp
    ∧ (∀ g, g ≠ h → t.hearth g = s.hearth g) ∧ (∀ d, d ≠ m.core → t.core d = s.core d)
    ∧ t = { s with hearths := t.hearths, cores := t.cores })) →
  (∀ f, m.instr = .mmode f → f.mode = 0 → ∃ t, exec e s = .next t ∧ only t ∧ t.hearth h = { x with
      halves := (t.hearth h).halves, cmds := x.cmds.set n m' }
    ∧ ∀ g, halfOf (t.hearth h) g = if g ∈ cmdHalves m then { halfOf x g with compute := false, fp4 := false } else halfOf x g)
  ∧ (∀ f y, m.instr = .mmode f → f.mode ≠ 0 →
      y = (cmdHalves m).foldl (fun y g => setHalf y g { halfOf y g with compute := true, fp4 := decide (f.wf = 1) }) x →
      ((∃ g, g ∈ cmdHalves m ∧ (halfOf x g).wbad = true) → refused 5)
      ∧ ((∀ g, g ∈ cmdHalves m → (halfOf x g).wbad = false) →
        (ncomp x < ncomp y → allowOf s h < ncomp y → refused 4)
        ∧ (ncomp y ≤ ncomp x ∨ ncomp y ≤ allowOf s h → ∃ t, exec e s = .next t ∧ only t ∧ t.hearth h = { x with
            halves := (t.hearth h).halves, cmds := x.cmds.set n m' }
          ∧ ∀ g, halfOf (t.hearth h) g = if g ∈ cmdHalves m then { halfOf x g with compute := true, fp4 := decide (f.wf = 1) } else halfOf x g)))
  ∧ (∀ f, m.instr = .mclr f → ∃ t, exec e s = .next t ∧ only t ∧ t.hearth h = { x with acc := (t.hearth h).acc, cmds := x.cmds.set n m' }
      ∧ ∀ a, tget (fun _ => 0) (t.hearth h).acc a =
          if (∃ g, g ∈ cmdHalves m ∧ a / 2048 = g / 2 ∧ a % 128 / 64 = g % 2) then 0 else tget (fun _ => 0) x.acc a)
  ∧ (∀ f w, m.instr = .mstat f → w = BitVec.ofNat 64 (mstatWord s x ((selOf m.a).macros.headD 0)) →
      exec e s = .next (s.setHearth h { x with cmds := x.cmds.set n { m' with status := w } }))
  ∧ (∀ f, m.instr = .mmac f →
      ((∃ g, g ∈ cmdHalves m ∧ (halfOf x g).compute = true ∧ (halfOf x g).wbad = true) → refused 5)
      ∧ ((∀ g, g ∈ cmdHalves m → (halfOf x g).compute = true → (halfOf x g).wbad = false) →
        ((∃ g, g ∈ cmdHalves m ∧ (halfOf x g).compute = false) → refused 2)
        ∧ ((∀ g, g ∈ cmdHalves m → (halfOf x g).compute = true) → exec e s = .next (s.setHearth h { x with cmds := x.cmds.set n m' }))))
  ∧ (∀ f, m.instr = .mwld f →
      ((∃ g, g ∈ cmdHalves m ∧ (halfOf x g).compute = true) → refused 3)
      ∧ ((∀ g, g ∈ cmdHalves m → (halfOf x g).compute = false) → exec e s = .next (s.setHearth h { x with cmds := x.cmds.set n m' })))
  ∧ (∀ f, m.instr = .mdrn f → exec e s = .next (s.setHearth h { x with cmds := x.cmds.set n { m' with
      buf := if m.vdest.isNone then (cmdHalves m).map (fun g => ((drainImage x g (decide (f.bf = 1))).toNat, false)) else [] } }))

/-- MMAC_ACCUMULATE, MMAC_PASS_COMPLETE, MWLD_COMPLETE, MDRN_COMPLETE and HEARTH_ZEROING_COMPLETE (04 R113 to R118, R122; 03 R83, R91, R92):
one activation vector accumulates in every column of the named halves and in no other, with the flags of its aligner and of each column; a
column takes its eight block sums in order, each scaled and rounded once into fp32, saturating with OVERFLOW, or becomes NaN; the end of the
pass raises its flags and sets its token; the image of a half holds each accumulator in fp32 or bf16; a load reads rows ahead, and its half takes its bytes, WBAD and PSN; a drain writes its register, or its tiles, and clears where it is asked
to; zeroing clears a hearth's bytes and accumulators, and no other byte. Choices of the model's in it: log 32, 96. -/
def Obligations.HearthWork : Prop := ∀ (h n : Nat) (s : State) (x : Hearth) (m : Cmd), s.Kept → x = s.hearth h →
  (∀ f first blocks af, x.cmds[n]? = some m → m.started = true → m.stopped = false → m.instr = .mmac f →
    (m.prog < 16 → allowOf s h ≠ 0 → (cmdHalves m).Nodup → twf (fun _ => 0) x.acc = true →
      (first, blocks, af) = drivenBlocks f (selOf m.a) m.vec m.prog → ∃ t fl, exec (.mmacAccumulate h n) s = .next t
        ∧ t = { s with hearths := t.hearths } ∧ t.hearth h = { x with
            acc := (t.hearth h).acc, cmds := x.cmds.set n { m with prog := m.prog + 1, flags := m.flags ||| fl } }
        ∧ (∀ g col, g ∈ cmdHalves m → col < (if (halfOf x g).fp4 then 64 else 32) → ∀ a, a = accKey (g / 2) m.prog (g % 2 * 64 + col) →
            tget (fun _ => 0) (t.hearth h).acc a = BitVec.ofNat 32 (passColumn s h g (decide (f.t = 1)) (halfOf x g).fp4 first blocks col
              (tget (fun _ => 0) x.acc a).toNat).1)
        ∧ (∀ j, fl.getLsbD j = true ↔ af.getLsbD j = true ∨ ∃ g col, g ∈ cmdHalves m ∧ col < (if (halfOf x g).fp4 then 64 else 32)
            ∧ (passColumn s h g (decide (f.t = 1)) (halfOf x g).fp4 first blocks col
                (tget (fun _ => 0) x.acc (accKey (g / 2) m.prog (g % 2 * 64 + col))).toNat).2.getLsbD j = true)
        ∧ (∀ a, (∀ g, g ∈ cmdHalves m → a / 2048 ≠ g / 2 ∨ a % 128 / 64 ≠ g % 2) →
            tget (fun _ => 0) (t.hearth h).acc a = tget (fun _ => 0) x.acc a))
    ∧ (m.prog = 16 → ∃ t, exec (.mmacPassComplete h n) s = .next t ∧ TokenSet s t m.core m.tp
        ∧ (t.core m.core).t = { (s.core m.core).t with vflags := (s.core m.core).t.vflags ||| m.flags }
        ∧ (t.core m.core).vs = (s.core m.core).vs ∧ (t.hearth h).acc = x.acc ∧ (t.hearth h).cmds.length + 1 = x.cmds.length ∧ SameMem s t))
  ∧ (∀ (g first col old : Nat) (a4 w4 : Bool) (blocks : List (Nat × List Nat)) (acc : Nat → Nat × Flags) (sa sw : Nat → Nat) (sum : Nat → Int)
      (wt : Nat → Int), acc 0 = (old, 0) → old % 2 ^ 31 ≠ 0x7F800000 → (∀ b, sw b = rawByte s (sideAddr h g + 64 * b + col)) →
      (∀ i, wt i = if w4 then mxInt true (rawByte s (halfAddr h g + 32 * i + col / 2) / 16 ^ (col % 2) % 16)
        else mxInt false (rawByte s (halfAddr h g + 32 * i + col))) →
      (∀ b sc codes, first ≤ b → blocks[b - first]? = some (sc, codes) →
        sa b = sc ∧ sum b = ((List.range 32).map fun i => mxInt a4 (codes.getD i 0) * wt (32 * b + i)).sum) →
      (∀ b, b < first ∨ blocks[b - first]? = none → sa b = 0 ∧ sum b = 0) →
      (∀ b v c, v = (vAdd (decodeFmt 0 (acc b).1) (.fin (decide (sum b < 0)) (sum b).natAbs
          (((sa b : Int) - 127) + ((sw b : Int) - 127) + (if a4 then -1 else -6) + (if w4 then -1 else -6)))).1 → c = (convert v 0 .rne).1 →
        acc (b + 1) = if sa b = 255 ∨ sw b = 255 ∨ (decodeFmt 0 (acc b).1).isNan = true then (0x7FC00000, (acc b).2)
          else if c % 2 ^ 31 = 0x7F800000 then (c - 1, (acc b).2 ||| Flags.overflow)
          else if c = 0x80000000 then (0, (acc b).2) else (c, (acc b).2)) →
      passColumn s h g a4 w4 first blocks col old = acc 8)
  ∧ (∀ i, mxInt false i = signedOf 8 i)
  ∧ (∀ i, i < 8 → mxInt true i = [0, 1, 2, 3, 4, 6, 8, 12].getD i 0 ∧ mxInt true (i + 8) = -mxInt true i)
  ∧ (∀ g bf i, i < 1024 → elemOf (drainImage x g bf) 32 i =
      (convert (decodeFmt 0 (tget (fun _ => 0) x.acc (accKey (g / 2) (i / 64) (g % 2 * 64 + i % 64))).toNat) (if bf then 1 else 0) .rne).1 % 2 ^ 32)
  ∧ (∀ f g r, x.cmds[n]? = some m → m.started = true → m.stopped = false → m.instr = .mwld f → (cmdHalves m)[m.prog]? = some g →
      m.buf = [] → r = loadHalf s h g m.ctx (tileOf (m.blk.getD [])) m.prog (shpStr m.shape 0) (shpStr m.shape 1) → r.met = .done →
      twf (fun _ => Half.reset) (r.s.hearth h).halves = true → ∃ t, exec (.mwldComplete h n) s = .next t ∧ t.mem = r.s.mem
        ∧ halfOf (t.hearth h) g = { halfOf (r.s.hearth h) g with wbad := r.poison, psn := r.poison }
        ∧ ((cmdHalves m).length = m.prog + 1 → TokenSet r.s t m.core m.tp)
        ∧ ((cmdHalves m).length ≠ m.prog + 1 →
            (t.hearth h).cmds = (r.s.hearth h).cmds.set n { m with prog := m.prog + 1 } ∧ ∀ d, t.core d = r.s.core d))
  ∧ (∀ f r j, x.cmds[n]? = some m → m.started = false → m.stopped = false → m.instr = .mwld f → m.needs = [] → m.blk ≠ none → lateBad s m = none →
      j = m.prog * 272 + m.buf.length → j < (cmdHalves m).length * 272 →
      r = pullBytes s m.ctx (rowVa (tileOf (m.blk.getD [])) (j / 272) (j % 272) (shpStr m.shape 0) (shpStr m.shape 1)) 3 32 → r.1.met = .done →
      ∃ t, exec (.mwldComplete h n) s = .next t ∧ t = { r.1.s with hearths := t.hearths } ∧ (∀ g, g ≠ h → t.hearth g = r.1.s.hearth g)
        ∧ t.hearth h = { r.1.s.hearth h with cmds := (r.1.s.hearth h).cmds.set n { m with buf := m.buf ++ [(r.2, r.1.poison)] } })
  ∧ (∀ (f : MWldOp) (g : Nat) (row : Nat → Nat) (bad : Nat → Bool), x.cmds[n]? = some m → m.started = true → m.stopped = false → m.instr = .mwld f →
      (cmdHalves m)[m.prog]? = some g → (∀ j, j < 272 → m.buf[j]? = some (row j, bad j) ∧ row j < 2 ^ 256
        ∧ homeOf s (rowPlace h g j) = some (if j < 256 then .cim h g else .side h g)) → (halfOf x g).compute = false →
      twf (fun _ => Half.reset) x.halves = true → twf (fun _ => 0) s.flips = true → ∃ t, exec (.mwldComplete h n) s = .next t
        ∧ (∀ j, j < 272 → isPoison t (rowPlace h g j) = bad j ∧ flipsAt t (rowPlace h g j) = 0
            ∧ (bad j = false → memGetN t.mem (rowPlace h g j) 32 = row j))
        ∧ (∀ a, (∀ j, j < 272 → a < rowPlace h g j ∨ rowPlace h g j + 32 ≤ a) → memGet t.mem a = memGet s.mem a)
        ∧ ((halfOf (t.hearth h) g).wbad = true ↔ ∃ j, j < 272 ∧ bad j = true) ∧ (halfOf (t.hearth h) g).psn = (halfOf (t.hearth h) g).wbad
        ∧ ((cmdHalves m).length = m.prog + 1 → TokenSet s t m.core m.tp)
        ∧ ((cmdHalves m).length ≠ m.prog + 1 → (t.hearth h).cmds = x.cmds.set n { m with prog := m.prog + 1, buf := m.buf.drop 272 }))
  ∧ (∀ f g d img, x.cmds[n]? = some m → m.started = true → m.stopped = false → m.instr = .mdrn f → (cmdHalves m)[m.prog]? = some g →
      m.vdest = some d → img = drainImage x g (decide (f.bf = 1)) → ∃ t, exec (.mdrnComplete h n) s = .next t ∧ TokenSet s t m.core m.tp
        ∧ (t.core m.core).vs = ((s.core m.core).setVreg d img).vs ∧ (t.core m.core).t = (s.core m.core).t ∧ SameMem s t
        ∧ (f.clr = 0 → (t.hearth h).acc = x.acc)
        ∧ (f.clr = 1 → twf (fun _ => 0) x.acc = true → ∀ a, tget (fun _ => 0) (t.hearth h).acc a =
            if (∃ q, q ∈ cmdHalves m ∧ a / 2048 = q / 2 ∧ a % 128 / 64 = q % 2) then 0 else tget (fun _ => 0) x.acc a))
  ∧ (∀ f g v r, x.cmds[n]? = some m → m.started = true → m.stopped = false → m.instr = .mdrn f → (cmdHalves m)[m.prog]? = some g →
      m.vdest = none → m.buf[m.prog]? = some (v, false) →
      r = pushRun s m.ctx (wrapNat 64 (m.b.toNat + m.prog * shpStr m.shape 0)) v 4097 4096 → r.met = .done →
      ∃ t, exec (.mdrnComplete h n) s = .next t ∧ t.mem = r.s.mem ∧ ((cmdHalves m).length = m.prog + 1 → TokenSet r.s t m.core m.tp)
        ∧ ((cmdHalves m).length ≠ m.prog + 1 → t = { r.s with hearths := t.hearths } ∧ (∀ g, g ≠ h → t.hearth g = r.s.hearth g)
          ∧ t.hearth h = { r.s.hearth h with cmds := (r.s.hearth h).cmds.set n { m with prog := m.prog + 1 } }))
  ∧ (∀ inside : Nat → Prop, (∀ a, inside a ↔ (Config.cimBase + h * 0x4000000 ≤ a ∧ a < Config.cimBase + (h + 1) * 0x4000000)
        ∨ (Config.cimsBase + h * 0x400000 ≤ a ∧ a < Config.cimsBase + (h + 1) * 0x400000)) → x.zeroing = true →
      ∃ t, exec (.hearthZeroingComplete h) s = .next t ∧ t.hearth h = { x with acc := [], zeroing := false }
        ∧ (∀ a, inside a → memGet t.mem a = 0) ∧ (∀ a, ¬ inside a → memGet t.mem a = memGet s.mem a) ∧ ∀ d, t.core d = s.core d)

/-- LEASE_GRANT, LEASE_COUNT_EXPIRY and LEASE_IDLE_EXPIRY (04 R120 to R122): the requesting core whose turn it is holds the lease for
LEASEMAX commands, and its claiming group keeps its weights from then on; the lease ends after them, or is granted again where no other core
asks; and it ends after 4,096 idle cycles. Choices of the model's in it: log 86. -/
def Obligations.LeaseEvents : Prop := ∀ (h c : Nat) (s : State) (x ended : Hearth), s.Kept → x = s.hearth h →
  ended = { x with holder := none, left := 0, lastHolder := some (s.core c).ident.task } →
  (x.holder = none → nextHolder s h = some c → eventHeldFor s c = false → ∃ t, exec (.leaseGrant h c) s = .next t
    ∧ t.hearth h = { x with holder := some c, left := leaseMax s h, wants := setDel x.wants c, lastMx := (s.core c).cyc }
    ∧ t.claims = s.claims.map (fun (q : Claim) => if some q.id = x.group ∧ q.kept = 0 then { q with kept := 1 } else q)
    ∧ t = { s with hearths := t.hearths, claims := t.claims })
  ∧ (x.holder = some c → x.left = 0 → setDel x.wants c = [] → exec (.leaseCountExpiry h) s =
      .next (s.setHearth h { x with left := leaseMax s h, wants := [], lastMx := (s.core c).cyc }))
  ∧ (x.holder = some c → x.left = 0 → setDel x.wants c ≠ [] → exec (.leaseCountExpiry h) s = .next (s.setHearth h ended))
  ∧ (x.holder = some c → x.lastMx + 4096 ≤ (s.core c).cyc → exec (.leaseIdleExpiry h) s = .next (s.setHearth h ended))

/-! ## Tasks and gangs -/

/-- NEXT_RECORD_VALID, PRELOAD_COMPLETE, GANG_SWITCH, SEG_COPY_START and SEGMENT_COPY_COMPLETE (19 R327 to R330, 01 R33, 05 R132, 18 R301,
R307, R311; 20 R347; 10 R276, R408): a record that may be taken is in force, one that is ignored is answered by event 4; a preload sets
READY and fills its bank, for a fused pair with both programs' data; every task of a gang that switches in starts with its identity, its
launch arguments from the copy that ARGS names, a fused one with both launches', and all else at its start value, or continues from its save
area; a copy takes the half that is not in use, and the half then holds the segment. Choices of the model's in it: log 62, 64, 94, 95, 105.
-/
def Obligations.TaskStarts : Prop := ∀ (c : Nat) (s : State) (k : Core) (b : Bind), s.Kept → c < 128 → k = s.core c → b = nextBind s c →
  (nextValid s c = true → exec (.nextRecordValid c) s = .next s)
  ∧ (nextValid s c = false → recordBad s c b = true → ∃ t, exec (.nextRecordValid c) s = .next t
      ∧ Posted s t (eventWord 4 c b.gridId) (BitVec.ofNat 64 c) ∧ ∀ d, t.core d = s.core d)
  ∧ (nextValid s c = false → recordBad s c b = false → hearthChosen s c b = true → ∃ t, exec (.nextRecordValid c) s = .next t
      ∧ t.reg (slotAddr c + 120) = 1 ∧ t.reg (slotCtl c) = s.reg (slotCtl c) &&& ~~~24#64 ∧ SameMem s t
      ∧ t.core c = { k with filled := false, imem := { k.imem with pre := none } } ∧ ∀ d, d ≠ c → t.core d = s.core d)
  ∧ (∀ g, nextValid s c = true → preloadOpen s c = true → preloadDeferred k b = false → k.imem.copy = none → gridOf s b = some g →
      preloadWaits s b b.pre (b.prs && !b.resume) b.resume = false →
      ∃ t, exec (.preloadComplete c) s = .next t ∧ t.reg (slotCtl c) = s.reg (slotCtl c) ||| 8#64 ∧ (t.core c).t = k.t ∧ (t.core c).vs = k.vs
        ∧ (∀ d, d ≠ c → t.core d = s.core d) ∧ (b.resume = false → b.pre = false → b.prs = false → SameMem s t)
        ∧ (b.resume = false → b.prs = true → Calm s → (t.core c).filled = true
          ∧ (pairOf s b = none → ∀ i, i < (bindRange c b).2 → memGet t.mem ((bindRange c b).1 + i) = ((dataOf s g b.stage)[i]?).getD 0)
          ∧ ∀ (p h : Grid) (f : FusedProg) (base n tab : Nat) (d : List Byte) (places : List (Nat × Nat)), pairOf s b = some (p, h) → p.plan = some f →
              (base, n) = bindRange c b → d = dataOf s h 0 → tab = (hdrTab h.header).getD 0 → places = entryPlaces p.header h.header f.fus.ren →
              (∀ e e', e ∈ places → e' ∈ places → e = e' ∨ e.2 + 32 ≤ e'.2 ∨ e'.2 + 32 ≤ e.2) →
              (∀ e j, e ∈ places → e.2 + 32 ≤ n → j < 32 → memGet t.mem (base + (e.2 + j)) = (d[tab + 32 * e.1 + j]?).getD 0)
              ∧ ∀ o, o < n → (∀ e, e ∈ places → o < e.2 ∨ e.2 + 32 ≤ o) → memGet t.mem (base + o) =
                  if o < d.length ∧ blkN h.header 24 4 ≤ o ∧ o ≤ blkN h.header 28 4 ∧ inEntry h.header o = false then (d[o]?).getD 0
                  else ((dataOf s p 0)[o]?).getD 0))
  ∧ (∀ g, nextValid s c = true → gridOf s b = some g → gangReady s b g = true → switchWaits s b.gang g = false → ∃ t, exec (.gangSwitch c) s = .next t
      ∧ (∀ d, d ∉ nextCores s b.gang → t.core d = s.core d)
      ∧ (∀ d r x, d ∈ nextCores s b.gang → r = nextBind s d → r.resume = false → (pairOf s r = none ∨ ∃ p h f, pairOf s r = some (p, h) ∧ p.plan = some f) →
          x = t.core d → t.reg (slotAddr d + 120) = 0 ∧ (∃ args regs, x = { Core.reset with
              run := .run, ident := identOf s r g, t := { SCtx.reset with s := regs }, imem := x.imem,
              f := (s.core d).f, cyc := (s.core d).cyc, fTurn := (s.core d).fTurn, fWin := (s.core d).fWin, fUsed := (s.core d).fUsed }
            ∧ (pairOf s r = none → regs = argRegs g args some [])
            ∧ (∀ lead, lead = (match pairOf s r with
                | some (p, _) => p
                | none => g) → Calm s → DramArea s r.args (8 * lead.nargs) → args = memBytes s.mem r.args (8 * lead.nargs))
            ∧ ∀ p h f, pairOf s r = some (p, h) → p.plan = some f →
                regs = argRegs h h.args (newMark f.fus.ren.s) (argRegs p args some [])
                ∧ x.imem.fused = f.code.length ∧ x.imem.segtab = [⟨0, 0, f.code.length⟩] ∧ x.imem.pexit = f.pexit
                ∧ x.imem.loop = some (f.loopAt, BitVec.ofNat 64 f.fus.trip)
                ∧ ∀ i w, f.code[i]? = some w → tget (fun _ => 0) x.imem.splice i = w.word)
          ∧ x.t.g = 0 ∧ x.t.vflags = 0 ∧ x.t.pc = 0 ∧ x.vs = VSt.reset ∧ x.tkPending = 0 ∧ x.lcount = 0 ∧ x.lstat = 0 ∧ x.thbase = 0
          ∧ x.probecfg = 0 ∧ x.tags = [] ∧ x.barQ = [] ∧ x.cpQ = [] ∧ x.reports = [] ∧ x.tcycle = 0 ∧ x.segstall = 0
          ∧ ∀ n, tget (fun _ => 0) x.shp n = 0 ∧ tget (fun _ => 0) x.shd n = 0 ∧ tget (fun _ => 0) x.wp n = 0
              ∧ tget (fun _ => Barrier.reset) x.bars n = ⟨1, 0, 0, none⟩ ∧ tget (fun _ => none) x.arecs n = none
              ∧ tget (fun _ => none) x.rings n = none ∧ tget (fun _ => RingHome.reset) x.ringHome n = ⟨0, 0, none⟩)
      ∧ ∀ d r x rd, d ∈ nextCores s b.gang → r = nextBind s d → r.resume = true → x = t.core d → Calm s → DramArea s r.save (saveSize r.wide) →
          r.save % 65536 = 0 → (∀ o n, rd o n = memGetN s.mem (r.save + o) n) →
          t.reg (slotAddr d + 120) = 0 ∧ x.ident = identOf s r g ∧ InArea rd (isGrotto d) x
          ∧ (x.run = if (rd 0 8).testBit 18 then .handler else .run)
          ∧ (x.tkPending = if (rd 0 8).testBit 18 then BitVec.ofNat 64 (rd 0x2440 8) else 0)
          ∧ ((rd 0 8).testBit 19 = true → isGrotto d = false → d ∈ (t.hearth (hearthOf d)).wants)
          ∧ ((rd 0 8).testBit 18 = true → (∀ i, i < 16 → t.reg (recAddr d + 8 * i) = BitVec.ofNat 64 (rd (0x2400 + 8 * i) 8) &&& recMask i)
            ∧ x.handlerDeferred = decide (rd 0x2436 1 % 2 = 1) ∧ x.f.pc = 0 ∧ x.f.jump = none)
          ∧ ((s.core d).filled = false → ∀ i, i < (bindRange d r).2 → isPoison t ((bindRange d r).1 + i) = false
              ∧ memGet t.mem ((bindRange d r).1 + i) = memGet s.mem (r.save + 0x200000 + i)))
  ∧ (∀ g rest h, k.imem.copy = none → k.imem.asked = g :: rest → h = copyHalf k (issuingAt k) → ∃ t im, exec (.segCopyStart c) s = .next t ∧ SameMem s t
      ∧ (∀ d, d ≠ c → t.core d = s.core d) ∧ t.core c = { k with imem := im } ∧ im.asked = rest ∧ im.copy = some ⟨g, h, false⟩
      ∧ (if h = 0 then im.res0 = none ∧ im.res1 = k.imem.res1 else im.res0 = k.imem.res0 ∧ (h = 1 → im.res1 = none)))
  ∧ (∀ q e, k.imem.copy = some q → k.imem.segtab[q.seg]? = some e → bytesWait s k.ident.ctx (k.ident.image + e.offset) (64 * e.count) = false →
      ∃ t im, exec (.segmentCopyComplete c) s = .next t
      ∧ (∀ d, d ≠ c → t.core d = s.core d) ∧ t.core c = { k with imem := im } ∧ (Calm s → SameMem s t)
      ∧ (∀ g rest, k.imem.asked = g :: rest → im.asked = rest ∧ ∃ h, im.copy = some ⟨g, h, false⟩
          ∧ (segOf k k.t.pc = some q.seg → k.imem.res0 ≠ some q.seg → q.half < 2 →
              (∃ bs, readBundles s k.ident.ctx (k.ident.image + e.offset) e.count = some bs) → h = 1 - q.half))
      ∧ (readBundles s k.ident.ctx (k.ident.image + e.offset) e.count = none → k.imem.asked = [] →
          im = { k.imem with copy := none, failed := k.imem.failed ++ [q.seg] })
      ∧ ∀ bs, readBundles s k.ident.ctx (k.ident.image + e.offset) e.count = some bs → twf (fun _ => 0) k.imem.code = true →
          (∀ i w, bs[i]? = some w → tget (fun _ => 0) im.code (q.half * halfSize c + i) = w)
          ∧ (k.imem.asked = [] → im.copy = none ∧ (q.half = 0 → im.res0 = some q.seg ∧ im.res1 = k.imem.res1)
              ∧ (q.half = 1 → im.res1 = some q.seg ∧ im.res0 = k.imem.res0)))

/-- BUDGET_EXPIRY, SLOT_PREEMPT, SLOT_DISCARD, CONTEXT_CAPTURE, TASK_FINISH, WAITY_RESUME and GRID_COMPLETE (19 R329, R332; 20 R342, R345,
R346; 06 R179; 09 R268; 10 R281; 01 R41): a gang that reaches its budget or is pre-empted stops; a discarded one loses its reports and ends;
a captured one stands in its save areas and leaves its cores; one that is rerun gives back its tasks that had finished; the end of a task counts in its grids, of a fused one in both, and is event 3;
the conditions of a suspended gang end its suspension, a condition whose address fails staying false with the first of them reported; a grid
with no task and no child left signals its completion. Choices of the model's in it: log 22, 59, 61, 63, 68, 93, 104. -/
def Obligations.TaskEnds : Prop := ∀ (c n : Nat) (s : State) (k : Core) (g : Nat), s.Kept → c < 128 → k = s.core c → g = k.ident.gang →
  (k.bound = true → k.ident.budget ≠ 0 → k.ident.budget ≤ k.resident → k.why = none → ∃ t, exec (.budgetExpiry c) s = .next t
    ∧ GangStops s t g .budget ∧ Posted s t (eventWord 2 c k.ident.gridId) (BitVec.ofNat 64 g))
  ∧ (k.bound = true → ∃ t, exec (.slotPreempt c) s = .next t ∧ GangStops s t g .preempt ∧ t = { s with cores := t.cores })
  ∧ (k.bound = false → exec (.slotPreempt c) s = .next s ∧ exec (.slotDiscard c) s = .next s)
  ∧ (k.bound = true → ∃ t, exec (.slotDiscard c) s = .next t ∧ SameMem s t ∧ (∀ d, d ∉ gangCores s g → t.core d = s.core d)
      ∧ ∀ d, d ∈ gangCores s g → (t.core d).why = some (if rerunsElsewhere s g k.ident.gridId then .rerun else .ended)
          ∧ (t.core d).reports = [] ∧ (t.core d).run = (s.core d).run ∧ (t.core d).t.s = (s.core d).t.s)
  ∧ (∀ w, k.bound = true → k.why = some w → (∀ d, d ∈ gangCores s g → (if w = .ended ∨ w = .rerun then endReady s d else captureReady s d) = true) →
      ∃ t, exec (.contextCapture c) s = .next t ∧ (∀ d, d ∈ gangCores s g → (t.core d).run = .idle ∧ (t.core d).vs = VSt.reset)
        ∧ (∀ d, d ∉ gangCores s g → t.core d = s.core d)
        ∧ (w = .rerun → ∀ (i : Nat) (q : Grid), s.grids[i]? = some q → ∃ r, t.grids[i]? = some r ∧ r = { q with
            left := r.left, status := r.status, exitCode := r.exitCode, nexit := r.nexit }
          ∧ r.left = q.left + ((gangCores s g).filter fun d => (s.core d).finished && (if (s.core d).ident.fuseId = 0 then
              decide (q.id = (s.core d).ident.gridId) else decide (q.fuseId = (s.core d).ident.fuseId))).length)
        ∧ (w ≠ .ended → w ≠ .rerun → Calm s → (∀ d, d ∈ gangCores s g → (s.core d).ident.save % 65536 = 0
            ∧ DramArea s (s.core d).ident.save (saveSize (s.core d).ident.wide)
            ∧ ∀ e, e ∈ gangCores s g → e ≠ d → (s.core d).ident.save + 0x600000 ≤ (s.core e).ident.save
                ∨ (s.core e).ident.save + 0x600000 ≤ (s.core d).ident.save) →
          (w ≠ .budget → Posted s t (eventWord 2 c k.ident.gridId) (BitVec.ofNat 64 g))
          ∧ ∀ d x a rd queue, d ∈ gangCores s g → x = s.core d → a = x.ident.save → (∀ o m, rd o m = memGetN t.mem (a + o) m) →
              queue = queueBytes x.t → InArea rd (isGrotto d) x
            ∧ rd 0 8 = 0xA5C2 + (if x.ident.wide then 2 ^ 16 else 0) + (if isGrotto d then 2 ^ 17 else 0) + (if x.handling then 2 ^ 18 else 0)
                + (if (s.hearth (hearthOf d)).holder = some d ∧ isGrotto d = false then 2 ^ 19 else 0) + 2 ^ 24
            ∧ (∀ i, i < 16 → rd (0x2400 + 8 * i) 8 = (s.reg (recAddr d + 8 * i)).toNat)
            ∧ (∀ i v, queue[i]? = some v → memGet t.mem (a + 0xA0000 + i) = v)
            ∧ (∀ i, i < localSize d x → isPoison t (a + 0x200000 + i) = isPoison s (localBase d x + i)
                ∧ (isPoison s (localBase d x + i) = false → memGet t.mem (a + 0x200000 + i) = memGet s.mem (localBase d x + i)))))
  ∧ (finishReady s c = true → ∃ t, exec (.taskFinish c) s = .next t ∧ t.grids.length = s.grids.length
      ∧ (∀ (i : Nat) (q : Grid), s.grids[i]? = some q → ∃ r, t.grids[i]? = some r ∧ r = { q with
            left := r.left, status := r.status, exitCode := r.exitCode, nexit := r.nexit }
          ∧ ∀ code, code = (if q.fuseId ≠ 0 ∧ q.consumer = false then k.pcode.getD 0 else k.exited.getD 0) →
            if (if k.ident.fuseId = 0 then decide (q.id = k.ident.gridId) else decide (q.fuseId = k.ident.fuseId)) = false then r = q
            else r.left = q.left - 1 ∧ (code = 0 → r.status = q.status ∧ r.exitCode = q.exitCode ∧ r.nexit = q.nexit)
              ∧ (code ≠ 0 → r.status = max q.status 1 ∧ r.nexit = q.nexit + 1 ∧ r.exitCode = if q.exitCode = 0 then code else q.exitCode))
      ∧ Posted s t (eventWord 3 c k.ident.gridId) (BitVec.ofNat 64 (k.exited.getD 0)) ∧ (∀ d, d ∉ gangCores s g → t.core d = s.core d)
      ∧ ((∃ d, d ∈ gangCores s g ∧ d ≠ c ∧ (s.core d).finished = false) → t.core c = { k with finished := true })
      ∧ ((∀ d, d ∈ gangCores s g → d = c ∨ (s.core d).finished = true) → (t.core c).run = .idle))
  ∧ (∀ w, s.susps[n]? = some w →
      ((∀ x, x ∈ s.susps → x.gang = w.gang → blockHolds s x.ctx x.parent x.dead x.block = true) → ∃ t, exec (.waityResume n) s = .next t
        ∧ t.susps = s.susps.filter (fun x => decide (x.gang ≠ w.gang)) ∧ (Calm s → SameMem s t)
        ∧ ∀ d, t.core d = { s.core d with why := if d ∈ gangCores s w.gang ∧ (s.core d).why = some .waity then none else (s.core d).why })
      ∧ (∀ f rest v, (∃ x, x ∈ s.susps ∧ x.gang = w.gang ∧ blockHolds s x.ctx x.parent x.dead x.block = false) →
        blockFails s w.ctx w.dead w.block = f :: rest → v = { w with dead := w.dead ++ (f :: rest).map (·.1) } → ∃ t,
          exec (.waityResume n) s = .next t ∧ t.susps = s.susps.set n v ∧ ((s.core w.core).bound = true → (s.core w.core).ident.gang = w.gang →
            (s.core w.core).ident.save = w.save → (t.core w.core).reports = (s.core w.core).reports ++ [waityReport w f.2.1 f.2.2])))
  ∧ (∀ (d : Grid) (a x : Nat), s.grids[n]? = some d → d.fuseId = 0 → gridDone s d = true → d.rec_ = 0 → d.sig = a → a ≠ 0 →
      d.sigop = false → Translates s d.ctx a needWrite (.plain x) → Pad s x 8 → ∃ t, exec (.gridComplete n) s = .next t
        ∧ Stored s t x 8 d.sigval.toNat ∧ t.grids = s.grids.filter (fun h => decide (h ≠ d)) ∧ (∀ e, t.core e = s.core e)
        ∧ t.msix = if d.intr then qVec s d.queue :: s.msix else s.msix)
  ∧ (∀ (p h : Grid), s.grids[n]? = some p ∨ s.grids[n]? = some h → p.fuseId ≠ 0 → fusedGrids s p = [p, h] → fusedGrids s h = [p, h] → gridDone s p = true →
      gridDone s h = true → p.rec_ = 0 → h.rec_ = 0 → p.sig = 0 → h.sig = 0 → ∃ t, exec (.gridComplete n) s = .next t ∧ SameMem s t
        ∧ t.grids = s.grids.filter (fun q => !decide (q = p) && !decide (q = h)) ∧ (∀ e, t.core e = s.core e)
        ∧ t.msix = (if h.intr then [qVec s h.queue] else []) ++ (if p.intr then [qVec s p.queue] else []) ++ s.msix)

/-! ## Queues, registers and units -/

/-- LAUNCH, WAITALL, WAITANY, WAIT_ROUND and SIGNAL_PACKET (19 R315 to R324): a launch that may run is a grid in flight; one that may not
completes at once, with its status in its record, or its signal updated; a pair that may be spliced (10 R269 to R281; 20 R344) is two grids
under one fusion identifier, with its fusion entry, and one that may not is refused with its code (19 R326) and its first launch goes alone;
a wait packet is evaluated by rounds and ends at one that holds; a signal packet writes or adds at its address; each passes its units; a
packet in error stops its queue, and passes its units where dispatch has read them whole. Choices of the model's in it: log 53, 54, 57, 67,
94, 111. -/
def Obligations.PacketsDispatch : Prop := ∀ (q : Nat) (s : State) (b : List Byte) (par : Option Parent) (ctx : Nat), s.Kept → q < 32768 →
  par = parentAt s q (qRd s q) → ctx = qCtx s q →
  (dispatchable s q = .ok b → pkType b = 1 → pairAt s q b = none → servedNext s q = true → argsWait s q b = false →
    (takenReads s q b).any (fun r => bytesWait s ctx r.1 r.2) = false →
    (∀ x, takeLaunch s ctx (levelOf s par) b = .ok x → (mkGrid s q (qRd s q) b x par).left ≠ 0 → ∃ t, exec (.launch q) s = .next t
      ∧ t.grids = s.grids ++ [mkGrid s q (qRd s q) b x par] ∧ t.launchSeq = s.launchSeq + 1 ∧ t.gridSeq = s.gridSeq + 1
      ∧ t.reg (qreg q 24) = BitVec.ofNat 64 (qRd s q + 2) ∧ ∀ d, t.core d = s.core d)
    ∧ (∀ st rec_ sig u, takeLaunch s ctx (levelOf s par) b = .error st → rec_ = blkN b 72 8 → sig = blkN b 56 8 →
      completionWaits s ctx rec_ sig = false →
      u = offerLaunch { s with launchSeq := s.launchSeq + 1 } (mkGrid s q (qRd s q) b ⟨0, 0, 1, 0, 0, [], []⟩ par) 0 →
      ∃ t, exec (.launch q) s = .next t ∧ t.grids = s.grids ∧ t.launchSeq = s.launchSeq + 1 ∧ (∀ d, t.core d = s.core d)
        ∧ t.reg (qreg q 24) = BitVec.ofNat 64 (qRd s q + 2)
        ∧ (rec_ = 0 → sig = 0 → t.msix = if pkFlag b 13 then qVec s q :: s.msix else s.msix)
        ∧ (∀ x, rec_ ≠ 0 → sig = 0 → Translates u ctx rec_ needWrite (.plain x) → Pad u x 16 → Calm s →
            memGetN t.mem x 16 = (s.launchSeq + 1) % 2 ^ 64 + st % 2 ^ 16 * 2 ^ 64)
        ∧ (∀ x, rec_ = 0 → sig ≠ 0 → pkFlag b 12 = false → Translates u ctx sig needWrite (.plain x) → Pad u x 8 →
            Calm s → memGetN t.mem x 8 = blkN b 64 8)))
  ∧ (∀ g h, dispatchable s q = .ok b → pkType b = 1 → pairAt s q b = some (g, h) → servedNext s q = true → argsWait s q b = false →
    (takenReads s q b).any (fun r => bytesWait s ctx r.1 r.2) = false → g.left ≠ 0 →
    (∀ x id claim f a, fusePlan (progOf s g) (progOf s h) = .ok x → h.left ≠ 0 → id = freeFuseId s → claim = (g.claim || h.claim) →
      f = fusedProg x (progOf s g) (progOf s h) → a = fuseEntry id → ∃ t, exec (.launch q) s = .next t
        ∧ t.grids = s.grids ++ [{ g with fuseId := id, claim := claim, plan := some f }, { h with fuseId := id, claim := claim, consumer := true }]
        ∧ t.launchSeq = s.launchSeq + 2 ∧ t.gridSeq = s.gridSeq + 2 ∧ t.reg (qreg q 24) = BitVec.ofNat 64 (qRd s q + 4)
        ∧ (∀ d, t.core d = s.core d) ∧ t.reg a = BitVec.ofNat 64 (s.launchSeq + 1) ∧ t.reg (a + 8) = BitVec.ofNat 64 (s.launchSeq + 2)
        ∧ t.reg (a + 16) = BitVec.ofNat 64 (x.delta + x.ren.o * 256 + f.code.length * 65536)
        ∧ (∀ i w, f.code[i]? = some w → i < 256 → bitsAt (t.reg (a + 1024 + 8 * (i / 2))).toNat (32 * (i % 2)) 32 = w.origin % 2 ^ 32)
        ∧ ∀ i v, (∀ e, e ∈ entryBytes x → e < 256) → (entryBytes x)[i]? = some v → i < 1024 → bitsAt (t.reg (a + 2048 + 8 * (i / 8))).toNat (8 * (i % 8)) 8 = v)
    ∧ (∀ code, fusePlan (progOf s g) (progOf s h) = .error code → ∃ t, exec (.launch q) s = .next t ∧ t.grids = s.grids ++ [g]
        ∧ t.launchSeq = s.launchSeq + 1 ∧ t.gridSeq = s.gridSeq + 1 ∧ t.reg (qreg q 24) = BitVec.ofNat 64 (qRd s q + 2)
        ∧ bitsAt (t.reg (qreg q 32)).toNat 8 8 = code ∧ (t.reg (qreg q 32)).getLsbD 16 = true
        ∧ t.reg 0x0E0004005000 = s.reg 0x0E0004005000 + 1 ∧ ∀ d, t.core d = s.core d))
  ∧ (∀ e, (e = .waitall q ∧ pkType b = 2) ∨ (e = .waitany q ∧ pkType b = 3) → dispatchable s q = .ok b → ∃ t, exec e s = .next t
      ∧ t.flights = s.flights ++ [⟨q, qRd s q, b, par⟩] ∧ t.reg (qreg q 24) = BitVec.ofNat 64 (qRd s q + 4) ∧ (Calm s → SameMem s t)
      ∧ ∀ d, t.core d = s.core d)
  ∧ (∀ w, s.flights.find? (fun w => decide (w.queue = q)) = some w →
      (∀ done, roundHolds s w = some done → ∃ t, exec (.waitRound q) s = .next t ∧ (∀ d, t.core d = s.core d) ∧ t.grids = s.grids
        ∧ (Calm s → SameMem s t) ∧ t.flights = if done then s.flights.filter (fun x => decide (x ≠ w)) else s.flights)
      ∧ (roundHolds s w = none → qErr s q = false → ∃ t, exec (.waitRound q) s = .next t ∧ qErr t q = true
          ∧ bitsAt (t.reg (qreg q 32)).toNat 1 7 = 5 ∧ t.reg (qreg q 40) = BitVec.ofNat 64 w.unit ∧ t.msix = qVec s q :: s.msix))
  ∧ (∀ x v, dispatchable s q = .ok b → pkType b = 4 → Translates s ctx (blkN b 8 8) needWrite (.plain x) →
      Pad s x 8 → v = (if pkFlag b 12 then (memGetN s.mem x 8 + blkN b 16 8 % 2 ^ 64) % 2 ^ 64 else blkN b 16 8 % 2 ^ 64) →
      ∃ t, exec (.signalPacket q) s = .next t ∧ (Calm s → Stored s t x 8 v) ∧ t.reg (qreg q 24) = BitVec.ofNat 64 (qRd s q + 1)
        ∧ (∀ d, t.core d = s.core d) ∧ t.msix = if pkFlag b 13 then qVec s q :: s.msix else s.msix)
  ∧ (∀ cause sub, dispatchable s q = .ok b → pkType b = 4 → translate s ctx (blkN b 8 8) needWrite none = .fail cause sub → qErr s q = false →
      completionWaits s ctx 0 (blkN b 8 8) = false →
      ∃ t, exec (.signalPacket q) s = .next t ∧ qErr t q = true ∧ bitsAt (t.reg (qreg q 32)).toNat 1 7 = 5
        ∧ t.reg (qreg q 24) = BitVec.ofNat 64 (qRd s q + 1) ∧ ∀ d, t.core d = s.core d)
  ∧ (∀ e ty cause, (e = .launch q ∧ ty = 1) ∨ (e = .waitall q ∧ ty = 2) ∨ (e = .waitany q ∧ ty = 3) ∨ (e = .signalPacket q ∧ ty = 4) →
      dispatchable s q = .err ty cause → cause < 8 → qErr s q = false → ∃ t, exec e s = .next t ∧ qErr t q = true
        ∧ bitsAt (t.reg (qreg q 32)).toNat 1 7 = cause ∧ t.reg (qreg q 40) = BitVec.ofNat 64 (qRd s q) ∧ t.msix = qVec s q :: s.msix
        ∧ t.reg (qreg q 24) = if cause = 2 ∨ cause = 4 then BitVec.ofNat 64 (qRd s q + (unitsOf ty).getD 0) else s.reg (qreg q 24))

/-- The writes to registers that have an event of their own (19 R312 to R314; 20 R349; 22 R379, R385, R386; 24 R401; 23 R390): which bits
each changes, when it is ignored, and that it changes nothing else; a QWR beyond the ring's room stands and stops the queue with OVERRUN; REGISTER_WRITE on a register of plain storage; and the place of a posted
event in the ring, which holds it while it is full. Choices of the model's in it: log 84. -/
def Obligations.RegisterWrites : Prop := ∀ (q : Nat) (v : Word) (s : State), s.Kept → q < 32768 →
  (qEn s q = true → exec (.queueEnable q v) s = .next (putFields s (qreg q 8) v qctlFree))
  ∧ (qEn s q = false → 6 ≤ bitsAt v.toNat 0 5 → bitsAt v.toNat 0 5 ≤ 20 → (s.reg (qreg q 0)).toNat % 4096 = 0 →
      ∃ t, exec (.queueEnable q v) s = .next t ∧ qEn t q = true ∧ qErr t q = false ∧ t.reg (qreg q 40) = 0 ∧ qLogsz t q = bitsAt v.toNat 0 5
        ∧ qCtx t q = bitsAt v.toNat 10 16 ∧ qDev t q = v.getLsbD 9 ∧ qVec t q = bitsAt v.toNat 26 11 ∧ qWr t q = qWr s q ∧ qRd t q = qRd s q)
  ∧ (∃ t, exec (.queueDisable q v) s = .next t ∧ qEn t q = false ∧ qVec t q = bitsAt v.toNat 26 11 ∧ qWr t q = qWr s q ∧ qRd t q = qRd s q
      ∧ t = { s with mmio := t.mmio })
  ∧ (qDev s q = true → exec (.qwrWrite q v) s = .next s)
  ∧ (qDev s q = false → v.toNat ≤ qWr s q → exec (.qwrWrite q v) s = .next s)
  ∧ (qDev s q = false → qWr s q < v.toNat → v.toNat ≤ qRd s q + 2 ^ qLogsz s q → ∃ t, exec (.qwrWrite q v) s = .next t
      ∧ t = { s.setReg (qreg q 16) v with alone := t.alone } ∧ (dispatchable s q = .none → t.alone = s.alone))
  ∧ (qDev s q = false → qWr s q < v.toNat → qRd s q + 2 ^ qLogsz s q < v.toNat → ∃ t, exec (.qwrWrite q v) s = .next t
      ∧ t.reg (qreg q 16) = v ∧ qErr t q = true ∧ t = { s with mmio := t.mmio, alone := t.alone, msix := t.msix }
      ∧ (qErr s q = false → bitsAt (t.reg (qreg q 32)).toNat 1 7 = 3 ∧ t.reg (qreg q 40) = BitVec.ofNat 64 (qWr s q) ∧ t.msix = qVec s q :: s.msix)
      ∧ (qErr s q = true → t.reg (qreg q 32) = s.reg (qreg q 32) ∧ t.reg (qreg q 40) = s.reg (qreg q 40) ∧ t.msix = s.msix))
  ∧ (exec (.qstatClear q v) s = .next (s.setReg (qreg q 32) (s.reg (qreg q 32) &&& ~~~(v &&& (3#64 <<< 16)))))
  ∧ ((∀ c, c < 128 → (s.core c).bound = false) → exec (.ctxbaseWrite v) s = .next (s.setReg 0x0E000400B000 v))
  ∧ ((∃ c, c < 128 ∧ (s.core c).bound = true) → exec (.ctxbaseWrite v) s = .next s)
  ∧ (∀ h, (s.reg 0x0E0007300098).getLsbD (16 + h) = false → v.toNat % 512 ≤ 256 → ∃ t, exec (.hallowWrite h v) s = .next t
      ∧ (t.reg (0x0E0007010000 + h * 16)).toNat % 512 = v.toNat % 512 ∧ t = { s with mmio := t.mmio })
  ∧ (∀ h, (s.reg 0x0E0007300098).getLsbD (16 + h) = true ∨ 256 < v.toNat % 512 → exec (.hallowWrite h v) s = .next s)
  ∧ (exec (.evrdWrite v) s = .next (s.setReg (evBase + 24) v))
  ∧ (∀ w0 w1 rest a l size, s.heldEvents = (w0, w1) :: rest → l = (s.reg (evBase + 8)).toNat % 32 → size = (if 8 ≤ l ∧ l ≤ 16 then 2 ^ l else 0) →
      a = (s.reg evBase).toNat + (s.reg (evBase + 16)).toNat % size * 16 →
      (size ≤ (s.reg (evBase + 16) - s.reg (evBase + 24)).toNat ∨ placeWaits s a true = true → postNext s = s)
      ∧ ((s.reg (evBase + 16) - s.reg (evBase + 24)).toNat < size → placeWaits s a true = false → Dram s a 16 →
          (postNext s).heldEvents = rest ∧ (postNext s).reg (evBase + 16) = s.reg (evBase + 16) + 1 ∧ (∀ d, (postNext s).core d = s.core d)
          ∧ Stored s (postNext s) a 16 (w0.toNat + w1.toNat * 2 ^ 64)))
  ∧ (∀ w, (s.reg 0x0E0007030020).getLsbD 4 = false → exec (.featreqWrite w v) s = .next s)
  ∧ ((s.reg 0x0E0007030020).getLsbD 4 = true → (∀ r, r < 32768 → qEn s r = false) → ∃ t, exec (.featreqWrite 0 v) s = .next t
      ∧ t.reg 0x0E0007030000 = (v &&& implemented) ∧ t.reg 0x0E0007030010 = (v &&& implemented) ∧ t = { s with mmio := t.mmio })
  ∧ (∀ m, v.getLsbD 63 = true → exec (.mclatClear m v) s = .next (s.setReg (mcReg m 56) 0))
  ∧ (∀ m, v.getLsbD 63 = false → exec (.mclatClear m v) s = .next s)
  ∧ (∃ t, exec (.trippedClear v) s = .next t ∧ t = { s with mmio := t.mmio } ∧ ∀ h, h < 16 → (t.reg 0x0E0007300098).getLsbD (16 + h) =
      ((s.reg 0x0E0007300098).getLsbD (16 + h) && !(v.getLsbD (16 + h)
        && decide ((s.reg (0x0E0007300000 + 8 * h)).toNat % 256 < (s.reg 0x0E0007300098).toNat % 256))))
  ∧ (∀ k, k < 36 → v.getLsbD 7 = true → ∃ t, exec (.logClear k v) s = .next t ∧ t.reg (logBase k) = 0 ∧ t.reg (logBase k + 16) = 0
      ∧ t.reg (logBase k + 8) = s.reg (logBase k + 8) ∧ t.devSeq = s.devSeq + 1
      ∧ t.logs = s.logs.filter (fun r => decide (r.log ≠ k)) ∧ SameMem s t)
  ∧ (∀ k, v.getLsbD 7 = false → exec (.logClear k v) s = .next s)
  ∧ (∀ m, m < 8 → exec (.registerWrite (mailReg (8 * m)) v) s = .next (s.setReg (mailReg (8 * m)) v))

/-- The units of the base die (20 R353; 21 R365, R366; 22 R382; 03 R96, R97, R99): each command is captured as the registers stand, one
beyond the queue is lost, the command that runs counted in the queue's sixteen (the model's reading); an invalidation drops what it covers
from every cache; a page that moves stands at its destination, its leaf names it, and no access keeps the old place; a key command gives or
takes a context's key; a region is enabled only where it is good, and disabled by a flush. Choices of the model's in it: log 38, 39, 72. -/
def Obligations.UnitCommands : Prop := ∀ (v : Word) (s : State), s.Kept →
  (∀ e scope, (e = .invContext v ∧ scope = 0) ∨ (e = .invPage v ∧ scope = 1) ∨ (e = .invLargePage v ∧ scope = 2) ∨ (e = .invAll v ∧ scope = 3) →
    (s.invQ.length < 16 → ∃ t, exec e s = .next t ∧ t = { s with invQ := t.invQ, mmio := t.mmio } ∧ t.invQ = s.invQ ++ [⟨(s.reg 0x0E000400A000).toNat,
      (s.reg 0x0E000400A008).toNat, s.reg 0x0E000400A010, v.toNat % 65536, scope⟩])
    ∧ (16 ≤ s.invQ.length → exec e s = .next (s.setReg 0x0E000400A020 (s.reg 0x0E000400A020 ||| 2#64))))
  ∧ (∀ m rest, s.invQ = m :: rest → invClear s m = true → ∃ t, exec .invalidationComplete s = .next t ∧ t.invQ = rest
      ∧ t.tlb = s.tlb.filter (fun x => !m.covers x)
      ∧ t.counters = (if m.ctr = 0 then s.counters else s.counters ++ [⟨128, .plain (m.ctr / 8 * 8), m.inc, false, 0, 0⟩])
      ∧ SameMem s t ∧ (m.scope = 1 ∨ m.scope = 2 → t.locks = s.locks)
      ∧ ∀ d, d < 128 → t.core d = { s.core d with xlat := (s.core d).xlat.filter (fun x => !m.covers x) })
  ∧ (∀ e large, (e = .migrate64k v ∧ large = false) ∨ (e = .migrate64m v ∧ large = true) → feature s 7 = true →
      (s.migQ.length < 16 → ∃ t m r, exec e s = .next t ∧ m = MigCmd.mk (s.reg 0x0E0006020000).toNat (s.reg 0x0E0006020008).toNat
          (s.reg 0x0E0006020010).toNat (s.reg 0x0E0006020018).toNat (s.reg 0x0E0006020020) (v.toNat % 65536) large none
        ∧ t.migQ.length = s.migQ.length + 1 ∧ t.migQ.getLast? = some { m with run := r } ∧ (Calm s → SameMem s t) ∧ ∀ d, t.core d = s.core d)
      ∧ (16 ≤ s.migQ.length → exec e s = .next (s.setReg 0x0E0006020030 (s.reg 0x0E0006020030 ||| 2#64))))
  ∧ (∀ m r rest x, s.migQ = m :: rest → m.run = some r → r.code ≠ 0 → x = m.sts / 8 * 8 →
      m.sts = 0 ∨ (placeWaits s x true = false ∧ Dram s x 8) → ∃ t, exec .migrationComplete s = .next t
      ∧ t.migQ.length = rest.length ∧ t.counters = (if m.ctr = 0 then s.counters else s.counters ++ [⟨128, .plain (m.ctr / 8 * 8), m.inc, false, 0, 0⟩])
      ∧ t.tlb = s.tlb ∧ (Calm s → if m.sts = 0 then SameMem s t else Stored s t x 8 r.code))
  ∧ (∀ (m : MigCmd) (r : MigRun) (rest : List MigCmd) (open_ : Nat → Prop), s.migQ = m :: rest → m.run = some r → r.code = 0 →
      rowsClear s m.inv = true → moveWaits s m r = false → (∀ a, open_ a ↔ homeOf s a = some .hbm ∨ ∃ p, homeOf s a = some (.tier p) ∧ portDown s p = false) →
      ∃ t, exec .migrationComplete s = .next t
      ∧ t.migQ.length = rest.length ∧ t.tlb = s.tlb.filter (fun x => !m.inv.covers x) ∧ (∀ d, (t.core d).vs = (s.core d).vs)
      ∧ (∀ d a, d < 128 → a ∈ (t.core d).t.loadQ ++ (t.core d).t.storeQ → ∀ p x, p ∈ a.pieces → p.pa = some x →
          m.dst + m.size ≤ r.src ∨ r.src + m.size ≤ m.dst → x.pa < r.src ∨ r.src + m.size ≤ x.pa)
      ∧ (Calm s → m.sts = 0 → r.src % 65536 = 0 → m.dst % 65536 = 0 → m.dst + m.size ≤ r.src ∨ r.src + m.size ≤ m.dst →
          (∀ i, i < m.size / 32 → open_ (r.src + 32 * i) ∧ open_ (m.dst + 32 * i)) → Dram s r.leafAt 8 → r.leafAt + 8 ≤ m.dst ∨ m.dst + m.size ≤ r.leafAt →
          (∀ i, i < m.size → isPoison t (m.dst + i) = isPoison s (r.src + i)
            ∧ (isPoison s (r.src + i) = false → memGet t.mem (m.dst + i) = memGet s.mem (r.src + i)))
          ∧ (∀ w, w = memGetN t.mem r.leafAt 8 → bitsAt w 12 40 = m.dst / 4096 % 2 ^ 40 ∧ w % 4096 = r.leaf.toNat % 4096 ∧ w / 2 ^ 52 = r.leaf.toNat / 2 ^ 52)
          ∧ ∀ a, a < m.dst ∨ m.dst + m.size ≤ a → a < r.leafAt ∨ r.leafAt + 8 ≤ a → memGet t.mem a = memGet s.mem a))
  ∧ (∀ e op, (e = .keyLoad v ∧ op = 1) ∨ (e = .keyDestroy v ∧ op = 2) → feature s 4 = true ∨ feature s 5 = true →
      (s.keyQ = [] → ∃ t, exec e s = .next t ∧ t = { s with keyQ := t.keyQ, mmio := t.mmio } ∧ t.reg 0x0E0007040058 = 1
        ∧ t.keyQ = [⟨v.toNat % 65536, op, (s.reg 0x0E0007040048).toNat, s.reg 0x0E0007040050⟩])
      ∧ (s.keyQ ≠ [] → exec e s = .next s))
  ∧ (∀ m rest, s.keyQ = m :: rest → m.op = 1 ∨ keyInUse s m.ctx = false → twf (fun _ => none) s.keys = true → ∃ t, exec .keyCommandComplete s = .next t ∧ t.keyQ = []
      ∧ t.reg 0x0E0007040058 = 0 ∧ (m.op = 1 → keyOf t m.ctx = some (keyData s) ∧ SameMem s t ∧ ∀ i, i < 8 → t.reg (0x0E0007040000 + 8 * i) = 0)
      ∧ (m.op ≠ 1 → keyOf t m.ctx = none) ∧ ∀ c, c ≠ m.ctx → keyOf t c = keyOf s c)
  ∧ (∀ r, r < 32 → feature s 1 = true → (s.reg (frReg r 32)).getLsbD 63 = false → ∃ t, exec (.formatRegionEnable r v) s = .next t
      ∧ t = { s with mmio := t.mmio } ∧ bitsAt (t.reg (frReg r 32)).toNat 0 6 = bitsAt v.toNat 0 6
      ∧ bitsAt (t.reg (frReg r 32)).toNat 8 10 = bitsAt v.toNat 8 10
      ∧ (t.reg (frReg r 32)).getLsbD 63 = regionGood (regionWrite s r 32 v) r ∧ (t.reg (frReg r 32)).getLsbD 18 = !(t.reg (frReg r 32)).getLsbD 63)
  ∧ (∀ r, r < 32 → feature s 1 = true → (s.reg (frReg r 32)).getLsbD 63 = true →
      exec (.formatRegionDisable r v) s = .next { s.setReg (frReg r 32) (s.reg (frReg r 32) ||| (1#64 <<< 62)) with frOff := setIns s.frOff r }
      ∧ (v.getLsbD 62 = true → exec (.formatRegionFlush r v) s = .next (s.setReg (frReg r 32) (s.reg (frReg r 32) ||| (1#64 <<< 62)))))
  ∧ (∀ r, r < 32 → (s.reg (frReg r 32)).getLsbD 62 = true →
      (∀ d, d ∈ s.decoded → regionHolds s r d = true → backWaits s r d = false) → ∃ t, exec (.flushComplete r) s = .next t
      ∧ (t.reg (frReg r 32)).getLsbD 62 = false ∧ (s.decoded = [] → SameMem s t)
      ∧ (∀ d, d ∈ t.decoded → d.addr < (regionRegs s r).dbase ∨ (regionRegs s r).dbase + frWindow s r ≤ d.addr)
      ∧ (t.reg (frReg r 32)).getLsbD 63 = ((s.reg (frReg r 32)).getLsbD 63 && !(s.frOff.contains r)))
  ∧ (∀ n d r, s.decoded[n]? = some d → d.dirty = true → regionOf s d.addr = some r → isPoison s d.addr = false → backWaits s r d = false →
      exec (.decodedWriteback n) s = .next (writeBackDecoded s r d))

/-! ## Controllers, errors and limits -/

/-- REFRESH_TICK, REFPB, REFRESH_MANAGEMENT, DIE_TEMP_SAMPLE, SCRUB_ROW and CIM_SCRUB_ROW (22 R375 to R377, R380; 23 R399; 24 R400 to R402):
refresh debt rises and is paid; a sample stands in its register and moves the hot bit, and one that reaches TRIP trips its hearth; scrub
opens its row, corrects a single error, logs it, and marks what it cannot correct. The cooling time set back at a sample at or above THROT -
5 (log 36) and event 8 with core and grid zero (log 67) are the model's choice, as are log 74, 82. -/
def Obligations.ControllerEvents : Prop := ∀ (k bank : Nat) (s : State), s.Kept →
  (k < 512 → debtOf s k < (s.reg (mcReg (k / 64) 0)).toNat % 16 → exec (.refreshTick k) s = .next (setDebt s k (debtOf s k + 1)))
  ∧ (k < 512 → (s.reg (mcReg (k / 64) 0)).toNat % 16 ≤ debtOf s k → rowsOpenIn s k (fun _ => true) = false → twf (fun _ => 0) s.acnt = true →
      ∃ t, exec (.refreshTick k) s = .next t ∧ t.debt = tset (fun _ => 0) s.debt k 0 ∧ SameMem s t ∧ ∀ n,
        tget (fun _ => 0) t.acnt n = if n / 16 = k then tget (fun _ => 0) s.acnt n - 32 else tget (fun _ => 0) s.acnt n)
  ∧ (k < 512 → debtOf s k ≠ 0 → bank = headOf s k → rowsOpenIn s k (fun b => decide (b / 4 = bank / 4)) = false →
      exec (.refpb k bank) s = .next { s with debt := tset (fun _ => 0) s.debt k (debtOf s k - 1), head := tset (fun _ => 0) s.head k ((bank + 1) % 16),
                                              acnt := tset (fun _ => 0) s.acnt (16 * k + bank) (tget (fun _ => 0) s.acnt (16 * k + bank) - 32) })
  ∧ (k < 512 → bank < 16 → actFull s (16 * k + bank) = true → ∃ t, exec (.refreshManagement k bank) s = .next t
      ∧ t.acnt = tset (fun _ => 0) s.acnt (16 * k + bank) 0 ∧ t = { s with acnt := t.acnt, mmio := t.mmio })
  ∧ (∀ (v : Word) (a hot th b d : Nat), k < 128 → d = k % 16 → b = v.toNat % 256 → a = mcReg (k / 16) (24 + d / 8 * 8) → hot = mcReg (k / 16) 40 →
      th = bitsAt (s.reg (mcReg (k / 16) 0)).toNat 8 8 → ∃ t, exec (.dieTempSample k v) s = .next t ∧ t = { s with mmio := t.mmio }
        ∧ bitsAt (t.reg a).toNat (8 * (d % 8)) 8 = b
        ∧ (t.reg hot).getLsbD d = if th < b then true else if b < th - 3 then false else (s.reg hot).getLsbD d)
  ∧ (∀ (v : Word) (h b : Nat), k = 128 + h → h < 16 → b = v.toNat % 256 →
      (b < tripOf s ∨ trippedBit s h = true → exec (.dieTempSample k v) s = .next { s.setReg (thReg (8 * h)) (BitVec.ofNat 64 b) with
        coolMs := if throtOf s ≤ b + 5 then tset (fun _ => 0) s.coolMs h 0 else s.coolMs })
      ∧ (tripOf s ≤ b → trippedBit s h = false → ∃ t, exec (.dieTempSample k v) s = .next t ∧ t.reg (thReg (8 * h)) = BitVec.ofNat 64 b
        ∧ t.reg (hallowReg h) = 0 ∧ t.reg (thReg 0x98) = (s.reg (thReg 0x98) ||| (1#64 <<< (16 + h))) ∧ t.ibis = 1 :: s.ibis
        ∧ Posted s t (eventWord 8 0 0) (BitVec.ofNat 64 h) ∧ ∀ d, t.core d = s.core d))
  ∧ (∀ v : Word, k = 144 → exec (.dieTempSample k v) s = .next (s.setReg 0x0E0007300080 (BitVec.ofNat 64 (v.toNat % 256))))
  ∧ (∀ v : Word, k = 145 → exec (.dieTempSample k v) s = .next (s.setReg 0x0E0007300088 (BitVec.ofNat 64 (v.toNat % 65536))))
  ∧ (∀ l a, a = 1024 * k → l = hbmLoc s a → homeOf s a = some .hbm → (s.reg (mcReg l.stack 64)).toNat % 2 ^ 32 ≠ 0 →
      (rowStale s l = true → ∃ t, exec (.scrubRow k) s = .next t ∧ t.stale = s.stale.filter (fun e => decide (e ≠ (bankNum l, l.row)))
        ∧ ((∀ i, i < 32 → flipsAt s (a + 32 * i) = 0) → SameMem s t))
      ∧ (rowStale s l = false → (∀ e, e ∈ s.stale → e.1 / 1024 ≠ l.stack) → (∀ i, i < 32 → flipsAt s (a + 32 * i) = 0) →
          actFull s (bankNum l) = false → exec (.scrubRow k) s =
            .next { s with acnt := tset (fun _ => 0) s.acnt (bankNum l) (tget (fun _ => 0) s.acnt (bankNum l) + 1) })
      ∧ (∀ i, rowStale s l = false → (∀ e, e ∈ s.stale → e.1 / 1024 ≠ l.stack) → i < 32 → (∀ j, j < 32 → j ≠ i → flipsAt s (a + 32 * j) = 0) →
          popCount 256 (flipsAt s (a + 32 * i)).toNat = 1 → twf (fun _ => 0) s.flips = true → ∃ t, exec (.scrubRow k) s = .next t
            ∧ flipsAt t (a + 32 * i) = 0 ∧ Logged s t l.stack 1 2 (hbmLocWord (hbmLoc s (a + 32 * i))) ∧ ∀ d, t.core d = s.core d))
  ∧ (∀ h half row p e, h < 16 → half < 8192 → row < 272 → (s.reg (mcReg (h / 2) 64)).toNat % 2 ^ 32 ≠ 0 → twf (fun _ => 0) s.flips = true →
      p = (if row < 256 then macroBase h (half / 2) + half % 2 * 8192 + 32 * row else macroSide h (half / 2) + half % 2 * 512 + 32 * (row - 256)) →
      e = errPlace s (if row < 256 then .cim h half else .side h half) p → (flipsAt s p = 0 → exec (.cimScrubRow h half row) s = .next s)
      ∧ (popCount 256 (flipsAt s p).toNat = 1 → ∃ t, exec (.cimScrubRow h half row) s = .next t ∧ flipsAt t p = 0 ∧ Logged s t e.1 1 2 e.2)
      ∧ (1 < popCount 256 (flipsAt s p).toNat → ∃ t, exec (.cimScrubRow h half row) s = .next t ∧ Logged s t e.1 7 2 e.2
          ∧ ((halfOf (s.hearth h) half).compute = true → twf (fun _ => Half.reset) (s.hearth h).halves = true →
              (halfOf (t.hearth h) half).wbad = true ∧ t.poison = s.poison)
          ∧ ((halfOf (s.hearth h) half).compute = false → isPoison t p = true)))

/-- ERROR_EVENT, ERROR_JUDGEMENT, REMAP_ENTRY_WRITE, DIE_MAP_OUT and MAP_OUT_COMPLETE (23 R387 to R399): an error is counted and recorded; a
record that makes no row lasting joins the history, one that does retires its row; a record that makes a macro lasting gives it its spare at
once, or where a claiming group is bound the spare waits and no group is bound to the hearth until it is due; a valid remap puts zeroed
storage in its macro's place and a refused one shows REFUSED; a die goes out with its record, and the stack then reads zero. That a
judgement that reads the last record of a log clears it is the model's choice (log 84), as are log 41, 70, 71, 83. -/
def Obligations.ErrorsAndRepair : Prop := ∀ (k : Nat) (v : Word) (s : State), s.Kept →
  (∀ i cls sub loc, i < 36 → 1 ≤ cls → cls ≤ 7 → ∃ t, exec (.errorEvent i cls sub loc) s = .next t ∧ Logged s t i cls sub loc
    ∧ ∀ d, t.core d = s.core d)
  ∧ (∀ r l, s.logs[k]? = some r → judged r = false → l = s.logs.eraseIdx k →
      ((∃ q, q ∈ l ∧ q.log = r.log) → exec (.errorJudgement k) s = .next { s with logs := l })
      ∧ ((∀ q, q ∈ l → q.log ≠ r.log) → ∃ t, exec (.errorJudgement k) s = .next t ∧ t.logs = l ∧ t.reg (logBase r.log) = 0
          ∧ t.reg (logBase r.log + 8) = s.reg (logBase r.log + 8) ∧ t.devSeq = s.devSeq + 1 ∧ SameMem s t))
  ∧ (∀ r n w near bank, s.logs[k]? = some r → judged r = true → r.log < 8 → n = bitsAt (s.reg (errReg 8)).toNat 0 4 →
      w = bitsAt (s.reg (errReg 8)).toNat 8 32 * 1000000 → near = s.history.filter (fun q => decide (r.time ≤ q.time + w)) →
      bank = near.filter (fun q => decide (q.log = r.log) && decide (bankKey q = bankKey r)) →
      bringsTo (bank.filter fun q => decide (sectorOf q = sectorOf r)) r n = false → bringsTo bank r (2 * n) = false →
      ((bank.filter fun q => decide (rowKey q = rowKey r)).length + 1 ≠ n → ∃ t, exec (.errorJudgement k) s = .next t
        ∧ t.logs = s.logs.eraseIdx k ∧ t.history = s.history ++ [r] ∧ t.retired = s.retired ∧ t.retiring = s.retiring ∧ SameMem s t)
      ∧ ((bank.filter fun q => decide (rowKey q = rowKey r)).length + 1 = n → rowGone s r.loc = false → s.retired.length < 4096 → ∃ t, exec (.errorJudgement k) s = .next t
          ∧ t.history = s.history ++ [r] ∧ t.retired.length = s.retired.length + 1 ∧ rowPage s r.loc ∈ t.retiring))
  ∧ (∀ r n w same h l p m, s.logs[k]? = some r → judged r = true → 16 ≤ r.log → n = bitsAt (s.reg (errReg 8)).toNat 0 4 →
      w = bitsAt (s.reg (errReg 8)).toNat 8 32 * 1000000 →
      same = s.history.filter (fun q => decide (r.time ≤ q.time + w) && (decide (q.log = r.log) && decide (q.loc % 8192 = r.loc % 8192))) →
      h = r.log - 16 → l = bitsAt r.loc 0 3 → p = bitsAt r.loc 3 10 → m = (if p < 512 then p else bitsAt (s.reg (remapReg h l (p - 512))).toNat 0 9) →
      (same.length + 1 ≠ n → ∃ t, exec (.errorJudgement k) s = .next t ∧ t.logs = s.logs.eraseIdx k ∧ t.history = s.history ++ [r]
        ∧ t.lasting = s.lasting ∧ t.retired = s.retired ∧ SameMem s t)
      ∧ (same.length + 1 = n → hearthTaken s h = true → ∃ t, exec (.errorJudgement k) s = .next t ∧ t.history = s.history ++ [r]
          ∧ t.lasting = s.lasting ++ [(h, l, m)] ∧ bindStopped t h = true ∧ t.retired = s.retired ∧ SameMem s t)
      ∧ (∀ i, same.length + 1 = n → hearthTaken s h = false → s.retired.length < 4096 → freeEntry s h l = some i → remapTwice s h l i m = false →
          ∃ t, exec (.errorJudgement k) s = .next t ∧ t.history = s.history ++ [r] ∧ t.lasting = s.lasting
            ∧ t.retired.length = s.retired.length + 1 ∧ (t.reg (remapReg h l i)).getLsbD 15 = true ∧ (t.reg (remapReg h l i)).toNat % 512 = m))
  ∧ (∀ h l m rest i, s.lasting = (h, l, m) :: rest → h < 16 → l < 8 → m < 512 → hearthTaken s h = false → s.retired.length < 4096 →
      freeEntry s h l = some i → remapTwice s h l i m = false → ∃ t, spareDue s = some t ∧ t.lasting = rest
        ∧ t.retired.length = s.retired.length + 1 ∧ (t.reg (remapReg h l i)).getLsbD 15 = true ∧ (t.reg (remapReg h l i)).toNat % 512 = m)
  ∧ (∀ h l i a m, k < 2048 → h = k / 128 → l = k / 16 % 8 → i = k % 16 → a = remapReg h l i → m = v.toNat % 512 →
      (hearthTaken s h = true ∨ (v.getLsbD 15 = true ∧ remapTwice s h l i m = true) ∨ (s.reg a).getLsbD 16 = true →
        exec (.remapEntryWrite k v) s = .next (s.setReg a (s.reg a ||| (1#64 <<< 17))))
      ∧ (hearthTaken s h = false → v.getLsbD 15 = true → remapTwice s h l i m = false → (s.reg a).getLsbD 16 = false →
          (s.reg a).getLsbD 15 = false → ∃ t, exec (.remapEntryWrite k v) s = .next t ∧ (t.reg a).toNat % 512 = m
            ∧ (t.reg a).getLsbD 15 = true ∧ (t.reg a).getLsbD 17 = false ∧ ∀ x, memGet t.mem x =
              if (macroBase h (l * 512 + m) ≤ x ∧ x < macroBase h (l * 512 + m) + 16384)
                  ∨ (macroSide h (l * 512 + m) ≤ x ∧ x < macroSide h (l * 512 + m) + 1024) then 0 else memGet s.mem x))
  ∧ (∀ a, k < 8 → a = errReg (0x100 + 8 * k) →
      ((s.reg a).getLsbD 4 = true → exec (.dieMapOut k v) s = .next s)
      ∧ ((s.reg a).getLsbD 4 = false → (s.reg a).getLsbD 6 = true ∨ v.getLsbD 5 = false → ∃ t, exec (.dieMapOut k v) s = .next t
          ∧ t = { s with mmio := t.mmio } ∧ (t.reg a).toNat % 16 = v.toNat % 16 ∧ (t.reg a).toNat / 16 = (s.reg a).toNat / 16)
      ∧ ((s.reg a).getLsbD 4 = false → (s.reg a).getLsbD 6 = false → v.getLsbD 5 = true → s.retired.length < 4096 →
          ∃ t, exec (.dieMapOut k v) s = .next t ∧ (t.reg a).getLsbD 6 = true ∧ (t.reg a).toNat % 16 = v.toNat % 16
            ∧ t.retired.length = s.retired.length + 1 ∧ SameMem s t)
      ∧ ((s.reg a).getLsbD 6 = true → (∀ j, j < 64 → rowsOpenIn s (64 * k + j) (fun _ => true) = false) → ∃ t, exec (.mapOutComplete k) s = .next t
          ∧ (t.reg a).getLsbD 4 = true ∧ (t.reg a).getLsbD 6 = false ∧ bitsAt (t.reg a).toNat 8 7 = 60
          ∧ ∀ x, memGet t.mem x = if inStack k x then 0 else memGet s.mem x))

/-- HEARTH_TRIP, ALLOWANCE_STEP, HEAT_COUNT, HEAT_HALVING, I3C_PRIVATE_WRITE, I3C_READ and DYNAMIC_ADDRESS_ASSIGNMENT (24 R401, R402, R404;
21 R369): a hearth at its threshold loses its allowance, until then it is the least of its terms; page counters rise and halve; the sideband
reads the telemetry table and writes the power cap alone. Event 8 with core and grid zero is the model's choice (log 67), as are log 36, 44,
81. -/
def Obligations.LimitsAndTelemetry : Prop := ∀ (h n : Nat) (s : State), s.Kept →
  (h < 16 → tripOf s ≤ tempOf s h → trippedBit s h = false → ∃ t, exec (.hearthTrip h) s = .next t ∧ t.reg (hallowReg h) = 0
    ∧ t.reg (thReg 0x98) = (s.reg (thReg 0x98) ||| (1#64 <<< (16 + h))) ∧ t.ibis = 1 :: s.ibis ∧ Posted s t (eventWord 8 0 0) (BitVec.ofNat 64 h)
    ∧ ∀ d, t.core d = s.core d)
  ∧ (h < 16 → trippedBit s h = true → ∃ t, exec (.allowanceStep h) s = .next t ∧ t = { s with coolMs := t.coolMs })
  ∧ (∀ heat power cool, h < 16 → trippedBit s h = false → cool = tget (fun _ => 0) s.coolMs h →
      heat = (if throtOf s ≤ tempOf s h then max 32 (tget (fun _ => 256) s.heatTerm h / 2)
        else if tempOf s h + 5 < throtOf s ∧ 9 ≤ cool then min 256 (2 * tget (fun _ => 256) s.heatTerm h) else tget (fun _ => 256) s.heatTerm h) →
      power = powerStep (tget (fun _ => 256) s.powerTerm h) ((s.reg (thReg 0x88)).toNat % 65536) ((s.reg (thReg 0x90)).toNat % 65536) →
      ∃ t, exec (.allowanceStep h) s = .next t
        ∧ t.coolMs = tset (fun _ => 0) s.coolMs h (if tempOf s h + 5 < throtOf s then min 10 (cool + 1) else 0) ∧ t.heatTerm = tset (fun _ => 256) s.heatTerm h heat
        ∧ t.powerTerm = tset (fun _ => 256) s.powerTerm h power ∧ t.reg (hallowReg h) = BitVec.ofNat 64
          (min (min ((s.reg (thReg (0xA0 + 8 * h))).toNat % 512) heat) (min power (if s.reg (mcReg (h / 2) 40) = 0 then 256 else 32)))
        ∧ t = { s with heatTerm := t.heatTerm, powerTerm := t.powerTerm, coolMs := t.coolMs, mmio := t.mmio })
  ∧ (∀ p a, s.heatQ[n]? = some p → a = heatBase s + 2 * heatIndex p → Dram s a 2 → placeWaits s a true = false → ∃ t, exec (.heatCount n) s = .next t
      ∧ Stored s t a 2 (min (memGetN s.mem a 2 + 1) 0xFFFF) ∧ t.heatQ = s.heatQ.eraseIdx n ∧ ∀ d, t.core d = s.core d)
  ∧ (feature s 6 = true → s.reg 0x0E0006030010 ≠ 0 → (∀ a, a ∈ heatCells s → Dram s a 2 ∧ placeWaits s a true = false) →
      s.reg 0x0E0007200020 = 0 → ∃ t, exec .heatHalving s = .next t ∧ (∀ a, a ∈ heatCells s → memGetN t.mem a 2 = memGetN s.mem a 2 / 2)
        ∧ (∀ x, x / 2 * 2 ∉ heatCells s → memGet t.mem x = memGet s.mem x) ∧ ∀ d, t.core d = s.core d)
  ∧ (∀ b, b.length < 4 → exec (.i3cPrivateWrite b) s = .next s)
  ∧ (∀ b o, 4 ≤ b.length → o = ofBytes (b.take 4) → (o ≠ 0x14 ∨ b.length ≠ 6) →
      exec (.i3cPrivateWrite b) s = .next { s with i3cOff := BitVec.ofNat 32 o })
  ∧ (∀ b w, b.length = 6 → ofBytes (b.take 4) = 0x14 → w = ofBytes (b.drop 4) → 300 ≤ w → w ≤ 1500 → ∃ t, exec (.i3cPrivateWrite b) s = .next t
      ∧ t.i3cOff = 0x14 ∧ (t.reg (thReg 0x90)).toNat % 65536 = w ∧ t = { s with i3cOff := t.i3cOff, mmio := t.mmio })
  ∧ (∃ t, exec (.i3cRead n) s = .next t ∧ t = { s with fresh := t.fresh, i3cOut := t.i3cOut } ∧ t.i3cOut.length = n
      ∧ ∀ i b, i < n → telemetry s (s.i3cOff.toNat + i) = some b → t.i3cOut[i]? = some b)
  ∧ (∀ a, exec (.dynamicAddressAssignment a) s = .next { s with i3cAddr := a })

/-- FRAME_BOUNDARY, FRAME_LOSS_TIMEOUT, LINK_STATE_CHANGE, DOMAIN_ENABLE, DOMAIN_DISABLE, TIER_PORT_DOWN and HOST_PORT_DOWN (21 R364, R370
to R372; 23 R388): the frame counter rises by one; lost frames and a disabled domain fail every pending transfer; links and ports that go
down are logged. Choices of the model's in it: log 21, 79. -/
def Obligations.LinksAndPorts : Prop := ∀ (v : Word) (s : State) (none_ : State → Prop), s.Kept →
  (∀ t, none_ t ↔ ∀ d m, d < 128 → m ∈ (t.core d).cpQ → linkPending m = false) →
  (∀ stamp, domEn s = true → linkUnjudged s = false → stamp = frameNow s + 1 → stamp < 2 ^ 64 →
    exec (.frameBoundary stamp) s = .next { s.setReg frameReg (BitVec.ofNat 64 stamp) with frameLost := false })
  ∧ (domEn s = true → s.frameLost = false → ∃ t, exec .frameLossTimeout s = .next t ∧ t.frameLost = true ∧ none_ t ∧ SameMem s t
      ∧ ∀ d, (t.core d).vs = (s.core d).vs ∧ (t.core d).t = (s.core d).t)
  ∧ (regHidden s domctl = true → exec (.domainEnable v) s = .next s ∧ exec (.domainDisable v) s = .next s)
  ∧ (regHidden s domctl = false → domEn s = false → v.getLsbD 7 = true → ∃ t, exec (.domainEnable v) s = .next t ∧ domEn t = true ∧ frameNow t = 0 ∧ t.linkFree = []
      ∧ t.frameLost = false ∧ frameLen t = (if 1200 ≤ bitsAt v.toNat 8 24 ∧ bitsAt v.toNat 8 24 ≤ 1200000 then bitsAt v.toNat 8 24 else frameLen s)
      ∧ SameMem s t ∧ ∀ d, t.core d = s.core d)
  ∧ (regHidden s domctl = false → domEn s = true → v.getLsbD 7 = false → ∃ t, exec (.domainDisable v) s = .next t ∧ domEn t = false ∧ frameNow t = frameNow s ∧ none_ t
      ∧ SameMem s t)
  ∧ (∀ l st, l < 12 → st < 3 → ∃ t, exec (.linkStateChange l st) s = .next t ∧ (t.reg (lnkstat l)).toNat % 4 = st
      ∧ (st ≠ 2 ∨ tget (fun _ => none) s.linkPeer l = none → (t.reg (lnkstat l)).toNat / 4 = (s.reg (lnkstat l)).toNat / 4)
      ∧ (∀ m p, st = 2 → tget (fun _ => none) s.linkPeer l = some (m, p) → bitsAt (t.reg (lnkstat l)).toNat 2 6 = m % 64
          ∧ bitsAt (t.reg (lnkstat l)).toNat 8 4 = p % 16)
      ∧ (st = 0 → (s.reg (lnkstat l)).toNat % 4 ≠ 0 → Logged s t 35 5 0 l) ∧ ∀ d, t.core d = s.core d)
  ∧ (∀ p, p < 8 → (s.reg (tpReg p 0)).toNat % 4 = 1 → ∃ t, exec (.tierPortDown p) s = .next t ∧ t.reg (tpReg p 0) = 2
      ∧ Logged s t (8 + p) 5 0 (s.reg (tpReg p 16)).toNat ∧ ∀ d, t.core d = s.core d)
  ∧ (∃ t, exec .hostPortDown s = .next t ∧ Logged s t 35 5 0 15 ∧ ∀ d, t.core d = s.core d)

/-! ## The edges of the module -/

/-- HOST_MEM_ACCESS, HOST_RELEASED, PAGE_RETURN_TO_HOST, VACATED, FIRMWARE_UPDATE, SVN_COMMIT, ATTEST, CERT_READ, POWER_UP and POWER_LOSS
(21 R358, R361; 20 R354, R355; 22 R384; 23 R392, R393; 24 R406, R407): host accesses to HBM4E, which perform or wait at their homes; what
the firmware does with each message and answers; what the attestation report holds, field by field, and the certificate; which slot the boot
ROM runs; and bring-up.
Choices of the model's in it: log 42, 43, 45, 76, 78, 80, 85, 112. -/
def Obligations.EdgeEvents : Prop := ∀ (s : State), s.Kept →
  (∀ wr a n v, hbmRange s a n = false → exec (.hostMemAccess wr a n v) s = .next { s with hostResp := some (1, 0) })
  ∧ (∀ wr a n v, hbmRange s a n = true → (∃ q, q ∈ sectors a (n / 32 + 2) n ∧ placeWaits s q.1 wr = true) →
      exec (.hostMemAccess wr a n v) s = .next { s with hostQ := s.hostQ ++ [(wr, a, n, v)] })
  ∧ (∀ a n v, hbmRange s a n = true → DramRun s a n → (∀ e, e ∈ s.hostQ → spansMeet a n e.2.1 e.2.2.1 = false) →
      ((∀ q, q ∈ sectors a (n / 32 + 2) n → placeWaits s q.1 false = false) → ∃ t, exec (.hostMemAccess false a n v) s = .next t
        ∧ t.hostResp = some (0, memGetN s.mem a n) ∧ SameMem s t)
      ∧ ((∀ q, q ∈ sectors a (n / 32 + 2) n → placeWaits s q.1 true = false) → ∃ t, exec (.hostMemAccess true a n v) s = .next t
        ∧ t.hostResp = some (0, 0) ∧ Stored s t a n v ∧ ∀ d, t.core d = s.core d))
  ∧ (s.h2d = true → mailTypes.contains (mailWord s 0) = false → mailWord s 0 ≠ 2 → ∃ t, exec .hostReleased s = .next t ∧ t.h2d = false
      ∧ Mailed t [15, mailWord s 0] ∧ SameMem s t)
  ∧ (∀ ctx va n m large e a, s.h2d = true → m = [2, ctx, va, n] → mailWord s 0 = 2 → mailWord s 1 = ctx → mailWord s 2 = va → mailWord s 3 = n →
      m ∈ s.mailPend → invClear s (pageInv ctx va) = true → walk s ctx va = .ok (large, e) → a = leafAddr s ctx va → Dram s a 8 →
      s.mailQ = [] → WalkClean s ctx va → setWaits s ctx va = false →
      (∀ c, c < 128 → stoppedAt s c ctx va n = false ∨ stopHeld s c = true) → ∃ t, exec .hostReleased s = .next t ∧ t.h2d = false
        ∧ Stored s t a 8 (e &&& ~~~32#64).toNat ∧ t.mailPend = s.mailPend.erase m ∧ t.tlb = s.tlb.filter (fun x => !(pageInv ctx va).covers x)
        ∧ ∀ d, d < 128 → t.core d = { s.core d with xlat := (s.core d).xlat.filter (fun x => !(pageInv ctx va).covers x) })
  ∧ (∀ ctx va large e a, walk s ctx va = .ok (large, e) → e.getLsbD 4 = true → e.getLsbD 5 = false → invClear s (pageInv ctx va) = true →
      a = leafAddr s ctx va → Dram s a 8 → s.mailBusy = false → WalkClean s ctx va → setWaits s ctx va = false → ∃ t, exec (.pageReturnToHost ctx va) s = .next t
        ∧ Stored s t a 8 (e ||| 32#64).toNat ∧ t.tlb = s.tlb.filter (fun x => !(pageInv ctx va).covers x)
        ∧ (∀ d, d < 128 → t.core d = { s.core d with xlat := (s.core d).xlat.filter (fun x => !(pageInv ctx va).covers x) })
        ∧ Mailed t [3, ctx, (pageOf s ctx va).1, (pageOf s ctx va).2])
  ∧ (∀ p n, mailIs s 6 = true → mailWord s 1 = p → [6, p] ∈ s.mailPend → n = (s.reg (errReg 32)).toNat → s.mailQ = [] →
      (∀ i, i < n → peek s ((s.reg (errReg 24)).toNat + 8 * i) 8 / 65536 ≠ p / 65536) → placeWaits s (offlinePlace s) true = false →
      Dram s (offlinePlace s) 8 →
      ∃ t, exec .vacated s = .next t ∧ Stored s t ((s.reg (errReg 24)).toNat + 8 * n) 8 p ∧ t.reg (errReg 32) = BitVec.ofNat 64 (n + 1)
        ∧ t.retiring = s.retiring.filter (fun q => decide (q ≠ p)) ∧ t.h2d = false)
  ∧ (∀ a b code, mailIs s 9 = true → a = mailWord s 1 → runWaits s a 64 false = false → runWaits s a (imageLen s a) false = false →
      b = (imageAt { s with h2d := false, mailBusy := false } a).2 → code = checkImage s.svnMin b → ∃ t, exec .firmwareUpdate s = .next t
      ∧ t.h2d = false ∧ Mailed t [10, code] ∧ t.flash = (if code = 0 then tset (fun _ => []) s.flash (1 - s.slotRun) b else s.flash)
      ∧ t.flashLast = (if code = 0 then 1 - s.slotRun else s.flashLast)
      ∧ (DramArea s a (imageLen s a) → SameMem s t ∧ b = memBytes s.mem a (imageLen s a)))
  ∧ (mailIs s 13 = true → ∃ t, exec .svnCommit s = .next t ∧ t.svnMin = max s.svnMin s.svn ∧ t.h2d = false ∧ t.flash = s.flash ∧ SameMem s t)
  ∧ (∀ a img n, mailIs s 11 = true → a = mailWord s 1 → img = slotImage s s.slotRun → n = imgLength img →
      (a % 4096 = 0 → runWaits s a 3421 true = false → ∃ t, exec .attest s = .next t ∧ t.h2d = false ∧ Mailed t [12]
        ∧ (∀ d, t.core d = s.core d) ∧ (DramArea s a 112 → DramArea s (a + 112) 3309 → (∀ i, i < 4 → memGetN t.mem (a + 8 * i) 8 = mailWord s (2 + i))
          ∧ memGetN t.mem (a + 32) 32 = (Config.sha3 (img.take (64 + n))).toNat
          ∧ memGetN t.mem (a + 64) 4 = s.svn % 2 ^ 32 ∧ memGetN t.mem (a + 68) 4 = s.svnMin % 2 ^ 32
          ∧ memGetN t.mem (a + 72) 8 = (s.reg 0x0E0007030010).toNat ∧ memGetN t.mem (a + 80) 8 = (s.reg 0x0E0007030018).toNat
          ∧ memGetN t.mem (a + 88) 8 = (s.reg (errReg 16)).toNat ∧ memGetN t.mem (a + 96) 8 = (s.reg (errReg 32)).toNat
          ∧ memGetN t.mem (a + 104) 8 = s.devSeq % 2 ^ 64
          ∧ memGetN t.mem (a + 112) 3309 = (Config.sign (Config.sha3 (memBytes t.mem a 112))).toNat
          ∧ ∀ x, x < a ∨ a + 3421 ≤ x → memGet t.mem x = memGet s.mem x))
      ∧ (a % 4096 ≠ 0 → ∃ t, exec .attest s = .next t ∧ t.h2d = false ∧ Mailed t [15, 11] ∧ SameMem s t))
  ∧ (mailIs s 14 = true → DramRun s (mailWord s 1) Config.certificate.length → s.mailQ = [] →
      runWaits s (mailWord s 1) Config.certificate.length true = false → ∃ t, exec .certRead s = .next t ∧ t.h2d = false
      ∧ Stored s t (mailWord s 1) Config.certificate.length (ofBytes Config.certificate))
  ∧ (∀ j o, j < 2 → o = 1 - j → imgSvn (slotImage s o) < imgSvn (slotImage s j)
        ∨ (imgSvn (slotImage s o) = imgSvn (slotImage s j) ∧ s.flashLast = j) →
      (checkImage s.svnMin (slotImage s j) = 0 → chooseSlot s = .ok j)
      ∧ (checkImage s.svnMin (slotImage s j) ≠ 0 → chooseSlot s = if checkImage s.svnMin (slotImage s o) = 0 then .ok o
          else .error (checkImage s.svnMin (slotImage s o))))
  ∧ (∀ code, s.powered = false ∨ s.lost = true → chooseSlot (coldState s) = .error code → ∃ t, exec .powerUp s = .next t ∧ t.powered = true
      ∧ t.lost = false ∧ t.reg bootstat = BitVec.ofNat 64 (1 + 2 ^ 5 + code * 2 ^ 8) ∧ t.ibis = 3 :: s.ibis ∧ ∀ d, t.core d = Core.reset)
  ∧ (∀ i, s.powered = false ∨ s.lost = true → chooseSlot (coldState s) = .ok i → ∃ t, exec .powerUp s = .next t ∧ t.powered = true
      ∧ t.lost = false ∧ t.slotRun = i ∧ t.svn = imgSvn (slotImage s i) ∧ t.reg bootstat = 22 ∧ t.retired = s.retired
      ∧ t.ibis = (if 4096 ≤ s.retired.length then 2 :: s.ibis else s.ibis) ∧ (∀ d, t.core d = Core.reset)
      ∧ ∀ l, l < 12 → tget (fun _ => none) s.linkPeer l ≠ none → (t.reg (lnkstat l)).toNat % 4 = 2)
  ∧ (exec (.powerLoss false) s = .next { s with lost := true, powered := false, agenda := [] })
  ∧ (s.retired.length < 4096 → ∃ t r, exec (.powerLoss true) s = .next t ∧ t.retired = s.retired ++ [r] ∧ t.lost = true ∧ t.powered = false)
end

