-- ==== Sys2Proof/Laws/Tables.lean ====
section
/-! SUPPORT. Laws of the sparse tables: what reading gives after writing, and that writing keeps the canonical form. -/

namespace Sys2Proof.Machine
open Sys2Proof

/-- The canonical form as two plain facts: keys rise, and no entry equals its default. -/
theorem twf_iff {α : Type} [DecidableEq α] (d : Nat → α) (t : Tab α) :
    twf d t = true ↔ t.Pairwise (fun p q => p.1 < q.1) ∧ ∀ p ∈ t, p.2 ≠ d p.1 := by
  induction t with
  | nil => simp [twf]
  | cons p t ih =>
    obtain ⟨k, v⟩ := p
    cases t with
    | nil => simp [twf]
    | cons q u =>
      obtain ⟨j, w⟩ := q
      simp only [twf, Bool.and_eq_true, decide_eq_true_eq, ih, List.pairwise_cons, List.mem_cons, forall_eq_or_imp]
      constructor
      · rintro ⟨⟨h1, h2⟩, ⟨h3, h4⟩, h5, h6⟩
        exact ⟨⟨⟨h2, fun a ha => Nat.lt_trans h2 (h3 a ha)⟩, h3, h4⟩, h1, h5, h6⟩
      · rintro ⟨⟨⟨h2, _⟩, h3, h4⟩, h1, h5, h6⟩
        exact ⟨⟨h1, h2⟩, ⟨h3, h4⟩, h5, h6⟩

@[simp] theorem twf_nil {α : Type} [DecidableEq α] (d : Nat → α) : twf d ([] : Tab α) = true := rfl

/-- A part of a canonical table taken by a test is canonical. -/
theorem twf_filter {α : Type} [DecidableEq α] {d : Nat → α} {t : Tab α} (f : Nat × α → Bool) (h : twf d t = true) :
    twf d (t.filter f) = true := by
  rw [twf_iff] at h ⊢
  exact ⟨h.1.filter f, fun p hp => h.2 p (List.mem_filter.mp hp).1⟩

theorem tput_mem {α : Type} (t : Tab α) (k : Nat) (v : Option α) (p : Nat × α) (h : p ∈ tput t k v) :
    p ∈ t ∨ (p.1 = k ∧ v = some p.2) := by
  induction t with
  | nil => cases v <;> simp [tput] at h; exact .inr (by simp [h])
  | cons q t ih =>
    obtain ⟨j, y⟩ := q
    simp only [tput] at h
    split at h
    · rcases List.mem_cons.mp h with h | h
      · exact .inl (by simp [h])
      · exact (ih h).imp (fun h => List.mem_cons_of_mem _ h) id
    · split at h
      · split at h
        · rcases List.mem_cons.mp h with h | h
          · exact .inr (by simp [h])
          · exact .inl (List.mem_cons_of_mem _ h)
        · exact .inl (List.mem_cons_of_mem _ h)
      · split at h
        · rcases List.mem_cons.mp h with h | h
          · exact .inr (by simp [h])
          · exact .inl h
        · exact .inl h

theorem tput_rising {α : Type} {t : Tab α} (k : Nat) (v : Option α) (h : t.Pairwise (fun p q => p.1 < q.1)) :
    (tput t k v).Pairwise (fun p q => p.1 < q.1) := by
  induction t with
  | nil => cases v <;> simp [tput]
  | cons q t ih =>
    obtain ⟨j, y⟩ := q
    rw [List.pairwise_cons] at h
    simp only [tput]
    split
    · rename_i hj
      rw [List.pairwise_cons]
      refine ⟨fun p hp => ?_, ih h.2⟩
      rcases tput_mem _ _ _ _ hp with hp | hp
      · exact h.1 p hp
      · simpa [hp.1] using hj
    · split
      · rename_i hk
        subst hk
        split
        · exact List.pairwise_cons.mpr h
        · exact h.2
      · split
        · rw [List.pairwise_cons]
          refine ⟨fun p hp => ?_, List.pairwise_cons.mpr h⟩
          rcases List.mem_cons.mp hp with hp | hp
          · subst hp; simp; omega
          · have := h.1 p hp; simp at this ⊢; omega
        · exact List.pairwise_cons.mpr h

/-- Writing keeps the canonical form. -/
theorem twf_tset {α : Type} [DecidableEq α] {d : Nat → α} {t : Tab α} (k : Nat) (v : α) (h : twf d t = true) :
    twf d (tset d t k v) = true := by
  rw [twf_iff] at h ⊢
  refine ⟨tput_rising _ _ h.1, fun p hp => ?_⟩
  rcases tput_mem _ _ _ _ hp with hp | hp
  · exact h.2 p hp
  · by_cases hv : v = d k
    · simp [hv] at hp
    · obtain ⟨h1, h2⟩ := hp
      simp only [hv, if_false, Option.some.injEq] at h2
      rw [h1, ← h2]; exact hv

/-- A key below every key of a rising table reads its default. -/
theorem tget_below {α : Type} (d : Nat → α) (t : Tab α) (k : Nat) (h : ∀ p ∈ t, k < p.1) : tget d t k = d k := by
  cases t with
  | nil => rfl
  | cons q t =>
    have := h q (List.mem_cons_self ..)
    obtain ⟨j, y⟩ := q
    simp only at this
    simp [tget, show ¬ j = k by omega, this]

/-- A value that is no default is read back, whatever the table. -/
theorem tget_tput_some {α : Type} (d : Nat → α) (t : Tab α) (k : Nat) (v : α) : tget d (tput t k (some v)) k = v := by
  induction t with
  | nil => simp [tput, tget]
  | cons q t ih =>
    obtain ⟨j, y⟩ := q
    simp only [tput]
    split
    · rename_i h
      simp [tget, show ¬ j = k by omega, show ¬ k < j by omega, ih]
    · split
      · simp [tget]
      · simp [tget]

/-- Inserting an entry leaves every other key as it was, whatever the table. -/
theorem tget_tput_some_other {α : Type} (d : Nat → α) (t : Tab α) (k m : Nat) (v : α) (hm : m ≠ k) :
    tget d (tput t k (some v)) m = tget d t m := by
  induction t with
  | nil => simp [tput, tget, Ne.symm hm]
  | cons q t ih =>
    obtain ⟨j, y⟩ := q
    simp only [tput]
    split
    · simp [tget, ih]
    · split
      · rename_i h1 h2
        subst h2
        simp [tget, Ne.symm hm]
      · rename_i h1 h2
        simp only [tget, Ne.symm hm, if_false]
        split
        · rename_i h3
          simp [show ¬ j = m by omega, show m < j by omega]
        · rfl

theorem tget_tput_none {α : Type} (d : Nat → α) {t : Tab α} (k : Nat) (h : t.Pairwise (fun p q => p.1 < q.1)) :
    tget d (tput t k none) k = d k := by
  induction t with
  | nil => rfl
  | cons q t ih =>
    obtain ⟨j, y⟩ := q
    rw [List.pairwise_cons] at h
    simp only [tput]
    split
    · simp [tget, show ¬ j = k by omega, show ¬ k < j by omega, ih h.2]
    · split
      · rename_i h2
        exact tget_below d t k fun p hp => by have := h.1 p hp; simp at this; omega
      · simp [tget, show ¬ j = k by omega, show k < j by omega]

theorem tget_tput_none_other {α : Type} (d : Nat → α) {t : Tab α} (k m : Nat) (hm : m ≠ k)
    (h : t.Pairwise (fun p q => p.1 < q.1)) : tget d (tput t k none) m = tget d t m := by
  induction t with
  | nil => rfl
  | cons q t ih =>
    obtain ⟨j, y⟩ := q
    rw [List.pairwise_cons] at h
    simp only [tput]
    split
    · simp [tget, ih h.2]
    · split
      · rename_i h2
        subst h2
        simp only [tget, Ne.symm hm, if_false]
        split
        · exact tget_below d t m fun p hp => by have := h.1 p hp; simp at this; omega
        · rfl
      · rfl

/-- A canonical table reads back what was written. -/
theorem tget_tset {α : Type} [DecidableEq α] {d : Nat → α} {t : Tab α} (k : Nat) (v : α) (h : twf d t = true) :
    tget d (tset d t k v) k = v := by
  unfold tset
  split
  · rename_i hv
    rw [tget_tput_none d k ((twf_iff d t).mp h).1, hv]
  · exact tget_tput_some d t k v

/-- Writing one key of a canonical table leaves every other key as it was. -/
theorem tget_tset_other {α : Type} [DecidableEq α] {d : Nat → α} {t : Tab α} (k m : Nat) (v : α) (hm : m ≠ k)
    (h : twf d t = true) : tget d (tset d t k v) m = tget d t m := by
  unfold tset
  split
  · exact tget_tput_none_other d k m hm ((twf_iff d t).mp h).1
  · exact tget_tput_some_other d t k m v hm

/-- A value other than the default is read back from any table. -/
theorem tget_tset_of_ne {α : Type} [DecidableEq α] (d : Nat → α) (t : Tab α) (k : Nat) (v : α) (hv : v ≠ d k) :
    tget d (tset d t k v) k = v := by
  simp [tset, hv, tget_tput_some]

/-- Writing a value other than the default leaves every other key of any table as it was. -/
theorem tget_tset_other_of_ne {α : Type} [DecidableEq α] (d : Nat → α) (t : Tab α) (k m : Nat) (v : α) (hv : v ≠ d k)
    (hm : m ≠ k) : tget d (tset d t k v) m = tget d t m := by
  simp [tset, hv, tget_tput_some_other, hm]

/-- What follows the first entry of a canonical table is canonical. -/
theorem twf_tail {α : Type} [DecidableEq α] {d : Nat → α} {p : Nat × α} {t : Tab α} (h : twf d (p :: t) = true) : twf d t = true := by
  rw [twf_iff] at h ⊢
  exact ⟨(List.pairwise_cons.1 h.1).2, fun q hq => h.2 q (List.mem_cons_of_mem _ hq)⟩

/-- Two canonical tables that read the same are the same. -/
theorem twf_ext {α : Type} [DecidableEq α] {d : Nat → α} {t u : Tab α} (ht : twf d t = true) (hu : twf d u = true)
    (h : ∀ k, tget d t k = tget d u k) : t = u := by
  induction t generalizing u with
  | nil =>
    cases u with
    | nil => rfl
    | cons q u =>
      have := h q.1
      rw [twf_iff] at hu
      exact absurd (by simpa [tget] using this.symm) (hu.2 q (List.mem_cons_self ..))
  | cons p t ih =>
    have ht' := (twf_iff d _).1 ht
    obtain ⟨hr, hd⟩ := ht'
    rw [List.pairwise_cons] at hr
    cases u with
    | nil =>
      have := h p.1
      exact absurd (by simpa [tget] using this) (hd p (List.mem_cons_self ..))
    | cons q u =>
      obtain ⟨hr2, hd2⟩ := (twf_iff d _).1 hu
      rw [List.pairwise_cons] at hr2
      have hpq : p.1 = q.1 := by
        rcases Nat.lt_trichotomy p.1 q.1 with hl | he | hl
        · have := h p.1
          simp [tget, show ¬ q.1 = p.1 by omega, hl] at this
          exact absurd this (hd p (List.mem_cons_self ..))
        · exact he
        · have := h q.1
          simp [tget, show ¬ p.1 = q.1 by omega, hl] at this
          exact absurd this.symm (hd2 q (List.mem_cons_self ..))
      have hv : p.2 = q.2 := by
        have := h p.1
        simpa [tget, hpq] using this
      have e : p = q := Prod.ext hpq hv
      subst e
      congr 1
      refine ih (twf_tail ht) (twf_tail hu) fun k => ?_
      by_cases hk : p.1 < k
      · have := h k
        simpa [tget, show ¬ p.1 = k by omega, show ¬ k < p.1 by omega] using this
      · rw [tget_below, tget_below]
        · intro x hx; have := hr2.1 x hx; omega
        · intro x hx; have := hr.1 x hx; omega

/-- Of two writes of one key the later stands. -/
theorem tset_tset {α : Type} [DecidableEq α] {d : Nat → α} {t : Tab α} (k : Nat) (v w : α) (h : twf d t = true) :
    tset d (tset d t k v) k w = tset d t k w := by
  refine twf_ext (twf_tset _ _ (twf_tset _ _ h)) (twf_tset _ _ h) fun m => ?_
  by_cases hm : m = k
  · subst hm; rw [tget_tset _ _ (twf_tset _ _ h), tget_tset _ _ h]
  · rw [tget_tset_other _ _ _ hm (twf_tset _ _ h), tget_tset_other _ _ _ hm h, tget_tset_other _ _ _ hm h]

/-- Writing what is there changes nothing. -/
theorem tset_self {α : Type} [DecidableEq α] {d : Nat → α} {t : Tab α} (k : Nat) (h : twf d t = true) :
    tset d t k (tget d t k) = t := by
  refine twf_ext (twf_tset _ _ h) h fun m => ?_
  by_cases hm : m = k
  · subst hm; rw [tget_tset _ _ h]
  · rw [tget_tset_other _ _ _ hm h]

/-! ## Memory -/

/-- Writing a byte keeps the canonical form of a memory. -/
theorem Memory.wf_memSet {m : List Host.Cell} (a : Nat) (b : Byte) (h : Memory.wf m = true) : Memory.wf (memSet m a b) = true :=
  twf_tset a b h

theorem Memory.wf_memSetN {m : List Host.Cell} (a n w : Nat) (h : Memory.wf m = true) : Memory.wf (memSetN m a n w) = true := by
  induction n generalizing m a w with
  | zero => exact h
  | succ n ih => exact ih _ _ (Memory.wf_memSet _ _ h)

theorem Memory.wf_memSetBytes {m : List Host.Cell} (a : Nat) (l : List Byte) (h : Memory.wf m = true) :
    Memory.wf (memSetBytes m a l) = true := by
  induction l generalizing m a with
  | nil => exact h
  | cons b l ih => exact ih _ (Memory.wf_memSet _ _ h)

theorem Memory.wf_filter {m : List Host.Cell} (f : Host.Cell → Bool) (h : Memory.wf m = true) : Memory.wf (m.filter f) = true :=
  twf_filter f h

theorem memGet_memSet {m : List Host.Cell} (a : Nat) (b : Byte) (h : Memory.wf m = true) : memGet (memSet m a b) a = b :=
  tget_tset a b h

theorem memGet_memSet_other {m : List Host.Cell} (a x : Nat) (b : Byte) (hx : x ≠ a) (h : Memory.wf m = true) :
    memGet (memSet m a b) x = memGet m x :=
  tget_tset_other a x b hx h

/-- A store of `n` bytes leaves every byte outside them as it was. -/
theorem memGet_memSetN_outside {m : List Host.Cell} (a n w x : Nat) (hx : x < a ∨ a + n ≤ x) (h : Memory.wf m = true) :
    memGet (memSetN m a n w) x = memGet m x := by
  induction n generalizing m a w with
  | zero => rfl
  | succ n ih =>
    rw [memSetN, ih (a + 1) (w / 256) (by omega) (Memory.wf_memSet _ _ h)]
    exact memGet_memSet_other _ _ _ (by omega) h

/-- Byte `i` of a store of `n` bytes. -/
theorem memGet_memSetN_inside {m : List Host.Cell} (a n w i : Nat) (hi : i < n) (h : Memory.wf m = true) :
    memGet (memSetN m a n w) (a + i) = BitVec.ofNat 8 (w / 256 ^ i) := by
  induction n generalizing m a w i with
  | zero => omega
  | succ n ih =>
    rw [memSetN]
    cases i with
    | zero =>
      simp only [Nat.add_zero, Nat.pow_zero, Nat.div_one]
      rw [memGet_memSetN_outside (a + 1) n (w / 256) a (by omega) (Memory.wf_memSet _ _ h), memGet_memSet _ _ h]
    | succ i =>
      have := ih (a + 1) (w / 256) i (by omega) (Memory.wf_memSet a (BitVec.ofNat 8 w) h)
      rw [show a + (i + 1) = a + 1 + i by omega, this, Nat.div_div_eq_div_mul, Nat.pow_succ, Nat.mul_comm]

end Sys2Proof.Machine
end

