-- ==== Sys2Proof/Laws/State.lean ====
section
/-! SUPPORT. What each update of a part of the state leaves of every field, one lemma per field, true by definition. -/

namespace Sys2Proof.Machine
open Sys2Proof

/-! ## State.setCore -/

@[simp] theorem State.setCore_agenda (s : State) (c : Nat) (k : Core) : (s.setCore c k).agenda = s.agenda := rfl
@[simp] theorem State.setCore_cur (s : State) (c : Nat) (k : Core) : (s.setCore c k).cur = s.cur := rfl
@[simp] theorem State.setCore_fresh (s : State) (c : Nat) (k : Core) : (s.setCore c k).fresh = s.fresh := rfl
@[simp] theorem State.setCore_issuing (s : State) (c : Nat) (k : Core) : (s.setCore c k).issuing = s.issuing := rfl
@[simp] theorem State.setCore_fcode (s : State) (c : Nat) (k : Core) : (s.setCore c k).fcode = s.fcode := rfl
@[simp] theorem State.setCore_hearths (s : State) (c : Nat) (k : Core) : (s.setCore c k).hearths = s.hearths := rfl
@[simp] theorem State.setCore_mem (s : State) (c : Nat) (k : Core) : (s.setCore c k).mem = s.mem := rfl
@[simp] theorem State.setCore_hostMem (s : State) (c : Nat) (k : Core) : (s.setCore c k).hostMem = s.hostMem := rfl
@[simp] theorem State.setCore_hostBad (s : State) (c : Nat) (k : Core) : (s.setCore c k).hostBad = s.hostBad := rfl
@[simp] theorem State.setCore_poison (s : State) (c : Nat) (k : Core) : (s.setCore c k).poison = s.poison := rfl
@[simp] theorem State.setCore_flips (s : State) (c : Nat) (k : Core) : (s.setCore c k).flips = s.flips := rfl
@[simp] theorem State.setCore_tags (s : State) (c : Nat) (k : Core) : (s.setCore c k).tags = s.tags := rfl
@[simp] theorem State.setCore_mmio (s : State) (c : Nat) (k : Core) : (s.setCore c k).mmio = s.mmio := rfl
@[simp] theorem State.setCore_banks (s : State) (c : Nat) (k : Core) : (s.setCore c k).banks = s.banks := rfl
@[simp] theorem State.setCore_tlb (s : State) (c : Nat) (k : Core) : (s.setCore c k).tlb = s.tlb := rfl
@[simp] theorem State.setCore_missQ (s : State) (c : Nat) (k : Core) : (s.setCore c k).missQ = s.missQ := rfl
@[simp] theorem State.setCore_locks (s : State) (c : Nat) (k : Core) : (s.setCore c k).locks = s.locks := rfl
@[simp] theorem State.setCore_grids (s : State) (c : Nat) (k : Core) : (s.setCore c k).grids = s.grids := rfl
@[simp] theorem State.setCore_claims (s : State) (c : Nat) (k : Core) : (s.setCore c k).claims = s.claims := rfl
@[simp] theorem State.setCore_flights (s : State) (c : Nat) (k : Core) : (s.setCore c k).flights = s.flights := rfl
@[simp] theorem State.setCore_serveFrom (s : State) (c : Nat) (k : Core) : (s.setCore c k).serveFrom = s.serveFrom := rfl
@[simp] theorem State.setCore_exposes (s : State) (c : Nat) (k : Core) : (s.setCore c k).exposes = s.exposes := rfl
@[simp] theorem State.setCore_susps (s : State) (c : Nat) (k : Core) : (s.setCore c k).susps = s.susps := rfl
@[simp] theorem State.setCore_saved (s : State) (c : Nat) (k : Core) : (s.setCore c k).saved = s.saved := rfl
@[simp] theorem State.setCore_invQ (s : State) (c : Nat) (k : Core) : (s.setCore c k).invQ = s.invQ := rfl
@[simp] theorem State.setCore_migQ (s : State) (c : Nat) (k : Core) : (s.setCore c k).migQ = s.migQ := rfl
@[simp] theorem State.setCore_keys (s : State) (c : Nat) (k : Core) : (s.setCore c k).keys = s.keys := rfl
@[simp] theorem State.setCore_keyQ (s : State) (c : Nat) (k : Core) : (s.setCore c k).keyQ = s.keyQ := rfl
@[simp] theorem State.setCore_keyed (s : State) (c : Nat) (k : Core) : (s.setCore c k).keyed = s.keyed := rfl
@[simp] theorem State.setCore_frOff (s : State) (c : Nat) (k : Core) : (s.setCore c k).frOff = s.frOff := rfl
@[simp] theorem State.setCore_decoded (s : State) (c : Nat) (k : Core) : (s.setCore c k).decoded = s.decoded := rfl
@[simp] theorem State.setCore_counters (s : State) (c : Nat) (k : Core) : (s.setCore c k).counters = s.counters := rfl
@[simp] theorem State.setCore_launchSeq (s : State) (c : Nat) (k : Core) : (s.setCore c k).launchSeq = s.launchSeq := rfl
@[simp] theorem State.setCore_gridSeq (s : State) (c : Nat) (k : Core) : (s.setCore c k).gridSeq = s.gridSeq := rfl
@[simp] theorem State.setCore_devSeq (s : State) (c : Nat) (k : Core) : (s.setCore c k).devSeq = s.devSeq := rfl
@[simp] theorem State.setCore_logs (s : State) (c : Nat) (k : Core) : (s.setCore c k).logs = s.logs := rfl
@[simp] theorem State.setCore_heldEvents (s : State) (c : Nat) (k : Core) : (s.setCore c k).heldEvents = s.heldEvents := rfl
@[simp] theorem State.setCore_msix (s : State) (c : Nat) (k : Core) : (s.setCore c k).msix = s.msix := rfl
@[simp] theorem State.setCore_retired (s : State) (c : Nat) (k : Core) : (s.setCore c k).retired = s.retired := rfl
@[simp] theorem State.setCore_history (s : State) (c : Nat) (k : Core) : (s.setCore c k).history = s.history := rfl
@[simp] theorem State.setCore_repaired (s : State) (c : Nat) (k : Core) : (s.setCore c k).repaired = s.repaired := rfl
@[simp] theorem State.setCore_retiring (s : State) (c : Nat) (k : Core) : (s.setCore c k).retiring = s.retiring := rfl
@[simp] theorem State.setCore_lastBanks (s : State) (c : Nat) (k : Core) : (s.setCore c k).lastBanks = s.lastBanks := rfl
@[simp] theorem State.setCore_alarms (s : State) (c : Nat) (k : Core) : (s.setCore c k).alarms = s.alarms := rfl
@[simp] theorem State.setCore_h2d (s : State) (c : Nat) (k : Core) : (s.setCore c k).h2d = s.h2d := rfl
@[simp] theorem State.setCore_mailBusy (s : State) (c : Nat) (k : Core) : (s.setCore c k).mailBusy = s.mailBusy := rfl
@[simp] theorem State.setCore_mailQ (s : State) (c : Nat) (k : Core) : (s.setCore c k).mailQ = s.mailQ := rfl
@[simp] theorem State.setCore_mailPend (s : State) (c : Nat) (k : Core) : (s.setCore c k).mailPend = s.mailPend := rfl
@[simp] theorem State.setCore_hostQ (s : State) (c : Nat) (k : Core) : (s.setCore c k).hostQ = s.hostQ := rfl
@[simp] theorem State.setCore_hostResp (s : State) (c : Nat) (k : Core) : (s.setCore c k).hostResp = s.hostResp := rfl
@[simp] theorem State.setCore_heatTerm (s : State) (c : Nat) (k : Core) : (s.setCore c k).heatTerm = s.heatTerm := rfl
@[simp] theorem State.setCore_coolMs (s : State) (c : Nat) (k : Core) : (s.setCore c k).coolMs = s.coolMs := rfl
@[simp] theorem State.setCore_powerTerm (s : State) (c : Nat) (k : Core) : (s.setCore c k).powerTerm = s.powerTerm := rfl
@[simp] theorem State.setCore_tierCap (s : State) (c : Nat) (k : Core) : (s.setCore c k).tierCap = s.tierCap := rfl
@[simp] theorem State.setCore_alone (s : State) (c : Nat) (k : Core) : (s.setCore c k).alone = s.alone := rfl
@[simp] theorem State.setCore_linkPeer (s : State) (c : Nat) (k : Core) : (s.setCore c k).linkPeer = s.linkPeer := rfl
@[simp] theorem State.setCore_badSpare (s : State) (c : Nat) (k : Core) : (s.setCore c k).badSpare = s.badSpare := rfl
@[simp] theorem State.setCore_stale (s : State) (c : Nat) (k : Core) : (s.setCore c k).stale = s.stale := rfl
@[simp] theorem State.setCore_debt (s : State) (c : Nat) (k : Core) : (s.setCore c k).debt = s.debt := rfl
@[simp] theorem State.setCore_head (s : State) (c : Nat) (k : Core) : (s.setCore c k).head = s.head := rfl
@[simp] theorem State.setCore_acnt (s : State) (c : Nat) (k : Core) : (s.setCore c k).acnt = s.acnt := rfl
@[simp] theorem State.setCore_heatQ (s : State) (c : Nat) (k : Core) : (s.setCore c k).heatQ = s.heatQ := rfl
@[simp] theorem State.setCore_linkFree (s : State) (c : Nat) (k : Core) : (s.setCore c k).linkFree = s.linkFree := rfl
@[simp] theorem State.setCore_frameLost (s : State) (c : Nat) (k : Core) : (s.setCore c k).frameLost = s.frameLost := rfl
@[simp] theorem State.setCore_linkOut (s : State) (c : Nat) (k : Core) : (s.setCore c k).linkOut = s.linkOut := rfl
@[simp] theorem State.setCore_lasting (s : State) (c : Nat) (k : Core) : (s.setCore c k).lasting = s.lasting := rfl
@[simp] theorem State.setCore_flash (s : State) (c : Nat) (k : Core) : (s.setCore c k).flash = s.flash := rfl
@[simp] theorem State.setCore_flashLast (s : State) (c : Nat) (k : Core) : (s.setCore c k).flashLast = s.flashLast := rfl
@[simp] theorem State.setCore_svnMin (s : State) (c : Nat) (k : Core) : (s.setCore c k).svnMin = s.svnMin := rfl
@[simp] theorem State.setCore_svn (s : State) (c : Nat) (k : Core) : (s.setCore c k).svn = s.svn := rfl
@[simp] theorem State.setCore_slotRun (s : State) (c : Nat) (k : Core) : (s.setCore c k).slotRun = s.slotRun := rfl
@[simp] theorem State.setCore_i3cOff (s : State) (c : Nat) (k : Core) : (s.setCore c k).i3cOff = s.i3cOff := rfl
@[simp] theorem State.setCore_i3cAddr (s : State) (c : Nat) (k : Core) : (s.setCore c k).i3cAddr = s.i3cAddr := rfl
@[simp] theorem State.setCore_i3cOut (s : State) (c : Nat) (k : Core) : (s.setCore c k).i3cOut = s.i3cOut := rfl
@[simp] theorem State.setCore_ibis (s : State) (c : Nat) (k : Core) : (s.setCore c k).ibis = s.ibis := rfl
@[simp] theorem State.setCore_powered (s : State) (c : Nat) (k : Core) : (s.setCore c k).powered = s.powered := rfl
@[simp] theorem State.setCore_lost (s : State) (c : Nat) (k : Core) : (s.setCore c k).lost = s.lost := rfl

/-! ## State.modCore -/

@[simp] theorem State.modCore_agenda (s : State) (c : Nat) (g : Core → Core) : (s.modCore c g).agenda = s.agenda := rfl
@[simp] theorem State.modCore_cur (s : State) (c : Nat) (g : Core → Core) : (s.modCore c g).cur = s.cur := rfl
@[simp] theorem State.modCore_fresh (s : State) (c : Nat) (g : Core → Core) : (s.modCore c g).fresh = s.fresh := rfl
@[simp] theorem State.modCore_issuing (s : State) (c : Nat) (g : Core → Core) : (s.modCore c g).issuing = s.issuing := rfl
@[simp] theorem State.modCore_fcode (s : State) (c : Nat) (g : Core → Core) : (s.modCore c g).fcode = s.fcode := rfl
@[simp] theorem State.modCore_hearths (s : State) (c : Nat) (g : Core → Core) : (s.modCore c g).hearths = s.hearths := rfl
@[simp] theorem State.modCore_mem (s : State) (c : Nat) (g : Core → Core) : (s.modCore c g).mem = s.mem := rfl
@[simp] theorem State.modCore_hostMem (s : State) (c : Nat) (g : Core → Core) : (s.modCore c g).hostMem = s.hostMem := rfl
@[simp] theorem State.modCore_hostBad (s : State) (c : Nat) (g : Core → Core) : (s.modCore c g).hostBad = s.hostBad := rfl
@[simp] theorem State.modCore_poison (s : State) (c : Nat) (g : Core → Core) : (s.modCore c g).poison = s.poison := rfl
@[simp] theorem State.modCore_flips (s : State) (c : Nat) (g : Core → Core) : (s.modCore c g).flips = s.flips := rfl
@[simp] theorem State.modCore_tags (s : State) (c : Nat) (g : Core → Core) : (s.modCore c g).tags = s.tags := rfl
@[simp] theorem State.modCore_mmio (s : State) (c : Nat) (g : Core → Core) : (s.modCore c g).mmio = s.mmio := rfl
@[simp] theorem State.modCore_banks (s : State) (c : Nat) (g : Core → Core) : (s.modCore c g).banks = s.banks := rfl
@[simp] theorem State.modCore_tlb (s : State) (c : Nat) (g : Core → Core) : (s.modCore c g).tlb = s.tlb := rfl
@[simp] theorem State.modCore_missQ (s : State) (c : Nat) (g : Core → Core) : (s.modCore c g).missQ = s.missQ := rfl
@[simp] theorem State.modCore_locks (s : State) (c : Nat) (g : Core → Core) : (s.modCore c g).locks = s.locks := rfl
@[simp] theorem State.modCore_grids (s : State) (c : Nat) (g : Core → Core) : (s.modCore c g).grids = s.grids := rfl
@[simp] theorem State.modCore_claims (s : State) (c : Nat) (g : Core → Core) : (s.modCore c g).claims = s.claims := rfl
@[simp] theorem State.modCore_flights (s : State) (c : Nat) (g : Core → Core) : (s.modCore c g).flights = s.flights := rfl
@[simp] theorem State.modCore_serveFrom (s : State) (c : Nat) (g : Core → Core) : (s.modCore c g).serveFrom = s.serveFrom := rfl
@[simp] theorem State.modCore_exposes (s : State) (c : Nat) (g : Core → Core) : (s.modCore c g).exposes = s.exposes := rfl
@[simp] theorem State.modCore_susps (s : State) (c : Nat) (g : Core → Core) : (s.modCore c g).susps = s.susps := rfl
@[simp] theorem State.modCore_saved (s : State) (c : Nat) (g : Core → Core) : (s.modCore c g).saved = s.saved := rfl
@[simp] theorem State.modCore_invQ (s : State) (c : Nat) (g : Core → Core) : (s.modCore c g).invQ = s.invQ := rfl
@[simp] theorem State.modCore_migQ (s : State) (c : Nat) (g : Core → Core) : (s.modCore c g).migQ = s.migQ := rfl
@[simp] theorem State.modCore_keys (s : State) (c : Nat) (g : Core → Core) : (s.modCore c g).keys = s.keys := rfl
@[simp] theorem State.modCore_keyQ (s : State) (c : Nat) (g : Core → Core) : (s.modCore c g).keyQ = s.keyQ := rfl
@[simp] theorem State.modCore_keyed (s : State) (c : Nat) (g : Core → Core) : (s.modCore c g).keyed = s.keyed := rfl
@[simp] theorem State.modCore_frOff (s : State) (c : Nat) (g : Core → Core) : (s.modCore c g).frOff = s.frOff := rfl
@[simp] theorem State.modCore_decoded (s : State) (c : Nat) (g : Core → Core) : (s.modCore c g).decoded = s.decoded := rfl
@[simp] theorem State.modCore_counters (s : State) (c : Nat) (g : Core → Core) : (s.modCore c g).counters = s.counters := rfl
@[simp] theorem State.modCore_launchSeq (s : State) (c : Nat) (g : Core → Core) : (s.modCore c g).launchSeq = s.launchSeq := rfl
@[simp] theorem State.modCore_gridSeq (s : State) (c : Nat) (g : Core → Core) : (s.modCore c g).gridSeq = s.gridSeq := rfl
@[simp] theorem State.modCore_devSeq (s : State) (c : Nat) (g : Core → Core) : (s.modCore c g).devSeq = s.devSeq := rfl
@[simp] theorem State.modCore_logs (s : State) (c : Nat) (g : Core → Core) : (s.modCore c g).logs = s.logs := rfl
@[simp] theorem State.modCore_heldEvents (s : State) (c : Nat) (g : Core → Core) : (s.modCore c g).heldEvents = s.heldEvents := rfl
@[simp] theorem State.modCore_msix (s : State) (c : Nat) (g : Core → Core) : (s.modCore c g).msix = s.msix := rfl
@[simp] theorem State.modCore_retired (s : State) (c : Nat) (g : Core → Core) : (s.modCore c g).retired = s.retired := rfl
@[simp] theorem State.modCore_history (s : State) (c : Nat) (g : Core → Core) : (s.modCore c g).history = s.history := rfl
@[simp] theorem State.modCore_repaired (s : State) (c : Nat) (g : Core → Core) : (s.modCore c g).repaired = s.repaired := rfl
@[simp] theorem State.modCore_retiring (s : State) (c : Nat) (g : Core → Core) : (s.modCore c g).retiring = s.retiring := rfl
@[simp] theorem State.modCore_lastBanks (s : State) (c : Nat) (g : Core → Core) : (s.modCore c g).lastBanks = s.lastBanks := rfl
@[simp] theorem State.modCore_alarms (s : State) (c : Nat) (g : Core → Core) : (s.modCore c g).alarms = s.alarms := rfl
@[simp] theorem State.modCore_h2d (s : State) (c : Nat) (g : Core → Core) : (s.modCore c g).h2d = s.h2d := rfl
@[simp] theorem State.modCore_mailBusy (s : State) (c : Nat) (g : Core → Core) : (s.modCore c g).mailBusy = s.mailBusy := rfl
@[simp] theorem State.modCore_mailQ (s : State) (c : Nat) (g : Core → Core) : (s.modCore c g).mailQ = s.mailQ := rfl
@[simp] theorem State.modCore_mailPend (s : State) (c : Nat) (g : Core → Core) : (s.modCore c g).mailPend = s.mailPend := rfl
@[simp] theorem State.modCore_hostQ (s : State) (c : Nat) (g : Core → Core) : (s.modCore c g).hostQ = s.hostQ := rfl
@[simp] theorem State.modCore_hostResp (s : State) (c : Nat) (g : Core → Core) : (s.modCore c g).hostResp = s.hostResp := rfl
@[simp] theorem State.modCore_heatTerm (s : State) (c : Nat) (g : Core → Core) : (s.modCore c g).heatTerm = s.heatTerm := rfl
@[simp] theorem State.modCore_coolMs (s : State) (c : Nat) (g : Core → Core) : (s.modCore c g).coolMs = s.coolMs := rfl
@[simp] theorem State.modCore_powerTerm (s : State) (c : Nat) (g : Core → Core) : (s.modCore c g).powerTerm = s.powerTerm := rfl
@[simp] theorem State.modCore_tierCap (s : State) (c : Nat) (g : Core → Core) : (s.modCore c g).tierCap = s.tierCap := rfl
@[simp] theorem State.modCore_alone (s : State) (c : Nat) (g : Core → Core) : (s.modCore c g).alone = s.alone := rfl
@[simp] theorem State.modCore_linkPeer (s : State) (c : Nat) (g : Core → Core) : (s.modCore c g).linkPeer = s.linkPeer := rfl
@[simp] theorem State.modCore_badSpare (s : State) (c : Nat) (g : Core → Core) : (s.modCore c g).badSpare = s.badSpare := rfl
@[simp] theorem State.modCore_stale (s : State) (c : Nat) (g : Core → Core) : (s.modCore c g).stale = s.stale := rfl
@[simp] theorem State.modCore_debt (s : State) (c : Nat) (g : Core → Core) : (s.modCore c g).debt = s.debt := rfl
@[simp] theorem State.modCore_head (s : State) (c : Nat) (g : Core → Core) : (s.modCore c g).head = s.head := rfl
@[simp] theorem State.modCore_acnt (s : State) (c : Nat) (g : Core → Core) : (s.modCore c g).acnt = s.acnt := rfl
@[simp] theorem State.modCore_heatQ (s : State) (c : Nat) (g : Core → Core) : (s.modCore c g).heatQ = s.heatQ := rfl
@[simp] theorem State.modCore_linkFree (s : State) (c : Nat) (g : Core → Core) : (s.modCore c g).linkFree = s.linkFree := rfl
@[simp] theorem State.modCore_frameLost (s : State) (c : Nat) (g : Core → Core) : (s.modCore c g).frameLost = s.frameLost := rfl
@[simp] theorem State.modCore_linkOut (s : State) (c : Nat) (g : Core → Core) : (s.modCore c g).linkOut = s.linkOut := rfl
@[simp] theorem State.modCore_lasting (s : State) (c : Nat) (g : Core → Core) : (s.modCore c g).lasting = s.lasting := rfl
@[simp] theorem State.modCore_flash (s : State) (c : Nat) (g : Core → Core) : (s.modCore c g).flash = s.flash := rfl
@[simp] theorem State.modCore_flashLast (s : State) (c : Nat) (g : Core → Core) : (s.modCore c g).flashLast = s.flashLast := rfl
@[simp] theorem State.modCore_svnMin (s : State) (c : Nat) (g : Core → Core) : (s.modCore c g).svnMin = s.svnMin := rfl
@[simp] theorem State.modCore_svn (s : State) (c : Nat) (g : Core → Core) : (s.modCore c g).svn = s.svn := rfl
@[simp] theorem State.modCore_slotRun (s : State) (c : Nat) (g : Core → Core) : (s.modCore c g).slotRun = s.slotRun := rfl
@[simp] theorem State.modCore_i3cOff (s : State) (c : Nat) (g : Core → Core) : (s.modCore c g).i3cOff = s.i3cOff := rfl
@[simp] theorem State.modCore_i3cAddr (s : State) (c : Nat) (g : Core → Core) : (s.modCore c g).i3cAddr = s.i3cAddr := rfl
@[simp] theorem State.modCore_i3cOut (s : State) (c : Nat) (g : Core → Core) : (s.modCore c g).i3cOut = s.i3cOut := rfl
@[simp] theorem State.modCore_ibis (s : State) (c : Nat) (g : Core → Core) : (s.modCore c g).ibis = s.ibis := rfl
@[simp] theorem State.modCore_powered (s : State) (c : Nat) (g : Core → Core) : (s.modCore c g).powered = s.powered := rfl
@[simp] theorem State.modCore_lost (s : State) (c : Nat) (g : Core → Core) : (s.modCore c g).lost = s.lost := rfl

/-! ## State.setHearth -/

@[simp] theorem State.setHearth_agenda (s : State) (h : Nat) (x : Hearth) : (s.setHearth h x).agenda = s.agenda := rfl
@[simp] theorem State.setHearth_cur (s : State) (h : Nat) (x : Hearth) : (s.setHearth h x).cur = s.cur := rfl
@[simp] theorem State.setHearth_fresh (s : State) (h : Nat) (x : Hearth) : (s.setHearth h x).fresh = s.fresh := rfl
@[simp] theorem State.setHearth_issuing (s : State) (h : Nat) (x : Hearth) : (s.setHearth h x).issuing = s.issuing := rfl
@[simp] theorem State.setHearth_cores (s : State) (h : Nat) (x : Hearth) : (s.setHearth h x).cores = s.cores := rfl
@[simp] theorem State.setHearth_fcode (s : State) (h : Nat) (x : Hearth) : (s.setHearth h x).fcode = s.fcode := rfl
@[simp] theorem State.setHearth_mem (s : State) (h : Nat) (x : Hearth) : (s.setHearth h x).mem = s.mem := rfl
@[simp] theorem State.setHearth_hostMem (s : State) (h : Nat) (x : Hearth) : (s.setHearth h x).hostMem = s.hostMem := rfl
@[simp] theorem State.setHearth_hostBad (s : State) (h : Nat) (x : Hearth) : (s.setHearth h x).hostBad = s.hostBad := rfl
@[simp] theorem State.setHearth_poison (s : State) (h : Nat) (x : Hearth) : (s.setHearth h x).poison = s.poison := rfl
@[simp] theorem State.setHearth_flips (s : State) (h : Nat) (x : Hearth) : (s.setHearth h x).flips = s.flips := rfl
@[simp] theorem State.setHearth_tags (s : State) (h : Nat) (x : Hearth) : (s.setHearth h x).tags = s.tags := rfl
@[simp] theorem State.setHearth_mmio (s : State) (h : Nat) (x : Hearth) : (s.setHearth h x).mmio = s.mmio := rfl
@[simp] theorem State.setHearth_banks (s : State) (h : Nat) (x : Hearth) : (s.setHearth h x).banks = s.banks := rfl
@[simp] theorem State.setHearth_tlb (s : State) (h : Nat) (x : Hearth) : (s.setHearth h x).tlb = s.tlb := rfl
@[simp] theorem State.setHearth_missQ (s : State) (h : Nat) (x : Hearth) : (s.setHearth h x).missQ = s.missQ := rfl
@[simp] theorem State.setHearth_locks (s : State) (h : Nat) (x : Hearth) : (s.setHearth h x).locks = s.locks := rfl
@[simp] theorem State.setHearth_grids (s : State) (h : Nat) (x : Hearth) : (s.setHearth h x).grids = s.grids := rfl
@[simp] theorem State.setHearth_claims (s : State) (h : Nat) (x : Hearth) : (s.setHearth h x).claims = s.claims := rfl
@[simp] theorem State.setHearth_flights (s : State) (h : Nat) (x : Hearth) : (s.setHearth h x).flights = s.flights := rfl
@[simp] theorem State.setHearth_serveFrom (s : State) (h : Nat) (x : Hearth) : (s.setHearth h x).serveFrom = s.serveFrom := rfl
@[simp] theorem State.setHearth_exposes (s : State) (h : Nat) (x : Hearth) : (s.setHearth h x).exposes = s.exposes := rfl
@[simp] theorem State.setHearth_susps (s : State) (h : Nat) (x : Hearth) : (s.setHearth h x).susps = s.susps := rfl
@[simp] theorem State.setHearth_saved (s : State) (h : Nat) (x : Hearth) : (s.setHearth h x).saved = s.saved := rfl
@[simp] theorem State.setHearth_invQ (s : State) (h : Nat) (x : Hearth) : (s.setHearth h x).invQ = s.invQ := rfl
@[simp] theorem State.setHearth_migQ (s : State) (h : Nat) (x : Hearth) : (s.setHearth h x).migQ = s.migQ := rfl
@[simp] theorem State.setHearth_keys (s : State) (h : Nat) (x : Hearth) : (s.setHearth h x).keys = s.keys := rfl
@[simp] theorem State.setHearth_keyQ (s : State) (h : Nat) (x : Hearth) : (s.setHearth h x).keyQ = s.keyQ := rfl
@[simp] theorem State.setHearth_keyed (s : State) (h : Nat) (x : Hearth) : (s.setHearth h x).keyed = s.keyed := rfl
@[simp] theorem State.setHearth_frOff (s : State) (h : Nat) (x : Hearth) : (s.setHearth h x).frOff = s.frOff := rfl
@[simp] theorem State.setHearth_decoded (s : State) (h : Nat) (x : Hearth) : (s.setHearth h x).decoded = s.decoded := rfl
@[simp] theorem State.setHearth_counters (s : State) (h : Nat) (x : Hearth) : (s.setHearth h x).counters = s.counters := rfl
@[simp] theorem State.setHearth_launchSeq (s : State) (h : Nat) (x : Hearth) : (s.setHearth h x).launchSeq = s.launchSeq := rfl
@[simp] theorem State.setHearth_gridSeq (s : State) (h : Nat) (x : Hearth) : (s.setHearth h x).gridSeq = s.gridSeq := rfl
@[simp] theorem State.setHearth_devSeq (s : State) (h : Nat) (x : Hearth) : (s.setHearth h x).devSeq = s.devSeq := rfl
@[simp] theorem State.setHearth_logs (s : State) (h : Nat) (x : Hearth) : (s.setHearth h x).logs = s.logs := rfl
@[simp] theorem State.setHearth_heldEvents (s : State) (h : Nat) (x : Hearth) : (s.setHearth h x).heldEvents = s.heldEvents := rfl
@[simp] theorem State.setHearth_msix (s : State) (h : Nat) (x : Hearth) : (s.setHearth h x).msix = s.msix := rfl
@[simp] theorem State.setHearth_retired (s : State) (h : Nat) (x : Hearth) : (s.setHearth h x).retired = s.retired := rfl
@[simp] theorem State.setHearth_history (s : State) (h : Nat) (x : Hearth) : (s.setHearth h x).history = s.history := rfl
@[simp] theorem State.setHearth_repaired (s : State) (h : Nat) (x : Hearth) : (s.setHearth h x).repaired = s.repaired := rfl
@[simp] theorem State.setHearth_retiring (s : State) (h : Nat) (x : Hearth) : (s.setHearth h x).retiring = s.retiring := rfl
@[simp] theorem State.setHearth_lastBanks (s : State) (h : Nat) (x : Hearth) : (s.setHearth h x).lastBanks = s.lastBanks := rfl
@[simp] theorem State.setHearth_alarms (s : State) (h : Nat) (x : Hearth) : (s.setHearth h x).alarms = s.alarms := rfl
@[simp] theorem State.setHearth_h2d (s : State) (h : Nat) (x : Hearth) : (s.setHearth h x).h2d = s.h2d := rfl
@[simp] theorem State.setHearth_mailBusy (s : State) (h : Nat) (x : Hearth) : (s.setHearth h x).mailBusy = s.mailBusy := rfl
@[simp] theorem State.setHearth_mailQ (s : State) (h : Nat) (x : Hearth) : (s.setHearth h x).mailQ = s.mailQ := rfl
@[simp] theorem State.setHearth_mailPend (s : State) (h : Nat) (x : Hearth) : (s.setHearth h x).mailPend = s.mailPend := rfl
@[simp] theorem State.setHearth_hostQ (s : State) (h : Nat) (x : Hearth) : (s.setHearth h x).hostQ = s.hostQ := rfl
@[simp] theorem State.setHearth_hostResp (s : State) (h : Nat) (x : Hearth) : (s.setHearth h x).hostResp = s.hostResp := rfl
@[simp] theorem State.setHearth_heatTerm (s : State) (h : Nat) (x : Hearth) : (s.setHearth h x).heatTerm = s.heatTerm := rfl
@[simp] theorem State.setHearth_coolMs (s : State) (h : Nat) (x : Hearth) : (s.setHearth h x).coolMs = s.coolMs := rfl
@[simp] theorem State.setHearth_powerTerm (s : State) (h : Nat) (x : Hearth) : (s.setHearth h x).powerTerm = s.powerTerm := rfl
@[simp] theorem State.setHearth_tierCap (s : State) (h : Nat) (x : Hearth) : (s.setHearth h x).tierCap = s.tierCap := rfl
@[simp] theorem State.setHearth_alone (s : State) (h : Nat) (x : Hearth) : (s.setHearth h x).alone = s.alone := rfl
@[simp] theorem State.setHearth_linkPeer (s : State) (h : Nat) (x : Hearth) : (s.setHearth h x).linkPeer = s.linkPeer := rfl
@[simp] theorem State.setHearth_badSpare (s : State) (h : Nat) (x : Hearth) : (s.setHearth h x).badSpare = s.badSpare := rfl
@[simp] theorem State.setHearth_stale (s : State) (h : Nat) (x : Hearth) : (s.setHearth h x).stale = s.stale := rfl
@[simp] theorem State.setHearth_debt (s : State) (h : Nat) (x : Hearth) : (s.setHearth h x).debt = s.debt := rfl
@[simp] theorem State.setHearth_head (s : State) (h : Nat) (x : Hearth) : (s.setHearth h x).head = s.head := rfl
@[simp] theorem State.setHearth_acnt (s : State) (h : Nat) (x : Hearth) : (s.setHearth h x).acnt = s.acnt := rfl
@[simp] theorem State.setHearth_heatQ (s : State) (h : Nat) (x : Hearth) : (s.setHearth h x).heatQ = s.heatQ := rfl
@[simp] theorem State.setHearth_linkFree (s : State) (h : Nat) (x : Hearth) : (s.setHearth h x).linkFree = s.linkFree := rfl
@[simp] theorem State.setHearth_frameLost (s : State) (h : Nat) (x : Hearth) : (s.setHearth h x).frameLost = s.frameLost := rfl
@[simp] theorem State.setHearth_linkOut (s : State) (h : Nat) (x : Hearth) : (s.setHearth h x).linkOut = s.linkOut := rfl
@[simp] theorem State.setHearth_lasting (s : State) (h : Nat) (x : Hearth) : (s.setHearth h x).lasting = s.lasting := rfl
@[simp] theorem State.setHearth_flash (s : State) (h : Nat) (x : Hearth) : (s.setHearth h x).flash = s.flash := rfl
@[simp] theorem State.setHearth_flashLast (s : State) (h : Nat) (x : Hearth) : (s.setHearth h x).flashLast = s.flashLast := rfl
@[simp] theorem State.setHearth_svnMin (s : State) (h : Nat) (x : Hearth) : (s.setHearth h x).svnMin = s.svnMin := rfl
@[simp] theorem State.setHearth_svn (s : State) (h : Nat) (x : Hearth) : (s.setHearth h x).svn = s.svn := rfl
@[simp] theorem State.setHearth_slotRun (s : State) (h : Nat) (x : Hearth) : (s.setHearth h x).slotRun = s.slotRun := rfl
@[simp] theorem State.setHearth_i3cOff (s : State) (h : Nat) (x : Hearth) : (s.setHearth h x).i3cOff = s.i3cOff := rfl
@[simp] theorem State.setHearth_i3cAddr (s : State) (h : Nat) (x : Hearth) : (s.setHearth h x).i3cAddr = s.i3cAddr := rfl
@[simp] theorem State.setHearth_i3cOut (s : State) (h : Nat) (x : Hearth) : (s.setHearth h x).i3cOut = s.i3cOut := rfl
@[simp] theorem State.setHearth_ibis (s : State) (h : Nat) (x : Hearth) : (s.setHearth h x).ibis = s.ibis := rfl
@[simp] theorem State.setHearth_powered (s : State) (h : Nat) (x : Hearth) : (s.setHearth h x).powered = s.powered := rfl
@[simp] theorem State.setHearth_lost (s : State) (h : Nat) (x : Hearth) : (s.setHearth h x).lost = s.lost := rfl

/-! ## State.modHearth -/

@[simp] theorem State.modHearth_agenda (s : State) (h : Nat) (g : Hearth → Hearth) : (s.modHearth h g).agenda = s.agenda := rfl
@[simp] theorem State.modHearth_cur (s : State) (h : Nat) (g : Hearth → Hearth) : (s.modHearth h g).cur = s.cur := rfl
@[simp] theorem State.modHearth_fresh (s : State) (h : Nat) (g : Hearth → Hearth) : (s.modHearth h g).fresh = s.fresh := rfl
@[simp] theorem State.modHearth_issuing (s : State) (h : Nat) (g : Hearth → Hearth) : (s.modHearth h g).issuing = s.issuing := rfl
@[simp] theorem State.modHearth_cores (s : State) (h : Nat) (g : Hearth → Hearth) : (s.modHearth h g).cores = s.cores := rfl
@[simp] theorem State.modHearth_fcode (s : State) (h : Nat) (g : Hearth → Hearth) : (s.modHearth h g).fcode = s.fcode := rfl
@[simp] theorem State.modHearth_mem (s : State) (h : Nat) (g : Hearth → Hearth) : (s.modHearth h g).mem = s.mem := rfl
@[simp] theorem State.modHearth_hostMem (s : State) (h : Nat) (g : Hearth → Hearth) : (s.modHearth h g).hostMem = s.hostMem := rfl
@[simp] theorem State.modHearth_hostBad (s : State) (h : Nat) (g : Hearth → Hearth) : (s.modHearth h g).hostBad = s.hostBad := rfl
@[simp] theorem State.modHearth_poison (s : State) (h : Nat) (g : Hearth → Hearth) : (s.modHearth h g).poison = s.poison := rfl
@[simp] theorem State.modHearth_flips (s : State) (h : Nat) (g : Hearth → Hearth) : (s.modHearth h g).flips = s.flips := rfl
@[simp] theorem State.modHearth_tags (s : State) (h : Nat) (g : Hearth → Hearth) : (s.modHearth h g).tags = s.tags := rfl
@[simp] theorem State.modHearth_mmio (s : State) (h : Nat) (g : Hearth → Hearth) : (s.modHearth h g).mmio = s.mmio := rfl
@[simp] theorem State.modHearth_banks (s : State) (h : Nat) (g : Hearth → Hearth) : (s.modHearth h g).banks = s.banks := rfl
@[simp] theorem State.modHearth_tlb (s : State) (h : Nat) (g : Hearth → Hearth) : (s.modHearth h g).tlb = s.tlb := rfl
@[simp] theorem State.modHearth_missQ (s : State) (h : Nat) (g : Hearth → Hearth) : (s.modHearth h g).missQ = s.missQ := rfl
@[simp] theorem State.modHearth_locks (s : State) (h : Nat) (g : Hearth → Hearth) : (s.modHearth h g).locks = s.locks := rfl
@[simp] theorem State.modHearth_grids (s : State) (h : Nat) (g : Hearth → Hearth) : (s.modHearth h g).grids = s.grids := rfl
@[simp] theorem State.modHearth_claims (s : State) (h : Nat) (g : Hearth → Hearth) : (s.modHearth h g).claims = s.claims := rfl
@[simp] theorem State.modHearth_flights (s : State) (h : Nat) (g : Hearth → Hearth) : (s.modHearth h g).flights = s.flights := rfl
@[simp] theorem State.modHearth_serveFrom (s : State) (h : Nat) (g : Hearth → Hearth) : (s.modHearth h g).serveFrom = s.serveFrom := rfl
@[simp] theorem State.modHearth_exposes (s : State) (h : Nat) (g : Hearth → Hearth) : (s.modHearth h g).exposes = s.exposes := rfl
@[simp] theorem State.modHearth_susps (s : State) (h : Nat) (g : Hearth → Hearth) : (s.modHearth h g).susps = s.susps := rfl
@[simp] theorem State.modHearth_saved (s : State) (h : Nat) (g : Hearth → Hearth) : (s.modHearth h g).saved = s.saved := rfl
@[simp] theorem State.modHearth_invQ (s : State) (h : Nat) (g : Hearth → Hearth) : (s.modHearth h g).invQ = s.invQ := rfl
@[simp] theorem State.modHearth_migQ (s : State) (h : Nat) (g : Hearth → Hearth) : (s.modHearth h g).migQ = s.migQ := rfl
@[simp] theorem State.modHearth_keys (s : State) (h : Nat) (g : Hearth → Hearth) : (s.modHearth h g).keys = s.keys := rfl
@[simp] theorem State.modHearth_keyQ (s : State) (h : Nat) (g : Hearth → Hearth) : (s.modHearth h g).keyQ = s.keyQ := rfl
@[simp] theorem State.modHearth_keyed (s : State) (h : Nat) (g : Hearth → Hearth) : (s.modHearth h g).keyed = s.keyed := rfl
@[simp] theorem State.modHearth_frOff (s : State) (h : Nat) (g : Hearth → Hearth) : (s.modHearth h g).frOff = s.frOff := rfl
@[simp] theorem State.modHearth_decoded (s : State) (h : Nat) (g : Hearth → Hearth) : (s.modHearth h g).decoded = s.decoded := rfl
@[simp] theorem State.modHearth_counters (s : State) (h : Nat) (g : Hearth → Hearth) : (s.modHearth h g).counters = s.counters := rfl
@[simp] theorem State.modHearth_launchSeq (s : State) (h : Nat) (g : Hearth → Hearth) : (s.modHearth h g).launchSeq = s.launchSeq := rfl
@[simp] theorem State.modHearth_gridSeq (s : State) (h : Nat) (g : Hearth → Hearth) : (s.modHearth h g).gridSeq = s.gridSeq := rfl
@[simp] theorem State.modHearth_devSeq (s : State) (h : Nat) (g : Hearth → Hearth) : (s.modHearth h g).devSeq = s.devSeq := rfl
@[simp] theorem State.modHearth_logs (s : State) (h : Nat) (g : Hearth → Hearth) : (s.modHearth h g).logs = s.logs := rfl
@[simp] theorem State.modHearth_heldEvents (s : State) (h : Nat) (g : Hearth → Hearth) : (s.modHearth h g).heldEvents = s.heldEvents := rfl
@[simp] theorem State.modHearth_msix (s : State) (h : Nat) (g : Hearth → Hearth) : (s.modHearth h g).msix = s.msix := rfl
@[simp] theorem State.modHearth_retired (s : State) (h : Nat) (g : Hearth → Hearth) : (s.modHearth h g).retired = s.retired := rfl
@[simp] theorem State.modHearth_history (s : State) (h : Nat) (g : Hearth → Hearth) : (s.modHearth h g).history = s.history := rfl
@[simp] theorem State.modHearth_repaired (s : State) (h : Nat) (g : Hearth → Hearth) : (s.modHearth h g).repaired = s.repaired := rfl
@[simp] theorem State.modHearth_retiring (s : State) (h : Nat) (g : Hearth → Hearth) : (s.modHearth h g).retiring = s.retiring := rfl
@[simp] theorem State.modHearth_lastBanks (s : State) (h : Nat) (g : Hearth → Hearth) : (s.modHearth h g).lastBanks = s.lastBanks := rfl
@[simp] theorem State.modHearth_alarms (s : State) (h : Nat) (g : Hearth → Hearth) : (s.modHearth h g).alarms = s.alarms := rfl
@[simp] theorem State.modHearth_h2d (s : State) (h : Nat) (g : Hearth → Hearth) : (s.modHearth h g).h2d = s.h2d := rfl
@[simp] theorem State.modHearth_mailBusy (s : State) (h : Nat) (g : Hearth → Hearth) : (s.modHearth h g).mailBusy = s.mailBusy := rfl
@[simp] theorem State.modHearth_mailQ (s : State) (h : Nat) (g : Hearth → Hearth) : (s.modHearth h g).mailQ = s.mailQ := rfl
@[simp] theorem State.modHearth_mailPend (s : State) (h : Nat) (g : Hearth → Hearth) : (s.modHearth h g).mailPend = s.mailPend := rfl
@[simp] theorem State.modHearth_hostQ (s : State) (h : Nat) (g : Hearth → Hearth) : (s.modHearth h g).hostQ = s.hostQ := rfl
@[simp] theorem State.modHearth_hostResp (s : State) (h : Nat) (g : Hearth → Hearth) : (s.modHearth h g).hostResp = s.hostResp := rfl
@[simp] theorem State.modHearth_heatTerm (s : State) (h : Nat) (g : Hearth → Hearth) : (s.modHearth h g).heatTerm = s.heatTerm := rfl
@[simp] theorem State.modHearth_coolMs (s : State) (h : Nat) (g : Hearth → Hearth) : (s.modHearth h g).coolMs = s.coolMs := rfl
@[simp] theorem State.modHearth_powerTerm (s : State) (h : Nat) (g : Hearth → Hearth) : (s.modHearth h g).powerTerm = s.powerTerm := rfl
@[simp] theorem State.modHearth_tierCap (s : State) (h : Nat) (g : Hearth → Hearth) : (s.modHearth h g).tierCap = s.tierCap := rfl
@[simp] theorem State.modHearth_alone (s : State) (h : Nat) (g : Hearth → Hearth) : (s.modHearth h g).alone = s.alone := rfl
@[simp] theorem State.modHearth_linkPeer (s : State) (h : Nat) (g : Hearth → Hearth) : (s.modHearth h g).linkPeer = s.linkPeer := rfl
@[simp] theorem State.modHearth_badSpare (s : State) (h : Nat) (g : Hearth → Hearth) : (s.modHearth h g).badSpare = s.badSpare := rfl
@[simp] theorem State.modHearth_stale (s : State) (h : Nat) (g : Hearth → Hearth) : (s.modHearth h g).stale = s.stale := rfl
@[simp] theorem State.modHearth_debt (s : State) (h : Nat) (g : Hearth → Hearth) : (s.modHearth h g).debt = s.debt := rfl
@[simp] theorem State.modHearth_head (s : State) (h : Nat) (g : Hearth → Hearth) : (s.modHearth h g).head = s.head := rfl
@[simp] theorem State.modHearth_acnt (s : State) (h : Nat) (g : Hearth → Hearth) : (s.modHearth h g).acnt = s.acnt := rfl
@[simp] theorem State.modHearth_heatQ (s : State) (h : Nat) (g : Hearth → Hearth) : (s.modHearth h g).heatQ = s.heatQ := rfl
@[simp] theorem State.modHearth_linkFree (s : State) (h : Nat) (g : Hearth → Hearth) : (s.modHearth h g).linkFree = s.linkFree := rfl
@[simp] theorem State.modHearth_frameLost (s : State) (h : Nat) (g : Hearth → Hearth) : (s.modHearth h g).frameLost = s.frameLost := rfl
@[simp] theorem State.modHearth_linkOut (s : State) (h : Nat) (g : Hearth → Hearth) : (s.modHearth h g).linkOut = s.linkOut := rfl
@[simp] theorem State.modHearth_lasting (s : State) (h : Nat) (g : Hearth → Hearth) : (s.modHearth h g).lasting = s.lasting := rfl
@[simp] theorem State.modHearth_flash (s : State) (h : Nat) (g : Hearth → Hearth) : (s.modHearth h g).flash = s.flash := rfl
@[simp] theorem State.modHearth_flashLast (s : State) (h : Nat) (g : Hearth → Hearth) : (s.modHearth h g).flashLast = s.flashLast := rfl
@[simp] theorem State.modHearth_svnMin (s : State) (h : Nat) (g : Hearth → Hearth) : (s.modHearth h g).svnMin = s.svnMin := rfl
@[simp] theorem State.modHearth_svn (s : State) (h : Nat) (g : Hearth → Hearth) : (s.modHearth h g).svn = s.svn := rfl
@[simp] theorem State.modHearth_slotRun (s : State) (h : Nat) (g : Hearth → Hearth) : (s.modHearth h g).slotRun = s.slotRun := rfl
@[simp] theorem State.modHearth_i3cOff (s : State) (h : Nat) (g : Hearth → Hearth) : (s.modHearth h g).i3cOff = s.i3cOff := rfl
@[simp] theorem State.modHearth_i3cAddr (s : State) (h : Nat) (g : Hearth → Hearth) : (s.modHearth h g).i3cAddr = s.i3cAddr := rfl
@[simp] theorem State.modHearth_i3cOut (s : State) (h : Nat) (g : Hearth → Hearth) : (s.modHearth h g).i3cOut = s.i3cOut := rfl
@[simp] theorem State.modHearth_ibis (s : State) (h : Nat) (g : Hearth → Hearth) : (s.modHearth h g).ibis = s.ibis := rfl
@[simp] theorem State.modHearth_powered (s : State) (h : Nat) (g : Hearth → Hearth) : (s.modHearth h g).powered = s.powered := rfl
@[simp] theorem State.modHearth_lost (s : State) (h : Nat) (g : Hearth → Hearth) : (s.modHearth h g).lost = s.lost := rfl

/-! ## State.setReg -/

@[simp] theorem State.setReg_agenda (s : State) (a : Nat) (v : Word) : (s.setReg a v).agenda = s.agenda := rfl
@[simp] theorem State.setReg_cur (s : State) (a : Nat) (v : Word) : (s.setReg a v).cur = s.cur := rfl
@[simp] theorem State.setReg_fresh (s : State) (a : Nat) (v : Word) : (s.setReg a v).fresh = s.fresh := rfl
@[simp] theorem State.setReg_issuing (s : State) (a : Nat) (v : Word) : (s.setReg a v).issuing = s.issuing := rfl
@[simp] theorem State.setReg_cores (s : State) (a : Nat) (v : Word) : (s.setReg a v).cores = s.cores := rfl
@[simp] theorem State.setReg_fcode (s : State) (a : Nat) (v : Word) : (s.setReg a v).fcode = s.fcode := rfl
@[simp] theorem State.setReg_hearths (s : State) (a : Nat) (v : Word) : (s.setReg a v).hearths = s.hearths := rfl
@[simp] theorem State.setReg_mem (s : State) (a : Nat) (v : Word) : (s.setReg a v).mem = s.mem := rfl
@[simp] theorem State.setReg_hostMem (s : State) (a : Nat) (v : Word) : (s.setReg a v).hostMem = s.hostMem := rfl
@[simp] theorem State.setReg_hostBad (s : State) (a : Nat) (v : Word) : (s.setReg a v).hostBad = s.hostBad := rfl
@[simp] theorem State.setReg_poison (s : State) (a : Nat) (v : Word) : (s.setReg a v).poison = s.poison := rfl
@[simp] theorem State.setReg_flips (s : State) (a : Nat) (v : Word) : (s.setReg a v).flips = s.flips := rfl
@[simp] theorem State.setReg_tags (s : State) (a : Nat) (v : Word) : (s.setReg a v).tags = s.tags := rfl
@[simp] theorem State.setReg_banks (s : State) (a : Nat) (v : Word) : (s.setReg a v).banks = s.banks := rfl
@[simp] theorem State.setReg_tlb (s : State) (a : Nat) (v : Word) : (s.setReg a v).tlb = s.tlb := rfl
@[simp] theorem State.setReg_missQ (s : State) (a : Nat) (v : Word) : (s.setReg a v).missQ = s.missQ := rfl
@[simp] theorem State.setReg_locks (s : State) (a : Nat) (v : Word) : (s.setReg a v).locks = s.locks := rfl
@[simp] theorem State.setReg_grids (s : State) (a : Nat) (v : Word) : (s.setReg a v).grids = s.grids := rfl
@[simp] theorem State.setReg_claims (s : State) (a : Nat) (v : Word) : (s.setReg a v).claims = s.claims := rfl
@[simp] theorem State.setReg_flights (s : State) (a : Nat) (v : Word) : (s.setReg a v).flights = s.flights := rfl
@[simp] theorem State.setReg_serveFrom (s : State) (a : Nat) (v : Word) : (s.setReg a v).serveFrom = s.serveFrom := rfl
@[simp] theorem State.setReg_exposes (s : State) (a : Nat) (v : Word) : (s.setReg a v).exposes = s.exposes := rfl
@[simp] theorem State.setReg_susps (s : State) (a : Nat) (v : Word) : (s.setReg a v).susps = s.susps := rfl
@[simp] theorem State.setReg_saved (s : State) (a : Nat) (v : Word) : (s.setReg a v).saved = s.saved := rfl
@[simp] theorem State.setReg_invQ (s : State) (a : Nat) (v : Word) : (s.setReg a v).invQ = s.invQ := rfl
@[simp] theorem State.setReg_migQ (s : State) (a : Nat) (v : Word) : (s.setReg a v).migQ = s.migQ := rfl
@[simp] theorem State.setReg_keys (s : State) (a : Nat) (v : Word) : (s.setReg a v).keys = s.keys := rfl
@[simp] theorem State.setReg_keyQ (s : State) (a : Nat) (v : Word) : (s.setReg a v).keyQ = s.keyQ := rfl
@[simp] theorem State.setReg_keyed (s : State) (a : Nat) (v : Word) : (s.setReg a v).keyed = s.keyed := rfl
@[simp] theorem State.setReg_frOff (s : State) (a : Nat) (v : Word) : (s.setReg a v).frOff = s.frOff := rfl
@[simp] theorem State.setReg_decoded (s : State) (a : Nat) (v : Word) : (s.setReg a v).decoded = s.decoded := rfl
@[simp] theorem State.setReg_counters (s : State) (a : Nat) (v : Word) : (s.setReg a v).counters = s.counters := rfl
@[simp] theorem State.setReg_launchSeq (s : State) (a : Nat) (v : Word) : (s.setReg a v).launchSeq = s.launchSeq := rfl
@[simp] theorem State.setReg_gridSeq (s : State) (a : Nat) (v : Word) : (s.setReg a v).gridSeq = s.gridSeq := rfl
@[simp] theorem State.setReg_devSeq (s : State) (a : Nat) (v : Word) : (s.setReg a v).devSeq = s.devSeq := rfl
@[simp] theorem State.setReg_logs (s : State) (a : Nat) (v : Word) : (s.setReg a v).logs = s.logs := rfl
@[simp] theorem State.setReg_heldEvents (s : State) (a : Nat) (v : Word) : (s.setReg a v).heldEvents = s.heldEvents := rfl
@[simp] theorem State.setReg_msix (s : State) (a : Nat) (v : Word) : (s.setReg a v).msix = s.msix := rfl
@[simp] theorem State.setReg_retired (s : State) (a : Nat) (v : Word) : (s.setReg a v).retired = s.retired := rfl
@[simp] theorem State.setReg_history (s : State) (a : Nat) (v : Word) : (s.setReg a v).history = s.history := rfl
@[simp] theorem State.setReg_repaired (s : State) (a : Nat) (v : Word) : (s.setReg a v).repaired = s.repaired := rfl
@[simp] theorem State.setReg_retiring (s : State) (a : Nat) (v : Word) : (s.setReg a v).retiring = s.retiring := rfl
@[simp] theorem State.setReg_lastBanks (s : State) (a : Nat) (v : Word) : (s.setReg a v).lastBanks = s.lastBanks := rfl
@[simp] theorem State.setReg_alarms (s : State) (a : Nat) (v : Word) : (s.setReg a v).alarms = s.alarms := rfl
@[simp] theorem State.setReg_h2d (s : State) (a : Nat) (v : Word) : (s.setReg a v).h2d = s.h2d := rfl
@[simp] theorem State.setReg_mailBusy (s : State) (a : Nat) (v : Word) : (s.setReg a v).mailBusy = s.mailBusy := rfl
@[simp] theorem State.setReg_mailQ (s : State) (a : Nat) (v : Word) : (s.setReg a v).mailQ = s.mailQ := rfl
@[simp] theorem State.setReg_mailPend (s : State) (a : Nat) (v : Word) : (s.setReg a v).mailPend = s.mailPend := rfl
@[simp] theorem State.setReg_hostQ (s : State) (a : Nat) (v : Word) : (s.setReg a v).hostQ = s.hostQ := rfl
@[simp] theorem State.setReg_hostResp (s : State) (a : Nat) (v : Word) : (s.setReg a v).hostResp = s.hostResp := rfl
@[simp] theorem State.setReg_heatTerm (s : State) (a : Nat) (v : Word) : (s.setReg a v).heatTerm = s.heatTerm := rfl
@[simp] theorem State.setReg_coolMs (s : State) (a : Nat) (v : Word) : (s.setReg a v).coolMs = s.coolMs := rfl
@[simp] theorem State.setReg_powerTerm (s : State) (a : Nat) (v : Word) : (s.setReg a v).powerTerm = s.powerTerm := rfl
@[simp] theorem State.setReg_tierCap (s : State) (a : Nat) (v : Word) : (s.setReg a v).tierCap = s.tierCap := rfl
@[simp] theorem State.setReg_alone (s : State) (a : Nat) (v : Word) : (s.setReg a v).alone = s.alone := rfl
@[simp] theorem State.setReg_linkPeer (s : State) (a : Nat) (v : Word) : (s.setReg a v).linkPeer = s.linkPeer := rfl
@[simp] theorem State.setReg_badSpare (s : State) (a : Nat) (v : Word) : (s.setReg a v).badSpare = s.badSpare := rfl
@[simp] theorem State.setReg_stale (s : State) (a : Nat) (v : Word) : (s.setReg a v).stale = s.stale := rfl
@[simp] theorem State.setReg_debt (s : State) (a : Nat) (v : Word) : (s.setReg a v).debt = s.debt := rfl
@[simp] theorem State.setReg_head (s : State) (a : Nat) (v : Word) : (s.setReg a v).head = s.head := rfl
@[simp] theorem State.setReg_acnt (s : State) (a : Nat) (v : Word) : (s.setReg a v).acnt = s.acnt := rfl
@[simp] theorem State.setReg_heatQ (s : State) (a : Nat) (v : Word) : (s.setReg a v).heatQ = s.heatQ := rfl
@[simp] theorem State.setReg_linkFree (s : State) (a : Nat) (v : Word) : (s.setReg a v).linkFree = s.linkFree := rfl
@[simp] theorem State.setReg_frameLost (s : State) (a : Nat) (v : Word) : (s.setReg a v).frameLost = s.frameLost := rfl
@[simp] theorem State.setReg_linkOut (s : State) (a : Nat) (v : Word) : (s.setReg a v).linkOut = s.linkOut := rfl
@[simp] theorem State.setReg_lasting (s : State) (a : Nat) (v : Word) : (s.setReg a v).lasting = s.lasting := rfl
@[simp] theorem State.setReg_flash (s : State) (a : Nat) (v : Word) : (s.setReg a v).flash = s.flash := rfl
@[simp] theorem State.setReg_flashLast (s : State) (a : Nat) (v : Word) : (s.setReg a v).flashLast = s.flashLast := rfl
@[simp] theorem State.setReg_svnMin (s : State) (a : Nat) (v : Word) : (s.setReg a v).svnMin = s.svnMin := rfl
@[simp] theorem State.setReg_svn (s : State) (a : Nat) (v : Word) : (s.setReg a v).svn = s.svn := rfl
@[simp] theorem State.setReg_slotRun (s : State) (a : Nat) (v : Word) : (s.setReg a v).slotRun = s.slotRun := rfl
@[simp] theorem State.setReg_i3cOff (s : State) (a : Nat) (v : Word) : (s.setReg a v).i3cOff = s.i3cOff := rfl
@[simp] theorem State.setReg_i3cAddr (s : State) (a : Nat) (v : Word) : (s.setReg a v).i3cAddr = s.i3cAddr := rfl
@[simp] theorem State.setReg_i3cOut (s : State) (a : Nat) (v : Word) : (s.setReg a v).i3cOut = s.i3cOut := rfl
@[simp] theorem State.setReg_ibis (s : State) (a : Nat) (v : Word) : (s.setReg a v).ibis = s.ibis := rfl
@[simp] theorem State.setReg_powered (s : State) (a : Nat) (v : Word) : (s.setReg a v).powered = s.powered := rfl
@[simp] theorem State.setReg_lost (s : State) (a : Nat) (v : Word) : (s.setReg a v).lost = s.lost := rfl

/-! ## Reading a part back -/

/-- What a core's record reads as after it is written: for a canonical table of cores, or any record but the reset one. -/
theorem State.core_setCore (s : State) (c : Nat) (k : Core) (h : twf (fun _ => Core.reset) s.cores = true ∨ k ≠ Core.reset) :
    (s.setCore c k).core c = k := by
  rcases h with h | h
  · exact tget_tset c k h
  · exact tget_tset_of_ne _ _ c k h

/-- Every other core keeps its record. -/
theorem State.core_setCore_other (s : State) (c d : Nat) (k : Core) (hd : d ≠ c)
    (h : twf (fun _ => Core.reset) s.cores = true ∨ k ≠ Core.reset) : (s.setCore c k).core d = s.core d := by
  rcases h with h | h
  · exact tget_tset_other c d k hd h
  · exact tget_tset_other_of_ne _ _ c d k h hd

theorem State.core_modCore (s : State) (c : Nat) (g : Core → Core)
    (h : twf (fun _ => Core.reset) s.cores = true ∨ g (s.core c) ≠ Core.reset) : (s.modCore c g).core c = g (s.core c) :=
  State.core_setCore s c _ h

theorem State.core_modCore_other (s : State) (c d : Nat) (g : Core → Core) (hd : d ≠ c)
    (h : twf (fun _ => Core.reset) s.cores = true ∨ g (s.core c) ≠ Core.reset) : (s.modCore c g).core d = s.core d :=
  State.core_setCore_other s c d _ hd h

/-- Of two writes of one core's record the later stands. -/
theorem State.setCore_setCore (s : State) (c : Nat) (k l : Core) (h : twf (fun _ => Core.reset) s.cores = true) :
    (s.setCore c k).setCore c l = s.setCore c l := by
  unfold State.setCore
  simp only [tset_tset c k l h]

/-- Writing a core's record as it stands changes nothing. -/
theorem State.setCore_self (s : State) (c : Nat) (h : twf (fun _ => Core.reset) s.cores = true) : s.setCore c (s.core c) = s := by
  unfold State.setCore State.core
  rw [tset_self c h]

/-- Two changes of one core's record are one. -/
theorem State.modCore_modCore (s : State) (c : Nat) (g i : Core → Core) (h : twf (fun _ => Core.reset) s.cores = true) :
    (s.modCore c g).modCore c i = s.modCore c fun k => i (g k) := by
  unfold State.modCore
  rw [State.core_setCore s c _ (.inl h), State.setCore_setCore s c _ _ h]

/-- An MMIO register reads back what was written, where the table of registers is canonical. -/
theorem State.reg_setReg (s : State) (a : Nat) (v : Word) (h : twf mmioReset s.mmio = true) : (s.setReg a v).reg a = v :=
  tget_tset a v h

theorem State.reg_setReg_other (s : State) (a b : Nat) (v : Word) (hb : b ≠ a) (h : twf mmioReset s.mmio = true) :
    (s.setReg a v).reg b = s.reg b :=
  tget_tset_other a b v hb h

@[simp] theorem State.core_setReg (s : State) (a : Nat) (v : Word) (c : Nat) : (s.setReg a v).core c = s.core c := rfl
@[simp] theorem State.core_setHearth (s : State) (h : Nat) (x : Hearth) (c : Nat) : (s.setHearth h x).core c = s.core c := rfl
@[simp] theorem State.core_modHearth (s : State) (h : Nat) (g : Hearth → Hearth) (c : Nat) : (s.modHearth h g).core c = s.core c := rfl
@[simp] theorem State.hearth_setCore (s : State) (c : Nat) (k : Core) (h : Nat) : (s.setCore c k).hearth h = s.hearth h := rfl
@[simp] theorem State.hearth_modCore (s : State) (c : Nat) (g : Core → Core) (h : Nat) : (s.modCore c g).hearth h = s.hearth h := rfl
@[simp] theorem State.reg_setCore (s : State) (c : Nat) (k : Core) (a : Nat) : (s.setCore c k).reg a = s.reg a := rfl
@[simp] theorem State.reg_modCore (s : State) (c : Nat) (g : Core → Core) (a : Nat) : (s.modCore c g).reg a = s.reg a := rfl
@[simp] theorem State.reg_modHearth (s : State) (h : Nat) (g : Hearth → Hearth) (a : Nat) : (s.modHearth h g).reg a = s.reg a := rfl

/-! ## The two scalar contexts of a core -/

@[simp] theorem Core.ctx_setCtx (k : Core) (f : Bool) (x : SCtx) : (k.setCtx f x).ctx f = x := by cases f <;> rfl
theorem Core.ctx_setCtx_other (k : Core) (f g : Bool) (x : SCtx) (h : g ≠ f) : (k.setCtx f x).ctx g = k.ctx g := by
  cases f <;> cases g <;> first | rfl | exact absurd rfl h
@[simp] theorem Core.setCtx_ctx (k : Core) (f : Bool) : k.setCtx f (k.ctx f) = k := by cases f <;> rfl
@[simp] theorem Core.setCtx_setCtx (k : Core) (f : Bool) (x y : SCtx) : (k.setCtx f x).setCtx f y = k.setCtx f y := by cases f <;> rfl
@[simp] theorem Core.setCtx_run (k : Core) (f : Bool) (x : SCtx) : (k.setCtx f x).run = k.run := by cases f <;> rfl
@[simp] theorem Core.setCtx_vs (k : Core) (f : Bool) (x : SCtx) : (k.setCtx f x).vs = k.vs := by cases f <;> rfl
@[simp] theorem Core.setCtx_shp (k : Core) (f : Bool) (x : SCtx) : (k.setCtx f x).shp = k.shp := by cases f <;> rfl
@[simp] theorem Core.setCtx_shd (k : Core) (f : Bool) (x : SCtx) : (k.setCtx f x).shd = k.shd := by cases f <;> rfl
@[simp] theorem Core.setCtx_tkPending (k : Core) (f : Bool) (x : SCtx) : (k.setCtx f x).tkPending = k.tkPending := by cases f <;> rfl
@[simp] theorem Core.setCtx_bars (k : Core) (f : Bool) (x : SCtx) : (k.setCtx f x).bars = k.bars := by cases f <;> rfl
@[simp] theorem Core.setCtx_arecs (k : Core) (f : Bool) (x : SCtx) : (k.setCtx f x).arecs = k.arecs := by cases f <;> rfl
@[simp] theorem Core.setCtx_barQ (k : Core) (f : Bool) (x : SCtx) : (k.setCtx f x).barQ = k.barQ := by cases f <;> rfl
@[simp] theorem Core.setCtx_bawait (k : Core) (f : Bool) (x : SCtx) : (k.setCtx f x).bawait = k.bawait := by cases f <;> rfl
@[simp] theorem Core.setCtx_rings (k : Core) (f : Bool) (x : SCtx) : (k.setCtx f x).rings = k.rings := by cases f <;> rfl
@[simp] theorem Core.setCtx_ringHome (k : Core) (f : Bool) (x : SCtx) : (k.setCtx f x).ringHome = k.ringHome := by cases f <;> rfl
@[simp] theorem Core.setCtx_wp (k : Core) (f : Bool) (x : SCtx) : (k.setCtx f x).wp = k.wp := by cases f <;> rfl
@[simp] theorem Core.setCtx_lcount (k : Core) (f : Bool) (x : SCtx) : (k.setCtx f x).lcount = k.lcount := by cases f <;> rfl
@[simp] theorem Core.setCtx_lstat (k : Core) (f : Bool) (x : SCtx) : (k.setCtx f x).lstat = k.lstat := by cases f <;> rfl
@[simp] theorem Core.setCtx_thbase (k : Core) (f : Bool) (x : SCtx) : (k.setCtx f x).thbase = k.thbase := by cases f <;> rfl
@[simp] theorem Core.setCtx_probecfg (k : Core) (f : Bool) (x : SCtx) : (k.setCtx f x).probecfg = k.probecfg := by cases f <;> rfl
@[simp] theorem Core.setCtx_tags (k : Core) (f : Bool) (x : SCtx) : (k.setCtx f x).tags = k.tags := by cases f <;> rfl
@[simp] theorem Core.setCtx_tcycle (k : Core) (f : Bool) (x : SCtx) : (k.setCtx f x).tcycle = k.tcycle := by cases f <;> rfl
@[simp] theorem Core.setCtx_segstall (k : Core) (f : Bool) (x : SCtx) : (k.setCtx f x).segstall = k.segstall := by cases f <;> rfl
@[simp] theorem Core.setCtx_ident (k : Core) (f : Bool) (x : SCtx) : (k.setCtx f x).ident = k.ident := by cases f <;> rfl
@[simp] theorem Core.setCtx_imem (k : Core) (f : Bool) (x : SCtx) : (k.setCtx f x).imem = k.imem := by cases f <;> rfl
@[simp] theorem Core.setCtx_cyc (k : Core) (f : Bool) (x : SCtx) : (k.setCtx f x).cyc = k.cyc := by cases f <;> rfl
@[simp] theorem Core.setCtx_exited (k : Core) (f : Bool) (x : SCtx) : (k.setCtx f x).exited = k.exited := by cases f <;> rfl
@[simp] theorem Core.setCtx_cpQ (k : Core) (f : Bool) (x : SCtx) : (k.setCtx f x).cpQ = k.cpQ := by cases f <;> rfl
@[simp] theorem Core.setCtx_toksts (k : Core) (f : Bool) (x : SCtx) : (k.setCtx f x).toksts = k.toksts := by cases f <;> rfl
@[simp] theorem Core.setCtx_ctrw (k : Core) (f : Bool) (x : SCtx) : (k.setCtx f x).ctrw = k.ctrw := by cases f <;> rfl
@[simp] theorem Core.setCtx_reports (k : Core) (f : Bool) (x : SCtx) : (k.setCtx f x).reports = k.reports := by cases f <;> rfl
@[simp] theorem Core.setCtx_resume (k : Core) (f : Bool) (x : SCtx) : (k.setCtx f x).resume = k.resume := by cases f <;> rfl
@[simp] theorem Core.setCtx_resident (k : Core) (f : Bool) (x : SCtx) : (k.setCtx f x).resident = k.resident := by cases f <;> rfl
@[simp] theorem Core.setCtx_handlerDeferred (k : Core) (f : Bool) (x : SCtx) : (k.setCtx f x).handlerDeferred = k.handlerDeferred := by cases f <;> rfl
@[simp] theorem Core.setCtx_why (k : Core) (f : Bool) (x : SCtx) : (k.setCtx f x).why = k.why := by cases f <;> rfl
@[simp] theorem Core.setCtx_hold (k : Core) (f : Bool) (x : SCtx) : (k.setCtx f x).hold = k.hold := by cases f <;> rfl
@[simp] theorem Core.setCtx_missWait (k : Core) (f : Bool) (x : SCtx) : (k.setCtx f x).missWait = k.missWait := by cases f <;> rfl
@[simp] theorem Core.setCtx_finished (k : Core) (f : Bool) (x : SCtx) : (k.setCtx f x).finished = k.finished := by cases f <;> rfl
@[simp] theorem Core.setCtx_pcode (k : Core) (f : Bool) (x : SCtx) : (k.setCtx f x).pcode = k.pcode := by cases f <;> rfl
@[simp] theorem Core.setCtx_filled (k : Core) (f : Bool) (x : SCtx) : (k.setCtx f x).filled = k.filled := by cases f <;> rfl
@[simp] theorem Core.setCtx_xlat (k : Core) (f : Bool) (x : SCtx) : (k.setCtx f x).xlat = k.xlat := by cases f <;> rfl
@[simp] theorem Core.setCtx_fTurn (k : Core) (f : Bool) (x : SCtx) : (k.setCtx f x).fTurn = k.fTurn := by cases f <;> rfl
@[simp] theorem Core.setCtx_fNow (k : Core) (f : Bool) (x : SCtx) : (k.setCtx f x).fNow = k.fNow := by cases f <;> rfl
@[simp] theorem Core.setCtx_fWin (k : Core) (f : Bool) (x : SCtx) : (k.setCtx f x).fWin = k.fWin := by cases f <;> rfl
@[simp] theorem Core.setCtx_fUsed (k : Core) (f : Bool) (x : SCtx) : (k.setCtx f x).fUsed = k.fUsed := by cases f <;> rfl
@[simp] theorem Core.setCtx_inF (k : Core) (f : Bool) (x : SCtx) : (k.setCtx f x).inF = k.inF := by cases f <;> rfl
@[simp] theorem SCtx.setS_saq (x : SCtx) (d : Nat) (v : Word) : (x.setS d v).saq = x.saq := by unfold SCtx.setS; split <;> rfl
@[simp] theorem SCtx.setS_sapc (x : SCtx) (d : Nat) (v : Word) : (x.setS d v).sapc = x.sapc := by unfold SCtx.setS; split <;> rfl
@[simp] theorem SCtx.setS_g (x : SCtx) (d : Nat) (v : Word) : (x.setS d v).g = x.g := by unfold SCtx.setS; split <;> rfl
@[simp] theorem SCtx.setS_vflags (x : SCtx) (d : Nat) (v : Word) : (x.setS d v).vflags = x.vflags := by unfold SCtx.setS; split <;> rfl
@[simp] theorem SCtx.setS_pc (x : SCtx) (d : Nat) (v : Word) : (x.setS d v).pc = x.pc := by unfold SCtx.setS; split <;> rfl
@[simp] theorem SCtx.setS_jump (x : SCtx) (d : Nat) (v : Word) : (x.setS d v).jump = x.jump := by unfold SCtx.setS; split <;> rfl
@[simp] theorem SCtx.setS_last (x : SCtx) (d : Nat) (v : Word) : (x.setS d v).last = x.last := by unfold SCtx.setS; split <;> rfl
@[simp] theorem SCtx.setS_lastIssue (x : SCtx) (d : Nat) (v : Word) : (x.setS d v).lastIssue = x.lastIssue := by unfold SCtx.setS; split <;> rfl
@[simp] theorem SCtx.setS_drn (x : SCtx) (d : Nat) (v : Word) : (x.setS d v).drn = x.drn := by unfold SCtx.setS; split <;> rfl
@[simp] theorem SCtx.setS_pend (x : SCtx) (d : Nat) (v : Word) : (x.setS d v).pend = x.pend := by unfold SCtx.setS; split <;> rfl
@[simp] theorem SCtx.setS_loadQ (x : SCtx) (d : Nat) (v : Word) : (x.setS d v).loadQ = x.loadQ := by unfold SCtx.setS; split <;> rfl
@[simp] theorem SCtx.setS_storeQ (x : SCtx) (d : Nat) (v : Word) : (x.setS d v).storeQ = x.storeQ := by unfold SCtx.setS; split <;> rfl
@[simp] theorem SCtx.setS_lineQ (x : SCtx) (d : Nat) (v : Word) : (x.setS d v).lineQ = x.lineQ := by unfold SCtx.setS; split <;> rfl
@[simp] theorem SCtx.setS_arrivals (x : SCtx) (d : Nat) (v : Word) : (x.setS d v).arrivals = x.arrivals := by unfold SCtx.setS; split <;> rfl
@[simp] theorem SCtx.setS_olds (x : SCtx) (d : Nat) (v : Word) : (x.setS d v).olds = x.olds := by unfold SCtx.setS; split <;> rfl
@[simp] theorem SCtx.setS_seq (x : SCtx) (d : Nat) (v : Word) : (x.setS d v).seq = x.seq := by unfold SCtx.setS; split <;> rfl
@[simp] theorem SCtx.setS_zero (x : SCtx) (v : Word) : x.setS 0 v = x := rfl

end Sys2Proof.Machine
end

