-- ==== Sys2Proof/Laws/Home.lean ====
section
/-! SUPPORT. What a read and a write at a home leave alone: every core. A read's traces are activates, repairs, error records and the events
they post. -/

namespace Sys2Proof.Machine
open Sys2Proof

/-- A fold of steps that each leave the cores leaves them. -/
theorem foldl_cores {α : Type} (l : List α) (g : State → α → State) (hg : ∀ s a, (g s a).cores = s.cores) (s : State) :
    (l.foldl g s).cores = s.cores := by
  induction l generalizing s with
  | nil => rfl
  | cons a r ih => exact (ih _).trans (hg s a)

@[simp] theorem setPoison_cores (s : State) (a : Nat) : (setPoison s a).cores = s.cores := rfl
@[simp] theorem clearPoison_cores (s : State) (a : Nat) : (clearPoison s a).cores = s.cores := rfl
@[simp] theorem setFlips_cores (s : State) (a : Nat) (v : BitVec 256) : (setFlips s a v).cores = s.cores := rfl
@[simp] theorem poisonLine_cores (s : State) (a : Nat) : (poisonLine s a).cores = s.cores := rfl
@[simp] theorem postWords_cores (s : State) (w0 w1 : Word) : (postWords s w0 w1).cores = s.cores := rfl
@[simp] theorem postEvent_cores (s : State) (ty c g : Nat) (a : Word) : (postEvent s ty c g a).cores = s.cores := postWords_cores ..
@[simp] theorem logError_cores (s : State) (i cls sub loc : Nat) : (logError s i cls sub loc).cores = s.cores := by
  unfold logError; simp only []; split
  · rw [postEvent_cores]; rfl
  · rfl
@[simp] theorem portErr_cores (s : State) (p : Nat) : (portErr s p).cores = s.cores := by unfold portErr; simp only []; split <;> rfl
@[simp] theorem portPoison_cores (s : State) (p a : Nat) : (portPoison s p a).cores = s.cores := by
  unfold portPoison; split
  · split
    · exact portErr_cores ..
    · rfl
  · rfl
@[simp] theorem repairRow_cores (s : State) (a : Nat) : (repairRow s a).cores = s.cores := by
  unfold repairRow
  generalize List.range 32 = l
  refine foldl_cores l _ (fun t i => ?_) s
  show (ite _ _ _ : State).cores = _
  rw [apply_ite State.cores, setFlips_cores]
  exact ite_self _
@[simp] theorem bringIn_cores (s : State) (h : Home) (a sub : Nat) : (bringIn s h a sub).cores = s.cores := by
  cases h <;> simp only [bringIn] <;> split <;> (try split) <;> (try split) <;> simp <;> (split <;> simp)
@[simp] theorem readSector_cores (s : State) (h : Home) (a sub : Nat) : (readSector s h a sub).1.cores = s.cores := by
  unfold readSector
  split
  · split
    · exact portErr_cores ..
    · simp only []; split <;> simp
  · exact bringIn_cores ..
@[simp] theorem reachRow_cores (s : State) (h : Home) (a : Nat) : (reachRow s h a).cores = s.cores := by unfold reachRow; split <;> rfl
@[simp] theorem countHeat_cores (s : State) (h : Home) (a : Nat) : (countHeat s h a).cores = s.cores := by
  unfold countHeat; split <;> first | rfl | (split <;> rfl)
@[simp] theorem checkTag_cores (s : State) (h : Home) (x : Phys) (sub : Nat) : (checkTag s h x sub).cores = s.cores := by
  unfold checkTag; split <;> simp
@[simp] theorem markKeyed_cores (s : State) (x : Phys) (w : Bool) : (markKeyed s x w).cores = s.cores := by unfold markKeyed; split <;> rfl
@[simp] theorem raiseLat_cores (s : State) (a : Nat) : (raiseLat s a).cores = s.cores := by unfold raiseLat; split <;> rfl
theorem fillSector_cores (p : State × Bool) (a : Nat) : (fillSector p a).1.cores = p.1.cores := by unfold fillSector; split <;> simp
theorem fillSectors_cores (l : List Nat) (p : State × Bool) : (l.foldl fillSector p).1.cores = p.1.cores := by
  induction l generalizing p with
  | nil => rfl
  | cons a r ih => exact (ih _).trans (fillSector_cores p a)
@[simp] theorem fillDecoded_cores (s : State) (r a : Nat) : (fillDecoded s r a).cores = s.cores := by
  unfold fillDecoded
  split
  · rfl
  · simp only []; split <;> exact fillSectors_cores ..
@[simp] theorem putDecoded_cores (s : State) (a v : Nat) (d : Bool) : (putDecoded s a v d).cores = s.cores := rfl
@[simp] theorem abandonDecoded_cores (s : State) (r a : Nat) : (abandonDecoded s r a).cores = s.cores := by
  unfold abandonDecoded; rw [logError_cores, poisonLine_cores, fillDecoded_cores, fillDecoded_cores]
@[simp] theorem homeLoad_cores (s : State) (h : Home) (x : Phys) (n : Nat) : (homeLoad s h x n).s.cores = s.cores := by
  unfold homeLoad
  split
  · exact foldl_cores _ _ raiseLat_cores s
  · rfl
  · exact fillDecoded_cores ..
  · split
    · exact portErr_cores ..
    · simp [homeLoad.plainLoad]
  · simp [homeLoad.plainLoad]
/-- A read at a translated address leaves every core, whatever it brings in, corrects or logs. -/
@[simp] theorem loadAt_cores (s : State) (x : Phys) (n : Nat) : (loadAt s x n).s.cores = s.cores := by unfold loadAt; split <;> simp
@[simp] theorem loadQuiet_cores (s : State) (x : Phys) (n : Nat) : (loadQuiet s x n).s.cores = s.cores := by unfold loadQuiet; split <;> simp
@[simp] theorem touch_cores (s : State) (a n : Nat) : (touch s a n).cores = s.cores := loadQuiet_cores ..
@[simp] theorem walkReads_cores (s : State) (ctx va : Nat) : (walkReads s ctx va).cores = s.cores := foldl_cores _ _ (fun t a => touch_cores t a 8) s
@[simp] theorem walkLeft_cores (s : State) (ctx va : Nat) : (walkLeft s ctx va).cores = s.cores := by unfold walkLeft; split <;> simp
@[simp] theorem touchVirt_cores (ctx fuel va n : Nat) (s : State) : (touchVirt ctx fuel va n s).cores = s.cores := by
  induction fuel generalizing va n s with
  | zero => rfl
  | succ fuel ih =>
    unfold touchVirt
    split
    · rfl
    · simp only []
      split
      · exact walkLeft_cores ..
      · exact (ih ..).trans ((foldl_cores _ _ (fun _ _ => loadQuiet_cores ..) _).trans (walkLeft_cores ..))
@[simp] theorem touchBytes_cores (s : State) (ctx va n : Nat) : (touchBytes s ctx va n).cores = s.cores := touchVirt_cores ..
@[simp] theorem touchAll_cores (s : State) (ctx : Nat) (l : List (Nat × Nat)) : (touchAll s ctx l).cores = s.cores :=
  foldl_cores _ _ (fun _ _ => touchBytes_cores ..) s
/-- A write at its home leaves every core: one to a register has its effect as an event of its own. -/
@[simp] theorem homeStore_cores (s : State) (h : Home) (x : Phys) (n v : Nat) : (homeStore s h x n v).1.cores = s.cores := by
  have clear : ∀ (full : Bool) (t : State), (homeStore.clearPoisonIf x full t).cores = t.cores := by
    intro full t; unfold homeStore.clearPoisonIf; split <;> rfl
  cases h <;> simp only [homeStore]
  all_goals (repeat' split) <;> simp [clear]

/-- A write at a translated address leaves every core. -/
@[simp] theorem storeQuiet_cores (s : State) (x : Phys) (n v : Nat) : (storeQuiet s x n v).1.cores = s.cores := by unfold storeQuiet; split <;> simp
@[simp] theorem storeAt_cores (s : State) (x : Phys) (n v : Nat) : (storeAt s x n v).1.cores = s.cores := by unfold storeAt; split <;> simp

/-- A read of a plain sector of HBM4E: its bytes, and no trace but the activate it may make. -/
theorem loadQuiet_dram {s : State} {a n : Nat} (h : Dram s a n) :
    loadQuiet s (.plain a) n = ⟨reachRow s .hbm a, memGetN s.mem a n, false, false⟩ := by
  obtain ⟨h1, h2, h3, h4, -⟩ := h
  have e : bringIn (reachRow s .hbm a) .hbm a 0 = reachRow s .hbm a := by
    have f : flipsAt (reachRow s .hbm a) a = 0 := h3
    have r : rowStale (reachRow s .hbm a) (hbmLoc (reachRow s .hbm a) a) = false := h2
    simp [bringIn, f, r]
  have p : isPoison (reachRow s .hbm a) a = false := h4
  have q : (Phys.plain a).pa = a := rfl
  have t : checkTag (reachRow s .hbm a) .hbm (.plain a) 0 = reachRow s .hbm a := rfl
  have k : markKeyed (reachRow s .hbm a) (.plain a) false = reachRow s .hbm a := rfl
  simp only [loadQuiet, q, h1, homeLoad, homeLoad.plainLoad, readSector, e, k, t, p]
  rfl
theorem touch_dram {s : State} {a n : Nat} (h : Dram s a n) : touch s a n = reachRow s .hbm a := by rw [touch, loadQuiet_dram h]
/-- A walk whose entries stand in plain sectors leaves no trace but activates. -/
theorem walkReads_clean {s : State} {ctx va : Nat} (h : WalkClean s ctx va) :
    ∃ n l, walkReads s ctx va = { s with fresh := n, acnt := l } := by
  have : ∀ (p : List Nat) (t : State), (∀ a, a ∈ p → Dram s a 8) → (∃ n l, t = { s with fresh := n, acnt := l }) →
      ∃ n l, p.foldl (fun s a => touch s a 8) t = { s with fresh := n, acnt := l } := by
    intro p
    induction p with
    | nil => intro t _ ht; exact ht
    | cons a r ih =>
      intro t hp ht
      obtain ⟨n, l, rfl⟩ := ht
      refine ih _ (fun b hb => hp b (List.mem_cons_of_mem _ hb)) ?_
      have d : Dram { s with fresh := n, acnt := l } a 8 := hp a List.mem_cons_self
      exact ⟨_, _, touch_dram d⟩
  exact this _ s h ⟨s.fresh, s.acnt, rfl⟩
/-- What a miss of a core's cache changes, where its walk meets plain sectors: caches, activates, and the counter of free values. -/
theorem fillX_clean {s : State} {c va : Nat} (h : WalkClean s (s.core c).ident.ctx va) :
    fillX s c va = { s with cores := (fillX s c va).cores, tlb := (fillX s c va).tlb, acnt := (fillX s c va).acnt, fresh := (fillX s c va).fresh } := by
  obtain ⟨n, l, e⟩ := walkReads_clean h
  unfold fillX
  split
  · rfl
  · simp only []
    have b : ∃ n l, walkLeft s (s.core c).ident.ctx va = { s with fresh := n, acnt := l } := by
      unfold walkLeft
      split
      · exact ⟨n, l, e⟩
      · exact ⟨s.fresh, s.acnt, rfl⟩
    obtain ⟨n, l, b⟩ := b
    rw [b]
    split <;> rfl
theorem core_of_cores {s t : State} (h : t.cores = s.cores) (c : Nat) : t.core c = s.core c := by unfold State.core; rw [h]

end Sys2Proof.Machine
end

