-- ==== Sys2Proof/Laws/Kept.lean ====
section
/-! SUPPORT. The canonical form of a state and the operations that keep it: each shared write, and any change of fields the form does not
speak of. -/

namespace Sys2Proof.Machine
open Sys2Proof

/-- A change of other fields keeps the form. -/
theorem kept_of_eq {s t : State} (h : s.Kept) (h1 : t.mem = s.mem) (h2 : t.hostMem = s.hostMem) (h3 : t.cores = s.cores)
    (h4 : t.hearths = s.hearths) (h5 : t.mmio = s.mmio) : t.Kept := by
  unfold State.Kept at *; rw [h1, h2, h3, h4, h5]; exact h
theorem kept_setCore {s : State} (h : s.Kept) (c : Nat) (k : Core) : (s.setCore c k).Kept :=
  ⟨h.1, h.2.1, twf_tset c k h.2.2.1, h.2.2.2.1, h.2.2.2.2⟩
theorem kept_modCore {s : State} (h : s.Kept) (c : Nat) (g : Core → Core) : (s.modCore c g).Kept := kept_setCore h c _
theorem kept_setHearth {s : State} (h : s.Kept) (n : Nat) (x : Hearth) : (s.setHearth n x).Kept :=
  ⟨h.1, h.2.1, h.2.2.1, twf_tset n x h.2.2.2.1, h.2.2.2.2⟩
theorem kept_modHearth {s : State} (h : s.Kept) (n : Nat) (g : Hearth → Hearth) : (s.modHearth n g).Kept := kept_setHearth h n _
theorem kept_setReg {s : State} (h : s.Kept) (a : Nat) (v : Word) : (s.setReg a v).Kept :=
  ⟨h.1, h.2.1, h.2.2.1, h.2.2.2.1, twf_tset a v h.2.2.2.2⟩
/-- Bytes written, one by one or as a number, and cells dropped. -/
theorem kept_memSetN {s : State} (h : s.Kept) (a n w : Nat) : ({ s with mem := memSetN s.mem a n w } : State).Kept :=
  ⟨Memory.wf_memSetN a n w h.1, h.2⟩
theorem kept_memSetBytes {s : State} (h : s.Kept) (a : Nat) (l : List Byte) : ({ s with mem := memSetBytes s.mem a l } : State).Kept :=
  ⟨Memory.wf_memSetBytes a l h.1, h.2⟩
theorem kept_memFilter {s : State} (h : s.Kept) (f : Host.Cell → Bool) : ({ s with mem := s.mem.filter f } : State).Kept :=
  ⟨Memory.wf_filter f h.1, h.2⟩
theorem kept_hostSetN {s : State} (h : s.Kept) (a n w : Nat) : ({ s with hostMem := memSetN s.hostMem a n w } : State).Kept :=
  ⟨h.1, Memory.wf_memSetN a n w h.2.1, h.2.2⟩
/-- A fold of operations that each keep the form keeps it. -/
theorem kept_foldl {α : Type} {s : State} (l : List α) (g : State → α → State) (hg : ∀ s a, s.Kept → (g s a).Kept) (h : s.Kept) : (l.foldl g s).Kept := by
  induction l generalizing s with
  | nil => exact h
  | cons a r ih => exact ih (hg s a h)

end Sys2Proof.Machine
end

