-- ==== Sys2Proof/Laws/Slot.lean ====
section
/-! SUPPORT. What running a slot instruction that may act answers, once for every instruction: its effect on the state in which its unit
is taken. -/

namespace Sys2Proof.Machine
open Sys2Proof

/-- An instruction that is ready runs its effect; alone it also advances the counter of free values. -/
theorem runSlot_ready {i : Instr} {eff : State → State} {s : State} (h : Ready i s) :
    ∃ n, runSlot i eff s = .next { eff (occupy s s.cur i) with fresh := n } := by
  obtain ⟨hp, hg⟩ := h
  unfold State.inF State.me at hg
  rcases hp with hp | ⟨hn, hw, hs, ht⟩
  · obtain ⟨x, hx⟩ := Option.isSome_iff_exists.1 hp
    exact ⟨(eff (occupy s s.cur i)).fresh, by simp [runSlot, hx, actSlot, hg]⟩
  · unfold State.inF State.me at hs ht
    have hw : i.wellFormedB (encCtx s s.cur) = true := hw
    exact ⟨(eff (occupy s s.cur i)).fresh + 1, by simp [runSlot, hn, actSlot, hg, hw, hs, ht]⟩

/-- An instruction that passes and whose guard is false leaves what a false guard leaves. -/
theorem runSlot_idle {i : Instr} {eff : State → State} {s : State} (h : Idle i s) :
    ∃ n, runSlot i eff s = .next { guardFalse (occupy s s.cur i) s.cur s.inF i with fresh := n } := by
  obtain ⟨hp, hg⟩ := h
  unfold State.inF State.me at hg ⊢
  rcases hp with hp | ⟨hn, hw, hs, ht⟩
  · obtain ⟨x, hx⟩ := Option.isSome_iff_exists.1 hp
    exact ⟨(guardFalse (occupy s s.cur i) s.cur (s.core s.cur).inF i).fresh, by simp [runSlot, hx, actSlot, hg]⟩
  · unfold State.inF State.me at hs ht
    have hw : i.wellFormedB (encCtx s s.cur) = true := hw
    exact ⟨(guardFalse (occupy s s.cur i) s.cur (s.core s.cur).inF i).fresh + 1, by simp [runSlot, hn, actSlot, hg, hw, hs, ht]⟩

/-- A next state that is a write of the running core is that core's change and nothing else. -/
theorem becomes_of_next {i : Instr} {s : State} {k : Core} {n : Nat} (hk : s.Kept)
    (h : exec i s = .next { s.setCore s.cur k with fresh := n }) : Becomes i s k :=
  ⟨_, h, State.core_setCore s s.cur k (.inl hk.2.2.1), fun d hd => State.core_setCore_other s s.cur d k hd (.inl hk.2.2.1), fun _ => rfl, rfl⟩

/-- A ready instruction whose effect writes the running core changes that core and nothing else. -/
theorem becomes_of_ready {i : Instr} {eff : State → State} {s : State} {k : Core} (hk : s.Kept) (hr : Ready i s)
    (he : exec i s = runSlot i eff s) (hc : eff (occupy s s.cur i) = s.setCore s.cur k) : Becomes i s k := by
  obtain ⟨n, hn⟩ := runSlot_ready (eff := eff) hr
  rw [hc] at hn
  exact becomes_of_next hk (he.trans hn)

/-- An instruction outside the vector slots occupies no unit. -/
theorem occupy_none {i : Instr} {s : State} {c : Nat} (h : unitOf i = none) : occupy s c i = s := by simp [occupy, h]

end Sys2Proof.Machine
end

