-- ==== Sys2Proof/Laws/Vector.lean ====
section
/-! SUPPORT. Vector registers as elements: what reading an element of a built register gives, the flags of an element-wise result, and what
the vector slots' shared operations answer. -/

namespace Sys2Proof.Machine
open Sys2Proof

/-- `n` packed fields fill `w × n` bits. -/
theorem packW_lt (w : Nat) (f : Nat → Nat) (n : Nat) : packW w f n < 2 ^ (w * n) := by
  induction n with
  | zero => simp [packW]
  | succ n ih =>
    have h := Nat.mod_lt (f n) (Nat.two_pow_pos w)
    rw [packW, Nat.mul_add, Nat.pow_add, Nat.mul_one]
    have : f n % 2 ^ w * 2 ^ (w * n) + 2 ^ (w * n) ≤ 2 ^ (w * n) * 2 ^ w := by
      have := Nat.mul_le_mul_right (2 ^ (w * n)) (Nat.succ_le_of_lt h)
      rw [Nat.succ_mul] at this
      rwa [Nat.mul_comm (2 ^ (w * n)) (2 ^ w)]
    omega

/-- Field `j` of packed fields. -/
theorem packW_field (w : Nat) (f : Nat → Nat) (n j : Nat) (hj : j < n) : bitsAt (packW w f n) (w * j) w = f j % 2 ^ w := by
  induction n with
  | zero => omega
  | succ n ih =>
    unfold bitsAt at *
    rw [packW]
    rcases Nat.lt_or_ge j n with h | h
    · have hs : 2 ^ (w * n) = 2 ^ (w * j) * 2 ^ w * 2 ^ (w * (n - j - 1)) := by
        rw [← Nat.pow_add, ← Nat.pow_add]; congr 1
        obtain ⟨d, rfl⟩ : ∃ d, n = j + 1 + d := ⟨n - (j + 1), by omega⟩
        rw [show j + 1 + d - j - 1 = d by omega]; simp only [Nat.mul_add, Nat.mul_one]
      rw [← ih h, hs]
      rw [show f n % 2 ^ w * (2 ^ (w * j) * 2 ^ w * 2 ^ (w * (n - j - 1)))
        = 2 ^ (w * j) * (2 ^ w * (f n % 2 ^ w * 2 ^ (w * (n - j - 1)))) by ac_rfl]
      rw [Nat.add_mul_div_left _ _ (Nat.two_pow_pos _), Nat.add_mul_mod_self_left]
    · have : j = n := by omega
      subst this
      rw [Nat.add_mul_div_right _ _ (Nat.two_pow_pos _), Nat.div_eq_of_lt (packW_lt w f j)]
      simp

/-- An element of a register built from elements. -/
theorem elemOf_ofElems (w : Nat) (f : Nat → Nat) (j : Nat) (hd : w ∣ 32768) (hj : j < 32768 / w) :
    elemOf (ofElems w f) w j = f j % 2 ^ w := by
  unfold elemOf ofElems
  have := packW_lt w f (32768 / w)
  rw [Nat.mul_div_cancel' hd] at this
  rw [BitVec.toNat_ofNat, Nat.mod_eq_of_lt this]
  exact packW_field w f _ j hj

/-- A bit of a register built from elements. -/
theorem getLsbD_ofElems (w : Nat) (f : Nat → Nat) (j : Nat) (hw : 0 < w) (hd : w ∣ 32768) (hj : j < 32768) :
    (ofElems w f).getLsbD j = (f (j / w)).testBit (j % w) := by
  have hb : ∀ v : VReg, v.getLsbD j = (elemOf v w (j / w)).testBit (j % w) := by
    intro v
    unfold elemOf bitsAt
    rw [Nat.testBit_mod_two_pow, Nat.testBit_div_two_pow, BitVec.getLsbD]
    have := Nat.mod_lt j hw
    have e : j % w + w * (j / w) = j := by have := Nat.div_add_mod j w; omega
    simp [this, e]
  rw [hb, elemOf_ofElems w f _ hd ((Nat.div_lt_iff_lt_mul hw).2 (by rwa [Nat.div_mul_cancel hd]))]
  rw [Nat.testBit_mod_two_pow]
  simp [Nat.mod_lt j hw]

/-- The flags of several parts: each of some part. -/
theorem orFlags_iff (g : Nat → Flags) (n b : Nat) : (orFlags g n).getLsbD b = true ↔ ∃ j, j < n ∧ (g j).getLsbD b = true := by
  induction n with
  | zero => simp [orFlags]
  | succ n ih =>
    rw [orFlags, BitVec.getLsbD_or, Bool.or_eq_true, ih]
    constructor
    · rintro (⟨j, h, hb⟩ | h)
      · exact ⟨j, by omega, hb⟩
      · exact ⟨n, by omega, h⟩
    · rintro ⟨j, h, hb⟩
      rcases Nat.lt_or_ge j n with h' | h'
      · exact .inl ⟨j, h', hb⟩
      · exact .inr (by rwa [show n = j by omega])

/-- The flags of an element-wise result. -/
theorem flagsOf_vecFlags (w : Nat) (en : PReg) (g : Nat → Flags) : FlagsOf (vecFlags w en g) w en g := by
  intro b
  rw [vecFlags, orFlags_iff]
  constructor
  · rintro ⟨j, h, hb⟩
    split at hb
    · exact ⟨j, h, ‹_›, hb⟩
    · simp at hb
  · rintro ⟨j, h, he, hb⟩
    exact ⟨j, h, by simpa [he] using hb⟩

theorem fmtRegWidth_cases (m : Nat) : fmtRegWidth m = 8 ∨ fmtRegWidth m = 16 ∨ fmtRegWidth m = 32 := by
  unfold fmtRegWidth
  split <;> simp

/-- The unit of an instruction placed in the slot of unit `u`. -/
theorem unitOf_of_slot {i : Instr} {u : VUnit} {n : Nat} (h : slotOf i = some (if u = .a then .va else .vb)) (hn : unitCycles i = n) :
    unitOf i = some (u, n) := by
  unfold unitOf
  rw [h, hn]
  cases u <;> rfl

/-- Taking a unit changes that unit's time alone. -/
theorem occupy_eq {i : Instr} {u : VUnit} {n : Nat} {s : State} (h : unitOf i = some (u, n)) :
    occupy s s.cur i = s.setCore s.cur (takeUnit u n s.me) := by
  unfold occupy
  rw [h]
  cases u <;> rfl

theorem takeUnit_t (u : VUnit) (n : Nat) (k : Core) : (takeUnit u n k).t = k.t := by cases u <;> rfl
theorem takeUnit_f (u : VUnit) (n : Nat) (k : Core) : (takeUnit u n k).f = k.f := by cases u <;> rfl
theorem takeUnit_cyc (u : VUnit) (n : Nat) (k : Core) : (takeUnit u n k).cyc = k.cyc := by cases u <;> rfl
theorem takeUnit_vdest (u : VUnit) (n : Nat) (k : Core) (d : BitVec 9) : vdestOf (takeUnit u n k) d = vdestOf k d := by cases u <;> rfl

/-- A vector source reads the same once a unit is taken. -/
theorem readV_takeUnit {s : State} (hk : s.Kept) (u : VUnit) (n key : Nat) (r : BitVec 9) :
    readV (s.setCore s.cur (takeUnit u n s.me)) s.cur key r = readV s s.cur key r := by
  unfold readV
  rw [State.core_setCore _ _ _ (.inl hk.2.2.1)]
  cases u <;> rfl

/-- A vector predicate reads the same once a unit is taken. -/
theorem readP_takeUnit {s : State} (hk : s.Kept) (u : VUnit) (n key : Nat) (p : BitVec 4) :
    readP (s.setCore s.cur (takeUnit u n s.me)) s.cur key p = readP s s.cur key p := by
  unfold readP
  rw [State.core_setCore _ _ _ (.inl hk.2.2.1)]
  cases u <;> rfl

theorem vIn_takeUnit {s : State} (hk : s.Kept) (u v : VUnit) (n k : Nat) (r : BitVec 9) :
    vIn (s.setCore s.cur (takeUnit u n s.me)) v k r = vIn s v k r := readV_takeUnit hk u n _ r

theorem pIn_takeUnit {s : State} (hk : s.Kept) (u v : VUnit) (n k : Nat) (p : BitVec 4) :
    pIn (s.setCore s.cur (takeUnit u n s.me)) v k p = pIn s v k p := readP_takeUnit hk u n _ p

/-- Entering a vector result once its unit is taken. -/
theorem issueV_takeUnit {s : State} (hk : s.Kept) (u : VUnit) (n : Nat) (r : Result) (push : Bool) (lat : Nat) (fl : Flags) :
    issueV (s.setCore s.cur (takeUnit u n s.me)) s.cur r push lat fl = s.setCore s.cur (withVector s u n r push lat fl) := by
  unfold issueV State.modCore
  rw [State.core_setCore _ _ _ (.inl hk.2.2.1), State.setCore_setCore _ _ _ _ hk.2.2.1]
  cases u <;> rfl

/-- A ready vector instruction whose effect enters one result changes its core so and nothing else. -/
theorem becomes_of_issueV {i : Instr} {eff : State → State} {s : State} {u : VUnit} {n : Nat} {r : Result} {push : Bool} {lat : Nat} {fl : Flags}
    (hk : s.Kept) (hr : Ready i s) (he : exec i s = runSlot i eff s) (hu : unitOf i = some (u, n))
    (hc : eff (s.setCore s.cur (takeUnit u n s.me)) = issueV (s.setCore s.cur (takeUnit u n s.me)) s.cur r push lat fl) :
    Becomes i s (withVector s u n r push lat fl) :=
  becomes_of_ready hk hr he (by rw [occupy_eq hu, hc, issueV_takeUnit hk])

/-- A ready vector instruction whose effect writes a destination. -/
theorem vectorResult_of_vOut {i : Instr} {eff : State → State} {s : State} {u : VUnit} {d : BitVec 9} {lat : BitVec 4} {en : PReg}
    {r : VReg × Flags} (hk : s.Kept) (hr : Ready i s) (he : exec i s = runSlot i eff s) (hu : unitOf i = some (u, 4))
    (hc : eff (s.setCore s.cur (takeUnit u 4 s.me)) = vOut (s.setCore s.cur (takeUnit u 4 s.me)) d lat en r) :
    VectorResult i s u d lat en r.1 r.2 := by
  refine becomes_of_issueV hk hr he hu ?_
  rw [hc]
  unfold vOut
  show issueV _ s.cur (.vec (vdestOf ((s.setCore s.cur (takeUnit u 4 s.me)).core s.cur) d) r.1 en) true lat.toNat r.2 = _
  rw [State.core_setCore _ _ _ (.inl hk.2.2.1), takeUnit_vdest]

/-- An element-wise result built by `vecResult`. -/
theorem elementwise_of_vOut {i : Instr} {eff : State → State} {s : State} {u : VUnit} {d : BitVec 9} {lat : BitVec 4} {en : PReg} {m : Nat}
    {g : Nat → Nat × Flags} (hk : s.Kept) (hr : Ready i s) (he : exec i s = runSlot i eff s) (hu : unitOf i = some (u, 4))
    (hc : eff (s.setCore s.cur (takeUnit u 4 s.me)) = vOut (s.setCore s.cur (takeUnit u 4 s.me)) d lat en (vecResult (fmtRegWidth m) en g)) :
    Elementwise i s u d lat en (fmtRegWidth m) g := by
  refine ⟨_, _, vectorResult_of_vOut hk hr he hu hc, fun j hj => ?_, flagsOf_vecFlags _ en _⟩
  exact elemOf_ofElems _ _ j (by rcases fmtRegWidth_cases m with h | h | h <;> rw [h] <;> decide) hj

end Sys2Proof.Machine
end

