-- ==== Sys2Proof/Laws/Queue.lean ====
section
/-! SUPPORT. Queued accesses: when a queue has nothing to trim, when its head is ready to perform, and what a piece at a plain place
loads. -/

namespace Sys2Proof.Machine
open Sys2Proof

theorem trimHead_of {s : State} {c : Nat} {o l : List Acc} (h : Unmarked l) : trimHead s c o l = l := by
  cases l with
  | nil => rfl
  | cons a r =>
    obtain ⟨h1, h2⟩ := h a rfl
    unfold trimHead
    split <;> simp_all
theorem trimHead_suffix (s : State) (c : Nat) (o l : List Acc) : trimHead s c o l <:+ l := by
  induction l with
  | nil => exact List.suffix_refl _
  | cons a r ih =>
    unfold trimHead
    split
    · split
      · exact List.suffix_refl _
      · exact ih.trans (List.suffix_cons _ _)
    · split
      · exact List.suffix_refl _
      · exact ih.trans (List.suffix_cons _ _)
    · exact List.suffix_refl _
theorem setCtx_ctx (k : Core) (f : Bool) : k.setCtx f (k.ctx f) = k := by cases f <;> rfl
theorem trimQ_of {s : State} {c : Nat} {f : Bool} (hk : s.Kept) (h1 : Unmarked ((s.core c).ctx f).loadQ) (h2 : Unmarked ((s.core c).ctx f).storeQ) :
    trimQ s c f = s := by
  simp only [trimQ]
  rw [trimHead_of h1, trimHead_of h2]
  change s.setCore c ((s.core c).setCtx f ((s.core c).ctx f)) = s
  rw [setCtx_ctx]
  exact State.setCore_self s c hk.2.2.1
/-- The piece has its physical address, and its place is in force. -/
def Placed (s : State) (q : Piece) : Prop := ∃ y, q.pa = some y ∧ (homeOf s y.pa).isSome = true
theorem resolveParts_of {s : State} {c : Nat} {f : Bool} {nd : Need} (l : List Piece) (h : ∀ q, q ∈ l → Placed s q) :
    resolveParts s c f nd l = .ok l := by
  induction l with
  | nil => rfl
  | cons p r ih =>
    obtain ⟨y, h1, h2⟩ := h p (by simp)
    have h3 : (homeOf s y.pa).isNone = false := by cases hx : homeOf s y.pa <;> simp_all
    simp only [resolveParts, h1, h3, ih (fun q hq => h q (by simp [hq])), Bool.false_eq_true, if_false]
theorem todo_sub (a : Acc) : ∀ q, q ∈ accTodo a → q ∈ a.pieces := by
  unfold accTodo; split
  · intro q hq; exact List.mem_of_mem_take hq
  · intro q hq; exact hq
theorem todo_eq (a : Acc) : accTodo a ++ a.pieces.drop (accTodo a).length = a.pieces := by
  unfold accTodo
  split
  · rcases a.pieces with _ | ⟨p, r⟩ <;> simp
  · simp
theorem ready_of {s : State} {c : Nat} {f q : Bool} {sel : AccKind → Bool} {a : Acc} {rest : List Acc}
    (hq : queueOf ((s.core c).ctx f) q = a :: rest) (hs : sel a.kind = true) (hh : a.held = false) (hp : ∀ p, p ∈ a.pieces → Placed s p)
    (hb : ∀ p x, p ∈ a.pieces → p.pa = some x → badHome s a x.pa = false) : readyHead s c f q sel = some a := by
  unfold readyHead
  rw [hq]
  have hw : needsWalk s c f a = false := by
    unfold needsWalk
    have : (accTodo a).any (fun p => p.pa.isNone && (coreCached s c p.addr).isNone) = false := by
      rw [List.any_eq_false]
      intro p hq'
      obtain ⟨y, h, -⟩ := hp p (todo_sub a p hq')
      simp [h]
    rw [this]; simp
  have hr : resolveAcc s c f a = .ok a := by
    unfold resolveAcc
    rw [resolveParts_of _ (fun q hq' => hp q (todo_sub a q hq'))]
    dsimp only
    rw [if_neg]
    · rw [todo_eq]
    · intro h
      rw [List.any_eq_true] at h
      obtain ⟨p, h1, h2⟩ := h
      cases hx : p.pa with
      | none => simp [hx] at h2
      | some x => rw [hx] at h2; dsimp only at h2; rw [hb p x (todo_sub a p h1) hx] at h2; cases h2
  have hv : partsWait s c f a = false := by
    unfold partsWait
    rw [List.any_eq_false]
    intro p hq'
    obtain ⟨y, h, -⟩ := hp p (todo_sub a p hq')
    simp [h]
  dsimp only
  simp [hh, hw, hv, hs, hr]
theorem pad_load {s : State} {a n : Nat} (h : Pad s a n) : loadAt s (.plain a) n = ⟨s, memGetN s.mem a n, false, false⟩ := by
  obtain ⟨⟨d, h1⟩, h2, h3, -, -⟩ := h
  simp [loadAt, Phys.plain, h1, homeLoad, homeLoad.plainLoad, readSector, checkTag, countHeat, reachRow, bringIn, h2, markKeyed, Phys.key,
    tagFails, applyKey, h3]
theorem pad_waits {s : State} {a n : Nat} (h : Pad s a n) (w : Bool) : placeWaits s a w = false := by
  have := h.2.2.2.1
  unfold placeWaits sectorWaits at this ⊢
  cases w <;> simp_all
theorem badHome_pad {s : State} {x : Acc} {a n : Nat} (h : Pad s a n) : badHome s x a = false := by
  obtain ⟨⟨d, h1⟩, -⟩ := h
  unfold badHome
  rw [h1]
  split <;> simp_all
theorem badHome_load {s : State} {x : Acc} {a : Nat} (h : isLoadKind x.kind = true) : badHome s x a = false := by
  unfold badHome
  split <;> simp_all [isLoadKind]
theorem unm_load {a : Acc} {r : List Acc} (h : isLoadKind a.kind = true) : Unmarked (a :: r) := by
  intro b hb; simp at hb; subst hb
  constructor
  · intro h2; simp [h2, isLoadKind] at h
  · intro sc h2; simp [h2, isLoadKind] at h

end Sys2Proof.Machine
end

