-- ==== Sys2Proof/Laws/Step.lean ====
section
/-! SUPPORT. The plan of a turn at which a bundle issues, and the order in which the instructions of a bundle act. -/

namespace Sys2Proof.Machine
open Sys2Proof

/-- A core at a bundle that issues has that bundle as the plan of its turn. -/
theorem plan_issue {s : State} {b : Bundle} (h : Issues s b) : plan s = .issue b := by
  obtain ⟨⟨hb, hr⟩, hd, he, hp, hg, hn, hs, ht⟩ := h
  unfold State.inF State.ctx State.inF State.me at *
  rcases hr with ⟨h0, h1, h2, h3, h4, h5, h6, h7, h8, h9, h10, h11⟩ | h1 | ⟨h0, h1, h2, h3⟩
  · have hf : (s.core s.cur).inF = false := by simp [Core.inF, Core.handling, h0, h1]
    rw [hf] at hd hg hn hs ht
    have hd' : decodeBundle (fetchTask s.cur (s.core s.cur) (s.core s.cur).t.pc).toNat = .ok b := by simpa [fetch] using hd
    have hx : (s.core s.cur).t = (s.core s.cur).ctx false := rfl
    have h9' : ¬ imageEnd (s.core s.cur) ≤ (s.core s.cur).t.pc := Nat.not_le.2 h9
    have hseg : (b.seg && decide ((s.core s.cur).imem.segtab.length ≤ b.nseg) && decide ((s.core s.cur).imem.fused = 0)) = false := by
      cases hbs : b.seg with
      | false => simp
      | true =>
        rcases h11 hbs with h | h
        · simp; omega
        · simp [h]
    simp only [plan, hb, h0, h1, planTask, h2, h3, h4, h5, h6, h9', h10, planWord, hd', he, hp, hg, hn, h7, h8, resumeSlots, hs, ht, hseg,
      Bool.and_true, Bool.not_false, Bool.true_and, Bool.or_false, Bool.false_eq_true, if_false, Bool.not_true]
    simp
  · have hf : (s.core s.cur).inF = true := by simp [Core.inF, h1]
    rw [hf] at hd hg hn hs ht
    simp only [plan, hb, h1, planWord, hd, he, hp, hg, hn]
    have e : resumeSlots none b.instrs = b.instrs := rfl
    simp [e, hs, ht]
  · have hf : (s.core s.cur).inF = true := by simp [Core.inF, Core.handling, h1]
    rw [hf] at hd hg hn hs ht
    have hw : ((s.core s.cur).why.isSome && decide ((s.core s.cur).barQ = [])) = false := by
      rcases h2 with h | h <;> simp [h]
    simp only [plan, hb, h0, h1, hw, h3, planWord, hd, he, hp, hg, hn]
    have e : resumeSlots none b.instrs = b.instrs := rfl
    simp [e, hs, ht]

/-- F takes the cycle it asks for where its bundle issues. -/
theorem beginTurn_takes {s : State} {b : Bundle} (h : fAsks s = true) (hi : Issues (s.modCore s.cur giveF) b) :
    beginTurn s = s.modCore s.cur giveF := by
  simp only [beginTurn, h, if_true, plan_issue hi]
theorem beginTurn_passes {s : State} (h : fAsks s = false) : beginTurn s = s := by simp [beginTurn, h]

/-- A bundle of one instruction acts as that instruction. -/
theorem actOrder_one (i : Instr) (h : slotOf i ≠ none) : actOrder [i] = [i] := by
  obtain ⟨sl, hs⟩ := Option.ne_none_iff_exists'.1 h
  have hp : isPatsw i = true → sl = .va ∨ sl = .vb := by
    unfold isPatsw
    split
    · rename_i f
      intro _
      change some (if f.u = .a then Slot.va else Slot.vb) = some sl at hs
      split at hs <;> simp_all
    · intro h; cases h
  unfold actOrder
  generalize (fun (i : Instr) => match i with | .mfsr _ => true | _ => false) = m
  generalize isPatsw = r at *
  cases sl <;> cases hm : m i <;> cases hr : r i <;> simp_all

end Sys2Proof.Machine
end

