-- ==== Sys2Proof/Laws/Walk.lean ====
section
/-! SUPPORT. A walk over plain sectors of HBM4E: what its reads yield, and that neither the free values used nor the activations counted so far
change what it finds. -/

namespace Sys2Proof.Machine
open Sys2Proof

/-- A read of a plain sector by the base die yields its bytes and leaves no trace at its home. -/
theorem peekLoad_dram {s : State} {a n : Nat} (h : Dram s a n) : peekLoad s a n = some ⟨s, memGetN s.mem a n, false, false⟩ := by
  obtain ⟨hh, hs, hf, hp, -⟩ := h
  have hb : bringIn s .hbm a 0 = s := by simp [bringIn, hs, hf]
  unfold peekLoad
  rw [hh]
  show some (⟨bringIn s .hbm a 0, memGetN (bringIn s .hbm a 0).mem a n, isPoison (bringIn s .hbm a 0) a, false⟩ : Load) = _
  rw [hb, hp]

/-- The state with other free values to come and other counts of activations. -/
def State.worn (s : State) (n : Nat) (l : Tab Nat) : State := { s with fresh := n, acnt := l }

@[simp] theorem worn_cached (s : State) (n : Nat) (l : Tab Nat) (ctx va : Nat) : cached (s.worn n l) ctx va = cached s ctx va := rfl
@[simp] theorem worn_ctxDesc (s : State) (n : Nat) (l : Tab Nat) (ctx : Nat) : ctxDesc (s.worn n l) ctx = ctxDesc s ctx := rfl
@[simp] theorem worn_placeWaits (s : State) (n : Nat) (l : Tab Nat) (a : Nat) (w : Bool) : placeWaits (s.worn n l) a w = placeWaits s a w := rfl
theorem worn_dram {s : State} {a m : Nat} (n : Nat) (l : Tab Nat) (h : Dram s a m) : Dram (s.worn n l) a m := h

theorem worn_walkRoot {s : State} {ctx : Nat} (n : Nat) (l : Tab Nat) (h : Dram s (ctxDesc s ctx) 8) (h8 : Dram s (ctxDesc s ctx + 8) 1) :
    walkRoot (s.worn n l) ctx = walkRoot s ctx := by
  rw [walkRoot, walkRoot, worn_ctxDesc, peekLoad_dram h, peekLoad_dram h8, peekLoad_dram (worn_dram n l h), peekLoad_dram (worn_dram n l h8)]; rfl

theorem worn_walkEntry {s : State} {a i : Nat} (n : Nat) (l : Tab Nat) (h : Dram s (a + 8 * i) 8) : walkEntry (s.worn n l) a i = walkEntry s a i := by
  rw [walkEntry, walkEntry, peekLoad_dram h, peekLoad_dram (worn_dram n l h)]; rfl

/-- A walk over plain sectors finds what it found. -/
theorem worn_walk {s : State} {ctx va : Nat} (n : Nat) (l : Tab Nat) (h : WalkClean s ctx va) (h8 : Dram s (ctxDesc s ctx + 8) 1) :
    walk (s.worn n l) ctx va = walk s ctx va ∧ walkPath (s.worn n l) ctx va = walkPath s ctx va := by
  have hd : Dram s (ctxDesc s ctx) 8 := h _ (by unfold walkPath; exact List.mem_cons_self ..)
  unfold WalkClean walkPath at h
  unfold walk walkPath
  simp only [worn_ctxDesc, worn_walkRoot n l hd h8]
  cases e0 : walkRoot s ctx with
  | error m => exact ⟨rfl, rfl⟩
  | ok root =>
    simp only [e0] at h ⊢
    have h1 := worn_walkEntry n l (h _ (List.mem_cons_of_mem _ (List.mem_cons_self ..)))
    rw [h1]
    cases e1 : walkEntry s root (bitsAt va 37 11) with
    | error m => exact ⟨rfl, rfl⟩
    | ok a =>
      simp only [e1] at h ⊢
      split
      · exact ⟨rfl, rfl⟩
      · rename_i h2
        simp only [h2, if_false] at h
        have h3 := worn_walkEntry n l (h _ (List.mem_cons_of_mem _ (List.mem_cons_of_mem _ (List.mem_cons_self ..))))
        rw [h3]
        cases e2 : walkEntry s (entryPa a) (bitsAt va 26 11) with
        | error m => exact ⟨rfl, rfl⟩
        | ok b =>
          simp only [e2] at h ⊢
          by_cases h4 : b / 2 % 2 = 1
          · simp [h4]
          · by_cases h5 : entryPa b % 8192 ≠ 0
            · simp [h4, h5]
            · have h6 : ¬ (b / 2 % 2 = 1 ∨ entryPa b % 8192 ≠ 0) := fun h => h.elim h4 h5
              simp only [h6, if_false] at h
              have h7 := worn_walkEntry n l (h _ (List.mem_cons_of_mem _ (List.mem_cons_of_mem _ (List.mem_cons_of_mem _ (List.mem_cons_self ..)))))
              rw [h7]; exact ⟨rfl, trivial⟩

/-- An address that no cache holds and whose walk meets plain sectors and no wait translates whichever reads have gone before. -/
theorem translates_of {s : State} {ctx va : Nat} {need : Need} {x : Phys} (hv : va < 2 ^ 48) (h : WalkClean s ctx va)
    (h8 : Dram s (ctxDesc s ctx + 8) 1) (hc : cached s ctx va = none) (ht : translate s ctx va need none = .ok x)
    (hw : xlatWaits s ctx va = false) : Translates s ctx va need x := by
  refine ⟨hv, h, fun n l => ⟨?_, ?_⟩⟩
  · show translate (s.worn n l) ctx va need none = .ok x
    rw [← ht, translate, translate, worn_cached, hc]
    simp only [leafNow, (worn_walk n l h h8).1]
    rfl
  · show xlatWaits (s.worn n l) ctx va = false
    rw [← hw, xlatWaits, xlatWaits, worn_cached, hc, (worn_walk n l h h8).2]
    rfl

/-! ## What reads over plain sectors leave -/

/-- The read of an entry in a plain sector leaves an activation, if any, and no other trace. -/
theorem worn_touch {s : State} {a m : Nat} (n : Nat) (l : Tab Nat) (h : Dram s a m) : ∃ n' l', touch (s.worn n l) a m = s.worn n' l' := by
  have e : ∀ u : State, Dram u a m → touch u a m = reachRow u .hbm a := by
    intro u hu
    have h' : Dram (reachRow u .hbm a) a m := hu
    have := peekLoad_dram h'
    unfold peekLoad at this
    rw [h'.1] at this
    unfold touch loadQuiet
    rw [show homeOf u (Phys.plain a).pa = some .hbm from hu.1]
    exact congrArg Load.s (Option.some.inj this)
  exact ⟨_, _, e _ (worn_dram n l h)⟩

theorem worn_touches {s : State} (p : List Nat) (h : ∀ a, a ∈ p → Dram s a 8) (n : Nat) (l : Tab Nat) :
    ∃ n' l', p.foldl (fun s a => touch s a 8) (s.worn n l) = s.worn n' l' := by
  induction p generalizing n l with
  | nil => exact ⟨n, l, rfl⟩
  | cons a r ih =>
    obtain ⟨n', l', e⟩ := worn_touch n l (h a (List.mem_cons_self ..))
    rw [List.foldl_cons, e]
    exact ih (fun b hb => h b (List.mem_cons_of_mem _ hb)) n' l'

/-- What a translation leaves whose walk meets plain sectors. -/
theorem worn_walkLeft {s : State} {ctx va : Nat} (n : Nat) (l : Tab Nat) (h : WalkClean s ctx va) (h8 : Dram s (ctxDesc s ctx + 8) 1) :
    ∃ n' l', walkLeft (s.worn n l) ctx va = s.worn n' l' := by
  unfold walkLeft
  split
  · unfold walkReads
    rw [(worn_walk n l h h8).2]
    exact worn_touches _ h n l
  · exact ⟨n, l, rfl⟩

/-- A read of a plain sector of a scratchpad yields its bytes and leaves no trace. -/
theorem loadAt_pad {s : State} {a m : Nat} (h : Pad s a m) : loadAt s (.plain a) m = ⟨s, memGetN s.mem a m, false, false⟩ := by
  obtain ⟨⟨d, hh⟩, hf, hp, -, -⟩ := h
  have hb : bringIn s (.spad d) a 0 = s := by simp [bringIn, hf]
  unfold loadAt
  rw [show homeOf s (Phys.plain a).pa = some (.spad d) from hh]
  show (⟨bringIn s (.spad d) a 0, memGetN (bringIn s (.spad d) a 0).mem a m, isPoison (bringIn s (.spad d) a 0) a, false⟩ : Load) = _
  rw [hb, hp]

/-- One whole sector of a scratchpad read at its global address (02 R47; 20 R351). -/
theorem worn_pullBytes {s : State} {ctx va x : Nat} (n : Nat) (l : Tab Nat) (hv : va % 32 = 0) (h : Translates s ctx va needRead (.plain x))
    (h8 : Dram s (ctxDesc s ctx + 8) 1) (hp : Pad s x 32) :
    ∃ n' l', pullBytes (s.worn n l) ctx va 3 32 = (⟨s.worn n' l', 0, false, false, .done⟩, memGetN s.mem x 32) := by
  obtain ⟨n', l', e⟩ := worn_walkLeft n l h.2.1 h8
  have hm : va % 2 ^ 64 = va := Nat.mod_eq_of_lt (Nat.lt_trans h.1 (by decide))
  have hn : ¬ 2 ^ 48 ≤ va := Nat.not_le.2 h.1
  have ht := (h.2.2 n l).1
  have hw := (h.2.2 n l).2
  have hz : placeWaits s x false = false := by
    have := hp.2.2.2.1; unfold placeWaits sectorWaits at this ⊢; simp only [Bool.or_eq_false_iff, Bool.false_and] at this ⊢
    exact ⟨⟨⟨⟨this.1.1.1.1, trivial⟩, this.1.1.2⟩, this.1.2⟩, this.2⟩
  have hl : loadAt (s.worn n' l') (.plain x) 32 = ⟨s.worn n' l', memGetN s.mem x 32, false, false⟩ := loadAt_pad (s := s.worn n' l') hp
  refine ⟨n', l', ?_⟩
  have ht' : translate (s.worn n l) ctx va needRead none = .ok (.plain x) := ht
  have hw' : xlatWaits (s.worn n l) ctx va = false := hw
  unfold pullBytes
  simp only [show ¬ (32 = 0) by decide, if_false, hm, hn, hv, ht', hw', worn_placeWaits, show (Phys.plain x).pa = x from rfl, hz,
    Bool.false_eq_true, e, show min 32 (32 - 0) = 32 from rfl, hl]
  simp [pullBytes]

/-- A whole sector written into a scratchpad, or into a half that stores: no poison and no bit error stays, and no page's tag. -/
theorem storeAt_plain {s : State} {a v : Nat} (h : (∃ d, homeOf s a = some (.spad d)) ∨ ∃ hr hf, (homeOf s a = some (.cim hr hf)
    ∨ homeOf s a = some (.side hr hf)) ∧ (halfOf (s.hearth hr) hf).compute = false) :
    storeAt s (.plain a) 32 v = (clearPoison { setFlips s a 0 with
      tags := tset (fun _ => none) s.tags (a / 32) none, mem := memSetN s.mem a 32 v } a, .done) := by
  unfold storeAt
  rcases h with ⟨d, hh⟩ | ⟨hr, hf, hh, hc⟩
  · rw [show homeOf s (Phys.plain a).pa = _ from hh]
    simp only [homeStore]
    unfold homeStore.clearPoisonIf
    simp only [decide_true, Bool.not_true, Bool.and_false, Bool.false_eq_true, if_false, if_true, markKeyed, show (Phys.plain a).key = none from rfl]
    rfl
  · have hc' : (tget (fun _ => Half.reset) (s.hearth hr).halves hf).compute = false := hc
    rcases hh with hh | hh
    all_goals
      rw [show homeOf s (Phys.plain a).pa = _ from hh]
      show (if (tget (fun _ => Half.reset) (s.hearth hr).halves hf).compute then _ else _) = _
      rw [hc', if_neg Bool.false_ne_true]
      unfold homeStore.clearPoisonIf
      simp only [decide_true, Bool.not_true, Bool.and_false, Bool.false_eq_true, if_false, if_true, markKeyed, show (Phys.plain a).key = none from rfl]
      rfl

/-- Such a write, whatever reads have gone before. -/
theorem worn_storeAt {s : State} {a v : Nat} (n : Nat) (l : Tab Nat) (h : (∃ d, homeOf s a = some (.spad d)) ∨ ∃ hr hf,
    (homeOf s a = some (.cim hr hf) ∨ homeOf s a = some (.side hr hf)) ∧ (halfOf (s.hearth hr) hf).compute = false) :
    storeAt (s.worn n l) (.plain a) 32 v = ((storeAt s (.plain a) 32 v).1.worn n l, .done) := by
  have key : ∀ (g : Tab (Option (BitVec 512))) (m : List Host.Cell), clearPoison { setFlips (s.worn n l) a 0 with tags := g, mem := m } a
      = (clearPoison { setFlips s a 0 with tags := g, mem := m } a).worn n l := fun _ _ => rfl
  rw [storeAt_plain (s := s.worn n l) h, storeAt_plain h]
  exact congrArg (·, StRes.done) (key _ _)

end Sys2Proof.Machine
end

