-- ==== Sys2Proof/Tests/Slice0.lean ====
section
/-! SUPPORT. Tests: ill-formed terms that the checks refuse, words written out from the encoding tables of spec/05, single steps on small
states with results from the spec's own words, and for every statement with hypotheses a state that meets them. -/

open Sys2Proof Sys2Proof.Machine
set_option Elab.async false

/-! ## Ill-formed terms (05 R134 to R148, R156, R157) -/

/-- S slot, each term refused for one field: LAT 0; a destination above s63; s64 as a source; a used field beyond sa16; B of CLZ not zero; GS
of ADD not zero; LAT of MUL, DIV, FADD, FMA, FDIV and FCMP below its bound; a shift immediate of 64; formats that are not assigned; BR with
LAT, with D; NST of 8; SEL of 13; a system register that is not there; MTSR to LSTAT; TRAP with LAT; TRET outside F. -/
theorem test_illformed_scalar : ([.add ⟨0, 0, 1, 2, 3, 0, 0⟩, .add ⟨0, 1, 64, 2, 3, 0, 0⟩, .add ⟨0, 1, 1, 64, 3, 0, 0⟩, .add ⟨0, 1, 1, 2, 81, 0, 0⟩,
    .clz ⟨0, 1, 1, 2, 3, 0, 0⟩, .add ⟨0, 1, 1, 2, 3, 0, 1⟩, .mul ⟨0, 2, 1, 2, 3, 0, 0⟩, .div ⟨0, 14, 1, 2, 3, 0, 0⟩, .fadd ⟨0, 3, 1, 2, 3, 0, 0⟩,
    .fma ⟨0, 4, 1, 2, 3, 4, 0⟩, .fdiv ⟨0, 13, 1, 2, 3, 0, 0⟩, .fcmp ⟨0, 3, 1, 0, 2, 3⟩, .shli ⟨0, 1, 1, 2, 64⟩, .fcvt ⟨0, 4, 1, 2, 15, 0, 0⟩,
    .fcvt ⟨0, 4, 1, 2, 0, 40, 0⟩, .br ⟨0, 1, 0, 4⟩, .br ⟨0, 0, 1, 4⟩, .kloop ⟨0, 0, 3, 8, 0⟩, .shw ⟨0, 0, 0, 13, 1, 0⟩, .mfsr ⟨0, 2, 1, 0, 9⟩,
    .mtsr ⟨0, 0, 0, 1, 2⟩, .trap ⟨0, 1, 7⟩, .tret ⟨0, 0, 0⟩] : List Instr).all (fun i => !i.wellFormedB plainCtx) = true := by decide

/-- The same terms with that field mended are well formed. -/
theorem test_wellformed_scalar : ([.add ⟨0, 1, 1, 2, 3, 0, 0⟩, .add ⟨0, 1, 63, 2, 80, 0, 0⟩, .clz ⟨0, 1, 1, 2, 0, 0, 0⟩, .mul ⟨0, 3, 1, 2, 3, 0, 0⟩,
    .div ⟨0, 15, 1, 2, 3, 0, 0⟩, .fadd ⟨0, 4, 1, 2, 3, 0, 0⟩, .fma ⟨0, 5, 1, 2, 3, 4, 0⟩, .fdiv ⟨0, 14, 1, 2, 3, 0, 0⟩, .fcmp ⟨0, 4, 1, 0, 2, 3⟩,
    .shli ⟨0, 1, 1, 2, 63⟩, .fcvt ⟨0, 4, 1, 2, 42, 0, 0⟩, .br ⟨0, 0, 0, 4⟩, .kloop ⟨0, 0, 3, 7, 0⟩, .shw ⟨0, 0, 0, 12, 1, 0⟩, .mfsr ⟨0, 2, 1, 0, 8⟩,
    .mtsr ⟨0, 0, 0, 1, 3⟩, .trap ⟨0, 0, 7⟩] : List Instr).all (fun i => i.wellFormedB plainCtx) = true
    ∧ (Instr.tret ⟨0, 0, 2⟩).wellFormedB ⟨false, true, [1]⟩ = true ∧ (Instr.tret ⟨0, 0, 3⟩).wellFormedB ⟨false, true, [1]⟩ = false := by decide

/-- Vector slots: LAT 5; main index 96; operand-file index 16; the age queue at 0 as a source; level 3 index 2 as a source; vix as a
destination; C of VADD not zero; a scale format for VADD, an integer one for VEXP, a packed one for VAND; a rotation by E; a BLK of 5; p16 of
VCMP; VB and p8 on a grotto core; a vector form at F. -/
theorem test_illformed_vector : ([.vadd ⟨.a, 0, 0, 5, 0, 1, 2, 3, 0⟩, .vadd ⟨.a, 0, 0, 6, 0, 96, 2, 3, 0⟩, .vadd ⟨.a, 0, 0, 6, 0, 144, 2, 3, 0⟩,
    .vadd ⟨.a, 0, 0, 6, 0, 1, 256, 3, 0⟩, .vadd ⟨.a, 0, 0, 6, 0, 1, 386, 3, 0⟩, .vadd ⟨.a, 0, 0, 6, 0, 385, 2, 3, 0⟩, .vadd ⟨.a, 0, 0, 6, 0, 1, 2, 3, 4⟩,
    .vadd ⟨.a, 0, 0, 6, 13, 1, 2, 3, 0⟩, .vexp ⟨.a, 0, 0, 10, 3, 1, 2, 0, 0⟩, .vand ⟨.a, 0, 0, 6, 6, 1, 2, 3, 0⟩, .vrotr ⟨.a, 0, 0, 6, 0, 1, 2, 0, 64⟩,
    .vqnt ⟨.a, 0, 0, 6, 4, 1, 2, 3, 5⟩, .vcmp ⟨.a, 0, 0, 6, 0, 16, 2, 3, 0⟩] : List Instr).all (fun i => !i.wellFormedB plainCtx) = true
    ∧ ([.vadd ⟨.b, 0, 0, 6, 0, 1, 2, 3, 0⟩, .vadd ⟨.a, 0, 8, 6, 0, 1, 2, 3, 0⟩] : List Instr).all (fun i => !i.wellFormedB ⟨true, false, [1]⟩) = true
    ∧ (Instr.vadd ⟨.a, 0, 0, 6, 0, 1, 2, 3, 0⟩).wellFormedB ⟨false, true, [1]⟩ = false
    ∧ ([.vadd ⟨.b, 0, 8, 6, 0, 1, 2, 3, 0⟩, .vrotr ⟨.a, 0, 0, 6, 0, 1, 2, 0, 63⟩, .vqnt ⟨.a, 0, 0, 6, 4, 1, 2, 3, 4⟩] : List Instr).all
        (fun i => i.wellFormedB plainCtx) = true := by decide

/-- Engine, memory and SY slots: a token field with a number and no valid bit; MLEASE with a token; MMODE to storage with WF; MDRN to a
register without a token; a bank command with C = s0; copies on a grotto core; a scalar load to v64; a ring form on a grotto core; AS 2 of
a gather; scope 3 of an atomic; X of AADD not zero; a home task the shape has not; two slots of one kind. -/
theorem test_illformed_engine_memory : ([.mclr ⟨⟨0, 0, 0, 5, 0, 0, 0⟩, 1⟩, .mlease ⟨0, 0, 0, 64, 0, 0, 0⟩, .mmode ⟨⟨0, 0, 0, 0, 0, 0, 0⟩, 1, 0, 1⟩,
    .mdrn ⟨⟨0, 0, 0, 0, 0, 0, 0⟩, 1, 2, 0, 0, 0⟩, .bkrd ⟨⟨0, 0, 0, 0, 0, 0, 0⟩, 1, 2, 0⟩, .ldd ⟨0, 64, 1, .glob 0 0, 0⟩,
    .ldvg ⟨0, 2, 1, 1, 2, 0, 0⟩, .aadd ⟨0, 0, 1, 2, 0, 0, 1, 0, 3, 0, 0⟩, .aadd ⟨0, 0, 1, 2, 5, 0, 1, 0, 0, 0, 0⟩, .bara ⟨0, 1, 0, 1⟩,
    .bara ⟨0, 1, 1, 0⟩] : List Instr).all (fun i => !i.wellFormedB plainCtx) = true
    ∧ (Instr.cpyl ⟨⟨0, 0, 0, 0, 0, 0, 0⟩, 1, 2, 3, 0⟩).wellFormedB ⟨true, false, [1]⟩ = false
    ∧ (Instr.ldd ⟨0, 1, 1, .ring 0 0, 0⟩).wellFormedB ⟨true, false, [1]⟩ = false
    ∧ pairOk [.add ⟨0, 1, 1, 2, 3, 0, 0⟩, .sub ⟨0, 1, 1, 2, 3, 0, 0⟩] = false
    ∧ ([.mclr ⟨⟨0, 0, 0, 69, 0, 0, 0⟩, 1⟩, .mmode ⟨⟨0, 0, 0, 0, 0, 0, 0⟩, 1, 1, 1⟩, .bkrd ⟨⟨0, 0, 0, 0, 0, 0, 0⟩, 1, 2, 3⟩,
        .ldd ⟨0, 63, 1, .glob 0 0, 0⟩, .aadd ⟨0, 0, 1, 2, 0, 0, 1, 0, 2, 0, 0⟩, .bara ⟨0, 1, 0, 0⟩] : List Instr).all
        (fun i => i.wellFormedB plainCtx) = true := by decide

/-! ## Words written out from the encoding tables (05 R131, R140 to R155): the fields of the slot, at the slot's place -/

def wordsSrS : List (Nat × Instr) := [
  (0x13F7F063000, .add ⟨3, 15, 63, 65, 70, 0, 0⟩), (0x23F7F063000, .sub ⟨3, 15, 63, 65, 70, 0, 0⟩),
  (0x33F7F063000, .mul ⟨3, 15, 63, 65, 70, 0, 0⟩), (0x43F7F063000, .mulh ⟨3, 15, 63, 65, 70, 0, 0⟩),
  (0x53F7F063000, .mulhu ⟨3, 15, 63, 65, 70, 0, 0⟩), (0x63F7F063000, .div ⟨3, 15, 63, 65, 70, 0, 0⟩),
  (0x73F7F063000, .divu ⟨3, 15, 63, 65, 70, 0, 0⟩), (0x83F7F063000, .rem ⟨3, 15, 63, 65, 70, 0, 0⟩),
  (0x93F7F063000, .remu ⟨3, 15, 63, 65, 70, 0, 0⟩), (0xA3F7F063000, .and ⟨3, 15, 63, 65, 70, 0, 0⟩),
  (0xB3F7F063000, .or ⟨3, 15, 63, 65, 70, 0, 0⟩), (0xC3F7F063000, .xor ⟨3, 15, 63, 65, 70, 0, 0⟩),
  (0xD3F7F063000, .shl ⟨3, 15, 63, 65, 70, 0, 0⟩), (0xE3F7F063000, .shr ⟨3, 15, 63, 65, 70, 0, 0⟩),
  (0xF3F7F063000, .sar ⟨3, 15, 63, 65, 70, 0, 0⟩), (0x103F7F063000, .min ⟨3, 15, 63, 65, 70, 0, 0⟩),
  (0x113F7F063000, .minu ⟨3, 15, 63, 65, 70, 0, 0⟩), (0x123F7F063000, .max ⟨3, 15, 63, 65, 70, 0, 0⟩),
  (0x133F7F063000, .maxu ⟨3, 15, 63, 65, 70, 0, 0⟩), (0x1D3F7F063090, .ext ⟨3, 15, 63, 65, 70, 9, 0⟩),
  (0x1E3F7F063090, .extu ⟨3, 15, 63, 65, 70, 9, 0⟩), (0x1F3F7F063090, .ins ⟨3, 15, 63, 65, 70, 9, 0⟩),
  (0x203F7F040000, .clz ⟨3, 15, 63, 65, 0, 0, 0⟩), (0x213F7F040000, .popc ⟨3, 15, 63, 65, 0, 0, 0⟩),
  (0x273F7F063005, .sel ⟨3, 15, 63, 65, 70, 0, 5⟩), (0x283F7F063000, .fadd ⟨3, 15, 63, 65, 70, 0, 0⟩),
  (0x293F7F063000, .fsub ⟨3, 15, 63, 65, 70, 0, 0⟩), (0x2A3F7F063000, .fmul ⟨3, 15, 63, 65, 70, 0, 0⟩),
  (0x2B3F7F063090, .fma ⟨3, 15, 63, 65, 70, 9, 0⟩), (0x2C3F7F063000, .fdiv ⟨3, 15, 63, 65, 70, 0, 0⟩),
  (0x2D3F7F040000, .fsqrt ⟨3, 15, 63, 65, 0, 0, 0⟩), (0x2E3F7F063000, .fmin ⟨3, 15, 63, 65, 70, 0, 0⟩),
  (0x2F3F7F063000, .fmax ⟨3, 15, 63, 65, 70, 0, 0⟩), (0x343001040000, .ret ⟨3, 0, 0, 65, 0, 0, 0⟩)]

theorem test_decode_sr_s : wordsSrS.all (fun p => decide (decodeOne plainCtx (2 ^ 503 + p.1 * 2 ^ 432) = some p.2)) = true := by
  decide +kernel

def wordsSiS : List (Nat × Instr) := [
  (0x14310B43FFFF, .addi ⟨3, 1, 5, 80, 0x3FFFF⟩), (0x15310B43FFFF, .andi ⟨3, 1, 5, 80, 0x3FFFF⟩),
  (0x16310B43FFFF, .ori ⟨3, 1, 5, 80, 0x3FFFF⟩), (0x17310B43FFFF, .xori ⟨3, 1, 5, 80, 0x3FFFF⟩),
  (0x18310B40003F, .shli ⟨3, 1, 5, 80, 0x3F⟩), (0x19310B40003F, .shri ⟨3, 1, 5, 80, 0x3F⟩), (0x1A310B40003F, .sari ⟨3, 1, 5, 80, 0x3F⟩),
  (0x1B310BFFFFFE, .movi ⟨3, 1, 5, 0x1FFFFFE⟩), (0x1C310BFFFFFE, .movhi ⟨3, 1, 5, 0x1FFFFFE⟩)]

theorem test_decode_si_s : wordsSiS.all (fun p => decide (decodeOne plainCtx (2 ^ 503 + p.1 * 2 ^ 432) = some p.2)) = true := by
  decide +kernel

def wordsScS : List (Nat × Instr) := [
  (0x2231980A1000, .cmp ⟨3, 1, 9, 4, 2, 66⟩), (0x3034980A1000, .fcmp ⟨3, 4, 9, 4, 2, 66⟩), (0x23319E080005, .cmpi ⟨3, 1, 9, 7, 2, 5⟩),
  (0x24311C380000, .gand ⟨3, 1, 1, 12, 3, 1, 0⟩), (0x25311C340000, .gor ⟨3, 1, 1, 12, 3, 0, 1⟩),
  (0x26311C3C0000, .gxor ⟨3, 1, 1, 12, 3, 1, 1⟩), (0x313402080060, .fcvt ⟨3, 4, 1, 2, 0, 1, 1⟩),
  (0x323001FFFFFE, .br ⟨3, 0, 0, 0x1FFFFFE⟩), (0x33310FFFFFFE, .call ⟨3, 1, 7, 0x1FFFFFE⟩), (0x35300CA00000, .kloop ⟨3, 0, 3, 2, 1⟩),
  (0x363098040002, .shw ⟨3, 0, 4, 12, 1, 2⟩), (0x373208000A00, .mfsr ⟨3, 2, 4, 0, 0x028⟩), (0x383001080140, .mtsr ⟨3, 0, 0, 66, 0x005⟩),
  (0x393080010000, .trap ⟨3, 0, 0x8001⟩), (0x3B3080010000, .exit ⟨3, 0, 0x8001⟩)]

theorem test_decode_sc_s : wordsScS.all (fun p => decide (decodeOne plainCtx (2 ^ 503 + p.1 * 2 ^ 432) = some p.2)) = true := by
  decide +kernel

def wordsV3Va : List (Nat × Instr) := [
  (0x4510141800D3C0, .vadd ⟨.a, 3, 4, 15, 0, 40, 257, 131, 0⟩), (0xC510141800D3C0, .vmul ⟨.a, 3, 4, 15, 0, 40, 257, 131, 0⟩),
  (0x10510141E00D3C0, .vfma ⟨.a, 3, 4, 15, 0, 40, 257, 131, 384⟩), (0x14510141E00D3C0, .vfms ⟨.a, 3, 4, 15, 0, 40, 257, 131, 384⟩),
  (0x1C510100000D3C0, .vsqrt ⟨.a, 3, 4, 15, 0, 40, 257, 0, 0⟩), (0x20510141800D3C0, .vmin ⟨.a, 3, 4, 15, 0, 40, 257, 131, 0⟩),
  (0x24510141800D3C0, .vmax ⟨.a, 3, 4, 15, 0, 40, 257, 131, 0⟩), (0x28510100000D3C0, .vabs ⟨.a, 3, 4, 15, 0, 40, 257, 0, 0⟩),
  (0x2C510100000D3C0, .vneg ⟨.a, 3, 4, 15, 0, 40, 257, 0, 0⟩), (0x40510141800D3C0, .vand ⟨.a, 3, 4, 15, 0, 40, 257, 131, 0⟩),
  (0x44510141800D3C0, .vor ⟨.a, 3, 4, 15, 0, 40, 257, 131, 0⟩), (0x48510141800D3C0, .vxor ⟨.a, 3, 4, 15, 0, 40, 257, 131, 0⟩),
  (0x4C510100000D3C0, .vnot ⟨.a, 3, 4, 15, 0, 40, 257, 0, 0⟩), (0x54510141800D3FF, .vshr ⟨.a, 3, 4, 15, 63, 40, 257, 131, 0⟩),
  (0x58510141800D3FF, .vsar ⟨.a, 3, 4, 15, 63, 40, 257, 131, 0⟩), (0x84510141828D3C1, .vqnt ⟨.a, 3, 4, 15, 1, 40, 257, 131, 10⟩),
  (0x88510141828D3C1, .vdqnt ⟨.a, 3, 4, 15, 1, 40, 257, 131, 10⟩), (0xA051014181CD3CE, .vbdot ⟨.a, 3, 4, 15, 14, 40, 257, 131, 7⟩),
  (0xC0510100000D3C0, .vexp ⟨.a, 3, 4, 15, 0, 40, 257, 0, 0⟩), (0xC4510100000D3C0, .vlog ⟨.a, 3, 4, 15, 0, 40, 257, 0, 0⟩),
  (0xC8510100000D3C0, .vsin ⟨.a, 3, 4, 15, 0, 40, 257, 0, 0⟩), (0xCC510100000D3C0, .vcos ⟨.a, 3, 4, 15, 0, 40, 257, 0, 0⟩),
  (0xD0510100000D3C0, .vtanh ⟨.a, 3, 4, 15, 0, 40, 257, 0, 0⟩), (0xD4510100000D3C0, .vrsqrt ⟨.a, 3, 4, 15, 0, 40, 257, 0, 0⟩),
  (0xD8510100000D3C0, .vrcp ⟨.a, 3, 4, 15, 0, 40, 257, 0, 0⟩), (0xDC510100000D3C0, .vsigm ⟨.a, 3, 4, 15, 0, 40, 257, 0, 0⟩),
  (0x18C000000000C000, .vpatsw ⟨.a, 3, 0, 0, 0, 0, 0, 0, 0⟩), (0x198510100000D3C0, .vtrn ⟨.a, 3, 4, 15, 0, 40, 257, 0, 0⟩),
  (0x1C0510100000D3C0, .vmov ⟨.a, 3, 4, 15, 0, 40, 257, 0, 0⟩)]

theorem test_decode_v3_va : wordsV3Va.all (fun p => decide (decodeOne plainCtx (2 ^ 502 + p.1 * 2 ^ 368) = some p.2)) = true := by
  decide +kernel

def wordsV3Vb : List (Nat × Instr) := [
  (0x8510141800D3C0, .vsub ⟨.b, 3, 4, 15, 0, 40, 257, 131, 0⟩), (0x18510141800D3C0, .vdiv ⟨.b, 3, 4, 15, 0, 40, 257, 131, 0⟩),
  (0x50510141800D3FF, .vshl ⟨.b, 3, 4, 15, 63, 40, 257, 131, 0⟩)]

theorem test_decode_v3_vb : wordsV3Vb.all (fun p => decide (decodeOne plainCtx (2 ^ 501 + p.1 * 2 ^ 304) = some p.2)) = true := by
  decide +kernel

def wordsViVa : List (Nat × Instr) := [
  (0x8D1E5F00004FF46, .vunpk ⟨.a, 3, 15, 13, 6, 143, 95, 0, 1⟩), (0x911E5FC0804FF47, .vpack ⟨.a, 3, 15, 13, 7, 143, 95, 385, 1⟩),
  (0x100125FC0830FF49, .vcmp ⟨.a, 3, 15, 13, 9, 9, 95, 385, 12⟩), (0x1051E5FC083CFF40, .vsel ⟨.a, 3, 15, 13, 0, 143, 95, 385, 15⟩),
  (0x1411E5F001FCFF41, .vrotr ⟨.a, 3, 15, 13, 1, 143, 95, 0, 127⟩), (0x1451E5F0003CFF40, .vrotc ⟨.a, 3, 15, 13, 0, 143, 95, 0, 15⟩),
  (0x1491E5F003FCFF49, .vbcr ⟨.a, 3, 15, 13, 9, 143, 95, 0, 255⟩), (0x14D1E5F0003CFF40, .vbcc ⟨.a, 3, 15, 13, 0, 143, 95, 0, 15⟩),
  (0x1511E5F0001CFF40, .vredr ⟨.a, 3, 15, 13, 0, 143, 95, 0, 7⟩), (0x1551E5F00014FF42, .vredc ⟨.a, 3, 15, 13, 2, 143, 95, 0, 5⟩),
  (0x1811E5FC08FCFF40, .vshuf ⟨.a, 3, 15, 13, 0, 143, 95, 385, 63⟩), (0x1851E5FC087CFF40, .vperm ⟨.a, 3, 15, 13, 0, 143, 95, 385, 31⟩),
  (0x188005F007FCC000, .vpatld ⟨.a, 3, 0, 0, 0, 0, 95, 0, 511⟩), (0x194005F000FCC000, .vctld ⟨.a, 3, 0, 0, 0, 0, 95, 0, 63⟩),
  (0x1C51E4600000FF40, .vsplats ⟨.a, 3, 15, 13, 0, 143, 70, 0, 0⟩), (0x1C81000FFFFCC983, .vsplati ⟨.a, 3, 2, 6, 3, 8, 0, 0x3FFFF⟩)]

theorem test_decode_vi_va : wordsViVa.all (fun p => decide (decodeOne plainCtx (2 ^ 502 + p.1 * 2 ^ 368) = some p.2)) = true := by
  decide +kernel

def wordsViVb : List (Nat × Instr) := [
  (0x811E5FC0F10FF40, .vcvt ⟨.b, 3, 15, 13, 0, 143, 95, 385, 452⟩), (0x1911E5F0000CFF44, .vctd ⟨.b, 3, 15, 13, 4, 143, 95, 0, 3⟩),
  (0x1E0120A05800F080, .vpand ⟨.b, 3, 12, 2, 0, 9, 10, 11⟩), (0x1E4120A05800F080, .vpor ⟨.b, 3, 12, 2, 0, 9, 10, 11⟩),
  (0x1E8120A05800F080, .vpxor ⟨.b, 3, 12, 2, 0, 9, 10, 11⟩)]

theorem test_decode_vi_vb : wordsViVb.all (fun p => decide (decodeOne plainCtx (2 ^ 501 + p.1 * 2 ^ 304) = some p.2)) = true := by
  decide +kernel

def wordsMxMx : List (Nat × Instr) := [
  (0x980000000000000, .mlease ⟨3, 0, 0, 0, 0, 0, 0⟩), (0x1180000000000000, .mrel ⟨3, 0, 0, 0, 0, 0, 0⟩),
  (0x198FF020C2838000, .mmode ⟨⟨3, 0, 0, 127, 64, 65, 66⟩, 65, 1, 1⟩), (0x21EFF020C2C88200, .mwld ⟨⟨3, 1, 2, 127, 64, 65, 66⟩, 200, 65⟩),
  (0x298FF020C241C130, .mmac ⟨⟨3, 0, 0, 127, 64, 65, 66⟩, 131, 65, 0, 1, 1⟩),
  (0x318FF020C2820000, .mclr ⟨⟨3, 0, 0, 127, 64, 65, 66⟩, 65⟩),
  (0x39EFF020C22141C0, .mdrn ⟨⟨3, 1, 2, 127, 64, 65, 66⟩, 66, 65, 1, 1, 0⟩),
  (0x398FF020C241C120, .mdrn ⟨⟨3, 0, 0, 127, 64, 65, 66⟩, 131, 65, 0, 0, 1⟩),
  (0x418FF020C2830800, .mstat ⟨⟨3, 0, 0, 127, 64, 65, 66⟩, 65, 66⟩)]

theorem test_decode_mx_mx : wordsMxMx.all (fun p => decide (decodeOne plainCtx (2 ^ 500 + p.1 * 2 ^ 240) = some p.2)) = true := by
  decide +kernel

def wordsCpCp : List (Nat × Instr) := [
  (0x9EFF020C2830A1D, .cpyl ⟨⟨3, 1, 2, 127, 64, 65, 66⟩, 65, 66, 67, 5⟩),
  (0x11EFF020C2830A1D, .cpys ⟨⟨3, 1, 2, 127, 64, 65, 66⟩, 65, 66, 67, 5⟩),
  (0x198FF020C2830A1D, .cpyc ⟨⟨3, 0, 0, 127, 64, 65, 66⟩, 65, 66, 67, 5⟩),
  (0x21EFF020C282021D, .cpfill ⟨⟨3, 1, 2, 127, 64, 65, 66⟩, 65, 0, 67, 5⟩),
  (0x298FF020C2830A1D, .lxfr ⟨⟨3, 0, 0, 127, 64, 65, 66⟩, 65, 66, 67, 5⟩),
  (0x318FF020C2830A18, .bkmac ⟨⟨3, 0, 0, 127, 64, 65, 66⟩, 65, 66, 67⟩),
  (0x398FF020C2830A18, .bkkey ⟨⟨3, 0, 0, 127, 64, 65, 66⟩, 65, 66, 67⟩),
  (0x418FF020C2830A18, .bkcmp ⟨⟨3, 0, 0, 127, 64, 65, 66⟩, 65, 66, 67⟩),
  (0x498FF020C2830A18, .bkwr ⟨⟨3, 0, 0, 127, 64, 65, 66⟩, 65, 66, 67⟩),
  (0x518FF020C2830A18, .bktt ⟨⟨3, 0, 0, 127, 64, 65, 66⟩, 65, 66, 67⟩),
  (0x598FF020C2830A18, .bkrd ⟨⟨3, 0, 0, 127, 64, 65, 66⟩, 65, 66, 67⟩)]

theorem test_decode_cp_cp : wordsCpCp.all (fun p => decide (decodeOne plainCtx (2 ^ 497 + p.1 * 2 ^ 48) = some p.2)) = true := by
  decide +kernel

def wordsLdLd : List (Nat × Instr) := [
  (0x983F830AFFFFFFC, .ldb ⟨3, 63, 65, .glob 66 5, 0x7FFFFFC⟩), (0x11A3F830A8000004, .ldbu ⟨3, 63, 65, .loc 66 5, 4⟩),
  (0x19C3F832C0000020, .ldh ⟨3, 63, 65, .ring 9 6, 0x20⟩), (0x2183F830AFFFFFFC, .ldhu ⟨3, 63, 65, .glob 66 5, 0x7FFFFFC⟩),
  (0x29A3F830A8000004, .ldw ⟨3, 63, 65, .loc 66 5, 4⟩), (0x31C3F832C0000020, .ldwu ⟨3, 63, 65, .ring 9 6, 0x20⟩),
  (0x3983F830AFFFFFFC, .ldd ⟨3, 63, 65, .glob 66 5, 0x7FFFFFC⟩), (0x41A83830A8000004, .ldv ⟨3, 131, 65, .loc 66 5, 4⟩),
  (0x49A5F830A8000004, .ldvs ⟨3, 95, 65, .loc 66 5, 4⟩), (0x51A5F83817FFFFFE, .ldvg ⟨3, 1, 95, 65, 385, 1, 0x3FFFFFE⟩),
  (0x5983F83007FFFFFE, .probe ⟨3, 0, 63, 65, 2, 0x7FFFFFE⟩), (0x6180082000000000, .pwait ⟨3, 0, 0, 65, 0⟩),
  (0x6980082007FFFFFE, .pref ⟨3, 0, 0, 65, 0x7FFFFFE⟩), (0x7183F82000000001, .llclk ⟨3, 0, 63, 65, 1⟩),
  (0x7983F82000000001, .llcul ⟨3, 0, 63, 65, 1⟩)]

theorem test_decode_ld_ld : wordsLdLd.all (fun p => decide (decodeOne plainCtx (2 ^ 499 + p.1 * 2 ^ 176) = some p.2)) = true := by
  decide +kernel

def wordsStSt : List (Nat × Instr) := [
  (0x9850830AFFFFFFC, .stb ⟨3, 80, 65, .glob 66 5, 0x7FFFFFC⟩), (0x11A50830A8000004, .sth ⟨3, 80, 65, .loc 66 5, 4⟩),
  (0x19C50832C0000020, .stw ⟨3, 80, 65, .ring 9 6, 0x20⟩), (0x21850830AFFFFFFC, .std ⟨3, 80, 65, .glob 66 5, 0x7FFFFFC⟩),
  (0x29B10830A8000004, .stv ⟨3, 272, 65, .loc 66 5, 4⟩), (0x3185F830AFFFFFFC, .stvs ⟨3, 95, 65, .glob 66 5, 0x7FFFFFC⟩),
  (0x3985F83813FFFFFE, .stvx ⟨3, 0, 95, 65, 385, 0, 0x3FFFFFE⟩), (0x41A50820217FDFF8, .aadd ⟨3, 1, 80, 65, 0, 66, 63, 3, 2, 1, 0xFF8⟩),
  (0x49A50820217FDFF8, .aand ⟨3, 1, 80, 65, 0, 66, 63, 3, 2, 1, 0xFF8⟩),
  (0x51A50820217FDFF8, .aor ⟨3, 1, 80, 65, 0, 66, 63, 3, 2, 1, 0xFF8⟩),
  (0x59A50820217FDFF8, .axor ⟨3, 1, 80, 65, 0, 66, 63, 3, 2, 1, 0xFF8⟩),
  (0x61A50820217FDFF8, .amin ⟨3, 1, 80, 65, 0, 66, 63, 3, 2, 1, 0xFF8⟩),
  (0x69A50820217FDFF8, .aminu ⟨3, 1, 80, 65, 0, 66, 63, 3, 2, 1, 0xFF8⟩),
  (0x71A50820217FDFF8, .amax ⟨3, 1, 80, 65, 0, 66, 63, 3, 2, 1, 0xFF8⟩),
  (0x79A50820217FDFF8, .amaxu ⟨3, 1, 80, 65, 0, 66, 63, 3, 2, 1, 0xFF8⟩),
  (0x81A50820217FDFF8, .axch ⟨3, 1, 80, 65, 0, 66, 63, 3, 2, 1, 0xFF8⟩),
  (0x89A50830E17FDFF8, .acas ⟨3, 1, 80, 65, 67, 66, 63, 3, 2, 1, 0xFF8⟩),
  (0x91A50820217FDFF8, .afadd ⟨3, 1, 80, 65, 0, 66, 63, 3, 2, 1, 0xFF8⟩)]

theorem test_decode_st_st : wordsStSt.all (fun p => decide (decodeOne plainCtx (2 ^ 498 + p.1 * 2 ^ 112) = some p.2)) = true := by
  decide +kernel

def wordsSySy : List (Nat × Instr) := [
  (0x4F200000000, .bara ⟨3, 200, 0, 0⟩), (0x8F200000000, .barw ⟨3, 200, 0, 0⟩), (0xCF200000000, .baraw ⟨3, 200, 0, 0⟩),
  (0x10F200FC0000, .barcfg ⟨3, 200, 0, 0, 63⟩), (0x14FF80810400, .tokw ⟨3, 127, 0, 64, 65⟩), (0x18FF00000000, .tokst ⟨3, 63⟩),
  (0x1CE0C2FFFFFF, .ctrw ⟨3, 65, 66, 0xFFFFFF⟩), (0x20EC1FFFFFFF, .wpw ⟨3, 5, 65, 0xFFFFFFF⟩), (0x24C000000000, .qmark ⟨3⟩),
  (0x28C000000000, .fenceT ⟨3⟩), (0x28D000000000, .fenceG ⟨3⟩), (0x28E000000000, .fenceD ⟨3⟩), (0x28F000000000, .fenceS ⟨3⟩),
  (0x2CFE0C200000, .ringcfg ⟨3, 15, 65, 66⟩), (0x30E0C2000000, .signalStore ⟨3, 65, 66⟩), (0x30E0C2400000, .signalAdd ⟨3, 65, 66⟩),
  (0x34E0C2000000, .dqadv ⟨3, 65, 66⟩), (0x38C000000000, .yield ⟨3⟩), (0x3CE080000000, .waity ⟨3, 65⟩)]

theorem test_decode_sy_sy : wordsSySy.all (fun p => decide (decodeOne plainCtx (2 ^ 496 + p.1 * 2 ^ 0) = some p.2)) = true := by
  decide +kernel

/-- TRET decodes at F alone, and the empty bundle is NOP (05 R126, R143; 06 R178). -/
theorem test_decode_tret_nop : decodeOne ⟨false, true, [1]⟩ (2 ^ 503 + 0x3A3000020000 * 2 ^ 432) = some (.tret ⟨3, 0, 2⟩)
    ∧ decodeOne plainCtx (2 ^ 503 + 0x3A3000020000 * 2 ^ 432) = none ∧ decodeOne plainCtx 0 = some .nop := by decide +kernel

/-! ## States for the tests -/

/-- The module after reset, but for core 0. -/
def coreIs (k : Core) : State := State.reset.modCore 0 fun _ => k
/-- A task with every guard true; three values in s1 to s3, three pushes. -/
def task : Core := { Core.reset with run := .run, t := { SCtx.reset with g := 65535, s := [(1, 2 ^ 63), (2, BitVec.allOnes 64), (3, 7)], sapc := 3 } }
/-- The task's bundle is in issue: it has passed its checks. -/
def busy : State := { coreIs task with issuing := some (0, 0) }
/-- The same with every guard but g0 false. -/
def still : State := { coreIs { task with t := { task.t with g := 0 } } with issuing := some (0, 0) }
/-- Core 0 at F, its record empty. -/
def atF : State := { coreIs { task with run := .handler, f := { SCtx.reset with g := 65535 } } with issuing := some (0, 0) }
/-- The task next issues the bundle word `w`. -/
def holds (w : Nat) : State := (coreIs task).withFetchWord 512 w

theorem kept_of {s : State} (h : (Memory.wf s.mem && Memory.wf s.hostMem && twf (fun _ => Core.reset) s.cores
    && twf (fun _ => Hearth.reset) s.hearths && twf mmioReset s.mmio) = true) : s.Kept := by
  simp only [Bool.and_eq_true] at h
  exact ⟨h.1.1.1.1, h.1.1.1.2, h.1.1.2, h.1.2, h.2⟩
theorem decodes_of {w : Nat} {b : Bundle} (h : (decodeBundle w).toOption = some b) : decodeBundle w = .ok b := by
  cases e : decodeBundle w with
  | error x => rw [e] at h; cases h
  | ok x => rw [e] at h; exact congrArg _ (Option.some.inj h)

/-! ## Single steps -/

/-- What core 0 looks like after the instruction. -/
def after (i : Instr) (s : State) (p : Core → Bool) : Bool := match exec i s with
  | .next t => p (t.core 0)
  | _ => false
/-- The result that entered flight last. -/
def lastResult (k : Core) : Option Result := k.t.pend.getLast?.map (·.res)

/-- ADD wraps (06 R158); DIV by zero gives all ones and the most negative number over minus one itself (R159); MULH of minus one and minus
one is zero; EXTU from bit 63 is cut there (R161); CMP LTU against GE of the same pair (R162). -/
theorem test_scalar_results :
    after (.add ⟨0, 1, 5, 2, 3, 0, 0⟩) busy (fun k => lastResult k = some (.scal 5 6)) = true
    ∧ after (.div ⟨0, 15, 5, 3, 0, 0, 0⟩) busy (fun k => lastResult k = some (.scal 5 (BitVec.allOnes 64))) = true
    ∧ after (.div ⟨0, 15, 5, 1, 2, 0, 0⟩) busy (fun k => lastResult k = some (.scal 5 (2 ^ 63))) = true
    ∧ after (.rem ⟨0, 15, 5, 3, 0, 0, 0⟩) busy (fun k => lastResult k = some (.scal 5 7)) = true
    ∧ after (.mulh ⟨0, 3, 5, 2, 2, 0, 0⟩) busy (fun k => lastResult k = some (.scal 5 0)) = true
    ∧ after (.mulhu ⟨0, 3, 5, 2, 2, 0, 0⟩) busy (fun k => lastResult k = some (.scal 5 (BitVec.ofNat 64 (2 ^ 64 - 2)))) = true
    ∧ after (.extu ⟨0, 1, 5, 2, 2, 3, 0⟩) busy (fun k => lastResult k = some (.scal 5 1)) = true
    ∧ after (.cmp ⟨0, 1, 4, 4, 1, 3⟩) busy (fun k => lastResult k = some (.guard 4 false)) = true
    ∧ after (.cmp ⟨0, 1, 4, 2, 1, 3⟩) busy (fun k => lastResult k = some (.guard 4 true)) = true
    ∧ after (.sub ⟨3, 1, 5, 2, 3, 0, 0⟩) still (fun k => lastResult k = some (.scal 0 0)) = true := by decide +kernel

/-- A task's step issues its bundle and moves on by one; NOP moves on too (05 R126, R148). -/
theorem test_step_issues : (match step (holds 0x8000001B0102050020000000000000000000000000000000000000000000000000000000000000000000000000000000000000000000000000000000000000) with
    | .next t => decide ((t.core 0).t.pc = 1 ∧ lastResult (t.core 0) = some (.scal 1 0x50020))
    | _ => false) = true
    ∧ (match step (holds 0) with
      | .next t => decide ((t.core 0).t.pc = 1 ∧ (t.core 0).t.pend = [])
      | _ => false) = true := by decide +kernel

/-! ## States that meet the hypotheses of the statements -/

theorem busy_kept : busy.Kept := kept_of (by decide +kernel)
theorem still_kept : still.Kept := kept_of (by decide +kernel)
theorem atF_kept : atF.Kept := kept_of (by decide +kernel)

/-- The instructions of a list may act in a state whose bundle is in issue. -/
theorem ready_all {s : State} {l : List Instr} (hs : s.issuing.isSome = true) (h : l.all (fun i => guardHolds s s.cur s.inF i) = true) :
    ∀ i, i ∈ l → Ready i s := fun i hi => ⟨.inl hs, List.all_eq_true.1 h i hi⟩

/-- Every slot instruction may act in `busy`, with the operands of its decode test: AluForms to RingsSignalsAndYields. -/
theorem witness_ready : ∀ i, i ∈ (wordsSrS ++ wordsSiS ++ wordsScS ++ wordsV3Va ++ wordsV3Vb ++ wordsViVa ++ wordsViVb ++ wordsMxMx ++ wordsCpCp
    ++ wordsLdLd ++ wordsStSt ++ wordsSySy).map (·.2) → Ready i busy := ready_all rfl (by decide +kernel)
/-- A false guard, for a form that pushes a scalar, one that pushes a vector, one that takes a unit, and one that does neither: FalseGuard; SEL's
second clause of ComparesGuardsAndSelect, with a false selector. -/
theorem witness_idle : ∀ i, i ∈ ([.add ⟨3, 1, 5, 2, 3, 0, 0⟩, .vadd ⟨.a, 3, 0, 6, 0, 1, 2, 3, 0⟩, .vctld ⟨.b, 3, 0, 0, 0, 0, 2, 0, 0⟩, .br ⟨3, 0, 0, 4⟩,
    .sel ⟨3, 1, 5, 2, 3, 0, 4⟩] : List Instr) → Idle i still := fun i hi =>
  ⟨.inl rfl, by have := List.all_eq_true.1 (show List.all _ (fun j => !guardHolds still still.cur still.inF j) = true by decide +kernel) i hi; simpa using this⟩
theorem witness_sel_false : Ready (.sel ⟨0, 1, 5, 2, 3, 0, 4⟩) still ∧ gIn still 4 4 = false := ⟨⟨.inl rfl, by decide +kernel⟩, by decide +kernel⟩
/-- A task with no bundle in issue. -/
def lone : State := coreIs { task with ident := { task.ident with ntask := 1 } }
theorem lone_kept : lone.Kept := kept_of (by decide +kernel)
def loneForms : List Instr := [.add ⟨0, 1, 5, 2, 3, 0, 0⟩, .fdiv ⟨0, 14, 5, 2, 3, 0, 0⟩, .vadd ⟨.b, 0, 0, 6, 0, 95, 2, 3, 0⟩,
  .vmov ⟨.a, 0, 0, 6, 0, 1, 2, 0, 0⟩, .ldd ⟨0, 5, 0, .loc 0 0, 8⟩, .std ⟨0, 3, 0, .glob 0 0, 64⟩, .tokst ⟨0, 5⟩, .fenceS ⟨0⟩, .bara ⟨0, 255, 0, 0⟩,
  .mfsr ⟨0, 2, 5, 0, 0x28⟩]
/-- Alone, with no bundle in issue, a form of each kind passes its checks and has nothing to wait for. -/
theorem witness_passes_alone : ∀ i, i ∈ loneForms → Ready i lone := by
  intro i hi
  have h : loneForms.all (fun j => j.wellFormedB (encCtx lone 0) && !bundleStalls lone 0 false [j]
      && (bundleTrouble lone 0 false [j]).isNone && guardHolds lone 0 false j) = true := by decide +kernel
  have := List.all_eq_true.1 h i hi
  simp only [Bool.and_eq_true, Bool.not_eq_true', Option.isNone_iff_eq_none] at this
  exact ⟨.inr ⟨rfl, this.1.1.1, this.1.1.2, this.1.2⟩, this.2⟩

/-- StepRunsDecoded: a bundle of one instruction, NOP, an event at the head of the agenda, and a jump. -/
theorem witness_issues : Issues (holds 0) ⟨false, false, 0, 0, []⟩
    ∧ Issues (holds (2 ^ 503 + 0x1B0102050020 * 2 ^ 432)) ⟨false, false, 0, 0, [.movi ⟨0, 1, 1, 0x50020⟩]⟩ := by
  refine ⟨⟨?_, decodes_of (by decide +kernel), ?_⟩, ⟨?_, decodes_of (by decide +kernel), ?_⟩⟩ <;> first | (unfold Runs; decide +kernel) | decide +kernel
/-- F asks for the cycle, and its NOP issues in it, beside the task and while no task is bound. -/
def asks (k : Core) : State := coreIs { k with fTurn := [true] }
theorem witness_f_issues : fAsks (holds 0) = false ∧ bootFailed (holds 0) = false ∧ fAsks (asks task) = true ∧ fAsks (asks Core.reset) = true
    ∧ Issues ((asks task).modCore (asks task).cur giveF) ⟨false, false, 0, 0, []⟩
    ∧ Issues ((asks Core.reset).modCore (asks Core.reset).cur giveF) ⟨false, false, 0, 0, []⟩ := by
  refine ⟨by decide +kernel, by decide +kernel, by decide +kernel, by decide +kernel, ⟨?_, decodes_of (by decide +kernel), ?_⟩,
    ⟨?_, decodes_of (by decide +kernel), ?_⟩⟩ <;> first | (unfold Runs; decide +kernel) | decide +kernel
theorem witness_next : (match exec (.movi ⟨0, 1, 1, 0x50020⟩) (beginIssue (holds (2 ^ 503 + 0x1B0102050020 * 2 ^ 432))) with
      | .next t => decide ((t.core 0).t.pend.length = 1)
      | _ => false) = true
    ∧ (holds 0).lost = false ∧ (holds 0).ctx.jump = none ∧ lstatActive (holds 0).me.lstat = false ∧ slotOf (.queueEnable 0 0) = none
    ∧ (match step { holds 0 with agenda := [.qstatClear 0 0] } with
      | .next t => decide (t.agenda = [])
      | _ => false) = true := by
  refine ⟨by decide +kernel, by decide +kernel, by decide +kernel, by decide +kernel, by decide +kernel, by decide +kernel⟩
/-- SourcesRead: nothing in flight, sa1 and the last of the pushes, va1, no drain that is to write. -/
theorem witness_sources : (lone.core 0).t.pend = [] ∧ (65 : BitVec 7).toNat = 64 + 1 ∧ 1 ≤ ((lone.core 0).ctx false).sapc ∧ lone.issuing = none
    ∧ (32 : BitVec 9).toNat = 32 ∧ (∀ d, drainPending lone 0 d = false) := ⟨rfl, rfl, by decide, rfl, rfl, fun _ => rfl⟩
/-- EncodingRoundTrip, FaultsAtIssue: a well-formed form of a slot, one that is not, and a load at addresses that end in each of its faults. -/
theorem witness_wellformed : slotOf (.ldh ⟨0, 5, 3, .loc 0 0, 0⟩) = some .ld ∧ (Instr.ldh ⟨0, 5, 3, .loc 0 0, 0⟩).WellFormed (encCtx lone 0)
    ∧ ¬ (Instr.ldh ⟨0, 64, 3, .loc 0 0, 0⟩).WellFormed (encCtx lone 0) := by unfold Instr.WellFormed; decide +kernel
theorem witness_faults : ∀ i, i ∈ ([.ldh ⟨0, 5, 3, .loc 0 0, 0⟩, .ldd ⟨0, 5, 1, .glob 0 0, 0⟩, .std ⟨0, 5, 1, .loc 0 0, 0⟩] : List Instr) →
    bundleStalls lone 0 false [i] = false ∧ guardHolds lone 0 false i = true := by decide +kernel
theorem witness_addressed : Addressed lone 4 ⟨0, 5, 3, .loc 0 0, 0⟩ .loc 7 (fun a => some (.plain (localBase 0 lone.me + a)))
    ∧ Addressed lone 4 ⟨0, 5, 1, .glob 0 0, 0⟩ .glob (2 ^ 63) (fun _ => none)
    ∧ Addressed lone 5 ⟨0, 5, 1, .loc 0 0, 0⟩ .loc (2 ^ 63) (fun a => some (.plain (localBase 0 lone.me + a)))
    ∧ (7 : Word).toNat % 2 ≠ 0 ∧ 2 ^ 48 < (2 ^ 63 : Word).toNat + 8 ∧ localSize 0 lone.me < (2 ^ 63 : Word).toNat + 8 :=
  ⟨⟨rfl, by decide +kernel, fun _ => rfl⟩, ⟨rfl, by decide +kernel, fun _ => rfl⟩, ⟨rfl, by decide +kernel, fun _ => rfl⟩, by decide +kernel⟩
/-- FaultsAtIssue at F, StepKeepsForm. -/
theorem witness_at_f : ({ atF with issuing := none }).issuing = none ∧ atF.inF = true ∧ twf (fun _ => 0) atF.me.f.s = true
    ∧ ¬ (Instr.vadd ⟨.a, 0, 0, 6, 0, 1, 2, 3, 0⟩).WellFormed (encCtx atF 0) := by
  unfold Instr.WellFormed; decide +kernel
theorem witness_step_reset : (match step State.reset with
    | .next t => decide (t.cur = 0)
    | _ => false) = true := by decide +kernel

/-! Statements about slot instructions, where they ask more than that the form may act. -/

/-- Core 0 in issue with this core. -/
def with_ (k : Core) : State := { coreIs k with issuing := some (0, 0) }
/-- A state with the tables of context 0 at 0x1000 and these entries of its last level, from 0xC000 on (20 R349, R350). -/
def paged (leaves : List Host.Cell) (s : State) : State :=
  { s.setReg 0x0E000400B000 0x1000 with mem := [(0x1001, 0x40), (0x1008, 1), (0x4000, 1), (0x4001, 0x80), (0x8000, 1), (0x8001, 0xC0)] ++ leaves }
/-- A page of context 0 at 0x10000 that maps the scratchpad of core 0, readable and writable. -/
def mapped : State := paged [(0xC008, 15), (0xC00C, 1), (0xC00D, 10)] busy
/-- The task is one of the one task of its lane, with scalars. -/
def oneTask : Core := { task with ident := { task.ident with ntask := 1 } }
def floats : State := with_ { task with t := { task.t with s := [(1, 0x3F800000), (2, 0x80000000), (3, 0x7FC00000), (4, 0x7F800000)] } }

/-- ConstantsAndBitFields: the highest set bit of CLZ's source, and a zero source. -/
theorem witness_bit_fields : sIn busy 0 1 = 2 ^ 63 ∧ (sIn busy 0 1).getLsbD 63 = true ∧ sIn busy 0 0 = 0 ∧ (sIn busy 1 2).toNat % 64 = 63
    ∧ min ((sIn busy 2 3).toNat % 128) (64 - 63) = 1 := by decide +kernel
/-- FloatCompare: a NaN source; one against minus zero, and infinity against one. -/
theorem witness_float_compare : Ready (.fcmp ⟨0, 4, 9, 4, 1, 3⟩) floats ∧ decodeFmt 0 ((sIn floats 1 3).toNat % 2 ^ 32) = .nan
    ∧ SameOrder (decodeFmt 0 ((sIn floats 0 1).toNat % 2 ^ 32)) (decodeFmt 0 ((sIn floats 1 2).toNat % 2 ^ 32)) (2 ^ 149) 0
    ∧ SameOrder (decodeFmt 0 ((sIn floats 0 4).toNat % 2 ^ 32)) (decodeFmt 0 ((sIn floats 1 1).toNat % 2 ^ 32)) 1 0 := by
  have h1 : decodeFmt 0 ((sIn floats 0 1).toNat % 2 ^ 32) = .fin false 8388608 (-23) := by decide +kernel
  have h2 : decodeFmt 0 ((sIn floats 1 2).toNat % 2 ^ 32) = .fin true 0 (-149) := by decide +kernel
  have h3 : decodeFmt 0 ((sIn floats 0 4).toNat % 2 ^ 32) = .inf false := by decide +kernel
  have h4 : decodeFmt 0 ((sIn floats 1 1).toNat % 2 ^ 32) = .fin false 8388608 (-23) := by decide +kernel
  rw [h1, h2, h3, h4]
  exact ⟨⟨.inl rfl, by decide +kernel⟩, by decide +kernel, ⟨-149, by decide, by decide, by decide +kernel, by decide +kernel⟩, rfl, rfl⟩
/-- FormatConvert: each clause's destination; ShapeShadow: the first and last field of each part; SystemRegisters: every register. -/
theorem witness_convert : ∀ i, i ∈ ([3, 4, 6, 0].map fun (d : BitVec 6) => Instr.fcvt ⟨0, 4, 1, 2, 0, d, 0⟩) → Ready i busy := ready_all rfl (by decide +kernel)
theorem witness_shape : ∀ i, i ∈ ([0, 5, 6, 11, 12].map fun (n : BitVec 4) => Instr.shw ⟨0, 0, 7, n, 1, 0⟩) → Ready i busy := ready_all rfl (by decide +kernel)
theorem witness_sregs : ∀ i, i ∈ ([0, 1, 2, 3, 4, 5, 6, 7, 8, 0x10, 0x11, 0x12, 0x13, 0x14, 0x15, 0x16, 0x17, 0x18, 0x19, 0x20, 0x21, 0x28, 0x29].map
    fun (n : BitVec 12) => Instr.mfsr ⟨0, 2, 5, 0, n⟩) ++ ([0, 1, 3, 4, 5].map fun (n : BitVec 12) => Instr.mtsr ⟨0, 0, 0, 1, n⟩) → Ready i busy :=
  ready_all rfl (by decide +kernel)
theorem witness_not_fused : busy.me.ident.fuseId = 0 ∧ busy.me.imem.loop = none ∧ busy.me.lcount = 0 := by decide
/-- LoopForms: a count, and a loop past its last body bundle whose next pass goes on, or ends. -/
def looping (n g : Nat) : State := coreIs { task with lcount := BitVec.ofNat 64 n, lstat := lstatWord 0 1 true 4, t := { task.t with pc := 5, g := BitVec.ofNat 16 g } }
theorem witness_loop : Ready (.kloop ⟨0, 0, 3, 7, 1⟩) (with_ { task with lcount := 1 }) ∧ (with_ { task with lcount := 1 }).me.lcount ≠ 0
    ∧ atBoundary ((looping 2 256).core 0) = true ∧ atBoundary ((looping 1 0).core 0) = true := ⟨⟨.inl rfl, by decide +kernel⟩, by decide +kernel⟩
/-- TrapsAndReturns: TRET after each of its masks, for a deferred fault and not. -/
theorem witness_tret : ∀ m, m ∈ [0, 16, 255] → Ready (.tret ⟨0, 0, 0⟩) (atF.setReg (recAddr 0 + 48) (BitVec.ofNat 64 (m * 2 ^ 16)))
    ∧ bitsAt ((atF.setReg (recAddr 0 + 48) (BitVec.ofNat 64 (m * 2 ^ 16))).reg (recAddr 0 + 48)).toNat 16 8 = m := by
  intro m hm
  have h : m = 0 ∨ m = 16 ∨ m = 255 := by simpa using hm
  obtain rfl | rfl | rfl := h <;> exact ⟨⟨.inl (by decide +kernel), by decide +kernel⟩, by decide +kernel⟩
/-- ConversionsAndPacking: a packed format, and the widths that differ in PART. -/
theorem witness_packing : fmtPacked 6 = true ∧ fmtWidth 6 = 4 ∧ fmtPacked 7 = true ∧ bdotBad 4 (BitVec.allOnes 32768) 0 = true := by decide +kernel
/-- ScalarLoads, VectorLoads, StoresEnter, AtomicsEnter: each address form. -/
theorem witness_forms : Addressed busy 4 ⟨0, 5, 1, .glob 2 3, 4⟩ .glob (busy.operand 4 0 1 + busy.operand 4 1 2 <<< 3 + 4) (fun _ => none)
    ∧ Addressed busy 5 ⟨0, 5, 1, .loc 2 0, 4⟩ .loc (busy.operand 5 0 1 + busy.operand 5 1 2 <<< 0 + 4) (fun a => some (.plain (localBase busy.cur busy.me + a)))
    ∧ Addressed busy 4 ⟨0, 5, 1, .ring 2 0, 4⟩ .ring (busy.operand 4 0 1 + 4) (fun a => match ringResolve busy busy.cur 2 0 a with
        | some (home, o) => some (.plain (localBase home (busy.core home) + o))
        | none => none)
    ∧ Strided busy 4 ⟨0, 5, 1, .loc 3 7, 4⟩ .loc (busy.operand 4 0 1 + 4) (busy.operand 4 1 3 <<< 7) (fun a => some (.plain (localBase busy.cur busy.me + a)))
    ∧ Strided busy 5 ⟨0, 5, 1, .glob 3 7, 4⟩ .glob (busy.operand 5 0 1 + 4) (busy.operand 5 1 3 <<< 7) (fun _ => none)
    ∧ Spaced busy 0 .glob (fun _ => none) ∧ Spaced busy 1 .loc (fun a => some (.plain (localBase busy.cur busy.me + a))) :=
  ⟨⟨rfl, rfl, fun _ => rfl⟩, ⟨rfl, rfl, fun _ => rfl⟩, ⟨rfl, rfl, fun _ => rfl⟩, ⟨rfl, rfl, rfl, fun _ => rfl⟩, ⟨rfl, rfl, rfl, fun _ => rfl⟩,
    .inl ⟨rfl, rfl, fun _ => rfl⟩, .inr ⟨rfl, rfl, fun _ => rfl⟩⟩
/-- ProbeAndLineLocks: a set with its block 1 in slot 3; one with four other blocks; one locked; a lock that is taken, one that is refused as
held, an unlock, and a lock whose page has no entry. -/
def tags (b : Nat) (lk : Bool) : Core := { task with tags := [(0, ⟨b, true, lk, 0, none⟩), (1, ⟨b + 1, true, lk, 1, none⟩), (2, ⟨b + 2, true, lk, 3, none⟩),
  (3, ⟨b + 3, true, lk, 2, none⟩)] }
theorem witness_probe : (waysOf (1 % probeSets (tags 1 false))).find? (fun w => (tagAt (tags 1 false) w).valid && decide ((tagAt (tags 1 false) w).block = 4)) = some 3
    ∧ (∀ w, w ∈ waysOf 0 → ¬ ((tagAt (tags 9 false) w).valid = true ∧ (tagAt (tags 9 false) w).block = 1))
    ∧ victimOf (with_ (tags 9 false)) (tags 9 false) 0 = some 2 ∧ victimOf (with_ (tags 9 true)) (tags 9 true) 0 = none := by decide +kernel
theorem clean_of {s : State} {ctx va : Nat} (h : (walkPath s ctx va).all (fun a => decide (homeOf s a = some .hbm) && !rowStale s (hbmLoc s a)
    && decide (flipsAt s a = 0) && !isPoison s a && decide (a % 32 + 8 ≤ 32)) = true) : WalkClean s ctx va := by
  intro a ha
  have := List.all_eq_true.1 h a ha
  simp only [Bool.and_eq_true, Bool.not_eq_true', decide_eq_true_eq] at this
  exact ⟨this.1.1.1.1, this.1.1.1.2, this.1.1.2, this.1.2, this.2⟩
/-- ProbeAndLineLocks, TranslationEvents and the other statements about a miss: the walk's entries stand in plain sectors. -/
theorem witness_clean : WalkClean mapped 0 0x10000 ∧ WalkClean busy 0 0 ∧ coreCached mapped 0 0x10000 = none
    ∧ (coreCached (with_ { task with xlat := [⟨0, 0x10000, false, 15⟩] }) 0 0x10000).isSome = true := by
  exact ⟨clean_of (by decide +kernel), clean_of (by decide +kernel), by decide +kernel, by decide +kernel⟩
theorem witness_line : translateFor mapped 0 false 0x10000 needRead = .ok (.plain 0x0A0100000000)
    ∧ lineStatus (missServed (fillX mapped 0 0x10000) 0 0) 0 true 0x0A0100000000 = 4 ∧ translateFor busy 0 false 0x10000 needRead = .fail .page 1 ∧ lineStatus { busy with locks := [(0, 0)] } 0 true 0 = 1
    ∧ lineStatus { busy with locks := [(0, 0)] } 0 false 0 = 0 ∧ lineStatus busy 0 false 0 = 6
    ∧ lineStatus (busy.setReg 0x0E000400B000 0) 0 true 0 = 2 := by decide +kernel
/-- LeaseAndHearthCommands: the lease held by the core, and by none. -/
theorem witness_lease : holdsLease (busy.modHearth 0 fun h => { h with holder := some 0 }) 0 = true ∧ holdsLease busy 0 = false := by decide +kernel
/-- BarrierInstructions, RingsSignalsAndYields: the task itself as the home, its barrier with and without an arrival; a BARCFG behind an arrival. -/
theorem witness_home : laneCore (with_ oneTask) 0 0 0 = some 0 ∧ (barAt (with_ oneTask) 0 5).arr = 0
    ∧ (barAt (with_ { oneTask with bars := [(5, ⟨2, 1, 0, none⟩)] }) 0 5).arr = 1
    ∧ (∃ r, r ∈ ({ oneTask with barQ := [⟨5, 0, 0, none, 0⟩] }).barQ ∧ r.bar = 5 ∧ r.stage = 0 ∧ r.task = 0)
    ∧ (∀ d, d ∈ gangCores busy busy.me.ident.gang → nextValid busy d = false)
    ∧ (∃ d, d ∈ gangCores (busy.setReg 0x0E0004000078 1) 0 ∧ nextValid (busy.setReg 0x0E0004000078 1) d = true) := by
  refine ⟨by decide +kernel, by decide +kernel, by decide +kernel, ⟨⟨5, 0, 0, none, 0⟩, by decide +kernel⟩, by decide +kernel, ⟨0, by decide +kernel⟩⟩
/-- WAITY: an empty block holds; one that waits for 1 at a word that reads 0 does not, and its address translates. -/
theorem witness_waity : blockHolds busy 0 ⟨0, 0, 0, 0, 0⟩ [] (List.replicate 128 0) = true ∧ waitConds (List.replicate 128 0) = []
    ∧ blockHolds mapped 0 ⟨0, 0, 0, 0, 0⟩ [] (toBytes 128 (1 + 0x10000 * 2 ^ 128 + 2 ^ 192 + 2 ^ 256)) = false
    ∧ blockFails mapped 0 [] (toBytes 128 (1 + 0x10000 * 2 ^ 128 + 2 ^ 192 + 2 ^ 256)) = []
    ∧ blockHolds mapped 0 ⟨0, 0, 0, 0, 0⟩ [] (toBytes 128 (1 + 0x30000 * 2 ^ 128 + 2 ^ 192 + 2 ^ 256)) = false
    ∧ blockFails mapped 0 [] (toBytes 128 (1 + 0x30000 * 2 ^ 128 + 2 ^ 192 + 2 ^ 256)) = [(0, .page, 1)] := by decide +kernel
/-- TokensMarksAndFences: a CTRW that a read has released, one that this read does, and empty queues. -/
theorem witness_ctrw : ((5 : Word), (9 : Word)) = ctrwArgs (with_ { task with t := { task.t with s := [(1, 5)] }, ctrw := some (5, 9, true) }) 0 ⟨0, 1, 0, 9⟩
    ∧ Ready (.ctrw ⟨0, 1, 0, 9⟩) (with_ { task with t := { task.t with s := [(1, 5)] }, ctrw := some (5, 9, true) })
    ∧ ((0 : Word), (0 : Word)) = ctrwArgs (paged [(0xC000, 15), (0xC004, 1), (0xC005, 10)] busy) 0 ⟨0, 0, 0, 0⟩
    ∧ translateAt (paged [(0xC000, 15), (0xC004, 1), (0xC005, 10)] busy) 0 0 needRead = .ok (.plain 0x0A0100000000) :=
  ⟨by decide +kernel, ⟨.inl rfl, by decide +kernel⟩, by decide +kernel, by decide +kernel⟩
theorem witness_queues : busy.ctx.loadQ = [] ∧ busy.ctx.storeQ = [] := by decide

/-! Statements about events. -/

theorem ok_of {α ε : Type} {x : Except ε α} {a : α} (h : x.toOption = some a) : x = .ok a := by
  cases x with
  | error e => cases h
  | ok b => exact congrArg _ (Option.some.inj h)
theorem err_of {α : Type} {x : Except Nat α} {n : Nat} (h : (match x with | .error m => m == n | .ok _ => false) = true) : x = .error n := by
  cases x with
  | error e => exact congrArg _ (by simpa using h)
  | ok b => cases h
theorem pad_of {s : State} {a n d : Nat} (h : (decide (homeOf s a = some (.spad d)) && decide (flipsAt s a = 0) && !isPoison s a && !placeWaits s a true
    && decide (a % 32 + n ≤ 32)) = true) : Pad s a n := by
  simp only [Bool.and_eq_true, Bool.not_eq_true', decide_eq_true_eq] at h
  exact ⟨⟨d, h.1.1.1.1⟩, h.1.1.1.2, h.1.1.2, h.1.2, h.2⟩
theorem dram_of {s : State} {a n : Nat} (h : (decide (homeOf s a = some .hbm) && !rowStale s (hbmLoc s a) && decide (flipsAt s a = 0) && !isPoison s a
    && decide (a % 32 + n ≤ 32)) = true) : Dram s a n := by
  simp only [Bool.and_eq_true, Bool.not_eq_true', decide_eq_true_eq] at h
  exact ⟨h.1.1.1.1, h.1.1.1.2, h.1.1.2, h.1.2, h.2⟩

/-- The check that `pad_of` asks, at core 0; and that an address stands, by a walk over plain sectors that nothing holds, at a plain place. -/
def padAt' (s : State) (a n : Nat) : Bool := decide (homeOf s a = some (.spad 0)) && decide (flipsAt s a = 0) && !isPoison s a && !placeWaits s a true
  && decide (a % 32 + n ≤ 32)
def dramAt (s : State) (a n : Nat) : Bool := decide (homeOf s a = some .hbm) && !rowStale s (hbmLoc s a) && decide (flipsAt s a = 0) && !isPoison s a
  && decide (a % 32 + n ≤ 32)
def openAt (s : State) (ctx va : Nat) (need : Need) (x : Nat) : Bool := decide (va < 2 ^ 48) && (walkPath s ctx va).all (fun a => dramAt s a 8)
  && dramAt s (ctxDesc s ctx + 8) 1 && (cached s ctx va).isNone && decide (translate s ctx va need none = .ok (.plain x)) && !xlatWaits s ctx va
theorem open_of {s : State} {ctx va x : Nat} {need : Need} (h : openAt s ctx va need x = true) : Translates s ctx va need (.plain x) := by
  unfold openAt at h
  simp only [Bool.and_eq_true, decide_eq_true_eq, Bool.not_eq_true', Option.isNone_iff_eq_none] at h
  exact translates_of h.1.1.1.1.1 (clean_of h.1.1.1.1.2) (dram_of h.1.1.1.2) h.1.1.2 h.1.2 h.2
theorem open_root {s : State} {ctx va x : Nat} {need : Need} (h : openAt s ctx va need x = true) : Dram s (ctxDesc s ctx + 8) 1 := by
  unfold openAt at h
  simp only [Bool.and_eq_true] at h
  exact dram_of h.1.1.1.2

/-- A place in the scratchpad of core 0. -/
def pad0 : Nat := 0x0A0100000000
/-- The one task of a lane on core 0, with this change. -/
def tasked (g : Core → Core) : State := coreIs (g oneTask)
def inCtx (g : SCtx → SCtx) : State := tasked fun k => { k with t := g k.t }

/-- ResultsLand: any result in flight, or load value, of the task. -/
theorem witness_in_flight (r : Result) : InFlight { oneTask with cyc := 1, t := { oneTask.t with pend := [⟨r, some 0, 0, 1, 0, false⟩] } } 0 false 0
    ⟨r, some 0, 0, 1, 0, false⟩ := ⟨rfl, rfl, rfl, Nat.zero_lt_one⟩
theorem witness_arrival (d : LDest) : ({ oneTask with t := { oneTask.t with arrivals := [⟨0, d, 7, 1, false⟩] } } : Core).t.arrivals[0]? = some ⟨0, d, 7, 1, false⟩ := rfl
theorem witness_unit_free : (4 : Nat) ≠ 0 ∧ 4 ≤ ({ oneTask with cyc := 4 } : Core).cyc := by decide
/-- FaultsTaken: a report, a bound core, a handler. -/
theorem witness_report : oneTask.run = .run ∧ oneTask.why = none ∧ eventHeldFor (tasked fun k => { k with reports := [⟨14, 3, 0, 0, 255, 255, true, false, false, 0⟩] }) 0 = false
    ∧ oneTask.bound = true ∧ twf (fun _ => 0) oneTask.f.s = true ∧ ((State.reset.modCore 0 fun k => { k with run := .handler }).core 0).run = .handler := by decide +kernel

/-- An entry of a queue with one part in the scratchpad. -/
def acc (k : AccKind) (n : Nat) : Acc := ⟨0, k, .s 5, .glob, 7, 0, 0x10000, false, [⟨0x10000, n, 0, some (.plain pad0)⟩], 9, false, false, false⟩
theorem heads_of {s : State} {sel : AccKind → Bool} {k : AccKind} {n : Nat} {wr : Bool} (h : sel k = true) (p : (homeOf s pad0).isSome = true
    ∧ badHome s (acc k n) pad0 = false ∧ placeWaits s pad0 wr = false) : Heads s [acc k n] [] sel wr (acc k n) 0 ⟨0x10000, n, 0, some (.plain pad0)⟩ pad0 :=
  ⟨rfl, h, rfl, rfl, (by intro q hq; have := List.mem_singleton.1 hq; rw [this]; exact ⟨.plain pad0, rfl, p.1, p.2.1⟩), (fun h => by cases h), rfl,
    rfl, p.2.2⟩
/-- AccessesPerform: a load, a store, a signal, an atomic, a queue advance at both ends of its range, an old value, and a probe fill. -/
theorem witness_heads : Heads (inCtx fun x => { x with loadQ := [acc (.ldS 8 false) 8] }) [acc (.ldS 8 false) 8] [] isLoadKind false (acc (.ldS 8 false) 8) 0
      ⟨0x10000, 8, 0, some (.plain pad0)⟩ pad0
    ∧ Heads (inCtx fun x => { x with storeQ := [acc .st 8] }) [acc .st 8] [] (fun q => decide (q = .st) || decide (q = .sig false)) true (acc .st 8) 0
      ⟨0x10000, 8, 0, some (.plain pad0)⟩ pad0
    ∧ Heads (inCtx fun x => { x with storeQ := [acc (.atom .add 1 0 (some 64) 5 0 0) 4] }) [acc (.atom .add 1 0 (some 64) 5 0 0) 4] [] isAtomKind true
      (acc (.atom .add 1 0 (some 64) 5 0 0) 4) 0 ⟨0x10000, 4, 0, some (.plain pad0)⟩ pad0
    ∧ Heads (inCtx fun x => { x with storeQ := [acc (.sig true) 8] }) [acc (.sig true) 8] [] isAtomKind true (acc (.sig true) 8) 0
      ⟨0x10000, 8, 0, some (.plain pad0)⟩ pad0 ∧ Unmarked [] ∧ acquireWaits oneTask.t 0 = false ∧ releaseWaits State.reset 0 oneTask.t 3 0 = false :=
  ⟨heads_of rfl (by decide +kernel), heads_of rfl (by decide +kernel), heads_of rfl (by decide +kernel), heads_of rfl (by decide +kernel),
    (by intro a h; cases h), by decide, by decide⟩
/-- Queue 3 of 64 units, enabled, with 5 written. -/
def queued : State := ((State.reset.setReg (qreg 3 0) 0x100000).setReg (qreg 3 8) (6 + 256)).setReg (qreg 3 16) 5
theorem witness_dqadv : qWr queued 3 < 6 ∧ 64 ≤ qRd queued 3 + 2 ^ qLogsz queued 3 ∧ qWr queued 3 < 64 := by decide +kernel
theorem witness_old : Pad (inCtx fun x => { x with olds := [⟨0, 64, 8, 9, 5⟩] }) (localBase 0 oneTask + 64) 8 := pad_of (d := 0) (by decide +kernel)
theorem witness_fill : ∀ i, i < 8 → Pad (tasked id) (localBase 0 oneTask + 256 + 32 * i) 32 ∧ (7 : VReg).getLsbD (2048 + i) = false := by
  intro i h
  have : i = 0 ∨ i = 1 ∨ i = 2 ∨ i = 3 ∨ i = 4 ∨ i = 5 ∨ i = 6 ∨ i = 7 := by omega
  obtain rfl | rfl | rfl | rfl | rfl | rfl | rfl | rfl := this <;> exact ⟨pad_of (d := 0) (by decide +kernel), by decide +kernel⟩

/-- Page tables of context 0 that map 0x10000 to the scratchpad of core 0. -/
def tables (g : Core → Core) : State := paged [(0xC008, 15), (0xC00C, 1), (0xC00D, 10)] (tasked g)
def missed : Acc := { acc (.ldS 8 false) 8 with pieces := [⟨0x10000, 8, 0, none⟩] }
/-- TranslationEvents: a walk that finds a leaf, one that finds no table, a miss that waits. -/
theorem witness_walk : walk (tables id) 0 0x10000 = .ok (false, 0x0A010000000F) ∧ walk (tasked id) 0 0x10000 = .error 1
    ∧ cached (tables id) 0 0x10000 = none ∧ checkLeaf (tables id) 0 0x10000 (accNeed missed) none false 0x0A010000000F = .ok (.plain pad0)
    ∧ badHome (tables id) missed pad0 = false ∧ (tasked fun k => { k with missWait := true }).missQ.length < 4096 :=
  ⟨ok_of (by decide +kernel), err_of (by decide +kernel), by decide +kernel, by decide +kernel, by decide +kernel, by decide +kernel⟩
theorem witness_missed : (queueOf ({ oneTask.t with loadQ := [missed] }) false)[0]? = some missed ∧ Unmarked [missed] ∧ missed.held = false :=
  ⟨rfl, (by intro a h; have := Option.some.inj h; rw [← this]; exact ⟨by decide, fun sc h => by cases h⟩), rfl⟩
theorem ends_of {s : State} {ctx va : Nat} (h : ((walkPath s ctx va).dropLast.all (fun a => dramAt s a 8) && match (walkPath s ctx va).getLast? with
      | some b => (homeOf s b).isNone || (decide (homeOf s b = some .hbm) && !rowStale s (hbmLoc s b) && decide (flipsAt s b = 0))
      | none => true) = true) : WalkEnds s ctx va := by
  simp only [Bool.and_eq_true] at h
  refine ⟨fun a ha => dram_of (List.all_eq_true.1 h.1 a ha), fun b hb => ?_⟩
  have := h.2
  rw [hb] at this
  simp only [Bool.or_eq_true, Bool.and_eq_true, Option.isNone_iff_eq_none, Bool.not_eq_true', decide_eq_true_eq] at this
  rcases this with e | e
  · exact .inl e
  · exact .inr (.inr ⟨e.1.1, e.1.2, e.2⟩)
/-- TranslationEvents: a walk that fails: at a poisoned entry, at a table where nothing is assigned, at an entry that is not there. -/
def lostTable : State := { tables id with mem := [(0x1001, 0x40), (0x1008, 1), (0x4000, 1), (0x4001, 0x80), (0x8000, 1), (0x8005, 0x0C)] }
theorem witness_walk_fails : walk { tables id with poison := [0xC008 / 32] } 0 0x10000 = .error 0 ∧ walk lostTable 0 0x10000 = .error 5
    ∧ xlatWaitsAt (tables id) 0 false 0x10000 = false ∧ cached lostTable 0 0x10000 = none ∧ ((tables id).core 0).run = .run :=
  ⟨err_of (by decide +kernel), err_of (by decide +kernel), by decide +kernel, by decide +kernel, by decide +kernel⟩
theorem witness_walk_ends : WalkEnds { tables id with poison := [0xC008 / 32] } 0 0x10000 ∧ WalkEnds lostTable 0 0x10000 ∧ WalkEnds (tasked id) 0 0x10000 :=
  ⟨ends_of (by decide +kernel), ends_of (by decide +kernel), ends_of (by decide +kernel)⟩
/-- A leaf that a check refuses: one that lets nothing write, and one of a page of the host. -/
def readOnly : State := paged [(0xC008, 7), (0xC00C, 1), (0xC00D, 10)] (tasked id)
theorem witness_refused_leaf : walk readOnly 0 0x10000 = .ok (false, 0x0A0100000007) ∧ cached readOnly 0 0x10000 = none
    ∧ checkLeaf readOnly 0 0x10000 (accNeed { missed with kind := .st }) none false 0x0A0100000007 = .fail .page 3
    ∧ checkLeaf readOnly 0 0x10000 (accNeed missed) none false 0x0A010000003F = .fail .migrate 0 :=
  ⟨ok_of (by decide +kernel), by decide +kernel, by decide +kernel, by decide +kernel⟩
theorem witness_refused_clean : WalkClean readOnly 0 0x10000 := clean_of (by decide +kernel)
/-- ProbeAndLineLocks, TranslationEvents: a line lock whose walk waits, while the die under its tables is mapped out, and one whose walk waits no
more, whose address translates and does not. -/
def keptLock : Acc := ⟨0, .line true, .s 5, .glob, 14, 0, 0x10000, false, [⟨0x10000, 1, 0, none⟩], 0, false, false, false⟩
def locking (g : Core → Core) : Core → Core := fun k => g { k with t := { k.t with lineQ := [keptLock] } }
theorem witness_line_waits : xlatWaitsAt (mapped.setReg (errReg 0x100) 64) 0 false 0x10000 = true ∧ xlatWaitsAt mapped 0 false 0x10000 = false
    ∧ xlatWaitsAt busy 0 false 0 = false := by decide +kernel
theorem witness_kept_lock : ((tables (locking id)).core 0).t.lineQ[0]? = some keptLock ∧ keptLock.held = false
    ∧ xlatWaitsAt (tables (locking id)) 0 false 0x10000 = false ∧ translateAt (tables (locking id)) 0 0x10000 needRead = .ok (.plain pad0)
    ∧ translateAt (tasked (locking id)) 0 0x10000 needRead = .fail .page 1 ∧ xlatWaitsAt (tasked (locking id)) 0 false 0x10000 = false := by decide +kernel
/-- SynchronisationEvents: an arrival, a count, a full barrier, a TOKST, a CTRW at its threshold. -/
theorem witness_sync : laneCore (tasked fun k => { k with barQ := [⟨5, 0, 0, none, 0⟩] }) 0 0 0 = some 0
    ∧ barBehind { oneTask with barQ := [⟨5, 0, 0, some 3, 0⟩] } ⟨5, 0, 0, some 3, 0⟩ = false ∧ arrivalWaits (tasked id) 0 0 = false
    ∧ (barAt (tasked id) 0 5).arr ≠ (barAt (tasked id) 0 5).cnt
    ∧ (barAt (tasked fun k => { k with bars := [(5, ⟨1, 1, 0, none⟩)] }) 0 5).cnt ≤ (barAt (tasked fun k => { k with bars := [(5, ⟨1, 1, 0, none⟩)] }) 0 5).arr
    ∧ tokstWaits oneTask.t 0 = false ∧ translateAt (tables id) 0 0x10000 needRead = .ok (.plain pad0) ∧ (0 : Word).toNat ≤ memGetN (tables id).mem pad0 8 := by
  decide +kernel

/-- A command of core 0. -/
def command (i : Instr) : Cmd := ⟨0, i, 0, 0, 0, 64, 128, 0, 0, none, some 5, [], some [], true, 0, 0, false, 0, none, 0, [], none, []⟩
def ec : EC := ⟨0, 0, 0, 69, 0, 0, 0⟩
/-- A fill of 32 bytes of one dimension. -/
def fill : Cmd := { command (.cpfill ⟨ec, 1, 2, 0, 3⟩) with shape := 32 + 2 ^ 384 }
def copying (m : Cmd) : State := tasked fun k => { k with cpQ := [m] }
/-- EngineEvents: a fill that has begun, and one read ahead; a counter; commands of a hearth that stopped, change mode, or report; the end of a
copy with a block and without. -/
theorem witness_copy : copyAt (copying fill) 0 0 false = some fill ∧ isStoreCopy fill = false ∧ fill.prog < copyTotal fill ∧ dstLen fill 0 = 32 ∧ fill.buf = [] := by
  decide +kernel
theorem witness_copy_bytes : ∀ t, readPos fill ≤ t → t < fill.prog + 32 → ∃ w, Brings (copying fill) fill t (srcLen fill t) w
    ∧ ∀ j, j < srcLen fill t → padAt fill (t + j) = w / 2 ^ (8 * j) % 256 := by
  intro t _ h
  have e : ∀ t, t < 32 → ∀ j, j < srcLen fill t → padAt fill (t + j)
      = joinBytes ((List.range (srcLen fill t)).map fun i => (padAt fill (t + i), false)) / 2 ^ (8 * j) % 256 := by decide +kernel
  exact ⟨_, ⟨rfl, .inl ⟨rfl, rfl⟩⟩, e t (by simpa [fill, command] using h)⟩
theorem witness_copy_pad : Pad (copying fill) (localBase 0 ((copying fill).core 0) + dstAt fill 0) (dstLen fill 0) := pad_of (d := 0) (by decide +kernel)
/-- Each kind of place at a copy's global end, and of counter: the read of a load-direction copy, the write of a store-direction one, and its two
counters, one of them absent. -/
def loadCopy : Cmd := { command (.cpyl ⟨ec, 1, 2, 0, 3⟩) with b := 0x10000, shape := 32 + 2 ^ 384 }
def storeCopy : Cmd := { command (.cpys ⟨ec, 1, 2, 0, 3⟩) with b := 0x10000, shape := 32 + 2 ^ 384, blk := some (toBytes 64 (5 * 2 ^ 64 + 0x10000 * 2 ^ 128)) }
theorem witness_load_end : GlobAt (tables id) loadCopy false 0x10000 pad0 := open_of (by decide +kernel)
theorem witness_store_end : GlobAt (tables id) storeCopy true (dstAt storeCopy 0) pad0 := open_of (by decide +kernel)
theorem witness_ends_of_copies : srcAt loadCopy 0 = some 0x10000 ∧ srcAt storeCopy 0 = some 0 ∧ isStoreCopy storeCopy = true ∧ blkN (blkOf storeCopy) 0 8 = 0
    ∧ copyTotal storeCopy = 32 ∧ srcLen storeCopy 0 = 32 ∧ (∀ t, t < 32 → dstOpen (tables id) storeCopy t = true) := by decide +kernel
/-- A destination that fails, with nothing read ahead; and a copy whose last source sector is read next, or not. -/
theorem witness_copy_fails : copyAt (copying storeCopy) 0 0 false = some storeCopy ∧ copyAt (copying storeCopy) 0 0 true = some storeCopy
    ∧ destRes (copying storeCopy) storeCopy (dstAt storeCopy 0) = .fail .page 1 ∧ destWaits (copying storeCopy) storeCopy (dstAt storeCopy 0) = false ∧ dstOpen (copying storeCopy) storeCopy (readPos storeCopy) = false
    ∧ readPos storeCopy + 32 = copyTotal storeCopy ∧ copyAt (copying loadCopy) 0 0 true = some loadCopy := by decide +kernel
theorem witness_store_reads : Brings (tables id) storeCopy 0 32 (memGetN (tables id).mem (localBase 0 oneTask) 32) :=
  ⟨by decide +kernel, .inr ⟨0, localBase 0 oneTask, by decide +kernel, pad_of (d := 0) (by decide +kernel), rfl, rfl⟩⟩
/-- A destination by the translation kept for its sector, and by none; the walks of those of the copy; a copy of nothing behind another of its
channel. -/
theorem dest_kept_of {s : State} {m : Cmd} {g x : Nat} {y : Phys} (h : destKept m g = some y) (e : ({ y with pa := y.pa + g % 32 } : Phys) = .plain x) :
    DestAt s m g x := by unfold DestAt; rw [h]; exact e
theorem dest_new_of {s : State} {m : Cmd} {g x : Nat} (h : destKept m g = none) (e : GlobAt s m true g x) : DestAt s m g x := by
  unfold DestAt; rw [h]; exact e
theorem witness_kept_end : DestAt (tables id) { storeCopy with dests := [(0x10000 / 32, .plain pad0)] } 0x10000 pad0 :=
  dest_kept_of (y := .plain pad0) (by decide +kernel) (by decide +kernel)
theorem witness_new_end : DestAt (tables id) storeCopy (dstAt storeCopy 0) pad0 := dest_new_of (by decide +kernel) witness_store_end
theorem walks_ends : ∀ t, t < 32 → (walkPath (tables id) storeCopy.ctx (dstAt storeCopy t)).all (fun a => dramAt (tables id) a 8) = true := by decide +kernel
theorem witness_dests : DestsClean (tables id) storeCopy := fun _ t ht a ha => by
  rw [show copyTotal storeCopy = 32 by decide +kernel] at ht
  exact dram_of (List.all_eq_true.1 (walks_ends t ht) a ha)
def nothing : Cmd := { fill with shape := 2 ^ 384, blk := some [] }
theorem witness_copy_of_nothing : copyAt (tasked fun k => { k with cpQ := [fill, nothing] }) 0 1 false = none
    ∧ copyAt (tasked fun k => { k with cpQ := [fill, nothing] }) 0 1 true = some nothing ∧ copyTotal nothing = 0 := by decide +kernel
theorem witness_load_reads : Brings (tables id) loadCopy 0 32 (memGetN (tables id).mem pad0 32) :=
  ⟨by decide +kernel, .inr ⟨0x10000, pad0, by decide +kernel, pad_of (d := 0) (by decide +kernel), rfl, by
    rw [if_neg (by decide)]; exact witness_load_end⟩⟩
theorem witness_dues : Dues (tables id) storeCopy 0 5 [] ∧ Dues (tables id) storeCopy 0x10000 5 [⟨0, .plain pad0, 5, false, 0x10000, 0⟩] :=
  ⟨.inl ⟨rfl, rfl⟩, .inr ⟨by decide, .plain pad0, open_of (by decide +kernel), rfl⟩⟩
theorem witness_counter : Pad { State.reset with counters := [⟨0, .plain pad0, 1, false, 0x10000, 0⟩] } pad0 8 := pad_of (d := 0) (by decide +kernel)
def hearths (x : Hearth) : State := (tasked id).modHearth 0 fun _ => x
def commanded (m : Cmd) : Hearth := { Hearth.reset with cmds := [m] }
theorem witness_commands : ((hearths (commanded { command (.mclr ⟨ec, 1⟩) with stopped := true })).hearth 0).cmds[0]? = some { command (.mclr ⟨ec, 1⟩) with stopped := true }
    ∧ Pad (hearths (commanded (command (.mstat ⟨ec, 1, 2⟩)))) (localBase 0 oneTask + 64) 8 := ⟨by decide +kernel, pad_of (d := 0) (by decide +kernel)⟩
def done (b : List Byte) : Cmd := { fill with prog := 32, blk := some b }
theorem witness_copy_end : copyAt (copying (done [])) 0 0 false = some (done []) ∧ (done []).prog = copyTotal (done [])
    ∧ copyAt (copying (done (List.replicate 64 0))) 0 0 false = some (done (List.replicate 64 0)) ∧ (done (List.replicate 64 0)).prog = copyTotal (done (List.replicate 64 0))
    ∧ blkN (List.replicate 64 0) 0 8 = 0 := by decide +kernel
theorem witness_copy_end_pad : Pad (copying (done (List.replicate 64 0))) (localBase 0 oneTask + (128 + 56)) 8 := pad_of (d := 0) (by decide +kernel)
/-- The end of a copy whose counter is at a page of the task. -/
theorem witness_copy_counter : blkN (toBytes 64 (0x10000 + 5 * 2 ^ 64)) 0 8 = 0x10000
    ∧ translate (paged [(0xC008, 15), (0xC00C, 1), (0xC00D, 10)] (copying (done (toBytes 64 (0x10000 + 5 * 2 ^ 64))))) 0 0x10000 needBoth none
      = .ok (.plain pad0) := by decide +kernel

/-- BankAndLinkEvents: a compare of bank 0 of a near-bank page; a send that may be ready, one ready at its stamp. -/
def compare : Cmd := { command (.bkcmp ⟨ec, 1, 2, 3⟩) with a := 0x10000, b := 1, started := false, blk := some (List.replicate 64 0) }
def banked : State := (paged [(0xC008, 0x4F), (0xC00A, 0x20)] (copying compare)).setReg 0x0E0007030010 4
theorem witness_bank : bankAt banked 0 0 = some compare ∧ lateBlock banked compare = none ∧ bankPlace banked compare = .ok (.plain 0x200000)
    ∧ bankBlocked banked 0 0 compare (.plain 0x200000) = false ∧ listFull banked compare (.plain 0x200000) = false := by decide +kernel
/-- 32 codes of fp32 on link 2 at stamp 1. -/
def sendBlock : List Byte := toBytes 64 (1 + 32 * 2 ^ 64 + 2 * 2 ^ 96)
def send : Cmd := { command (.lxfr ⟨ec, 1, 0, 3, 0⟩) with a := 0, blk := some sendBlock, started := false }
def linked (m : Cmd) (frame : Nat) : State := { ((copying m).setReg 0x0E0006040000 (0x80 + 1200 * 256)).setReg (lnkstat 2) 2 with frameLost := false }.setReg frameReg (BitVec.ofNat 64 frame)
def sending : Cmd := { send with started := true, peer := some (32, 0) }
theorem witness_link : linkAt (linked send 0) 0 0 = some send ∧ lateBlock (linked send 0) send = none ∧ linkDue (linked send 0) send = false
    ∧ linkTwin (linked send 0) 0 0 send.rprog (linkOf (blkOf send)) = false ∧ linkAt (linked sending 1) 0 0 = some sending ∧ (linkOf (blkOf sending)).stamp = frameNow (linked sending 1)
    ∧ (linkOf (blkOf sending)).role = 0 ∧ domEn (linked sending 1) = true ∧ linkUp (linked sending 1) 2 = true ∧ peerMatches sending (linkOf (blkOf sending)) = true := by
  decide +kernel

/-- A selector of macro 3 of layer 0, both halves. -/
def both : Word := BitVec.ofNat 64 (3 + 2 ^ 18 + 2 ^ 26 + 2 ^ 27)
/-- A handle entry of 256 rows of 32 mxint8 columns at address 0 (08 R213). -/
def tile0 : List Byte := toBytes 32 (256 * 2 ^ 128 + 32 * 2 ^ 160 + 14 * 2 ^ 192 + 3 * 2 ^ 200)
def waits (i : Instr) : Cmd := { command i with a := both, started := false }
/-- HearthCommandsTakeEffect: nothing before the command; a change to compute within the cap; a pass and a load whose halves are in the right
mode, or not. -/
theorem witness_effect : ∀ i, i ∈ ([.mmode ⟨ec, 1, 0, 0⟩, .mmode ⟨ec, 1, 1, 1⟩, .mclr ⟨ec, 1⟩, .mstat ⟨ec, 1, 2⟩, .mmac ⟨ec, 1, 2, 0, 0, 0⟩, .mwld ⟨ec, 1, 2⟩,
    .mdrn ⟨ec, 1, 2, 0, 0, 0⟩] : List Instr) → hearthBlocked (commanded (waits i)) 0 = false ∧ lateBad (hearths (commanded (waits i))) { waits i with blk := some tile0 } = none
      ∧ cmdHalves (waits i) = [6, 7] := by decide +kernel
theorem witness_mode : (∀ g, g ∈ [6, 7] → (halfOf Hearth.reset g).wbad = false ∧ (halfOf Hearth.reset g).compute = false)
    ∧ ncomp ([6, 7].foldl (fun y g => setHalf y g { halfOf y g with compute := true }) Hearth.reset) ≤ allowOf State.reset 0
    ∧ (halfOf (setHalf Hearth.reset 6 ⟨true, false, false, false⟩) 6).compute = true := by decide +kernel
/-- The refusals: a change past the cap, one macro against a cap of none; over a WBAD half; a pass over one. -/
theorem witness_refusals : ncomp Hearth.reset < ncomp ([6, 7].foldl (fun y g => setHalf y g { halfOf y g with compute := true }) Hearth.reset)
    ∧ allowOf ((hearths (commanded (waits (.mmode ⟨ec, 1, 1, 1⟩)))).setReg (hallowReg 0) 0) 0
      < ncomp ([6, 7].foldl (fun y g => setHalf y g { halfOf y g with compute := true }) Hearth.reset)
    ∧ (halfOf (setHalf Hearth.reset 6 ⟨false, false, true, false⟩) 6).wbad = true
    ∧ (halfOf (setHalf Hearth.reset 7 ⟨true, false, true, false⟩) 7).compute = true ∧ (halfOf (setHalf Hearth.reset 7 ⟨true, false, true, false⟩) 7).wbad = true
    ∧ ((hearths (commanded (waits (.mmode ⟨ec, 1, 1, 1⟩)))).core 0).run = .run := by decide +kernel
/-- HearthWork: a pass that has its first and its last vector to do, a load, a drain to a register, a hearth that is zeroed. -/
def pass (n : Nat) : Cmd := { waits (.mmac ⟨ec, 1, 2, 0, 0, 0⟩) with started := true, prog := n }
theorem witness_pass : (hearths (commanded (pass 0))).hearth 0 = commanded (pass 0) ∧ (pass 0).prog < 16 ∧ (pass 15).prog < 16 ∧ (pass 16).prog = 16
    ∧ allowOf (hearths (commanded (pass 0))) 0 ≠ 0 ∧ (cmdHalves (pass 0)).Nodup ∧ twf (fun _ => 0) (commanded (pass 0)).acc = true := by decide +kernel
/-- A tile whose weights and scales stand at 0x10000 of context 0, in a scratchpad that holds zeros. -/
def tileZ : List Byte := toBytes 32 (0x10000 + 0x10000 * 2 ^ 64 + 256 * 2 ^ 128 + 32 * 2 ^ 160 + 14 * 2 ^ 192 + 3 * 2 ^ 200)
def loading : State := paged [(0xC008, 15), (0xC00C, 1), (0xC00D, 10)] (hearths (commanded { waits (.mwld ⟨ec, 1, 2⟩) with started := true, blk := some tileZ }))
/-- Row `j` is read from a scratchpad as zeros, and its zeros leave the half as it was. -/
def rowStill (s : State) (va dst x j : Nat) : Bool := openAt s 0 (va + 32 * j) needRead (x + 32 * j) && decide ((va + 32 * j) % 32 = 0)
  && padAt' s (x + 32 * j) 32 && decide (memGetN s.mem (x + 32 * j) 32 = 0) && decide ((storeAt s (.plain (dst + 32 * j)) 32 0).1 = s)
  && (match homeOf s (dst + 32 * j) with
    | some (.cim hr hf) => !(halfOf (s.hearth hr) hf).compute
    | some (.side hr hf) => !(halfOf (s.hearth hr) hf).compute
    | _ => false)
theorem rowStill_row {s : State} {va dst x j : Nat} (h : rowStill s va dst x j = true) (n : Nat) (l : Tab Nat) :
    (∃ n' l', pullBytes (s.worn n l) 0 (va + 32 * j) 3 32 = (⟨s.worn n' l', 0, false, false, .done⟩, 0))
    ∧ storeAt (s.worn n l) (.plain (dst + 32 * j)) 32 0 = (s.worn n l, .done) := by
  unfold rowStill at h
  simp only [Bool.and_eq_true, decide_eq_true_eq] at h
  obtain ⟨⟨⟨⟨⟨ho, hv⟩, hp⟩, hz⟩, hs⟩, hh⟩ := h
  constructor
  · obtain ⟨n', l', e⟩ := worn_pullBytes n l hv (open_of ho) (open_root ho) (pad_of (d := 0) hp)
    exact ⟨n', l', by rw [e, hz]⟩
  · rw [worn_storeAt n l, hs]
    revert hh
    split
    · rename_i hr hf e; exact fun q => .inr ⟨hr, hf, .inl e, by simpa using q⟩
    · rename_i hr hf e; exact fun q => .inr ⟨hr, hf, .inr e, by simpa using q⟩
    · intro q; cases q
theorem pullRun_still {s : State} : ∀ (k va dst x : Nat), dst % 32 = 0 → (∀ j, j < k → rowStill s va dst x j = true) → ∀ (n : Nat) (l : Tab Nat),
    ∃ n' l', pullRun (s.worn n l) 0 va dst (k + 1) (32 * k) = ⟨s.worn n' l', 32 * k, false, false, .done⟩
  | 0, _, _, _, _, _, n, l => ⟨n, l, rfl⟩
  | k + 1, va, dst, x, hd, h, n, l => by
    obtain ⟨⟨n1, l1, e1⟩, -⟩ := rowStill_row (h 0 (by omega)) n l
    obtain ⟨-, e2⟩ := rowStill_row (h 0 (by omega)) n1 l1
    simp only [Nat.mul_zero, Nat.add_zero] at e1 e2
    obtain ⟨n', l', hr⟩ := pullRun_still k (va + 32) (dst + 32) (x + 32) (by omega) (fun j hj => by
      have := h (j + 1) (by omega)
      simpa only [rowStill, Nat.mul_add, Nat.add_assoc, Nat.add_comm 32, Nat.mul_one] using this) n1 l1
    have hk : min (32 * (k + 1)) (32 - dst % 32) = 32 := by omega
    refine ⟨n', l', ?_⟩
    rw [pullRun, if_neg (by omega)]
    simp only [hk, e1, e2, Bool.false_eq_true, if_false, show 32 * (k + 1) - 32 = 32 * k by omega, hr]
    simp [Nat.mul_add]
-- The rows by quarters, so that no one theorem evaluates them all.
theorem rows_first : (List.range 64).all (fun j => rowStill loading 0x10000 (halfAddr 0 6) pad0 j) = true := by decide +kernel
theorem rows_second : (List.range 64).all (fun j => rowStill loading 0x10000 (halfAddr 0 6) pad0 (64 + j)) = true := by decide +kernel
theorem rows_third : (List.range 64).all (fun j => rowStill loading 0x10000 (halfAddr 0 6) pad0 (128 + j)) = true := by decide +kernel
theorem rows_fourth : (List.range 64).all (fun j => rowStill loading 0x10000 (halfAddr 0 6) pad0 (192 + j)) = true := by decide +kernel
theorem rows_scales : (List.range 16).all (fun j => rowStill loading 0x10000 (sideAddr 0 6) pad0 j) = true := by decide +kernel
theorem rows_weights (j : Nat) (hj : j < 256) : rowStill loading 0x10000 (halfAddr 0 6) pad0 j = true := by
  have at_ : ∀ k i, (List.range 64).all (fun j => rowStill loading 0x10000 (halfAddr 0 6) pad0 (k + j)) = true → k ≤ i → i < k + 64 →
      rowStill loading 0x10000 (halfAddr 0 6) pad0 i = true := fun k i h h1 h2 => by
    have := List.all_eq_true.mp h (i - k) (List.mem_range.mpr (by omega))
    rwa [show k + (i - k) = i by omega] at this
  rcases (by omega : j < 64 ∨ (64 ≤ j ∧ j < 128) ∨ (128 ≤ j ∧ j < 192) ∨ 192 ≤ j) with h | ⟨h, h'⟩ | ⟨h, h'⟩ | h
  · exact List.all_eq_true.mp rows_first j (List.mem_range.mpr h)
  · exact at_ 64 j rows_second h (by omega)
  · exact at_ 128 j rows_third h (by omega)
  · exact at_ 192 j rows_fourth h (by omega)
theorem load_of {s w q : State} {h g ctx va : Nat} {t : Tile} (h1 : wrapNat 64 (t.base + (0 : Nat) * 0) = va)
    (h2 : wrapNat 64 (t.scale + (0 : Nat) * 0) = va) (hw : pullRun s ctx va (halfAddr h g) 257 8192 = ⟨w, 8192, false, false, .done⟩)
    (hq : pullRun w ctx va (sideAddr h g) 17 512 = ⟨q, 512, false, false, .done⟩) :
    (loadHalf s h g ctx t 0 0 0).met = .done ∧ (loadHalf s h g ctx t 0 0 0).s = q := by
  unfold loadHalf
  rw [h1, h2, hw]
  simp only [hq]
  exact ⟨trivial, trivial⟩
theorem load_still : ∃ n l, (loadHalf loading 0 6 0 (tileOf tileZ) 0 0 0).met = .done
    ∧ (loadHalf loading 0 6 0 (tileOf tileZ) 0 0 0).s = loading.worn n l := by
  obtain ⟨n1, l1, e1⟩ := pullRun_still 256 0x10000 (halfAddr 0 6) pad0 (by decide) rows_weights loading.fresh loading.acnt
  obtain ⟨n2, l2, e2⟩ := pullRun_still 16 0x10000 (sideAddr 0 6) pad0 (by decide) (fun j hj => List.all_eq_true.mp rows_scales j (List.mem_range.mpr hj)) n1 l1
  exact ⟨n2, l2, load_of (va := 0x10000) (by decide) (by decide) e1 e2⟩
theorem witness_load : (loadHalf loading 0 6 0 (tileOf tileZ) 0 0 0).met = .done ∧ (cmdHalves (waits (.mwld ⟨ec, 1, 2⟩)))[0]? = some 6
    ∧ twf (fun _ => Half.reset) ((loadHalf loading 0 6 0 (tileOf tileZ) 0 0 0).s.hearth 0).halves = true := by
  obtain ⟨n, l, h, e⟩ := load_still
  rw [h, e]
  exact ⟨rfl, by decide +kernel, show twf (fun _ => Half.reset) (loading.hearth 0).halves = true by decide +kernel⟩
theorem witness_drain : ({ waits (.mdrn ⟨ec, 1, 2, 0, 0, 0⟩) with started := true, vdest := some (.main 5) } : Cmd).vdest = some (.main 5)
    ∧ ((hearths { Hearth.reset with zeroing := true }).hearth 0).zeroing = true := by decide +kernel
/-- HearthWork: a column's accumulator block by block. -/
def colAcc (a4 w4 : Bool) (sa sw : Nat → Nat) (sum : Nat → Int) (old : Nat) : Nat → Nat × Flags
  | 0 => (old, 0)
  | b + 1 =>
    let p := colAcc a4 w4 sa sw sum old b
    if sa b = 255 ∨ sw b = 255 ∨ (decodeFmt 0 p.1).isNan = true then (0x7FC00000, p.2)
    else
      let c := (convert (vAdd (decodeFmt 0 p.1) (.fin (decide (sum b < 0)) (sum b).natAbs
        (((sa b : Int) - 127) + ((sw b : Int) - 127) + (if a4 then -1 else -6) + (if w4 then -1 else -6)))).1 0 .rne).1
      if c % 2 ^ 31 = 0x7F800000 then (c - 1, p.2 ||| Flags.overflow) else if c = 0x80000000 then (0, p.2) else (c, p.2)
/-- Any blocks driven from `first` on, codes and weights, and an accumulator at the largest finite value. -/
theorem witness_column (a4 w4 : Bool) (sw : Nat → Nat) (wt : Nat → Int) (first : Nat) (blocks : List (Nat × List Nat)) :
    ∃ (sa : Nat → Nat) (sum : Nat → Int) (acc : Nat → Nat × Flags), acc 0 = (0x7F7FFFFF, 0) ∧ 0x7F7FFFFF % 2 ^ 31 ≠ 0x7F800000
    ∧ (∀ b sc codes, first ≤ b → blocks[b - first]? = some (sc, codes) →
        sa b = sc ∧ sum b = ((List.range 32).map fun i => mxInt a4 (codes.getD i 0) * wt (32 * b + i)).sum)
    ∧ (∀ b, b < first ∨ blocks[b - first]? = none → sa b = 0 ∧ sum b = 0)
    ∧ ∀ (b : Nat) (v : Val) (c : Nat), v = (vAdd (decodeFmt 0 (acc b).1) (.fin (decide (sum b < 0)) (sum b).natAbs
          (((sa b : Int) - 127) + ((sw b : Int) - 127) + (if a4 then -1 else -6) + (if w4 then -1 else -6)))).1 → c = (convert v 0 .rne).1 →
        acc (b + 1) = if sa b = 255 ∨ sw b = 255 ∨ (decodeFmt 0 (acc b).1).isNan = true then (0x7FC00000, (acc b).2)
          else if c % 2 ^ 31 = 0x7F800000 then (c - 1, (acc b).2 ||| Flags.overflow)
          else if c = 0x80000000 then (0, (acc b).2) else (c, (acc b).2) := by
  let blk : Nat → Option (Nat × List Nat) := fun b => if first ≤ b then blocks[b - first]? else none
  let sa : Nat → Nat := fun b => match blk b with
    | some (sc, _) => sc
    | none => 0
  let sum : Nat → Int := fun b => match blk b with
    | some (_, codes) => ((List.range 32).map fun i => mxInt a4 (codes.getD i 0) * wt (32 * b + i)).sum
    | none => 0
  refine ⟨sa, sum, colAcc a4 w4 sa sw sum 0x7F7FFFFF, rfl, by decide, fun b sc codes hf hb => ?_, fun b hb => ?_, fun b v c hv hc => ?_⟩
  · have h : blk b = some (sc, codes) := (if_pos hf).trans hb
    simp only [sa, sum, h]
    exact ⟨trivial, trivial⟩
  · have h : blk b = none := by
      rcases hb with h | h
      · exact if_neg (by omega)
      · show (if first ≤ b then blocks[b - first]? else none) = none
        rw [h]; split <;> rfl
    simp only [sa, sum, h]
    exact ⟨trivial, trivial⟩
  · subst hv; subst hc; rfl
/-- LeaseEvents: a request, a lease at its end with and without another request, an idle lease. -/
theorem witness_leases : nextHolder (hearths { Hearth.reset with wants := [0] }) 0 = some 0 ∧ eventHeldFor (hearths { Hearth.reset with wants := [0] }) 0 = false
    ∧ setDel ({ Hearth.reset with wants := [0] } : Hearth).wants 0 = [] ∧ setDel ({ Hearth.reset with wants := [0, 1] } : Hearth).wants 0 ≠ []
    ∧ (0 : Nat) + 4096 ≤ ({ oneTask with cyc := 4096 } : Core).cyc := by decide +kernel

/-- A grid in flight of one task. -/
def grid1 : Grid := ⟨1, 1, 3, 0, 0, 1, 1, 1, 1, 1, 1, 0, 0, 0, [], 0, false, 0, 0, false, false, 0, 0, none, 1, 0, 0, 0, [], [], 0, false, none, none⟩
/-- The firmware has written a next record for core 0: grid 1, gang 7, PRS 0 or PRE, not in force. -/
def recorded (w1 : Nat) : State := ({ State.reset with grids := [grid1] }.setReg 0x0E0004000040 1).setReg 0x0E0004000048 (BitVec.ofNat 64 w1) |>.setReg 0x0E0004000058
  (BitVec.ofNat 64 (7 * 2 ^ 16))
def inForce (w1 : Nat) : State := (recorded w1).setReg 0x0E0004000078 1
/-- TaskStarts: a record not in force, that may be taken, with no claim and with one on the hearth the firmware chooses; one in force whose gang
may switch in; and those ignored: one that claims a claimed hearth, one of a grotto core, and one of a grid of the other kind of core. -/
theorem witness_records : nextValid (recorded 0) 0 = false ∧ nextValid (inForce 0) 0 = true ∧ recordBad (recorded 0) 0 (nextBind (recorded 0) 0) = false
    ∧ hearthChosen (recorded 0) 0 (nextBind (recorded 0) 0) = true ∧ hearthChosen (recorded (2 ^ 23)) 0 (nextBind (recorded (2 ^ 23)) 0) = true
    ∧ recordBad (recorded (2 ^ 23)) 0 (nextBind (recorded (2 ^ 23)) 0) = false
    ∧ kindBad { recorded 0 with grids := [{ grid1 with flags := 4 }] } 0 (nextBind (recorded 0) 0) = true
    ∧ preloadOpen (inForce 0) 0 = true ∧ preloadDeferred ((inForce 0).core 0) (nextBind (inForce 0) 0) = false ∧ ((inForce 0).core 0).imem.copy = none
    ∧ pairOf (inForce 0) (nextBind (inForce 0) 0) = none ∧ gridOf (inForce 0) (nextBind (inForce 0) 0) = some grid1 ∧ gangReady (inForce 0) (nextBind (inForce 0) 0) grid1 = true
    ∧ (0 : Nat) ∈ nextCores (inForce 0) 7 ∧ (nextBind (inForce 0) 0).resume = false ∧ Calm (inForce 0)
    ∧ claimConflict ((recorded (2 ^ 23)).modCore 1 fun _ => { oneTask with ident := { oneTask.ident with claim := true, gang := 9 } }) 0
        (nextBind (recorded (2 ^ 23)) 0) = true ∧ grottoBad 64 (nextBind (recorded (2 ^ 23)) 0) = true := by unfold Calm; decide +kernel
/-- A copy that is asked for, of a resident segment and of one that is not; one in progress, whose page there is, and is not. -/
def copyIn (s : Nat) : Core := { oneTask with imem := { IMem.reset with segtab := [⟨0, 0, 1⟩, ⟨64, 1, 1⟩], res0 := some 0, asked := [s] } }
theorem witness_segments : (copyIn 1).imem.copy = none ∧ (copyIn 1).imem.asked = [1] ∧ copyHalf (copyIn 1) (issuingAt (copyIn 1)) = 1 ∧ copyHalf { copyIn 1 with imem := { (copyIn 1).imem with res0 := none } } 0 = 0 ∧ halfOfSeg (copyIn 0) 0 ≠ none
    ∧ readBundles (tasked id) 0 64 1 = none ∧ (readBundles (paged [(0xC000, 15), (0xC002, 0x20)] (tasked id)) 0 64 1).isSome = true
    ∧ twf (fun _ => 0) (copyIn 1).imem.code = true ∧ (copyIn 1).imem.segtab[1]? = some ⟨64, 1, 1⟩ := by decide +kernel

/-- TaskEnds: a budget used up, a bound core and one that is not, a gang that may be captured, one that is discarded, a task that has issued
EXIT, a suspension whose condition holds and one whose address fails, a grid with nothing left. -/
theorem witness_ends : (oneTask.bound = true ∧ Core.reset.bound = false ∧ oneTask.why = none)
    ∧ (∀ d, d ∈ gangCores (tasked fun k => { k with why := some .preempt }) 0 → endReady (tasked fun k => { k with why := some .ended }) d = true)
    ∧ finishReady (tasked fun k => { k with exited := some 3 }) 0 = true
    ∧ (∀ d, d ∈ gangCores (tasked fun k => { k with exited := some 3 }) 0 → d = 0)
    ∧ blockHolds (tasked id) 0 ⟨0, 0, 0, 0, 0⟩ [] (List.replicate 128 0) = true
    ∧ blockHolds (tasked id) 0 ⟨0, 0, 0, 0, 0⟩ [] (toBytes 128 (1 + 0x30000 * 2 ^ 128 + 2 ^ 192 + 2 ^ 256)) = false
    ∧ blockFails (tasked id) 0 [] (toBytes 128 (1 + 0x30000 * 2 ^ 128 + 2 ^ 192 + 2 ^ 256)) = [(0, .page, 1)] := by decide +kernel
/-- A gang that is rerun with one task of it finished. -/
def rerunning : State := { tasked fun k => { k with why := some .rerun, finished := true } with grids := [grid1] }
theorem witness_rerun : (∀ d, d ∈ gangCores rerunning 0 → endReady rerunning d = true)
    ∧ ((gangCores rerunning 0).filter fun d => (rerunning.core d).finished).length = 1 := by decide +kernel
def ended : Grid := { grid1 with left := 0, sig := 0x10000, sigval := 5 }
theorem witness_grid_done : gridDone { mapped with grids := [ended] } ended = true ∧ translate { mapped with grids := [ended] } 0 0x10000 needWrite none = .ok (.plain pad0) := by
  decide +kernel
theorem witness_two_tasks : ∃ d, d ∈ gangCores ((tasked fun k => { k with exited := some 3 }).modCore 1 fun _ => oneTask) 0 ∧ d ≠ 0
    ∧ (((tasked fun k => { k with exited := some 3 }).modCore 1 fun _ => oneTask).core d).finished = false := ⟨1, by decide +kernel⟩

/-- Bytes that are not zero, from an address on, as cells. -/
def cellsAt (a : Nat) (l : List Nat) : List Host.Cell := (l.zipIdx.filter fun p => decide (p.1 ≠ 0)).map fun p => (a + p.2, BitVec.ofNat 8 p.1)
/-- Queue 3, its ring at VA 0x100000, which maps 0x200000 of HBM4E, with these units written. -/
def ring (l : List Host.Cell) (units : Nat) : State :=
  paged ([(0xC008, 15), (0xC00C, 1), (0xC00D, 10), (0xC080, 15), (0xC082, 0x20)] ++ l)
    (((State.reset.setReg (qreg 3 0) 0x100000).setReg (qreg 3 8) (6 + 256)).setReg (qreg 3 16) (BitVec.ofNat 64 units))
/-- LAUNCH of one group of one task, and an image of one stage of one segment of one bundle. -/
def launching (groups : Nat) : State := ring (cellsAt 0x200000 [1] ++ cellsAt 0x200008 [0, 0x10, 0x10] ++ cellsAt 0x200010 [groups, 0, 0, 0, 1, 0, 0, 0, 1, 0, 0, 0, 1]
  ++ cellsAt 0x201000 [0xC0, 0xA5, 1, 0, 1] ++ cellsAt 0x201041 [1] ++ cellsAt 0x201048 [1] ++ cellsAt 0x20110C [1]) 2
def packet (s : State) : List Byte := match dispatchable s 3 with
  | .ok b => b
  | _ => []
/-- A refused launch names neither record nor signal, and then each of them, at a page of the scratchpad; a signal whose address fails. -/
def refusedAt (rec_ sig : Nat) : List Byte := toBytes 128 (1 + sig * 2 ^ 448 + rec_ * 2 ^ 576)
theorem witness_refused : completionWaits (launching 0) 0 0 0 = false ∧ completionWaits (launching 0) 0 0x10000 0 = false ∧ completionWaits (launching 0) 0 0 0x10000 = false
    ∧ blkN (refusedAt 0x10000 0) 72 8 = 0x10000 ∧ blkN (refusedAt 0 0x10000) 56 8 = 0x10000 ∧ pkFlag (refusedAt 0 0x10000) 12 = false
    ∧ translate (offerLaunch { launching 0 with launchSeq := 1 } (mkGrid (launching 0) 3 0 (refusedAt 0x10000 0) ⟨0, 0, 1, 0, 0, [], []⟩ none) 0) 0 0x10000
        needWrite none = .ok (.plain pad0)
    ∧ Calm (launching 0) ∧ translate (launching 0) 0 0x30000 needWrite none = .fail .page 1 ∧ qErr (launching 0) 3 = false := by unfold Calm; decide +kernel
theorem witness_refused_pad : Pad (offerLaunch { launching 0 with launchSeq := 1 } (mkGrid (launching 0) 3 0 (refusedAt 0x10000 0) ⟨0, 0, 1, 0, 0, [], []⟩ none) 0)
    pad0 16 := pad_of (d := 0) (by decide +kernel)
/-- No copy of arguments waits. -/
theorem witness_args : ∀ n, n ∈ [0, 1] → argsWait (launching n) 3 (packet (launching n)) = false := by decide +kernel
/-- PacketsDispatch: a launch that is taken, one with no group, a wait, a round that holds, does not, and fails, a signal, an unassigned type. -/
theorem witness_launch : ∀ n, n ∈ [0, 1] → dispatchable (launching n) 3 = .ok (packet (launching n)) ∧ pkType (packet (launching n)) = 1
    ∧ pairAt (launching n) 3 (packet (launching n)) = none := by decide +kernel
theorem witness_taken : (∃ x, takeLaunch (launching 1) 0 0 (packet (launching 1)) = .ok x ∧ (mkGrid (launching 1) 3 0 (packet (launching 1)) x none).left = 1)
    ∧ takeLaunch (launching 0) 0 0 (packet (launching 0)) = .error 4 :=
  ⟨⟨⟨1, 0, 1, 0, 0, [toBytes 64 (256 + 2 ^ 64)], []⟩, ok_of (by decide +kernel), by decide +kernel⟩, err_of (by decide +kernel)⟩
def waitPacket (va val : Nat) : List Byte := toBytes 256 (2 + 2 ^ 64 + va * 2 ^ 512 + val * 2 ^ 576)
theorem witness_wait : dispatchable (ring (cellsAt 0x200000 [2] ++ cellsAt 0x200008 [1] ++ cellsAt 0x200042 [1]) 4) 3 = .ok (waitPacket 0x10000 0)
    ∧ roundHolds (ring [] 0) ⟨3, 0, waitPacket 0x10000 0, none⟩ = some true ∧ roundHolds (ring [] 0) ⟨3, 0, waitPacket 0x10000 1, none⟩ = some false
    ∧ roundHolds (ring [] 0) ⟨3, 0, waitPacket 0x30000 1, none⟩ = none ∧ qErr (ring [] 0) 3 = false
    ∧ dispatchable (ring (cellsAt 0x200000 [4] ++ cellsAt 0x20000A [1]) 1) 3 = .ok (toBytes 64 (4 + 0x10000 * 2 ^ 64))
    ∧ translate (ring [] 0) 0 0x10000 needWrite none = .ok (.plain pad0) ∧ dispatchable (ring (cellsAt 0x200000 [5]) 1) 3 = .err 1 1 := by decide +kernel
theorem witness_signal_pad : Pad (ring [] 0) pad0 8 := pad_of (d := 0) (by decide +kernel)

/-- RegisterWrites: a queue that is on and off, each side of QWR's range, cores bound and not, HALLOW of a hearth tripped and not, bring-up
waiting for FEATREQ and not. -/
theorem witness_queue_writes : qEn queued 3 = true ∧ qEn State.reset 3 = false ∧ bitsAt ((6 : Word)).toNat 0 5 = 6 ∧ (State.reset.reg (qreg 3 0)).toNat % 4096 = 0
    ∧ qErr queued 3 = false ∧ qErr (queued.setReg (qreg 3 32) 1) 3 = true ∧ qDev queued 3 = false
    ∧ qDev State.reset 3 = false ∧ qDev (State.reset.setReg (qreg 3 8) 512) 3 = true ∧ qWr queued 3 = 5 ∧ qRd queued 3 + 2 ^ qLogsz queued 3 = 64 := by decide +kernel
theorem witness_register_writes : (∀ c, c < 128 → (State.reset.core c).bound = false) ∧ (∃ c, c < 128 ∧ ((tasked id).core c).bound = true)
    ∧ (State.reset.reg 0x0E0007300098).getLsbD (16 + 3) = false ∧ ((State.reset.setReg 0x0E0007300098 (1 <<< 19)).reg 0x0E0007300098).getLsbD (16 + 3) = true
    ∧ (256 : Word).toNat % 512 ≤ 256 ∧ 256 < (257 : Word).toNat % 512 ∧ (State.reset.reg 0x0E0007030020).getLsbD 4 = false
    ∧ ((State.reset.setReg 0x0E0007030020 16).reg 0x0E0007030020).getLsbD 4 = true ∧ State.reset.heldEvents = [] := by
  refine ⟨fun _ _ => rfl, ⟨0, by decide +kernel⟩, ?_⟩; decide +kernel
/-- UnitCommands: room in a queue and none, an invalidation that nothing holds, a migration refused and one that moves, a key command, a region that
may be enabled, is enabled, and flushes. -/
def features (n : Nat) : State := State.reset.setReg 0x0E0007030010 (BitVec.ofNat 64 n)
theorem witness_units : State.reset.invQ.length < 16 ∧ invClear { tasked id with invQ := [⟨0, 0, 0, 0, 3⟩] } ⟨0, 0, 0, 0, 3⟩ = true ∧ feature (features 128) 7 = true
    ∧ rowsClear (features 128) (MigCmd.inv ⟨0, 0, 0, 0, 0, 0, false, some ⟨0, 0, 0, 0⟩⟩) = true ∧ feature (features 16) 4 = true
    ∧ keyInUse (features 16) 0 = false ∧ keyInUse { features 16 with keys := [(0, some 1)] } 0 = false
    ∧ twf (fun _ => none) State.reset.keys = true ∧ feature (features 2) 1 = true ∧ (State.reset.reg (frReg 31 32)).getLsbD 63 = false
    ∧ ((State.reset.setReg (frReg 31 32) (3 <<< 62)).reg (frReg 31 32)).getLsbD 63 = true
    ∧ ((State.reset.setReg (frReg 31 32) (3 <<< 62)).reg (frReg 31 32)).getLsbD 62 = true := by decide +kernel
def regioned : State := { (((features 2).setReg (frReg 0 16) 0x0C0000000000).setReg (frReg 0 24) 128).setReg (frReg 0 32) (4 + 4 * 256 + (1 <<< 63)) with
  decoded := [⟨0x0C0000000000, 0, true⟩] }
theorem witness_region : regionOf regioned 0x0C0000000000 = some 0 ∧ isPoison regioned 0x0C0000000000 = false ∧ regioned.decoded[0]? = some ⟨0x0C0000000000, 0, true⟩
    ∧ regionHolds regioned 0 ⟨0x0C0000000000, 0, true⟩ = true ∧ ∀ d, d ∈ regioned.decoded → backWaits regioned 0 d = false := by
  decide +kernel

/-- ControllerEvents: debt below and at its bound, a bank due, one at its activation limit, a stale row, a single and a double error. -/
theorem witness_refresh : debtOf State.reset 511 < (State.reset.reg (mcReg (511 / 64) 0)).toNat % 16
    ∧ (State.reset.reg (mcReg (511 / 64) 0)).toNat % 16 ≤ debtOf { State.reset with debt := [(511, 8)] } 511 ∧ rowsOpenIn State.reset 511 (fun _ => true) = false
    ∧ debtOf { State.reset with debt := [(511, 8)] } 511 ≠ 0 ∧ headOf State.reset 511 = 0 ∧ actFull { State.reset with acnt := [(16 * 511 + 15, 64)] } (16 * 511 + 15) = true := by
  decide +kernel
def flipped (p : Nat) (f : BitVec 256) : State := { State.reset with flips := [(p / 32, f)] }
theorem witness_scrub : homeOf State.reset 1024 = some .hbm ∧ (State.reset.reg (mcReg (hbmLoc State.reset 1024).stack 64)).toNat % 2 ^ 32 ≠ 0
    ∧ rowStale { State.reset with stale := [(bankNum (hbmLoc State.reset 1024), (hbmLoc State.reset 1024).row)] } (hbmLoc State.reset 1024) = true
    ∧ rowStale State.reset (hbmLoc State.reset 1024) = false ∧ popCount 256 (flipsAt (flipped (1024 + 32 * 31) 4) (1024 + 32 * 31)).toNat = 1
    ∧ (∀ j, j < 32 → j ≠ 31 → flipsAt (flipped (1024 + 32 * 31) 4) (1024 + 32 * j) = 0)
    ∧ popCount 256 (flipsAt (flipped (macroBase 15 4095 + 8192 + 32 * 255) 4) (macroBase 15 4095 + 8192 + 32 * 255)).toNat = 1
    ∧ 1 < popCount 256 (flipsAt (flipped (macroSide 15 4095 + 512 + 32 * 15) 5) (macroSide 15 4095 + 512 + 32 * 15)).toNat
    ∧ twf (fun _ => 0) (flipped (1024 + 32 * 31) 4).flips = true := by decide +kernel
/-- ErrorsAndRepair: a record that is not judged, one that joins the history and one that makes its row lasting, a spare refused and taken, a die. -/
def errRec (sq : Nat) : ErrRec := ⟨0, sq, 1, 0, 5⟩
theorem witness_judgement : judged ⟨32, 1, 1, 0, 5⟩ = false ∧ judged (errRec 1) = true ∧ bringsTo [] (errRec 1) 3 = false
    ∧ ((([] : List ErrRec).filter fun q => decide (rowKey q = rowKey (errRec 1))).length + 1 ≠ 3)
    ∧ bringsTo [errRec 1, errRec 2] (errRec 3) 3 = false ∧ bringsTo [errRec 1, errRec 2] (errRec 3) 6 = false
    ∧ (([errRec 1, errRec 2].filter fun q => decide (rowKey q = rowKey (errRec 3))).length + 1 = 3) := by decide +kernel
theorem witness_repair : hearthTaken State.reset 15 = false
    ∧ hearthTaken (tasked fun k => { k with ident := { k.ident with claim := true } }) 0 = true ∧ remapTwice State.reset 15 7 15 511 = false
    ∧ (State.reset.reg (remapReg 15 7 15)).getLsbD 16 = false ∧ (State.reset.reg (remapReg 15 7 15)).getLsbD 15 = false
    ∧ (State.reset.reg (errReg (0x100 + 8 * 7))).getLsbD 4 = false ∧ (State.reset.reg (errReg (0x100 + 8 * 7))).getLsbD 6 = false
    ∧ ((State.reset.setReg (errReg 0x138) 64).reg (errReg 0x138)).getLsbD 6 = true ∧ ((State.reset.setReg (errReg 0x138) 16).reg (errReg 0x138)).getLsbD 4 = true
    ∧ (∀ j, j < 64 → rowsOpenIn State.reset (64 * 7 + j) (fun _ => true) = false) := by
  refine ⟨by decide +kernel, by decide +kernel, by decide +kernel, by decide +kernel, by decide +kernel, by decide +kernel, by decide +kernel, by decide +kernel,
    by decide +kernel, fun j _ => rfl⟩
/-- LimitsAndTelemetry: a hearth at its threshold and tripped; a page to count; halving; a cap at each end. -/
theorem witness_limits : tripOf State.reset = 105 ∧ tempOf (State.reset.setReg (thReg 0) 105) 0 = 105 ∧ trippedBit State.reset 0 = false
    ∧ trippedBit (State.reset.setReg (thReg 0x98) (1 <<< 16)) 0 = true ∧ feature (features 64) 6 = true
    ∧ ofBytes ((toBytes 6 (0x14 + 300 * 2 ^ 32)).take 4) = 0x14 ∧ ofBytes ((toBytes 6 (0x14 + 300 * 2 ^ 32)).drop 4) = 300
    ∧ (telemetry State.reset 0x14).isSome = true := by decide +kernel
/-- A sample below TRIP, at it and not yet tripped, and one of a tripped hearth; a link with a known peer and one without; a hidden DOMCTL. -/
theorem witness_samples : (104 : Word).toNat % 256 < tripOf State.reset ∧ tripOf State.reset ≤ (105 : Word).toNat % 256
    ∧ trippedBit (State.reset.setReg (thReg 0x98) (1 <<< 31)) 15 = true ∧ trippedBit State.reset 15 = false
    ∧ tget (fun _ => none) State.reset.linkPeer 11 = none ∧ tget (fun _ => none) { State.reset with linkPeer := [(11, some (3, 4))] }.linkPeer 11 = some (3, 4)
    ∧ regHidden State.reset domctl = true ∧ regHidden (features 8) domctl = false ∧ actFull State.reset 0 = false ∧ rowGone State.reset 5 = false := by
  decide +kernel
theorem witness_heat : Dram { State.reset with heatQ := [5] } (heatBase { State.reset with heatQ := [5] } + 2 * heatIndex 5) 2 := dram_of (by decide +kernel)
/-- LinksAndPorts: a domain on and off, a boundary that is next, a port that is up. -/
theorem witness_domain : domEn (State.reset.setReg domctl 0x4B080) = true ∧ domEn State.reset = false ∧ linkUnjudged State.reset = false ∧ frameNow State.reset + 1 = 1
    ∧ ((State.reset.setReg (lnkstat 11) 2).reg (lnkstat 11)).toNat % 4 ≠ 0 ∧ ((State.reset.setReg (tpReg 7 0) 1).reg (tpReg 7 0)).toNat % 4 = 1 := by decide +kernel
/-- EdgeEvents: a range inside and outside HBM4E, each message, a page owned by the host and by the device, no supply. -/
def mailed (w0 w1 w2 w3 : Nat) (s : State) : State := { ((((s.setReg (mailReg 0) (BitVec.ofNat 64 w0)).setReg (mailReg 8) (BitVec.ofNat 64 w1)).setReg (mailReg 16)
  (BitVec.ofNat 64 w2)).setReg (mailReg 24) (BitVec.ofNat 64 w3)) with h2d := true }
/-- Page tables of context 0 whose leaf of 0x10000 is shared, with this ownership. -/
def shared (host : Nat) : State := { tables id with mem := [(0x1001, 0x40), (0x1008, 1), (0x4000, 1), (0x4001, 0x80), (0x8000, 1), (0x8001, 0xC0),
  (0xC008, BitVec.ofNat 8 (0x1F + 32 * host)), (0xC00C, 1), (0xC00D, 10)] }
theorem witness_host : hbmRange State.reset 0 64 = true ∧ hbmRange State.reset 0x8000000000 64 = false
    ∧ (∀ q, q ∈ sectors 0 (64 / 32 + 2) 64 → placeWaits State.reset q.1 true = false ∧ placeWaits State.reset q.1 false = false)
    ∧ mailTypes.contains (mailWord (mailed 77 0 0 0 State.reset) 0) = false ∧ mailWord (mailed 77 0 0 0 State.reset) 0 ≠ 2
    ∧ mailIs (mailed 6 0x10000 0 0 State.reset) 6 = true ∧ mailIs (mailed 9 0 0 0 State.reset) 9 = true ∧ mailIs (mailed 13 0 0 0 State.reset) 13 = true
    ∧ mailIs (mailed 11 0x1000 0 0 State.reset) 11 = true ∧ mailIs (mailed 14 0 0 0 State.reset) 14 = true ∧ State.reset.powered = false := by decide +kernel
theorem witness_host_run : DramRun State.reset 0 64 := by
  refine ⟨fun q hq => ?_, by decide +kernel, by decide +kernel⟩
  have h : q = (0, 32) ∨ q = (32, 32) := by simpa [sectors] using hq
  obtain rfl | rfl := h <;> exact dram_of (by decide +kernel)
theorem witness_pages : walk (shared 1) 0 0x10000 = .ok (false, 0x0A010000003F) ∧ walk (shared 0) 0 0x10000 = .ok (false, 0x0A010000001F)
    ∧ invClear (shared 1) (pageInv 0 0x10000) = true ∧ leafAddr (shared 1) 0 0x10000 = 0xC008
    ∧ (0x0A010000001F : Word).getLsbD 4 = true ∧ (0x0A010000001F : Word).getLsbD 5 = false
    ∧ mailWord (mailed 2 0 0x10000 0x10000 (shared 1)) 2 = 0x10000 := ⟨ok_of (by decide +kernel), ok_of (by decide +kernel), by decide +kernel⟩
theorem witness_page_dram : Dram (shared 1) 0xC008 8 := dram_of (by decide +kernel)
/-- EdgeEvents: the slot that is tried first: of the higher SVN, and of one SVN the one written last. -/
def flashed (svn last : Nat) : State := { State.reset with flash := [(1, toBytes 64 (svn * 2 ^ 32))], flashLast := last }
theorem witness_slots : imgSvn (slotImage (flashed 3 0) 0) < imgSvn (slotImage (flashed 3 0) 1)
    ∧ imgSvn (slotImage (flashed 0 1) 0) = imgSvn (slotImage (flashed 0 1) 1) ∧ (flashed 0 1).flashLast = 1 ∧ (flashed 0 0).flashLast = 0 := by
  decide +kernel
/-- No image stands in flash at reset: POWER_UP's failure. Its success asks an opaque signature check (log 14), which no proof evaluates. -/
theorem witness_power_up : ∃ code, chooseSlot (coldState State.reset) = .error code := by
  have h : ∀ n, checkImage n [] ≠ 0 := by
    intro n; unfold checkImage
    have e : imgHeader [] = false := by decide +kernel
    simp only [e, Bool.not_false, Bool.true_or, if_true]
    split <;> decide
  refine ⟨checkImage 0 [], ?_⟩
  show (if checkImage 0 [] = 0 then Except.ok 0 else if checkImage 0 [] = 0 then Except.ok 1 else Except.error (checkImage 0 [])) = Except.error (checkImage 0 [])
  rw [if_neg (h 0), if_neg (h 0)]

/-- A LAUNCH packet with SPLICE of a group of one task; a splice header without hand-offs of the loop at bundle 0, of one trip. -/
def launchCells (a : Nat) : List Host.Cell := cellsAt a [1, 2] ++ cellsAt (a + 8) [0, 0x10, 0x10] ++ cellsAt (a + 16) [1, 0, 0, 0, 1, 0, 0, 0, 1, 0, 0, 0, 1]
def spliceHead : List Nat := [0xC1, 0xA5, 6, 0, 0, 0, 0, 0, 1, 0, 0, 0, 1, 0, 0, 0, 0, 0xFF, 0xFF, 0xFF, 1, 0, 0, 0, 1]
/-- Two of these packets and their image: KLOOP, an empty body, EXIT. -/
def splicing : State := (ring (launchCells 0x200000 ++ launchCells 0x200080 ++ cellsAt 0x201000 [0xC0, 0xA5, 1, 0, 1] ++ cellsAt 0x201041 [1]
  ++ cellsAt 0x201048 [1] ++ cellsAt 0x201059 [2] ++ cellsAt 0x201101 [4] ++ cellsAt 0x20110C [3] ++ cellsAt 0x201200 spliceHead
  ++ cellsAt 0x201400 ((toBytes 64 (encodeBundle1 (.kloop ⟨0, 0, 0, 0, 0⟩))).map BitVec.toNat)
  ++ cellsAt 0x201480 ((toBytes 64 (encodeBundle1 (.exit ⟨0, 0, 0⟩))).map BitVec.toNat)) 4).setReg 0x0E0007030010 1
def spliced (i : Nat) : Grid := { grid1 with
  id := i + 1, seq := i + 1, unit := 2 * i, flags := 0, image := 0x101000, descs := [toBytes 64 (0x100 + 2 ^ 64 + 0x200 * 2 ^ 192)],
  header := (spliceHead.map (BitVec.ofNat 8)) ++ List.replicate 231 0 }
/-- The pair is considered; it fuses, and without their headers it is refused with code 1. -/
theorem witness_pair : pairAt splicing 3 (packet splicing) = some (spliced 0, spliced 1) ∧ servedNext splicing 3 = true := by decide +kernel
theorem witness_pair_args : argsWait splicing 3 (packet splicing) = false := by decide +kernel
theorem witness_pair_reads : (takenReads splicing 3 (packet splicing)).any (fun r => bytesWait splicing 0 r.1 r.2) = false := by decide +kernel
theorem witness_plan : (match fusePlan (progOf splicing (spliced 0)) (progOf splicing (spliced 1)) with
      | .ok x => decide (x.trip = 1)
      | .error _ => false) = true
    ∧ fusePlan (progOf splicing { spliced 0 with header := [] }) (progOf splicing (spliced 1)) = .error 1 := ⟨by decide +kernel, err_of (by decide +kernel)⟩

/-- StepRunsDecoded: a register write and an act of the firmware at the head of the agenda, after bring-up and before. LoopForms: the KLOOP of a fused program. -/
theorem witness_bar : needsBoot (.qstatClear 0 0) = true ∧ needsBoot .firmwareUpdate = true ∧ needsBoot .powerUp = false ∧ (holds 0).powered = false ∧ bootFailed { holds 0 with powered := true } = false
    ∧ Ready (.kloop ⟨0, 0, 3, 7, 1⟩) (with_ { task with imem := { IMem.reset with loop := some (0, 5) } }) :=
  ⟨by decide, by decide, by decide, by decide +kernel, by decide +kernel, .inl rfl, by decide +kernel⟩
/-- SystemRegisters: a fused bundle of the producer, a core of a claiming group, and a context's descriptor. -/
def inFused : State := { (with_ { oneTask with ident := { oneTask.ident with fuseId := 3 } }).setReg (0x0E0004100000 + 3 * 4096) 1 with grids := [grid1] }
theorem witness_fused_bundle : Ready (.mfsr ⟨0, 2, 5, 0, 0x14⟩) inFused ∧ inFused.me.ident.fuseId ≠ 0
    ∧ inFused.grids.find? (fun g => decide (g.seq = (inFused.reg (0x0E0004100000 + 3 * 4096)).toNat)) = some grid1 :=
  ⟨⟨.inl rfl, by decide +kernel⟩, by decide +kernel⟩
def claiming : State := { (with_ { oneTask with ident := { oneTask.ident with claim := true } }).modHearth 0 fun h => { h with
  group := some oneTask.ident.groupId } with claims := [⟨oneTask.ident.groupId, 0, 1, 2⟩] }
theorem witness_hstat : Ready (.mfsr ⟨0, 2, 5, 0, 8⟩) claiming ∧ (claiming.hearth 0).group = some claiming.me.ident.groupId
    ∧ claiming.claims.find? (fun q => decide (q.id = claiming.me.ident.groupId)) = some ⟨oneTask.ident.groupId, 0, 1, 2⟩
    ∧ Dram mapped (0x1000 + 16) 8 := ⟨⟨.inl rfl, by decide +kernel⟩, by decide +kernel, by decide +kernel, dram_of (by decide +kernel)⟩
/-- Reductions: the values of a tree, round by round, over the four elements of a list. -/
def treeNode (m op : Nat) (leaf : Nat → VF) (rnd : VF → VF) : Nat → Nat → VF
  | 0, j => leaf j
  | k + 1, j =>
    let x := treeNode m op leaf rnd k (2 * j)
    let y := treeNode m op leaf rnd k (2 * j + 1)
    let r := if op = 0 then (if fmtInteger m = true then vAdd x.1 y.1 else rnd (vAdd x.1 y.1)) else if op = 1 then vMax x.1 y.1
      else if op = 2 then vMin x.1 y.1 else vMax (vAbs x.1) (vAbs y.1)
    (r.1, x.2 ||| y.2 ||| r.2)
theorem witness_tree (m op : Nat) (a : VReg) (rnd : VF → VF) : ∃ node : Nat → Nat → VF, [3, 4, 5, 6].length = 2 ^ 2
    ∧ (∀ j i, [3, 4, 5, 6][j]? = some i → node 0 j = (decodeFmt m (elemOf a 32 i), 0))
    ∧ ∀ k j x y r, x = node k (2 * j) → y = node k (2 * j + 1) →
      r = (if op = 0 then (if fmtInteger m = true then vAdd x.1 y.1 else rnd (vAdd x.1 y.1)) else if op = 1 then vMax x.1 y.1
        else if op = 2 then vMin x.1 y.1 else vMax (vAbs x.1) (vAbs y.1)) → node (k + 1) j = (r.1, x.2 ||| y.2 ||| r.2) := by
  refine ⟨treeNode m op (fun j => (decodeFmt m (elemOf a 32 ([3, 4, 5, 6].getD j 0)), 0)) rnd, rfl, fun j i h => ?_, fun k j x y r hx hy hr => ?_⟩
  · simp [treeNode, List.getD, h]
  · subst hx; subst hy; subst hr; rfl
/-- BlockDotProduct: a row with one block of eight elements of MXFP8 scales, and one with none; Transcendentals: a value within range, one too large. -/
def dotRow : VReg := BitVec.ofNat 32768 (8 * 2 ^ (8 * 136) + 2 ^ (8 * 138))
theorem witness_dot : bdotBad 4 dotRow 0 = false ∧ bdotBad 4 dotRow 1 = true
    ∧ (match trueVal .exp (.fin false 1 0) with
      | .approx (.fin _ j k) => !(magLt (2 ^ 24 - 1) 104 j k)
      | _ => false) = true
    ∧ (match trueVal .exp (.fin false 1 10) with
      | .approx (.fin _ j k) => magLt (2 ^ 24 - 1) 104 j k
      | _ => false) = true ∧ magLt 1 20 3 20 = true := by decide +kernel
/-- AccessesPerform: the homes of a read and a write: a scratchpad, HBM4E plain and poisoned, an expansion port, a storing half's row, the host's
memory with its completion in error, and a decoded sector; a half that computes. -/
def homes : State := { ((((((features 3).setReg (frReg 0 16) 0x0C0000000000).setReg (frReg 0 24) 128).setReg (frReg 0 32) (4 + 4 * 256 + (1 <<< 63))).setReg
    (tpReg 0 16) 0x10000000000).setReg (tpReg 0 8) 0x10000).setReg (tpReg 0 0) 1 |>.setReg 0x0E0006000100 1 with
  decoded := [⟨0x0C0000000000, 7, true⟩], poison := [2], hostBad := [(1, 1)], mem := [(0, 5)] }
theorem witness_reads : Reads homes 0 8 5 false ∧ Reads homes 64 8 0 true ∧ Reads homes 0x10000000000 8 0 false ∧ Reads homes pad0 8 0 false
    ∧ Reads homes 0x0E0080000000 8 0 false ∧ Reads homes 0x0E0080000020 8 0 true ∧ Reads homes 0x0C0000000000 8 7 false
    ∧ Reads homes Config.cimBase 8 0 false :=
  ⟨⟨.hbm, by decide +kernel⟩, ⟨.hbm, by decide +kernel⟩, ⟨.tier 0, by decide +kernel⟩, ⟨.spad 0, by decide +kernel⟩, ⟨.host 0, by decide +kernel⟩,
    ⟨.host 0, by decide +kernel⟩, ⟨.dec 0, by decide +kernel, by decide +kernel, ⟨⟨0x0C0000000000, 7, true⟩, by decide +kernel⟩⟩, ⟨.cim 0 0, by decide +kernel⟩⟩
theorem witness_writes : Writable homes 0 8 ∧ Writable homes 0x10000000000 8 ∧ Writable homes pad0 8 ∧ Writable homes 0x0E0080000000 8
    ∧ Writable homes 0x0C0000000000 8 ∧ Writable homes Config.cimBase 8
    ∧ homeOf homes Config.cimsBase = some (.side 0 0) ∧ (halfOf (setHalf Hearth.reset 0 ⟨true, false, false, false⟩) 0).compute = true :=
  ⟨⟨by decide +kernel, by decide +kernel, by decide +kernel, .hbm, by decide +kernel⟩, ⟨by decide +kernel, by decide +kernel, by decide +kernel, .tier 0, by decide +kernel⟩,
    ⟨by decide +kernel, by decide +kernel, by decide +kernel, .spad 0, by decide +kernel⟩, ⟨by decide +kernel, by decide +kernel, by decide +kernel, .host 0, by decide +kernel⟩,
    ⟨by decide +kernel, by decide +kernel, by decide +kernel, .dec 0, by decide +kernel⟩, ⟨by decide +kernel, by decide +kernel, by decide +kernel, .cim 0 0, by decide +kernel⟩,
    by decide +kernel⟩
/-- Each sector of a run of bytes lies in it, in one sector. -/
theorem sectors_mem : ∀ (k a n : Nat) (q : Nat × Nat), q ∈ sectors a k n → a ≤ q.1 ∧ q.1 + q.2 ≤ a + n ∧ q.1 % 32 + q.2 ≤ 32 ∧ 0 < q.2
  | 0, _, _, _, h => by cases h
  | k + 1, a, n, q, h => by
    unfold sectors at h
    split at h
    · cases h
    · rcases List.mem_cons.1 h with h | h
      · subst h; simp only []; omega
      · have := sectors_mem k _ _ q h; omega
/-- A run of HBM4E below 512 GiB in a state with no die out, no page offline and no error. -/
theorem area_of {s : State} {a n : Nat} (h : (decide (s.reg 0x0E0007200020 = 0) && (List.range 8).all (fun k => !stackOut s k) && decide (s.flips = [])
    && decide (s.stale = []) && decide (s.poison = []) && decide (a + n ≤ 0x8000000000)) = true) : DramArea s a n := by
  simp only [Bool.and_eq_true, decide_eq_true_eq] at h
  obtain ⟨⟨⟨⟨⟨hn, ho⟩, hf⟩, hs⟩, hp⟩, ha⟩ := h
  intro q hq
  have hb := sectors_mem _ _ _ q hq
  have hst : stackOut s (bitsAt q.1 16 3) = false := by
    have := List.all_eq_true.1 ho (bitsAt q.1 16 3) (List.mem_range.2 (Nat.mod_lt _ (by decide)))
    simpa using this
  refine ⟨?_, by simp [rowStale, hs], by simp [flipsAt, hf, tget], by simp [isPoison, hp], hb.2.2.1⟩
  unfold homeOf offlined
  rw [if_pos (by omega), hst, hn]
  simp
/-- BankAndLinkEvents: the command's rows may open; its block, once they have; the row with zeros, and one that is poisoned. -/
theorem witness_bank_opens : opensRow compare = true ∧ stackBusy banked 0x200000 = false ∧ xlatWaits banked 0 0x10000 = false ∧ (sectors 0 2 0) = []
    ∧ homeOf banked 0x200000 = some .hbm ∧ isBank compare = true ∧ cmdReady { compare with started := true } = true := by decide +kernel
theorem witness_bank_clean : WalkClean banked 0 0x10000 := clean_of (by decide +kernel)
theorem rowReads_of {s : State} {a : Nat} (h : (List.range 32).all (fun i => !isPoison s (a + 32 * i) && !rowStale s (hbmLoc s (a + 32 * i))
    && decide (flipsAt s (a + 32 * i) = 0) && decide (memGetN s.mem (a + 32 * i) 32 = 0)) = true) (hr : rowStale s (hbmLoc s a) = false) : RowReads s a 0 := by
  refine ⟨Nat.two_pow_pos _, fun i p hi hp => ?_⟩
  subst hp
  have := List.all_eq_true.1 h i (List.mem_range.2 hi)
  simp only [Bool.and_eq_true, Bool.not_eq_true', decide_eq_true_eq] at this
  refine ⟨this.1.1.1, fun _ => by rw [this.1.2]; decide +kernel, ?_⟩
  rw [hr, if_neg Bool.false_ne_true, this.2]
  simp [bitsAt]
theorem witness_rows : RowReads banked 0x200000 0 ∧ RowFails { banked with poison := [(0x200000 + 32 * 31) / 32] } 0x200000 :=
  ⟨rowReads_of (by decide +kernel) (by decide +kernel), 31, by decide, .inl (by decide +kernel)⟩
/-- A command whose page is no near-bank page. -/
def plainPage : State := (paged [(0xC008, 0x0F), (0xC00A, 0x20)] (copying compare)).setReg 0x0E0007030010 4
theorem witness_bank_refused : bankAt plainPage 0 0 = some compare ∧ lateBlock plainPage compare = none ∧ xlatWaits plainPage 0 0x10000 = false
    ∧ bankPlace plainPage compare = .fail .page 8 := by decide +kernel
theorem witness_bank_walk : WalkEnds plainPage 0 0x10000 := ends_of (by decide +kernel)
/-- A send, a receive and a reduce at their stamp; a link command that starts. -/
def roleOf (role : Nat) : Cmd := { sending with blk := some (toBytes 64 (1 + 32 * 2 ^ 64 + 2 * 2 ^ 96 + role * 2 ^ 104)) }
theorem witness_roles : ∀ r, r ∈ [0, 1, 2] → (linkOf (blkOf (roleOf r))).role = r ∧ wireBytes (linkOf (blkOf (roleOf r))) = 128
    ∧ linkAt (linked (roleOf r) 1) 0 0 = some (roleOf r) ∧ (linkOf (blkOf (roleOf r))).stamp = frameNow (linked (roleOf r) 1)
    ∧ domEn (linked (roleOf r) 1) = true ∧ (linked (roleOf r) 1).frameLost = false ∧ linkUp (linked (roleOf r) 1) 2 = true
    ∧ peerMatches (roleOf r) (linkOf (blkOf (roleOf r))) = true
    ∧ (sectors (localBase 0 ((linked (roleOf r) 1).core 0) + (roleOf r).a.toNat) (128 / 32 + 2) 128).all
        (fun q => padAt' (linked (roleOf r) 1) q.1 q.2) = true := by decide +kernel
/-- HearthWork: an MWLD that reads ahead, and one whose half is read whole; a drain to memory at a page of the task. -/
def ahead (n : Nat) (started : Bool) : Cmd := { waits (.mwld ⟨ec, 1, 2⟩) with started := started, blk := some tileZ, buf := List.replicate n (0, false) }
def aheadIn (n : Nat) (started : Bool) : State := paged [(0xC008, 15), (0xC00C, 1), (0xC00D, 10)] (hearths (commanded (ahead n started)))
theorem witness_ahead : lateBad (aheadIn 0 false) (ahead 0 false) = none
    ∧ (pullBytes (aheadIn 0 false) 0 (rowVa (tileOf tileZ) 0 0 0 0) 3 32).1.met = .done ∧ 0 < (cmdHalves (ahead 0 false)).length * 272
    ∧ (∀ j, j < 272 → homeOf (aheadIn 272 true) (rowPlace 0 6 j) = some (if j < 256 then .cim 0 6 else .side 0 6))
    ∧ (halfOf (commanded (ahead 272 true)) 6).compute = false := by decide +kernel
theorem witness_ahead_rows : ∀ j, j < 272 → (ahead 272 true).buf[j]? = some (0, false) := fun _ hj => (List.getElem?_replicate ..).trans (if_pos hj)
def drained : Cmd := { waits (.mdrn ⟨ec, 1, 2, 0, 0, 0⟩) with b := 0x10000, started := true, buf := [(0, false), (0, false)] }
def draining : State := paged [(0xC008, 15), (0xC00C, 1), (0xC00D, 10)] (hearths (commanded drained))
/-- Row `j` is written at a page of the task, where its zeros change nothing. -/
def pushStill (s : State) (va x j : Nat) : Bool := openAt s 0 (va + 32 * j) needWrite (x + 32 * j) && decide ((va + 32 * j) % 32 = 0)
  && padAt' s (x + 32 * j) 32 && decide ((storeAt s (.plain (x + 32 * j)) 32 0).1 = s)
theorem pushRun_still {s : State} (m : Nat) : ∀ (k va x : Nat), (∀ j, j < k → pushStill s va x j = true) → ∀ (n : Nat) (l : Tab Nat),
    (pushRun (s.worn n l) 0 va 0 (m + k + 1) (32 * k)).met = .done
  | 0, _, _, _, _, _ => rfl
  | k + 1, va, x, h, n, l => by
    have h0 := h 0 (by omega)
    unfold pushStill at h0
    simp only [Nat.mul_zero, Nat.add_zero, Bool.and_eq_true, decide_eq_true_eq] at h0
    obtain ⟨⟨⟨ho, hv⟩, hp⟩, hs⟩ := h0
    have hx := open_of ho
    have hpad := pad_of (d := 0) hp
    obtain ⟨n1, l1, e⟩ := worn_walkLeft n l hx.2.1 (open_root ho)
    have hr := pushRun_still m k (va + 32) (x + 32) (fun j hj => by
      have := h (j + 1) (by omega)
      simpa only [pushStill, Nat.mul_add, Nat.add_assoc, Nat.add_comm 32, Nat.mul_one] using this) n1 l1
    have hm : va % 2 ^ 64 = va := Nat.mod_eq_of_lt (Nat.lt_trans hx.1 (by decide))
    have ht : translate (s.worn n l) 0 va needWrite none = .ok (.plain x) := (hx.2.2 n l).1
    have hw : xlatWaits (s.worn n l) 0 va = false := (hx.2.2 n l).2
    have hst : storeAt (s.worn n1 l1) (.plain x) 32 0 = (s.worn n1 l1, .done) := by rw [worn_storeAt n1 l1 (.inl hpad.1), hs]
    rw [pushRun, if_neg (by omega)]
    simp only [hm, hv, if_neg (Nat.not_le.2 hx.1), ht, hw, worn_placeWaits, show (Phys.plain x).pa = x from rfl, hpad.2.2.2.1,
      Bool.false_eq_true, if_false, e, show min (32 * (k + 1)) (32 - 0) = 32 by omega, hst, Nat.zero_div, show 32 * (k + 1) - 32 = 32 * k by omega]
    exact hr
theorem push_first : (List.range 64).all (fun j => pushStill draining 0x10000 pad0 j) = true := by decide +kernel
theorem push_second : (List.range 64).all (fun j => pushStill draining 0x10000 pad0 (64 + j)) = true := by decide +kernel
theorem witness_push : (pushRun draining 0 (wrapNat 64 (drained.b.toNat + 0 * shpStr drained.shape 0)) 0 4097 4096).met = .done
    ∧ drained.buf[0]? = some (0, false) := by
  have e : wrapNat 64 (drained.b.toNat + 0 * shpStr drained.shape 0) = 0x10000 := by decide +kernel
  rw [e]
  have h := pushRun_still 3968 128 0x10000 pad0 (fun j hj => by
    by_cases h : j < 64
    · exact List.all_eq_true.1 push_first j (List.mem_range.2 h)
    · have := List.all_eq_true.1 push_second (j - 64) (List.mem_range.2 (by omega))
      rwa [show 64 + (j - 64) = j by omega] at this) draining.fresh draining.acnt
  exact ⟨h, rfl⟩

/-- TaskStarts: a fused pair that switches in; a record that resumes from a save area of HBM4E; a pair's preload; the half of an awaited segment. -/
def plan0 : FusedProg := ⟨⟨0, 1, Renum.only 0, 1⟩, [], 0, none⟩
def fusedIn (w1 : Nat) : State := { (inForce (w1 + 2 ^ 32)) with grids := [{ grid1 with fuseId := 1, plan := some plan0 }, { grid1 with id := 2, fuseId := 1, consumer := true }] }
def resuming : State := (inForce (2 ^ 27)).setReg 0x0E0004000060 0x1000000
theorem witness_fused_start : pairOf (fusedIn 0) (nextBind (fusedIn 0) 0) = some ({ grid1 with fuseId := 1, plan := some plan0 },
      { grid1 with id := 2, fuseId := 1, consumer := true })
    ∧ gridOf (fusedIn 0) (nextBind (fusedIn 0) 0) = some { grid1 with fuseId := 1, plan := some plan0 }
    ∧ gangReady (fusedIn 0) (nextBind (fusedIn 0) 0) { grid1 with fuseId := 1, plan := some plan0 } = true
    ∧ switchWaits (fusedIn 0) 7 { grid1 with fuseId := 1, plan := some plan0 } = false ∧ (nextBind (fusedIn 0) 0).resume = false
    ∧ preloadOpen (fusedIn 0) 0 = true ∧ preloadWaits (fusedIn 0) (nextBind (fusedIn 0) 0) false false false = false := by decide +kernel
theorem witness_resume : (nextBind resuming 0).resume = true ∧ gangReady resuming (nextBind resuming 0) grid1 = true
    ∧ (nextBind resuming 0).save % 65536 = 0 ∧ (0 : Nat) ∈ nextCores resuming 7 := by decide +kernel
theorem witness_resume_area : DramArea resuming (nextBind resuming 0).save (saveSize (nextBind resuming 0).wide) ∧ DramArea (inForce 0) (nextBind (inForce 0) 0).args 0 :=
  ⟨area_of (by decide +kernel), area_of (by decide +kernel)⟩
/-- Nothing waits at a run of HBM4E below 512 GiB while no page moves, no row is open and no die is going out. -/
theorem quiet_of {s : State} {a n : Nat} {wr : Bool} (h : (decide (a + n ≤ 0x8000000000) && (List.range 8).all (fun k => decide (stkctl s k / 64 % 2 ≠ 1))
    && decide (s.migQ = []) && (List.range 128).all (fun c => (s.core c).cpQ.all fun m => m.place.isNone)) = true) : runWaits s a n wr = false := by
  simp only [Bool.and_eq_true, decide_eq_true_eq] at h
  obtain ⟨⟨⟨ha, hs⟩, hm⟩, hr⟩ := h
  unfold runWaits
  rw [List.any_eq_false]
  intro q hq
  have hb := sectors_mem _ _ _ q hq
  have hlt : q.1 < 0x8000000000 := by omega
  have h1 : stackBusy s q.1 = false := by
    have := List.all_eq_true.1 hs (bitsAt q.1 16 3) (List.mem_range.2 (Nat.mod_lt _ (by decide)))
    simp only [decide_eq_true_eq] at this
    simp [stackBusy, this]
  have h2 : rowOpen s q.1 = false := by
    unfold rowOpen
    rw [List.any_eq_false]
    intro c hc
    rw [Bool.not_eq_true, List.any_eq_false]
    intro m hm'
    have := List.all_eq_true.1 (List.all_eq_true.1 hr c hc) m hm'
    rw [Option.isNone_iff_eq_none] at this
    rw [this]; exact Bool.false_ne_true
  have h3 : pageMoving s q.1 = false := by simp [pageMoving, hm]
  have h4 : homeOf s q.1 = none ∨ homeOf s q.1 = some .hbm := by
    unfold homeOf
    rw [if_pos hlt]
    split
    · exact .inl rfl
    · exact .inr rfl
  unfold placeWaits sectorWaits fillWaits
  rw [h1, h2, h3]
  rcases h4 with h4 | h4 <;> rw [h4] <;> simp [portWaits]
/-- The switch of a gang that resumes: no read of its save area waits. -/
theorem witness_resume_waits : switchWaits resuming 7 grid1 = false := by
  unfold switchWaits
  rw [List.any_eq_false]
  intro d hd
  have e : d = 0 := by
    have h : (nextCores resuming 7) = [0] := by decide +kernel
    rw [h] at hd; exact List.mem_singleton.1 hd
  subst e
  have hq : runWaits resuming (nextBind resuming 0).save (saveSize (nextBind resuming 0).wide) false = false := quiet_of (by decide +kernel)
  have hr : (nextBind resuming 0).resume = true := by decide +kernel
  simp only [preloadWaits, hq, hr]
  decide +kernel
/-- TaskEnds: a gang that may be captured, whose save area nothing holds. -/
def stopping : State := tasked fun k => { k with why := some .preempt, ident := { k.ident with save := 0x1000000 } }
theorem witness_capture : ∀ d, d ∈ gangCores stopping 0 → captureReady stopping d = true ∧ (stopping.core d).ident.save % 65536 = 0 := by
  intro d hd
  have h : gangCores stopping 0 = [0] := by decide +kernel
  rw [h] at hd
  rw [List.mem_singleton.1 hd]
  have hq : runWaits stopping (stopping.core 0).ident.save (saveSize (stopping.core 0).ident.wide) true = false := quiet_of (by decide +kernel)
  unfold captureReady
  simp only [hq]
  decide +kernel
theorem witness_capture_area : DramArea stopping (stopping.core 0).ident.save (saveSize (stopping.core 0).ident.wide) := area_of (by decide +kernel)
/-- A fused pair with nothing left. -/
def donePair : List Grid := [{ grid1 with left := 0, fuseId := 5 }, { grid1 with id := 2, seq := 2, left := 0, fuseId := 5, consumer := true }]
theorem witness_pair_done : ∀ g, g ∈ donePair → fusedGrids { State.reset with grids := donePair } g = donePair ∧ gridDone { State.reset with grids := donePair } g = true := by
  decide +kernel
/-- RegisterWrites: an event that enters the ring, and a ring that is full. -/
def posting (rd : Nat) : State := { ((State.reset.setReg evBase 0x2000).setReg (evBase + 8) 8).setReg (evBase + 16) (BitVec.ofNat 64 rd) with heldEvents := [(eventWord 3 0 1, 5)] }
theorem witness_posting : ((posting 7).reg (evBase + 16) - (posting 7).reg (evBase + 24)).toNat < 256 ∧ placeWaits (posting 7) (0x2000 + 7 * 16) true = false
    ∧ 256 ≤ ((posting 256).reg (evBase + 16) - (posting 256).reg (evBase + 24)).toNat := by decide +kernel
theorem witness_posting_place : Dram (posting 7) (0x2000 + 7 * 16) 16 := dram_of (by decide +kernel)
/-- UnitCommands: the second command of a queue, and one beyond sixteen; a page that moves within HBM4E, its leaf apart. -/
def moving : State := { (tables id).setReg 0x0E0007030010 128 with
  migQ := [⟨0x10000, 0x30000, 0, 0, 0, 0, false, some ⟨0, 0x20000, 0xC008, 0x2000F⟩⟩] }
def moveCmd : MigCmd := ⟨0x10000, 0x30000, 0, 0, 0, 0, false, some ⟨0, 0x20000, 0xC008, 0x2000F⟩⟩
theorem witness_move : rowsClear moving moveCmd.inv = true ∧ moveCmd.size = 65536 ∧ Calm moving := ⟨by decide +kernel, by decide, by unfold Calm; decide +kernel⟩
theorem hbm_of {s : State} {a : Nat} (h : (decide (s.reg 0x0E0007200020 = 0) && (List.range 8).all (fun k => !stackOut s k)) = true) (ha : a < 0x8000000000) :
    homeOf s a = some .hbm := by
  simp only [Bool.and_eq_true, decide_eq_true_eq] at h
  have hst : stackOut s (bitsAt a 16 3) = false := by
    have := List.all_eq_true.1 h.2 (bitsAt a 16 3) (List.mem_range.2 (Nat.mod_lt _ (by decide)))
    simpa using this
  unfold homeOf offlined
  rw [if_pos ha, hst, h.1]
  simp
theorem witness_move_pages : ∀ i, i < 65536 / 32 → homeOf moving (0x20000 + 32 * i) = some .hbm ∧ homeOf moving (0x30000 + 32 * i) = some .hbm := fun i hi =>
  ⟨hbm_of (by decide +kernel) (by omega), hbm_of (by decide +kernel) (by omega)⟩
theorem witness_move_leaf : Dram moving 0xC008 8 := dram_of (by decide +kernel)
/-- ErrorsAndRepair: a macro's records: one that leaves it, and one that makes it lasting with its hearth free and taken; a spare that is due. -/
def macroRec (sq : Nat) : ErrRec := ⟨16, sq, 2, 0, 5⟩
theorem witness_macro : judged (macroRec 3) = true ∧ freeEntry State.reset 0 0 = some 0 ∧ remapTwice State.reset 0 0 0 0 = false
    ∧ (([macroRec 1, macroRec 2].filter fun q => decide ((macroRec 3).time ≤ q.time + 1) && (decide (q.log = 16) && decide (q.loc % 8192 = 0))).length + 1 = 3)
    ∧ hearthTaken { State.reset with lasting := [(0, 0, 0)] } 0 = false := by decide +kernel
/-- LimitsAndTelemetry: no counter's place waits. EdgeEvents: a host access that waits, and one that meets no other; a page whose leaf nothing holds. -/
theorem witness_heat_open : placeWaits { State.reset with heatQ := [5] } (heatBase { State.reset with heatQ := [5] } + 2 * heatIndex 5) true = false := by decide +kernel
theorem witness_host_waits : (∃ q, q ∈ sectors 0x20000 (64 / 32 + 2) 64 ∧ placeWaits moving q.1 true = true) ∧ hbmRange moving 0x20000 64 = true
    ∧ (∀ e, e ∈ State.reset.hostQ → spansMeet 0 64 e.2.1 e.2.2.1 = false) := ⟨⟨(0x20000, 32), by decide +kernel⟩, by decide +kernel, by decide +kernel⟩
theorem witness_page_open : setWaits (shared 1) 0 0x10000 = false ∧ setWaits (shared 0) 0 0x10000 = false
    ∧ stopHeld { shared 1 with heldEvents := [(eventWord 5 3 1, 0)] } 3 = true ∧ placeWaits State.reset (offlinePlace State.reset) true = false := by decide +kernel
theorem witness_page_clean : WalkClean (shared 1) 0 0x10000 ∧ WalkClean (shared 0) 0 0x10000 ∧ Dram State.reset (offlinePlace State.reset) 8 :=
  ⟨clean_of (by decide +kernel), clean_of (by decide +kernel), dram_of (by decide +kernel)⟩
/-- An update, a report and a certificate at places of HBM4E that nothing holds. -/
theorem witness_services : runWaits State.reset 0x1000 3421 true = false ∧ runWaits State.reset 0 64 false = false ∧ (0x1000 : Nat) % 4096 = 0 :=
  ⟨quiet_of (by decide +kernel), quiet_of (by decide +kernel), by decide⟩
theorem witness_service_places : DramArea State.reset 0x1000 112 ∧ DramArea State.reset (0x1000 + 112) 3309 ∧ DramArea State.reset 0 64 :=
  ⟨area_of (by decide +kernel), area_of (by decide +kernel), area_of (by decide +kernel)⟩
end

section
/-! Results in flight, load values and vector units: what their landing writes (01 R13 to R20; 03 R88; 07 R202). -/

namespace Sys2Proof.Machine
open Sys2Proof

/-! ## The result, or the load value, that an event names -/

theorem pendAt_of_inFlight {k : Core} {n j : Nat} {f : Bool} {p : Pend} (h : InFlight k n f j p) : pendAt k n = some (f, j, p) := by
  obtain ⟨rfl, hp, -⟩ := h
  cases f with
  | false => simp [pendAt, show k.t.pend[j]? = some p from hp]
  | true => simp [pendAt, show k.f.pend[j]? = some p from hp]

theorem arrivalAt_of_getElem? {k : Core} {j : Nat} {f : Bool} {r : Arrival} (h : (k.ctx f).arrivals[j]? = some r) :
    arrivalAt k (if f then k.t.arrivals.length + j else j) = some (f, j, r) := by
  cases f with
  | false => simp [arrivalAt, show k.t.arrivals[j]? = some r from h]
  | true => simp [arrivalAt, show k.f.arrivals[j]? = some r from h]

/-! ## The events, in terms of `landResult` and `landArrival` -/

/-- An event whose condition holds happens. -/
theorem happens_of_cond {s t : State} {p : Prop} [Decidable p] (h : p) : happens s (if p then some t else none) = .next t := by
  rw [if_pos h]; rfl

theorem exec_resultLand_of_inFlight {s : State} {c n j : Nat} {f : Bool} {p : Pend} {m : Core} (h : InFlight (s.core c) n f j p)
    (hp : isPattern p = false) (hm : landResult f p (s.core c) = m) : exec (.resultLand c n) s = .next (s.setCore c (noted f j p m)) := by
  subst hm
  have hx : exec (.resultLand c n) s = happens s (evResultLand c n s) := rfl
  obtain ⟨-, -, hl, hi⟩ := id h
  rw [hx, evResultLand, pendAt_of_inFlight h]
  exact happens_of_cond ⟨hl, hi, hp⟩

theorem patBehind_eq_false {l : List Pend} {j d : Nat} {v : BitVec 4096} {p : Pend} (hp : p.res = .pat d v)
    (h : ∀ q w, q ∈ l.take j → q.landed = false → q.res ≠ .pat d w) : patBehind l j p = false := by
  refine List.any_eq_false.2 fun q hq hc => ?_
  rw [Bool.and_eq_true, Bool.not_eq_true', hp] at hc
  obtain ⟨hl, hm⟩ := hc
  cases hr : q.res with
  | pat m w =>
    rw [hr] at hm
    obtain rfl : m = d := of_decide_eq_true hm
    exact h q w hq hl hr
  | _ => rw [hr] at hm; exact Bool.false_ne_true hm

theorem exec_vpatldComplete_of_inFlight {s : State} {c n j d : Nat} {v : BitVec 4096} {f : Bool} {p : Pend} {m : Core}
    (h : InFlight (s.core c) n f j p) (hp : p.res = .pat d v)
    (hb : ∀ q w, q ∈ ((s.core c).ctx f).pend.take j → q.landed = false → q.res ≠ .pat d w)
    (hm : landResult f p (s.core c) = m) : exec (.vpatldComplete c n) s = .next (s.setCore c (noted f j p m)) := by
  subst hm
  have hx : exec (.vpatldComplete c n) s = happens s (evVpatldComplete c n s) := rfl
  have hi : isPattern p = true := by rw [isPattern, hp]
  obtain ⟨-, -, hl, hc⟩ := id h
  rw [hx, evVpatldComplete, pendAt_of_inFlight h]
  exact happens_of_cond ⟨hl, hc, hi, patBehind_eq_false hp hb⟩

theorem exec_loadLand_of_getElem? {s : State} {c j : Nat} {f : Bool} {r : Arrival} {d : LDest} {m : Core}
    (h : ((s.core c).ctx f).arrivals[j]? = some r) (hd : r.dest = d) (hf : isFillDest d = false)
    (hm : landArrival f r (dropArrival f j (s.core c)) = m) :
    exec (.loadLand c (if f then (s.core c).t.arrivals.length + j else j)) s = .next (s.setCore c m) := by
  subst hd hm
  have hx : ∀ n, exec (.loadLand c n) s = happens s (evLoadLand c n s) := fun _ => rfl
  rw [hx, evLoadLand, arrivalAt_of_getElem? h]
  dsimp only
  rw [hf]
  rfl

/-! ## What a result writes, by its kind -/

section
variable (f : Bool) (k : Core) (own : Option Nat) (i lat : Nat) (fl : Flags)

theorem landResult_scal (d : Nat) (v : Word) : landResult f ⟨.scal d v, own, i, lat, fl, false⟩ k = k.setCtx f { k.ctx f with
    vflags := (k.ctx f).vflags ||| fl, s := if d = 0 then (k.ctx f).s else tset (fun _ => 0) (k.ctx f).s d v,
    saq := match own with
      | some q => if (k.ctx f).sapc ≤ q + 16 then tset (fun _ => 0) (k.ctx f).saq (q % 16) v else (k.ctx f).saq
      | none => (k.ctx f).saq } := by
  cases own with
  | none => by_cases hd : d = 0 <;> simp [landResult, SCtx.setS, hd]
  | some q => by_cases hd : d = 0 <;> by_cases hq : (k.ctx f).sapc ≤ q + 16 <;> simp [landResult, SCtx.setS, ownsEntry, hd, hq]

theorem landResult_guard (d : Nat) (v : Bool) : landResult f ⟨.guard d v, own, i, lat, fl, false⟩ k = k.setCtx f { k.ctx f with
    vflags := (k.ctx f).vflags ||| fl,
    g := if d = 0 then (k.ctx f).g else if v then (k.ctx f).g ||| (1#16 <<< d) else (k.ctx f).g &&& ~~~(1#16 <<< d) } := by
  by_cases hd : d = 0 <;> simp [landResult, hd]

theorem landResult_vec (d : Option VDest) (v : VReg) (en : PReg) : landResult f ⟨.vec d v en, own, i, lat, fl, false⟩ k =
    { flagged f fl k with vs := { k.vs with
      v := match d with
        | some (.main r) => tset (fun _ => 0) k.vs.v r (mergeCells en (tget (fun _ => 0) k.vs.v r) v)
        | _ => k.vs.v,
      vo := match d with
        | some (.op r) => tset (fun _ => 0) k.vs.vo r (mergeCells en (tget (fun _ => 0) k.vs.vo r) v)
        | _ => k.vs.vo,
      vaq := match own with
        | some q => if k.vs.apc ≤ q + 16 then tset (fun _ => 0) k.vs.vaq (q % 16) (v &&& expandMask en) else k.vs.vaq
        | none => k.vs.vaq } } := by
  cases own with
  | none => rcases d with _ | r | r <;> cases f <;> rfl
  | some q =>
    by_cases hq : k.vs.apc ≤ q + 16 <;> rcases d with _ | r | r <;> cases f <;>
      simp [landResult, flagged, Core.setCtx, Core.setVreg, Core.vreg, ownsEntry, hq]

theorem landResult_pred (d : Nat) (v en : PReg) : landResult f ⟨.pred d v en, own, i, lat, fl, false⟩ k =
    { flagged f fl k with vs := { k.vs with
      p := if d = 0 then k.vs.p else tset (fun _ => 0) k.vs.p d ((v &&& en) ||| (tget (fun _ => 0) k.vs.p d &&& ~~~en)) } } := by
  by_cases hd : d = 0 <;> cases f <;> simp [landResult, flagged, hd, Core.setCtx]

theorem landResult_ctab (d : Nat) (v : BitVec 256) : landResult f ⟨.ctab d v, own, i, lat, fl, false⟩ k =
    { flagged f fl k with vs := { k.vs with ct := tset (fun _ => 0) k.vs.ct d v } } := by
  cases f <;> rfl

theorem landResult_pat (d : Nat) (v : BitVec 4096) : landResult f ⟨.pat d v, own, i, lat, fl, false⟩ k =
    { flagged f fl k with vs := { k.vs with sh := tset (fun _ => 0) k.vs.sh ((1 - k.vs.active) * 64 + d) v } } := by
  cases f <;> rfl
end

/-! ## What a load value writes, by its destination -/

section
variable (f : Bool) (k : Core) (r : Arrival) (y : SCtx)

theorem landArrival_s {d : Nat} (h : r.dest = .s d) : landArrival f r (k.setCtx f y) =
    k.setCtx f { y with s := if d = 0 then y.s else tset (fun _ => 0) y.s d (r.value.setWidth 64) } := by
  by_cases hd : d = 0 <;> simp [landArrival, h, SCtx.setS, hd]

theorem landArrival_main {d : Nat} (h : r.dest = .v (.main d)) : landArrival f r (k.setCtx f y) =
    { k.setCtx f y with vs := { k.vs with v := tset (fun _ => 0) k.vs.v d r.value } } := by
  simp [landArrival, h, Core.setVreg]

theorem landArrival_op {d : Nat} (h : r.dest = .v (.op d)) : landArrival f r (k.setCtx f y) =
    { k.setCtx f y with vs := { k.vs with vo := tset (fun _ => 0) k.vs.vo d r.value } } := by
  simp [landArrival, h, Core.setVreg]

theorem landArrival_none (h : r.dest = .none) : landArrival f r (k.setCtx f y) = k.setCtx f y := by
  simp [landArrival, h]
end

/-- Settles O41: each event is `landResult` or `landArrival` on its core, by the kind of what lands. -/
theorem resultsLand : Obligations.ResultsLand := by
  unfold Obligations.ResultsLand
  rintro c n j f s k x i lat fl own - rfl rfl
  refine ⟨?_, ?_, ?_, ?_, ?_, ?_, ?_, ?_, ?_⟩
  · rintro d v p rfl h
    exact exec_resultLand_of_inFlight h rfl (landResult_scal ..)
  · rintro d v p rfl h
    exact exec_resultLand_of_inFlight h rfl (landResult_guard ..)
  · rintro d v en p rfl h
    exact exec_resultLand_of_inFlight h rfl (landResult_vec ..)
  · rintro d v en p rfl h
    exact exec_resultLand_of_inFlight h rfl (landResult_pred ..)
  · rintro d v p rfl h
    exact exec_resultLand_of_inFlight h rfl (landResult_ctab ..)
  · rintro d v p rfl h hb
    exact exec_vpatldComplete_of_inFlight h rfl hb (landResult_pat ..)
  · exact fun h hc => happens_of_cond ⟨h, hc⟩
  · exact fun h hc => happens_of_cond ⟨h, hc⟩
  · rintro r y rfl hr rfl
    exact ⟨fun d h => exec_loadLand_of_getElem? hr h rfl (landArrival_s _ _ _ _ h),
      fun d h => exec_loadLand_of_getElem? hr h rfl (landArrival_main _ _ _ _ h),
      fun d h => exec_loadLand_of_getElem? hr h rfl (landArrival_op _ _ _ _ h),
      fun h => exec_loadLand_of_getElem? hr h rfl (landArrival_none _ _ _ _ h)⟩

end Sys2Proof.Machine
end

section
/-! Sources read with nothing in flight (01 R17, R18, R21 to R24). -/

namespace Sys2Proof.Machine
open Sys2Proof

/-- The entry `n` pushes back stands `n` places before the push counter. -/
theorem agePos_of_le {count n : Nat} (h : n ≤ count) : agePos count n = (count - n) % 16 := by
  unfold agePos; omega

/-- The cell index of vix (01 R21). -/
theorem elemOf_vix {i : Nat} (h : i < 1024) : elemOf vix 32 i = i := by
  rw [vix, elemOf_ofElems 32 _ i (by decide) h]
  exact Nat.mod_eq_of_lt (by omega)

theorem physMain_of_lt {rrb : BitVec 6} {n : Nat} (h : n < 32) : physMain rrb n = n := if_pos h

/-- A rotating name counts back by RRB within v32 to v95 (01 R23). -/
theorem physMain_of_ge {rrb : BitVec 6} {n : Nat} (h : 32 ≤ n) : physMain rrb n = 32 + (n - 32 + (64 - rrb.toNat)) % 64 := by
  have := rrb.isLt
  rw [physMain, if_neg (by omega), show n - 32 + 64 - rrb.toNat = n - 32 + (64 - rrb.toNat) by omega]

section
variable {s : State} {c key : Nat} {f : Bool}

theorem readS_register {r : BitVec 7} (hp : ((s.core c).ctx f).pend = []) (h0 : r ≠ 0) (h : r.toNat < 64) :
    readS s c f key r = tget (fun _ => 0) ((s.core c).ctx f).s r.toNat := by
  have h0' : r.toNat ≠ 0 := fun h => h0 (BitVec.eq_of_toNat_eq h)
  simp only [readS, h0', h, hp, List.any_nil, Bool.false_eq_true, if_false, if_true]

theorem readS_entry {r : BitVec 7} {n : Nat} (hp : ((s.core c).ctx f).pend = []) (hi : s.issuing = none) (hr : r.toNat = 64 + n)
    (hn : n ≤ ((s.core c).ctx f).sapc) :
    readS s c f key r = tget (fun _ => 0) ((s.core c).ctx f).saq ((((s.core c).ctx f).sapc - n) % 16) := by
  have h0 : ¬ 64 + n = 0 := by omega
  have h64 : ¬ 64 + n < 64 := by omega
  have hm : 64 + n - 64 = n := by omega
  simp only [readS, hr, h0, h64, hm, hp, sapcAt, hi, agePos_of_le hn, List.any_nil, Bool.and_false, Bool.false_eq_true, if_false]

theorem readG_register {g : BitVec 4} (hp : ((s.core c).ctx f).pend = []) (h0 : g ≠ 0) :
    readG s c f key g = ((s.core c).ctx f).g.getLsbD g.toNat := by
  rw [readG, if_neg h0, hp]; rfl

theorem readP_register {p : BitVec 4} (hp : (s.core c).t.pend = []) (h0 : p ≠ 0) :
    readP s c key p = tget (fun _ => 0) (s.core c).vs.p p.toNat := by
  rw [readP, if_neg h0, hp]; rfl

theorem readV_entry {r : BitVec 9} {n : Nat} (hp : (s.core c).t.pend = []) (hi : s.issuing = none) (hr : r.toNat = 256 + n)
    (h16 : n ≤ 16) (hn : n ≤ (s.core c).vs.apc) :
    readV s c key r = tget (fun _ => 0) (s.core c).vs.vaq (((s.core c).vs.apc - n) % 16) := by
  have h2 : r.toNat / 128 = 2 := by omega
  have hm : r.toNat % 128 = n := by omega
  simp only [readV, h2, hm, hp, Core.apcAt, hi, agePos_of_le hn, List.any_nil, Bool.and_false, Bool.false_eq_true, if_false]

theorem readV_main {r : BitVec 9} (hp : (s.core c).t.pend = []) (hd : ∀ d, drainPending s c d = false) (hr : r.toNat < 128) :
    readV s c key r = tget (fun _ => 0) (s.core c).vs.v (physMain (s.core c).vs.rrb r.toNat) := by
  have h0 : r.toNat / 128 = 0 := by omega
  have hm : r.toNat % 128 = r.toNat := by omega
  simp only [readV, h0, hm, hp, hd, Core.vreg, List.any_nil, Bool.or_self, Bool.false_eq_true, if_false, if_true]

theorem readV_op {r : BitVec 9} {n : Nat} (hp : (s.core c).t.pend = []) (hd : ∀ d, drainPending s c d = false)
    (hr : r.toNat = 128 + n) (hn : n < 128) : readV s c key r = tget (fun _ => 0) (s.core c).vs.vo n := by
  have h1 : r.toNat / 128 = 1 := by omega
  have hm : r.toNat % 128 = n := by omega
  simp only [readV, h1, hm, hp, hd, Core.vreg, List.any_nil, Bool.or_self, Bool.false_eq_true, Nat.one_ne_zero, if_false]
end

/-- Settles O4, one read lemma for each class of source name. -/
theorem sourcesRead : Obligations.SourcesRead := by
  unfold Obligations.SourcesRead
  rintro s c key f k rfl
  refine ⟨rfl, rfl, rfl, rfl, fun i hi => elemOf_vix hi, fun hp => ⟨?_, ?_, ?_⟩, fun hp => ⟨?_, ?_, fun hd => ⟨?_, ?_, ?_⟩⟩⟩
  · exact fun r hr h0 => readS_register hp h0 hr
  · exact fun r n hr _ _ hi hn => readS_entry hp hi hr hn
  · exact fun r h0 => readG_register hp h0
  · exact fun r h0 => readP_register hp h0
  · exact fun r n hr _ h16 hi hn => readV_entry hp hi hr h16 hn
  · intro r hr
    rw [readV_main hp hd (by omega), physMain_of_lt hr]
  · intro r h32 h96
    rw [readV_main hp hd (by omega), physMain_of_ge h32]
  · exact fun r n hr hn => readV_op hp hd hr (by omega)

end Sys2Proof.Machine
end

section
/-! What reset leaves: the registers at the values of their maps. -/

namespace Sys2Proof.Machine
open Sys2Proof

/-- Outside the seven maps with a value of their own every register is zero at reset. -/
theorem mmioReset_eq_zero {a : Nat} (h : a < 0x0E0004008000 ∨ (0x0E0004008400 ≤ a ∧ a < 0x0E0006040000)
    ∨ (0x0E0007010100 ≤ a ∧ a < 0x0E0007100000) ∨ (0x0E0007200140 ≤ a ∧ a < 0x0E0007300090)) : mmioReset a = 0 := by
  unfold mmioReset mmioReset.mmioResetFleet
  repeat rw [if_neg (by omega)]

theorem mmioReset_fshare {c : Nat} (h : c < 128) : mmioReset (0x0E0004008000 + 8 * c) = 8 := by
  unfold mmioReset
  rw [if_pos (by omega)]

theorem mmioReset_hallow {h : Nat} (hh : h < 16) : mmioReset (0x0E0007010000 + h * 16) = 256 := by
  unfold mmioReset
  rw [if_neg (by omega), if_pos (by omega), if_pos (by omega)]

theorem mmioReset_leasemax {h : Nat} (hh : h < 16) : mmioReset (0x0E0007010000 + h * 16 + 8) = 16 := by
  unfold mmioReset
  rw [if_neg (by omega), if_pos (by omega), if_neg (by omega), if_pos (by omega)]

theorem mmioReset_hceil {h : Nat} (hh : h < 16) : mmioReset (thReg (0xA0 + 8 * h)) = 256 := by
  unfold thReg mmioReset mmioReset.mmioResetFleet
  iterate 8 rw [if_neg (by omega)]
  rw [if_pos (by omega)]

theorem mmioReset_stkctl {k : Nat} (hk : k < 8) : mmioReset (errReg (0x100 + 8 * k)) = 64 * 256 := by
  unfold errReg mmioReset mmioReset.mmioResetFleet
  iterate 5 rw [if_neg (by omega)]
  rw [if_pos (by omega)]

/-- Every memory controller resets to the map of the first (22 R379). -/
theorem mmioReset_mcReg {k o : Nat} (hk : k < 8) (ho : o < 0x1000) : mmioReset (mcReg k o) = mmioReset (mcReg 0 o) := by
  unfold mcReg mmioReset
  rw [if_neg (by omega), if_neg (by omega), if_neg (by omega), if_pos (by omega),
    if_neg (by omega), if_neg (by omega), if_neg (by omega), if_pos (by omega),
    show (0x0E0007100000 + k * 0x1000 + o) % 0x1000 = o by omega, show (0x0E0007100000 + 0 * 0x1000 + o) % 0x1000 = o by omega]

theorem recAddr_bounds {c : Nat} (h : c < 128) : 0x0E0005000000 ≤ recAddr c ∧ recAddr c < 0x0E0005004000 := by
  unfold recAddr
  split <;> omega

/-- Settles O7: nothing is listed at reset, so every part reads as its default and every register as its map says. -/
theorem resetValues : Obligations.ResetValues := by
  unfold Obligations.ResetValues
  rintro s rfl
  refine ⟨?_, fun a _ => rfl, ?_, ?_, ?_, ?_, ?_, by decide, by decide, by decide, by decide, by decide, ?_, rfl, rfl⟩
  · rintro c k rfl
    exact ⟨rfl, rfl, rfl, rfl, rfl, rfl, rfl, rfl, rfl, rfl, fun n => ⟨rfl, rfl, rfl, rfl, rfl, rfl, rfl, rfl⟩⟩
  · exact fun h hh => ⟨rfl, rfl, mmioReset_hallow hh, mmioReset_leasemax hh, mmioReset_hceil hh⟩
  · intro c hc
    have hr := recAddr_bounds hc
    exact ⟨mmioReset_fshare hc, mmioReset_eq_zero (by omega), mmioReset_eq_zero (by omega)⟩
  · intro q i hq hi
    exact mmioReset_eq_zero (by unfold qreg; omega)
  · exact fun k hk => ⟨mmioReset_mcReg hk (by decide), mmioReset_mcReg hk (by decide), mmioReset_mcReg hk (by decide),
      mmioReset_mcReg hk (by decide), mmioReset_stkctl hk⟩
  · exact fun i hi => ⟨mmioReset_eq_zero (by unfold logBase; omega), mmioReset_eq_zero (by unfold logBase; omega)⟩
  · exact fun i hi => mmioReset_eq_zero (by unfold evBase; omega)

end Sys2Proof.Machine
end

section
/-! Barriers, tokens of stores and counter waits (01 R28; 02 R66, R69, R71; 09 R256 to R259; 10 R282). -/

namespace Sys2Proof.Machine
open Sys2Proof

/-! ## What a change of one core leaves -/

theorem State.Kept.cores_twf {s : State} (h : s.Kept) : twf (fun _ => Core.reset) s.cores = true := by
  obtain ⟨-, -, hc, -⟩ := h
  exact hc

/-- A part of every core that a change of core `c` leaves alone. -/
theorem core_modCore_part {α : Type} (part : Core → α) {s : State} {c : Nat} {g : Core → Core} (h : s.Kept)
    (hg : part (g (s.core c)) = part (s.core c)) (d : Nat) : part ((s.modCore c g).core d) = part (s.core d) := by
  by_cases hd : d = c
  · subst hd; rw [State.core_modCore s d g (.inl h.cores_twf), hg]
  · rw [State.core_modCore_other s c d g hd (.inl h.cores_twf)]

/-- Changes of one core, one after the other, are one change. -/
theorem foldl_modCore {α : Type} {s : State} (h : s.Kept) (c : Nat) (g : α → Core → Core) (l : List α) :
    l.foldl (fun s a => s.modCore c (g a)) s = s.modCore c fun k => l.foldl (fun k a => g a k) k := by
  induction l generalizing s with
  | nil => exact (State.setCore_self s c h.cores_twf).symm
  | cons a l ih => rw [List.foldl_cons, ih (kept_modCore h c _), State.modCore_modCore s c _ _ h.cores_twf]; rfl

/-! ## Barrier operations (02 R66; 09 R256, R257) -/

theorem barAt_modCore {s : State} {c : Nat} {g : Core → Core} (h : s.Kept) (hg : (g (s.core c)).bars = (s.core c).bars) (d n : Nat) :
    barAt (s.modCore c g) d n = barAt s d n := by
  rw [barAt, core_modCore_part Core.bars h hg, barAt]

theorem setBar_bars {s : State} (h : s.Kept) (d n : Nat) (b : Barrier) :
    ((setBar s d n b).core d).bars = tset (fun _ => Barrier.reset) (s.core d).bars n b := by
  rw [setBar, State.core_modCore s d _ (.inl h.cores_twf)]

/-- Operation `n` of a core leaves its queue of barrier operations. -/
def unqueued (s : State) (c n : Nat) : State := s.modCore c fun m => { m with barQ := m.barQ.eraseIdx n }

/-- The record of the index takes generation `g`, if it is that of the arrival that counts. -/
def recordCount (r : BarReq) (g : BitVec 32) (m : Core) : Core :=
  { m with arecs := match tget (fun _ => none) m.arecs r.bar with
    | some e => if e.seq = r.seq then tset (fun _ => none) m.arecs r.bar (some { e with gen := g, counted := true }) else m.arecs
    | none => m.arecs }

section
variable {s : State} {c n home : Nat} {r : BarReq}

theorem unqueued_kept (h : s.Kept) : (unqueued s c n).Kept := kept_modCore h c _

theorem unqueued_bars (h : s.Kept) (d : Nat) : ((unqueued s c n).core d).bars = (s.core d).bars :=
  core_modCore_part Core.bars h rfl d

theorem unqueued_arecs (h : s.Kept) (d : Nat) : ((unqueued s c n).core d).arecs = (s.core d).arecs :=
  core_modCore_part Core.arecs h rfl d

theorem unqueued_barQ (h : s.Kept) : ((unqueued s c n).core c).barQ = (s.core c).barQ.eraseIdx n := by
  rw [unqueued, State.core_modCore s c _ (.inl h.cores_twf)]

variable (h : s.Kept) (hr : (s.core c).barQ[n]? = some r) (hl : laneCore s c r.stage r.task = some home)
  (hb : barBehind (s.core c) r = false)
include h hr hl hb

theorem exec_barrierArrivalCount_cfg {cnt : Nat} {b : Barrier} (hc : r.cfg = some cnt) (hbar : b = barAt s home r.bar) :
    exec (.barrierArrivalCount c n) s = .next (setBar (unqueued s c n) home r.bar
      (if b.arr = 0 then { b with cnt := cnt } else { b with pendCnt := some cnt })) := by
  have hx : exec (.barrierArrivalCount c n) s = happens s (evBarrierArrivalCount c n s) := rfl
  have hg : barAt (unqueued s c n) home r.bar = b := by rw [hbar]; exact barAt_modCore h rfl home r.bar
  have he : evBarrierArrivalCount c n s = some (setCnt (unqueued s c n) home r.bar cnt) := by
    simp only [evBarrierArrivalCount, hr, barHome, hl, hb, hc, Bool.false_eq_true, if_false]
    rfl
  rw [hx, he, setCnt, hg]
  rfl

theorem exec_barrierArrivalCount_arrival {b : Barrier} (hc : r.cfg = none) (hw : arrivalWaits s c r.seq = false)
    (hbar : b = barAt s home r.bar) (ha : b.arr ≠ b.cnt) : exec (.barrierArrivalCount c n) s =
      .next ((setBar (unqueued s c n) home r.bar { b with arr := b.arr + 1 }).modCore c (recordCount r b.gen)) := by
  have hx : exec (.barrierArrivalCount c n) s = happens s (evBarrierArrivalCount c n s) := rfl
  have hg : barAt (unqueued s c n) home r.bar = b := by rw [hbar]; exact barAt_modCore h rfl home r.bar
  subst hbar
  rw [hx, ← hg]
  simp only [evBarrierArrivalCount, hr, barHome, hl, hb, hc, hw, ha, Bool.false_eq_true, if_false, or_self]
  rfl
end

/-- A BARCFG behind an operation of its own takes effect. -/
theorem barrierArrivalCount_cfg {s : State} {c n home cnt : Nat} {r : BarReq} {b : Barrier} (h : s.Kept) (hr : (s.core c).barQ[n]? = some r)
    (hl : laneCore s c r.stage r.task = some home) (hb : barBehind (s.core c) r = false) (hbar : b = barAt s home r.bar) (hc : r.cfg = some cnt) :
    ∃ t, exec (.barrierArrivalCount c n) s = .next t ∧ t = { s with cores := t.cores }
      ∧ (t.core c).barQ = (s.core c).barQ.eraseIdx n ∧ (t.core home).bars = tset (fun _ => Barrier.reset) (s.core home).bars r.bar
          (if b.arr = 0 then { b with cnt := cnt } else { b with pendCnt := some cnt }) := by
  have hk := unqueued_kept (c := c) (n := n) h
  refine ⟨_, exec_barrierArrivalCount_cfg h hr hl hb hc hbar, rfl, ?_, ?_⟩
  · rw [setBar, core_modCore_part Core.barQ hk rfl, unqueued_barQ h]
  · rw [setBar_bars hk, unqueued_bars h]

theorem barrierArrivalCount_arrival {s : State} {c n home : Nat} {r : BarReq} {b : Barrier} (h : s.Kept) (hr : (s.core c).barQ[n]? = some r)
    (hl : laneCore s c r.stage r.task = some home) (hb : barBehind (s.core c) r = false) (hbar : b = barAt s home r.bar) (hc : r.cfg = none)
    (hw : arrivalWaits s c r.seq = false) (ha : b.arr ≠ b.cnt) :
    ∃ t, exec (.barrierArrivalCount c n) s = .next t
      ∧ t = { s with cores := t.cores } ∧ (∀ d, d ≠ c → d ≠ home → t.core d = s.core d) ∧ (t.core c).barQ = (s.core c).barQ.eraseIdx n
      ∧ (t.core home).bars = tset (fun _ => Barrier.reset) (s.core home).bars r.bar { b with arr := b.arr + 1 }
      ∧ (∀ e, tget (fun _ => none) (s.core c).arecs r.bar = some e → e.seq = r.seq →
          (t.core c).arecs = tset (fun _ => none) (s.core c).arecs r.bar (some { e with gen := b.gen, counted := true })) := by
  have hk := unqueued_kept (c := c) (n := n) h
  have hk' : (setBar (unqueued s c n) home r.bar { b with arr := b.arr + 1 }).Kept := kept_modCore hk home _
  refine ⟨_, exec_barrierArrivalCount_arrival h hr hl hb hc hw hbar ha, rfl, fun d hd hh => ?_, ?_, ?_, fun e he hs => ?_⟩
  · rw [State.core_modCore_other _ c d _ hd (.inl hk'.cores_twf), setBar, State.core_modCore_other _ home d _ hh (.inl hk.cores_twf), unqueued,
      State.core_modCore_other _ c d _ hd (.inl h.cores_twf)]
  · rw [core_modCore_part Core.barQ hk' rfl, setBar, core_modCore_part Core.barQ hk rfl, unqueued_barQ h]
  · rw [core_modCore_part Core.bars hk' rfl, setBar_bars hk, unqueued_bars h]
  · have hrec : ((setBar (unqueued s c n) home r.bar { b with arr := b.arr + 1 }).core c).arecs = (s.core c).arecs := by
      rw [setBar, core_modCore_part Core.arecs hk rfl, unqueued_arecs h]
    rw [State.core_modCore _ c _ (.inl hk'.cores_twf)]
    simp only [recordCount, hrec, he, hs, if_true]

/-! ## Completions (01 R28; 10 R282, R283) -/

/-- The pointers of one ring where barrier `bar` completes. -/
def RingHome.advance (bar : Nat) (h : RingHome) : RingHome := match h.pair with
  | some (p, q) => ⟨if p = bar then h.pp + 1 else h.pp, if q = bar then h.cp + 1 else h.cp, h.pair⟩
  | none => h

/-- The table of rings with the pointers of index `n` advanced. -/
def advanceRing (bar : Nat) (t : Tab RingHome) (n : Nat) : Tab RingHome :=
  if (tget (fun _ => RingHome.reset) t n).pair = none then t
  else tset (fun _ => RingHome.reset) t n ((tget (fun _ => RingHome.reset) t n).advance bar)

theorem advanceRing_twf {bar : Nat} {t : Tab RingHome} (n : Nat) (h : twf (fun _ => RingHome.reset) t = true) :
    twf (fun _ => RingHome.reset) (advanceRing bar t n) = true := by
  unfold advanceRing
  split
  · exact h
  · exact twf_tset _ _ h

theorem tget_advanceRing {bar : Nat} {t : Tab RingHome} (n i : Nat) (h : twf (fun _ => RingHome.reset) t = true) :
    tget (fun _ => RingHome.reset) (advanceRing bar t n) i =
      if i = n then (tget (fun _ => RingHome.reset) t i).advance bar else tget (fun _ => RingHome.reset) t i := by
  unfold advanceRing
  by_cases hi : i = n
  · subst hi
    rw [if_pos rfl]
    split
    · next hp => rw [RingHome.advance, hp]
    · exact tget_tset _ _ h
  · rw [if_neg hi]
    split
    · rfl
    · exact tget_tset_other _ _ _ hi h

/-- Each ring of the list advances once. -/
theorem tget_advanceRing_foldl {bar : Nat} {l : List Nat} {t : Tab RingHome} (i : Nat) (hl : l.Nodup) (h : twf (fun _ => RingHome.reset) t = true) :
    tget (fun _ => RingHome.reset) (l.foldl (advanceRing bar) t) i =
      if i ∈ l then (tget (fun _ => RingHome.reset) t i).advance bar else tget (fun _ => RingHome.reset) t i := by
  induction l generalizing t with
  | nil => rfl
  | cons n l ih =>
    obtain ⟨hn, hl⟩ := List.nodup_cons.1 hl
    rw [List.foldl_cons, ih hl (advanceRing_twf n h), tget_advanceRing n i h]
    by_cases hi : i = n
    · subst hi; simp [hn]
    · simp [hi]

theorem foldl_ringHome {bar : Nat} {g : Nat → Core → Core} (hg : ∀ n k, g n k = { k with ringHome := advanceRing bar k.ringHome n })
    (l : List Nat) (k : Core) : l.foldl (fun k n => g n k) k = { k with ringHome := l.foldl (advanceRing bar) k.ringHome } := by
  induction l generalizing k with
  | nil => rfl
  | cons n l ih => rw [List.foldl_cons, ih, hg]; rfl

/-- The model's walk over the rings of a home as one change of that core. -/
theorem advanceRings_eq {s : State} (h : s.Kept) (home bar : Nat) : advanceRings home bar s =
    s.modCore home fun k => { k with ringHome := (List.range 16).foldl (advanceRing bar) k.ringHome } := by
  refine (foldl_modCore h home _ _).trans (congrArg (s.modCore home) (funext fun k => foldl_ringHome (fun n k => ?_) _ k))
  dsimp only
  cases hp : (tget (fun _ => RingHome.reset) k.ringHome n).pair with
  | none => rw [advanceRing, if_pos hp]
  | some pq => rw [advanceRing, if_neg (by rw [hp]; exact Option.some_ne_none _), RingHome.advance, hp]

/-- A full barrier begins its next generation, and the rings that name it advance. -/
theorem exec_barrierCompletion_of_full {s : State} {c n : Nat} {b : Barrier} (h : s.Kept) (hbar : b = barAt s c n) (hbd : (s.core c).bound = true)
    (hf : b.cnt ≤ b.arr) : exec (.barrierCompletion c n) s = .next (s.setCore c { s.core c with
      bars := tset (fun _ => Barrier.reset) (s.core c).bars n ⟨b.pendCnt.getD b.cnt, 0, b.gen + 1, none⟩,
      ringHome := (List.range 16).foldl (advanceRing n) (s.core c).ringHome }) := by
  subst hbar
  have hx : exec (.barrierCompletion c n) s = happens s (evBarrierCompletion c n s) := rfl
  rw [hx, evBarrierCompletion]
  dsimp only
  rw [happens_of_cond ⟨hbd, hf⟩, setBar, advanceRings_eq (kept_modCore h c _), State.modCore_modCore s c _ _ h.cores_twf]
  cases (barAt s c n).pendCnt <;> rfl

theorem barrierCompletion_of_full {s : State} {c n : Nat} {b : Barrier} (h : s.Kept) (hbar : b = barAt s c n) (hbd : (s.core c).bound = true)
    (hf : b.cnt ≤ b.arr) : ∃ t, exec (.barrierCompletion c n) s = .next t
      ∧ t = { s with cores := t.cores } ∧ (∀ d, d ≠ c → t.core d = s.core d)
      ∧ t.core c = { s.core c with bars := (t.core c).bars, ringHome := (t.core c).ringHome }
      ∧ (t.core c).bars = tset (fun _ => Barrier.reset) (s.core c).bars n ⟨b.pendCnt.getD b.cnt, 0, b.gen + 1, none⟩
      ∧ (twf (fun _ => RingHome.reset) (s.core c).ringHome = true → ∀ i, tget (fun _ => RingHome.reset) (t.core c).ringHome i =
          if i < 16 then (tget (fun _ => RingHome.reset) (s.core c).ringHome i).advance n
          else tget (fun _ => RingHome.reset) (s.core c).ringHome i) := by
  obtain ⟨rh, hrh⟩ : ∃ rh, rh = (List.range 16).foldl (advanceRing n) (s.core c).ringHome := ⟨_, rfl⟩
  have he := exec_barrierCompletion_of_full h hbar hbd hf
  rw [← hrh] at he
  refine ⟨_, he, rfl, fun d hd => State.core_setCore_other s c d _ hd (.inl h.cores_twf), ?_⟩
  rw [State.core_setCore s c _ (.inl h.cores_twf)]
  refine ⟨rfl, rfl, fun hw i => ?_⟩
  rw [hrh, tget_advanceRing_foldl i List.nodup_range hw]
  simp only [List.mem_range]

/-! ## Tokens (02 R68, R69; 09 R258) -/

@[simp] theorem setTok_mem (s : State) (c t : Nat) : (setTok s c t).mem = s.mem := by unfold setTok; dsimp only; split <;> rfl

/-- A token that is set leaves every core but its own, and of that one all but the tokens and the commands that wait. -/
theorem setTok_cores {s : State} (h : s.Kept) (c t : Nat) : ∃ q, (setTok s c t).cores = (s.setCore c { s.core c with
    tkPending := (s.core c).tkPending &&& ~~~(1#64 <<< t), cpQ := q }).cores := by
  unfold setTok
  dsimp only
  rw [State.modCore_modCore s c _ _ h.cores_twf]
  split <;> exact ⟨_, rfl⟩

theorem tokstComplete_of {s : State} {c n : Nat} {w : TokSt} (h : s.Kept) (hw : (s.core c).toksts[n]? = some w)
    (hs : tokstWaits (s.core c).t w.seq = false) : ∃ t, exec (.tokstComplete c n) s = .next t ∧ TokenSet s t c (some w.tk)
      ∧ (t.core c).toksts = (s.core c).toksts.eraseIdx n ∧ (t.core c).t = (s.core c).t ∧ (t.core c).vs = (s.core c).vs
      ∧ (∀ d, d ≠ c → t.core d = s.core d) ∧ SameMem s t := by
  have hx : exec (.tokstComplete c n) s = happens s (evTokstComplete c n s) := rfl
  have he : exec (.tokstComplete c n) s = .next (setTok (s.modCore c fun m => { m with toksts := m.toksts.eraseIdx n }) c w.tk) := by
    rw [hx, evTokstComplete, hw]
    dsimp only
    rw [hs]
    rfl
  have hc := h.cores_twf
  obtain ⟨q, hq⟩ := setTok_cores (kept_modCore h c fun m => { m with toksts := m.toksts.eraseIdx n }) c w.tk
  rw [State.modCore, State.setCore_setCore s c _ _ hc, State.core_setCore s c _ (.inl hc)] at hq
  have hme := (core_of_cores hq c).trans (State.core_setCore s c _ (.inl hc))
  refine ⟨_, he, ?_, ?_, ?_, ?_, fun d hd => ?_, fun a => ?_⟩
  · rw [TokenSet, State.modCore, hme]
  · rw [State.modCore, hme]
  · rw [State.modCore, hme]
  · rw [State.modCore, hme]
  · exact (core_of_cores hq d).trans (State.core_setCore_other s c d _ hd (.inl hc))
  · rw [setTok_mem]; rfl

/-! ## Counter waits (02 R71; 09 R259) -/

theorem loadAt_spad {s : State} {a n d : Nat} (hd : homeOf s a = some (.spad d)) (hf : flipsAt s a = 0) (hp : isPoison s a = false) :
    loadAt s (.plain a) n = ⟨s, memGetN s.mem a n, false, false⟩ := by
  have hb : bringIn s (.spad d) a 0 = s := by simp [bringIn, hf]
  unfold loadAt
  rw [show homeOf s (Phys.plain a).pa = some (.spad d) from hd]
  show (⟨bringIn s (.spad d) a 0, memGetN (bringIn s (.spad d) a 0).mem a n, isPoison (bringIn s (.spad d) a 0) a, false⟩ : Load) = _
  rw [hb, hp]

/-- A read of a plain sector of HBM4E counts its page where the heat table counts, and may open a row. -/
theorem loadAt_dram {s : State} {a n : Nat} (h : Dram s a n) :
    ∃ ht, loadAt s (.plain a) n = ⟨reachRow { s with heatQ := ht } .hbm a, memGetN s.mem a n, false, false⟩ := by
  obtain ⟨ht, hc⟩ : ∃ ht, countHeat s .hbm a = { s with heatQ := ht } := by
    unfold countHeat; dsimp only; split <;> exact ⟨_, rfl⟩
  have hq : Dram { s with heatQ := ht } a n := h
  obtain ⟨hh, -⟩ := id h
  have e : loadAt s (.plain a) n = loadQuiet (countHeat s .hbm a) (.plain a) n := by
    rw [hc, loadAt, loadQuiet, show homeOf s (Phys.plain a).pa = some .hbm from hh,
      show homeOf { s with heatQ := ht } (Phys.plain a).pa = some .hbm from hh, ← hc]
    rfl
  exact ⟨ht, by rw [e, hc, loadQuiet_dram hq]⟩

/-- A read of a plain sector in a state that differs in cores, cached translations, queued misses and activations: the bytes as they
stand, and no trace but an activation and a page to count. -/
theorem loadAt_counter {s : State} {a n : Nat} (h : Pad s a n ∨ Dram s a n) (cs : Tab Core) (tl : List Xlat) (mq : List (Nat × Nat))
    (ac : Tab Nat) (fr : Nat) : ∃ fr' ac' ht,
    loadAt { s with cores := cs, tlb := tl, missQ := mq, acnt := ac, fresh := fr } (.plain a) n =
      ⟨{ s with cores := cs, tlb := tl, missQ := mq, acnt := ac', heatQ := ht, fresh := fr' }, memGetN s.mem a n, false, false⟩ := by
  rcases h with ⟨⟨d, hd⟩, hf, hp, -⟩ | h
  · exact ⟨fr, ac, s.heatQ, loadAt_spad hd hf hp⟩
  · have hd : Dram { s with cores := cs, tlb := tl, missQ := mq, acnt := ac, fresh := fr } a n := h
    obtain ⟨ht, e⟩ := loadAt_dram hd
    exact ⟨_, _, ht, e⟩

/-- What a translation leaves in the cores: a leaf in the cache of its own. -/
theorem fillX_cores {s : State} (h : s.Kept) (c va : Nat) :
    ∃ l, (fillX s c va).cores = (s.setCore c { s.core c with xlat := l }).cores := by
  have hself : s.cores = (s.setCore c { s.core c with xlat := (s.core c).xlat }).cores :=
    congrArg State.cores (State.setCore_self s c h.cores_twf).symm
  unfold fillX
  split
  · exact ⟨_, hself⟩
  · dsimp only
    split
    · exact ⟨_, (walkLeft_cores ..).trans hself⟩
    · next large e _ =>
      refine ⟨putX coreTlbSize (s.core c).xlat (s.core c).ident.ctx va large e, ?_⟩
      simp only [State.modCore, State.setCore, State.core, walkLeft_cores]

theorem ctrTouch_cores {s : State} (h : s.Kept) (c : Nat) (a : Word) :
    ∃ l, (ctrTouch s c a).cores = (s.setCore c { s.core c with xlat := l }).cores := by
  obtain ⟨l, hl⟩ := fillX_cores h c a.toNat
  refine ⟨l, ?_⟩
  unfold ctrTouch
  dsimp only
  split
  · exact (loadAt_cores ..).trans hl
  · exact hl

/-- The traces of a counter's read whose walk meets plain sectors. -/
theorem ctrTouch_clean {s : State} {c x : Nat} {a : Word} (hw : WalkClean s (s.core c).ident.ctx a.toNat)
    (ht : translateAt s c a.toNat needRead = .ok (.plain x)) (hp : Pad s x 8 ∨ Dram s x 8) :
    ∃ cs tl mq ac hq fr, ctrTouch s c a = { s with cores := cs, tlb := tl, missQ := mq, acnt := ac, heatQ := hq, fresh := fr } := by
  obtain ⟨cs, tl, ac, fr, hf⟩ : ∃ cs tl ac fr, fillX s c a.toNat = { s with cores := cs, tlb := tl, acnt := ac, fresh := fr } :=
    ⟨_, _, _, _, fillX_clean hw⟩
  unfold ctrTouch
  rw [ht, hf]
  obtain ⟨fr', ac', hq, hl⟩ := loadAt_counter hp cs tl (s.missQ.filter fun m => decide (m ≠ (c, (s.core c).t.seq))) ac fr
  exact ⟨cs, tl, _, ac', hq, fr', congrArg Load.s hl⟩

theorem ctrRead_pass {s : State} {c x : Nat} {a thr : Word} (ht : translateAt s c a.toNat needRead = .ok (.plain x))
    (hx : xlatWaitsAt s c false a.toNat = false) (hp : Pad s x 8 ∨ (Dram s x 8 ∧ placeWaits s x false = false))
    (hv : thr.toNat ≤ memGetN s.mem x 8) : ctrRead s c a thr = .pass := by
  have hz : placeWaits s (Phys.plain x).pa false = false := hp.elim (fun h => pad_waits h false) (fun h => h.2)
  obtain ⟨fr, ac, hq, hl⟩ := loadAt_counter (hp.imp_right And.left) s.cores s.tlb s.missQ s.acnt s.fresh
  have hl' : loadAt s (.plain x) 8 = ⟨_, memGetN s.mem x 8, false, false⟩ := hl
  rw [ctrRead, hx, ht]
  simp [hz, hl', hv]

theorem ctrwRelease_of {s : State} {c x : Nat} {a thr : Word} (h : s.Kept) (hk : (s.core c).ctrw = some (a, thr, false))
    (ht : translateAt s c a.toNat needRead = .ok (.plain x)) (hx : xlatWaitsAt s c false a.toNat = false)
    (hp : Pad s x 8 ∨ (Dram s x 8 ∧ placeWaits s x false = false)) (hv : thr.toNat ≤ memGetN s.mem x 8) :
    ∃ t, exec (.ctrwRelease c) s = .next t
      ∧ t.core c = { s.core c with ctrw := some (a, thr, true), xlat := (t.core c).xlat } ∧ (∀ d, d ≠ c → t.core d = s.core d)
      ∧ (WalkClean s (s.core c).ident.ctx a.toNat → SameMem s t
          ∧ t = { s with cores := t.cores, tlb := t.tlb, missQ := t.missQ, acnt := t.acnt, heatQ := t.heatQ, fresh := t.fresh }) := by
  have hc := h.cores_twf
  have he : exec (.ctrwRelease c) s = .next ((ctrTouch s c a).modCore c fun m => { m with ctrw := some (a, thr, true) }) := by
    have hx' : exec (.ctrwRelease c) s = happens s (evCtrwRelease c s) := rfl
    rw [hx', evCtrwRelease, hk]
    exact happens_of_cond (ctrRead_pass ht hx hp hv)
  obtain ⟨l, hl⟩ := ctrTouch_cores h c a
  have hu : twf (fun _ => Core.reset) (ctrTouch s c a).cores = true := by rw [hl]; exact twf_tset _ _ hc
  have hme := (core_of_cores hl c).trans (State.core_setCore s c _ (.inl hc))
  refine ⟨_, he, ?_, fun d hd => ?_, fun hw => ?_⟩
  · rw [State.core_modCore _ c _ (.inl hu), hme]
  · rw [State.core_modCore_other _ c d _ hd (.inl hu)]
    exact (core_of_cores hl d).trans (State.core_setCore_other s c d _ hd (.inl hc))
  · obtain ⟨cs, tl, mq, ac, hq, fr, e⟩ := ctrTouch_clean hw ht (hp.imp_right And.left)
    rw [e]
    exact ⟨fun _ => rfl, rfl⟩

/-- Settles O45, one lemma for each event. -/
theorem synchronisationEvents : Obligations.SynchronisationEvents := by
  unfold Obligations.SynchronisationEvents
  rintro c n s k h rfl
  refine ⟨?_, ?_, ?_, ?_⟩
  · intro r home b hr hl hb hbar
    exact ⟨fun cnt hc => barrierArrivalCount_cfg h hr hl hb hbar hc, fun hc hw ha => barrierArrivalCount_arrival h hr hl hb hbar hc hw ha⟩
  · intro b hbar hbd hf
    obtain ⟨t, he, ho, hd, hc, hbars, hrings⟩ := barrierCompletion_of_full h hbar hbd hf
    refine ⟨t, he, ho, hd, hc, hbars, ?_⟩
    rintro hw i ⟨pp, cp, pair⟩ hi
    rw [hrings hw i, ← hi, RingHome.advance]
    cases pair with
    | none => exact ite_self _
    | some pq => rfl
  · exact fun w hw hs => tokstComplete_of h hw hs
  · exact fun a thr x hk ht hx hp hv => ctrwRelease_of h hk ht hx hp hv

end Sys2Proof.Machine
end
